-- ==== Sys2Proof/Word.lean ====
section
/-! DEFINITION. Word.lean: the bit vectors that cross the part's pins. -/

namespace Sys2Proof

/-- One byte of a frame, a page or a record (10_frame_and_record_layouts.md, R188). -/
abbrev Byte := BitVec 8

/-- One 24-bit two's-complement sample of a microphone channel (R155). -/
abbrev Sample := BitVec 24

/-- A 24-bit RGB value (R153, Table 10-1): red in bits 23..16, blue in bits 7..0. -/
abbrev Colour := BitVec 24

/-- The coverage of one pixel of a glyph, 0 to 3 (R147). -/
abbrev Coverage := BitVec 2

end Sys2Proof
end

