-- ==== Sys2Proof/Config.lean ====
section
/-! DEFINITION. Config.lean: the capacities of the part (R184 and the tables of the chapters) and the
free values, which the data book leaves open. A free value is a constant with no body: no proof can see what it is. -/

namespace Sys2Proof.Config

/-- R1: live entries of the book. -/
abbrev bookCapacity : Nat := 64
/-- R40: slots of the handset table. -/
abbrev slotCount : Nat := 16
/-- R50: items of a struck list. -/
abbrev struckCapacity : Nat := 8
/-- R93: blocks of a die. -/
abbrev blocksPerDie : Nat := 2048
/-- R93: pages of a block. -/
abbrev pagesPerBlock : Nat := 64
/-- R93: data bytes of a page. -/
abbrev pageBytes : Nat := 2048
/-- R93: spare bytes of a page. -/
abbrev spareBytes : Nat := 64
/-- R118: records of the line queue. -/
abbrev lineCapacity : Nat := 16
/-- R118: records of the note queue. -/
abbrev noteCapacity : Nat := 96
/-- R118: records of the beat queue. -/
abbrev beatCapacity : Nat := 8
/-- R155: audio frames of an analysis window. -/
abbrev windowFrames : Nat := 480
/-- R174: bytes of the longest command frame. -/
abbrev frameLimit : Nat := 2112
/-- R128: audio frames in one millisecond, the model's unit of time (assumption 2). -/
abbrev ticksPerMs : Nat := 48
/-- R111: steps of song time in one millisecond. -/
abbrev stepsPerMs : Nat := 1200
/-- R99: the die timeout in milliseconds. -/
abbrev dieTimeoutMs : Nat := 20

/-- A frequency in hertz as the quotient of two natural numbers (R156: one cent or finer). -/
structure Pitch where
  num : Nat
  den : Nat
deriving DecidableEq, Repr

/-- FREE VALUE (assumption 14): the fundamental the part's own analysis finds in the 480 samples of one
channel's window, oldest first, or none. R156: "The method of estimation is not specified in this data book". The
bound 80 to 1100 Hz and the UNVOICED rule are applied by the model, in `Machine.pitchEstimate`. -/
opaque fundamental : List Sample → Option Pitch

/-- FREE VALUE (assumption 15): whether a remaining time of this many ticks that is no whole number of milliseconds is reported
rounded up. R134 and R153 report the time remaining in milliseconds and do not say how it is rounded. -/
opaque timerRoundsUp : Nat → Bool

/-- FREE VALUE (assumption 16): whether a blended channel, given in thirds and no whole number, is rounded up. R139 gives the
blend c/3 and (3 - c)/3 and no rounding. -/
opaque blendRoundsUp : Nat → Bool

/-- FREE VALUE (assumption 17): whether a dot is drawn on the pixel at this column and line of its 16 by 16 square, asked of a pixel that
the edge of the disc crosses. R151 gives the disc and not what becomes of the pixels that lie partly inside it. -/
opaque dotEdgeCovers : Nat → Nat → Bool

/-- FREE VALUE (assumption 13): byte i, from 0 to 12, of the ECC of a sector of 512 bytes. R95, R97 and R191 give its place and what
it finds, not its code. -/
opaque eccByte : List Byte → Nat → Byte

end Sys2Proof.Config
end

