-- ==== Sys2Proof/Syntax.lean ====
section
/-! DEFINITION. Syntax.lean: the commands of the part, one constructor for each row of spec/opcode_table.json, with
what each event carries across the pins. A host command carries its tag and its parameter bytes as they stand
between the tag and the CRC-16 of its frame (R189), so every form check is made by the model. -/

namespace Sys2Proof

/-- R27: one character received on the handset line: eight data bits, the parity bit as received, and the level at which
the stop bit was sampled (true: mark). -/
structure RxChar where
  data : Byte
  parity : Bool
  stop : Bool
deriving DecidableEq, Repr

/-- R155: the 64 bits of one audio frame on each data line, the first bit clocked in bit 63. -/
structure AudioFrame where
  sd0 : BitVec 64
  sd1 : BitVec 64
deriving DecidableEq, Repr

/-- R95: what the ECC check finds in one 512-byte sector: an erased sector with that many bits read as 0 (0 to 8), or a
sector with that many bit errors and its data as corrected (assumption 13). -/
inductive SectorRead where
  | erased (zeros : Nat)
  | coded (errors : Nat) (data : List Byte)
deriving DecidableEq, Repr

/-- R95: one page read as the controller receives it: its four sectors and byte 0 of the spare (R191). -/
structure PageRead where
  sector0 : SectorRead
  sector1 : SectorRead
  sector2 : SectorRead
  sector3 : SectorRead
  marker : Byte
deriving DecidableEq, Repr

/-- R94: the geometry a die reports at identification, to be held against Table 5-1. -/
structure Geometry where
  blocks : Nat
  pages : Nat
  dataBytes : Nat
  spareBytes : Nat
deriving DecidableEq, Repr

/-- R94: what a die reports in its identification: that it is ready after its reset, or the geometry its identity read returns. -/
inductive IdentReport where
  | ready
  | geometry (g : Geometry)
deriving DecidableEq, Repr

/-- R137: what was measured of the input frame that a frame start ends: runs of active lines as (lines, active pixels of each),
and its length in cycles of the 27 MHz reference clock. -/
structure InputFrame where
  runs : List (Nat × Nat)
  cycles : Nat
deriving DecidableEq, Repr

/-- The commands: one constructor for each row of the table. -/
inductive Instr where
  /-- PIN_RESET (R110): `selLow` is the level of SEL_N when the reset ends, true when it is low (R173). -/
  | pinReset (selLow : Bool)
  /-- IGNORED_SELECT (R173): the direction byte, or none for fewer than eight bits. -/
  | ignoredSelect (direction : Option Byte)
  /-- BAD_FRAME (R174): the bytes of a WRITE select after its direction byte. -/
  | badFrame (frame : List Byte)
  /-- UNKNOWN_COMMAND (R174): the bytes of a WRITE select after its direction byte. -/
  | unknownCommand (frame : List Byte)
  /-- COLLISION (R177): the bytes of a WRITE select after its direction byte. -/
  | collision (frame : List Byte)
  /-- READ_SELECT (R175): how many bytes the host clocks out after the direction byte. -/
  | readSelect (bytesOut : Nat)
  | addRequest (tag : Byte) (params : List Byte)
  | cancelRequest (tag : Byte) (params : List Byte)
  | editRequest (tag : Byte) (params : List Byte)
  | placeRequest (tag : Byte) (params : List Byte)
  | readBook (tag : Byte) (params : List Byte)
  | holdBook (tag : Byte) (params : List Byte)
  | lineStatus (tag : Byte) (params : List Byte)
  | handsetTable (tag : Byte) (params : List Byte)
  | openClaims (tag : Byte) (params : List Byte)
  | barHandset (tag : Byte) (params : List Byte)
  | releaseHandset (tag : Byte) (params : List Byte)
  | mount (tag : Byte) (params : List Byte)
  | lookUpSong (tag : Byte) (params : List Byte)
  | listSongs (tag : Byte) (params : List Byte)
  | installBegin (tag : Byte) (params : List Byte)
  | installPage (tag : Byte) (params : List Byte)
  | installClose (tag : Byte) (params : List Byte)
  | installAbandon (tag : Byte) (params : List Byte)
  | withdrawSong (tag : Byte) (params : List Byte)
  | libraryStatus (tag : Byte) (params : List Byte)
  | playStatus (tag : Byte) (params : List Byte)
  | start (tag : Byte) (params : List Byte)
  | skip (tag : Byte) (params : List Byte)
  | extendHold (tag : Byte) (params : List Byte)
  | pause (tag : Byte) (params : List Byte)
  | resume (tag : Byte) (params : List Byte)
  | nudge (tag : Byte) (params : List Byte)
  | nextNow (tag : Byte) (params : List Byte)
  | loadGlyphs (tag : Byte) (params : List Byte)
  | displaySettings (tag : Byte) (params : List Byte)
  | bindMic (tag : Byte) (params : List Byte)
  | scoreReport (tag : Byte) (params : List Byte)
  | identify (tag : Byte) (params : List Byte)
  | readAttention (tag : Byte) (params : List Byte)
  | setAttentionMask (tag : Byte) (params : List Byte)
  | configure (tag : Byte) (params : List Byte)
  | clearRoom (tag : Byte) (params : List Byte)
  /-- POLL_SENT (R34). -/
  | pollSent
  /-- RECEIVED_CHARACTER (R27, R34). -/
  | receivedCharacter (c : RxChar)
  /-- REPLY_EXPIRY (R34, R37, R33). -/
  | replyExpiry
  /-- INVALID_ANSWER (R35): the characters of the frame. -/
  | invalidAnswer (chars : List RxChar)
  /-- ANSWER (R35): the address and body of an ANSWER that carries no message of Table 3-2. -/
  | answer (address : Byte) (body : List Byte)
  /-- ASK (R58): the address of the ANSWER and the bytes after the message kind (R190). -/
  | ask (address : Byte) (fields : List Byte)
  | find (address : Byte) (fields : List Byte)
  | mine (address : Byte) (fields : List Byte)
  | drop (address : Byte) (fields : List Byte)
  | key (address : Byte) (fields : List Byte)
  | join (address : Byte) (fields : List Byte)
  | leave (address : Byte) (fields : List Byte)
  /-- LATE_ANSWER (R34): the characters of the frame. -/
  | lateAnswer (chars : List RxChar)
  /-- STRAY_FRAME (R32): the characters of the frame. -/
  | strayFrame (chars : List RxChar)
  /-- OPEN_SENT (R37). -/
  | openSent
  /-- CLAIM (R38, R39): the serial claimed, sent three times in the body. -/
  | claim (serial : List Byte)
  /-- BAD_CLAIM (R38): the characters of the frame. -/
  | badClaim (chars : List RxChar)
  /-- GRANT_SENT (R37). -/
  | grantSent
  /-- BREAK (R30). -/
  | lineBreak
  /-- BREAK_END (R31). -/
  | breakEnd
  /-- HOLD_EXPIRY (R125). -/
  | holdExpiry
  /-- GAP_EXPIRY (R132). -/
  | gapExpiry
  /-- AUDIO_FRAME (R128, R155). -/
  | audioFrame (frame : AudioFrame)
  /-- WINDOW_END (R156): the audio frame that carries the window's 480th sample. -/
  | windowEnd (frame : AudioFrame)
  /-- STREAM_FETCH_COMPLETE (R119, R122). -/
  | streamFetchComplete (die : Fin 2) (read : PageRead)
  /-- LOOKUP_READ_COMPLETE (R76). -/
  | lookupReadComplete (die : Fin 2) (read : PageRead)
  /-- MOUNT_SCAN_READ_COMPLETE (R72). -/
  | mountScanReadComplete (die : Fin 2) (read : PageRead)
  /-- IDENTIFICATION (R94): the geometry the die reports. -/
  | identification (die : Fin 2) (report : IdentReport)
  /-- INSTALL_PROGRAM_COMPLETE (R82): PASS or FAIL of the install's erase or program. -/
  | installProgramComplete (die : Fin 2) (pass : Bool)
  /-- WITHDRAW_ERASE_COMPLETE (R90). -/
  | withdrawEraseComplete (die : Fin 2) (pass : Bool)
  /-- RECLAIM_ERASE_COMPLETE (R106). -/
  | reclaimEraseComplete (die : Fin 2) (pass : Bool)
  /-- DIE_WATCH_EXPIRY (R99). -/
  | dieWatchExpiry (die : Fin 2)
  /-- LIBWP_N_CHANGE (R103): the new level, true for high. -/
  | libwpChange (high : Bool)
  /-- INPUT_FRAME_START (R137): what was measured of the frame it ends. -/
  | inputFrameStart (ended : InputFrame)
  /-- INTERNAL_FRAME_START (R139). -/
  | internalFrameStart
  /-- VIDEO_WATCH_EXPIRY (R137). -/
  | videoWatchExpiry
  /-- CARD_EXPIRY (R152). -/
  | cardExpiry
deriving DecidableEq, Repr

end Sys2Proof
end

