-- ==== Sys2Proof/WellFormed.lean ====
section
/-! DEFINITION. WellFormed.lean: the commands that can cross the pins. The machine is total: it gives a meaning to every
term, and these checks name the terms an honest sender sends. -/

namespace Sys2Proof

/-- R174, R189: the parameter bytes of the longest frame, 2112 bytes less length, code, tag and CRC-16. -/
def paramsFit (params : List Byte) : Bool := params.length ≤ 2106

/-- R32: a frame holds 1 to 47 characters when it ends. -/
def charsFit (chars : List RxChar) : Bool := 1 ≤ chars.length && chars.length ≤ 47

/-- R190: an ANSWER comes from a slot address 1 to 16. -/
def slotAddress (address : Byte) : Bool := 1 ≤ address.toNat && address.toNat ≤ 16

/-- R190: a message kind byte and its fields make a body of at most 40 bytes. -/
def fieldsFit (fields : List Byte) : Bool := fields.length ≤ 39

/-- R190: the body of an ANSWER row: empty, or of a kind that is none of the seven messages. -/
def answerBody (body : List Byte) : Bool :=
  body.length ≤ 40 &&
    match body with
    | [] => true
    | k :: _ => k.toNat == 0 || 7 < k.toNat

/-- R95: a sector read holds 512 bytes, and an erased sector has at most 8 bits read as 0. -/
def SectorRead.wellFormed : SectorRead → Bool
  | .erased zeros => zeros ≤ 8
  | .coded _ data => data.length == 512

/-- R95: a page read has four good sector reads. -/
def PageRead.wellFormed (r : PageRead) : Bool :=
  r.sector0.wellFormed && r.sector1.wellFormed && r.sector2.wellFormed && r.sector3.wellFormed

/-- Whether the term is one of the events its row names. -/
def Instr.wellFormed : Instr → Bool
  | .pinReset _ => true
  | .ignoredSelect direction => direction != some 0x3C#8 && direction != some 0xC3#8
  | .badFrame _ => true
  | .unknownCommand frame => 6 ≤ frame.length && frame.length ≤ 2112
  | .collision _ => true
  | .readSelect _ => true
  | .addRequest _ p => paramsFit p
  | .cancelRequest _ p => paramsFit p
  | .editRequest _ p => paramsFit p
  | .placeRequest _ p => paramsFit p
  | .readBook _ p => paramsFit p
  | .holdBook _ p => paramsFit p
  | .lineStatus _ p => paramsFit p
  | .handsetTable _ p => paramsFit p
  | .openClaims _ p => paramsFit p
  | .barHandset _ p => paramsFit p
  | .releaseHandset _ p => paramsFit p
  | .mount _ p => paramsFit p
  | .lookUpSong _ p => paramsFit p
  | .listSongs _ p => paramsFit p
  | .installBegin _ p => paramsFit p
  | .installPage _ p => paramsFit p
  | .installClose _ p => paramsFit p
  | .installAbandon _ p => paramsFit p
  | .withdrawSong _ p => paramsFit p
  | .libraryStatus _ p => paramsFit p
  | .playStatus _ p => paramsFit p
  | .start _ p => paramsFit p
  | .skip _ p => paramsFit p
  | .extendHold _ p => paramsFit p
  | .pause _ p => paramsFit p
  | .resume _ p => paramsFit p
  | .nudge _ p => paramsFit p
  | .nextNow _ p => paramsFit p
  | .loadGlyphs _ p => paramsFit p
  | .displaySettings _ p => paramsFit p
  | .bindMic _ p => paramsFit p
  | .scoreReport _ p => paramsFit p
  | .identify _ p => paramsFit p
  | .readAttention _ p => paramsFit p
  | .setAttentionMask _ p => paramsFit p
  | .configure _ p => paramsFit p
  | .clearRoom _ p => paramsFit p
  | .pollSent => true
  | .receivedCharacter _ => true
  | .replyExpiry => true
  | .invalidAnswer chars => charsFit chars
  | .answer a b => slotAddress a && answerBody b
  | .ask a f => slotAddress a && fieldsFit f
  | .find a f => slotAddress a && fieldsFit f
  | .mine a f => slotAddress a && fieldsFit f
  | .drop a f => slotAddress a && fieldsFit f
  | .key a f => slotAddress a && fieldsFit f
  | .join a f => slotAddress a && fieldsFit f
  | .leave a f => slotAddress a && fieldsFit f
  | .lateAnswer chars => charsFit chars
  | .strayFrame chars => charsFit chars
  | .openSent => true
  | .claim serial => serial.length == 6
  | .badClaim chars => charsFit chars
  | .grantSent => true
  | .lineBreak => true
  | .breakEnd => true
  | .holdExpiry => true
  | .gapExpiry => true
  | .audioFrame _ => true
  | .windowEnd _ => true
  | .streamFetchComplete _ r => r.wellFormed
  | .lookupReadComplete _ r => r.wellFormed
  | .mountScanReadComplete _ r => r.wellFormed
  | .identification _ _ => true
  | .installProgramComplete _ _ => true
  | .withdrawEraseComplete _ _ => true
  | .reclaimEraseComplete _ _ => true
  | .dieWatchExpiry _ => true
  | .libwpChange _ => true
  | .inputFrameStart _ => true
  | .internalFrameStart => true
  | .videoWatchExpiry => true
  | .cardExpiry => true

end Sys2Proof
end

