-- ==== Sys2Proof/Decode.lean ====
section
/-! DEFINITION. Decode.lean: the part is a block whose commands have no bits in spec/opcode_table.json, so no word spells one. -/

namespace Sys2Proof

/-- No row of the table gives bits: no word spells a command. -/
def decodeTableWord (_nbits _w : Nat) : Option Instr := none

end Sys2Proof
end

