-- ==== Sys2Proof/Machine/State.lean ====
section
/-! DEFINITION. Machine/State.lean: the state of the PH7260 as the chapters give it, block by block, the queue of waiting commands,
and the state right after pin reset. Everything is plain data. -/

namespace Sys2Proof.Machine

/-! ## Vocabulary -/

/-- Table 9-2: the causes, in the order that numbers them (R188). -/
inductive Cause where
  | badForm | notMounted | noSuchSong | notReady | offline | bookFull | quota | duplicate
  | noSuchTicket | notYours | tooLate | seatsFull | inUse | pending | protectedLow | noSpace
  | order | noInstall | limit | busy | notCued | notPlaying | badFrame | unknownCommand
deriving DecidableEq, Repr

/-- A running timer holds the time remaining in ticks of 1/48 ms, one audio frame each (assumption 2); none is stopped
(R113). -/
abbrev Timer := Option Nat

/-- R167: a non-negative exact sum, `num / den` with `den` above 0. -/
structure Frac where
  num : Nat
  den : Nat
deriving DecidableEq, Repr

/-! ## Chapter 9: the Command Port and the Attention Unit -/

/-- Table 9-1. -/
inductive PortState where
  | idle | executing | answerReady
deriving DecidableEq, Repr

/-- R178: the outcomes of an answer, NONE for the empty frame (R175). -/
inductive Outcome where
  | none | ok | accepted | wait | refused
deriving DecidableEq, Repr

/-- R178, Table 10-3: an answer frame, less its port flags and CRC-16, which are formed as it is sent (R175). -/
structure Answer where
  tag : Byte
  outcome : Outcome
  data : List Byte
deriving DecidableEq, Repr

/-- R77: the LOOK UP SONG command in hand while the port is EXECUTING. -/
structure LookupCommand where
  tag : Byte
  song : Nat
deriving DecidableEq, Repr

/-- The Command Port (09 introduction). -/
structure Port where
  state : PortState
  answer : Option Answer
  collision : Bool
  lookup : Option LookupCommand
  ignoreSelect : Bool
  sdo : List Byte
deriving DecidableEq, Repr

/-- Table 9-4: the sources in priority order. -/
inductive Source where
  | library | line | play | score | book | handset | video
deriving DecidableEq, Repr

/-- One flag for each source of Table 9-4. -/
structure SourceSet where
  library : Bool
  line : Bool
  play : Bool
  score : Bool
  book : Bool
  handset : Bool
  video : Bool
deriving DecidableEq, Repr

/-- R179, R180: the pending flags, and the mask as the set of UNMASKED sources. -/
structure Attention where
  pending : SourceSet
  unmasked : SourceSet
deriving DecidableEq, Repr

/-! ## Room settings -/

/-- R5: the order mode. -/
inductive OrderMode where
  | rotation | arrival
deriving DecidableEq, Repr

/-- Table 6-2: the hold action. -/
inductive HoldAction where
  | start | skip
deriving DecidableEq, Repr

/-- R136, R189: the four video formats in the order that numbers them. -/
inductive VideoFormat where
  | hd50 | hd60 | full50 | full60
deriving DecidableEq, Repr

/-- Table 9-5 and open-claims (R46). -/
structure Settings where
  orderMode : OrderMode
  quota : Nat
  divisor : Nat
  replyWindow : Nat
  missLimit : Nat
  lineEnable : Bool
  openClaims : Bool
  holdTime : Nat
  holdAction : HoldAction
  autoStart : Bool
  gapTime : Nat
  videoFormat : VideoFormat
  voiceThreshold : Int
  octaveTolerance : Bool
deriving DecidableEq, Repr

/-- One colour for each part A to D. -/
structure PartColours where
  a : Colour
  b : Colour
  c : Colour
  d : Colour
deriving DecidableEq, Repr

/-- Table 7-1. -/
structure Display where
  unwiped : PartColours
  wiped : PartColours
  togetherUnwiped : Colour
  togetherWiped : Colour
  outline : Colour
  lostBackground : Colour
  upperBaseline : Nat
  lowerBaseline : Nat
  safeWidth : Nat
  spaceWidth : Nat
  lead : Nat
  clearDelay : Nat
  cardTime : Nat
deriving DecidableEq, Repr

/-! ## Chapter 1: the Request Book -/

/-- Table 1-1: where a request came from. -/
inductive Origin where
  | desk
  | slot (number : Nat)
deriving DecidableEq, Repr

/-- Table 1-1: the states of a request entry. -/
inductive EntryState where
  | waiting | cued | playing
deriving DecidableEq, Repr

/-- Table 1-1: a request entry. -/
structure Entry where
  ticket : Nat
  song : Nat
  origin : Origin
  round : Nat
  singers : Nat
  seats : List (Option Nat)
  key : Int
  tempo : Int
  state : EntryState
deriving DecidableEq, Repr

/-- Table 1-4: the strike reasons in the order that numbers them. -/
inductive StrikeReason where
  | cancelled | withdrawn | damaged | skipped | left | barred | cleared
deriving DecidableEq, Repr

/-- R17: the last-strike record. -/
structure LastStrike where
  ticket : Nat
  song : Nat
  origin : Origin
  reason : StrikeReason
deriving DecidableEq, Repr

/-- The Request Book (01 introduction). -/
structure Book where
  entries : List Entry
  counter : Nat
  hold : Bool
  lastStrike : Option LastStrike
  strikeCount : Nat
deriving DecidableEq, Repr

/-! ## Chapters 2 and 3: the handset line, the handset table and the Notice Store -/

/-- R40: the states of a slot. -/
inductive SlotState where
  | free | active | silent | barred
deriving DecidableEq, Repr

/-- Table 2-2: a slot record. -/
structure Slot where
  state : SlotState
  serial : Option (List Byte)
  misses : Nat
  parity : Nat
  framing : Nat
  check : Nat
  overlaps : Nat
  live : Nat
deriving DecidableEq, Repr

/-- The catalog states (R67), which replies and answers report. -/
inductive CatState where
  | ready | withdrawing | offline
deriving DecidableEq, Repr

/-- R190: one entry of TICKETS or POSITION. -/
structure TicketLine where
  ticket : Nat
  position : Nat
  state : EntryState
deriving DecidableEq, Repr

/-- R59, R190: the fields of SONG INFO; an absent tag is empty. -/
structure SongInfo where
  song : Nat
  edition : Nat
  state : CatState
  duration : Nat
  parts : Nat
  weak : Bool
  damaged : Bool
  title : List Byte
  artist : List Byte
deriving DecidableEq, Repr

/-- Table 3-2: the replies. A refusal carries the kind byte of the message it answers and the cause. -/
inductive Reply where
  | refused (kind : Byte) (cause : Cause)
  | taken (ticket position : Nat)
  | songInfo (info : SongInfo)
  | tickets (entries : List TicketLine)
  | dropped (ticket : Nat)
  | keyed (ticket : Nat) (key : Int)
  | seated (ticket seat : Nat)
deriving DecidableEq, Repr

/-- R49: the reply slot. The read a PENDING slot is bound to is the one lookup read whose requester names the slot. -/
inductive ReplySlot where
  | empty
  | waiting
  | held (reply : Reply)
deriving DecidableEq, Repr

/-- R50: a STRUCK item. -/
structure StruckItem where
  ticket : Nat
  reason : StrikeReason
deriving DecidableEq, Repr

/-- R52: a score notice. -/
structure ScoreNotice where
  ticket : Nat
  seat : Nat
  score : Nat
deriving DecidableEq, Repr

/-- R53: the POSITION flag. -/
inductive PositionFlag where
  | clear | set | sent
deriving DecidableEq, Repr

/-- Table 3-1: one slot's store. -/
structure Store where
  reply : ReplySlot
  struck : List StruckItem
  cued : Option Nat
  score : Option ScoreNotice
  position : PositionFlag
deriving DecidableEq, Repr

/-- R28: the line states. -/
inductive LineState where
  | off | running | broken
deriving DecidableEq, Repr

/-- R54, R55: what the POLL of the turn in progress carries. `present` is false once the struck list has
dropped the item the POLL carries (R55). -/
inductive Carried where
  | reply
  | struck (present : Bool)
  | cued (ticket : Nat)
  | score (notice : ScoreNotice)
  | position
deriving DecidableEq, Repr

/-- R42: the current turn. -/
inductive Turn where
  | none
  | poll (slot : Nat) (carried : Option Carried)
  | claimWindow
  | idleInterval
deriving DecidableEq, Repr

/-- R190: the kinds of frame the part sends. -/
inductive TxKind where
  | poll | openWindow | grant
deriving DecidableEq, Repr

/-- Table 10-4: a frame of the part, less its start byte, length and CRC-16. -/
structure TxFrame where
  kind : TxKind
  address : Nat
  body : List Byte
deriving DecidableEq, Repr

/-- R32, R34, R36: how the frame being received will be judged at its end: by the turn, window or interval then in progress, as a late
answer by when it began (R34), or as a stray frame since the turn it arrived in was abandoned (R32, R36, R37). -/
inductive RxClass where
  | byTurn | late | stray
deriving DecidableEq, Repr

/-- The Handset Line Controller, less the handset table (02 introduction). `tx` is the frame that is going out, or that waits for the
frame being received to end (R32); `txNext` the frame that is due behind one that is going out. -/
structure Line where
  state : LineState
  round : Nat
  turn : Turn
  reply : Timer
  lastServed : Nat
  tx : Option TxFrame
  txNext : Option TxFrame
  rx : List RxChar
  rxClass : RxClass
  afterMiss : Bool
  divisorNow : Nat
  strays : Nat
  lates : Nat
  badClaims : Nat
  breaks : Nat
deriving DecidableEq, Repr

/-! ## Chapters 4 and 5: the Song Catalog and the Library Store -/

/-- R66: where one edition of a song lies and what staging needs of it. -/
structure SongBlock where
  edition : Nat
  die : Nat
  block : Nat
  pages : Nat
  duration : Nat
  parts : Nat
deriving DecidableEq, Repr

/-- Table 4-1: a catalog entry. -/
structure CatEntry where
  song : Nat
  current : SongBlock
  state : CatState
  weak : Bool
  damaged : Bool
  pins : Nat
  successor : Option SongBlock
deriving DecidableEq, Repr

/-- R82: the operations of an install. -/
inductive InstallOp where
  | erase
  | program (page : Nat)
deriving DecidableEq, Repr

/-- R79: the install record when it is not NONE. `buffered` holds the bytes of the pages taken whose program has not
completed PASS, oldest first. -/
structure Install where
  closing : Bool
  song : Nat
  target : SongBlock
  title : List Byte
  artist : List Byte
  glyphs : List Nat
  nextPage : Nat
  buffered : List (List Byte)
  replacement : Bool
  inFlight : Option InstallOp
deriving DecidableEq, Repr

/-- R70, R110: the library state. -/
inductive LibState where
  | unmounted | mounting | mounted | failed
deriving DecidableEq, Repr

/-- Table 5-2. -/
inductive DieState where
  | unidentified | absent | idle | busy | faulted
deriving DecidableEq, Repr

/-- R104, Table 5-7: the states of a block. -/
inductive BlockState where
  | free | song | filling | reclaim | bad
deriving DecidableEq, Repr

/-- Table 5-4: who made a request, and so its class: a stream fetch, a lookup read for a handset slot or for the command
port, a mount scan read, an install operation, a withdraw erase or a reclaim erase. -/
inductive Requester where
  | stream
  | lookupSlot (slot song : Nat)
  | lookupPort
  | scan
  | install (op : InstallOp)
  | withdraw (song : Nat)
  | reclaim
deriving DecidableEq, Repr

/-- R100: a request. Its arrival is its place in the list. `data` holds the bytes a program writes; `givenUp` says that the
requester has given up the operation in progress (R102). -/
structure Request where
  requester : Requester
  block : Nat
  page : Nat
  data : List Byte
  givenUp : Bool
deriving DecidableEq, Repr

/-- R72: the fields of a valid song header that the mount keeps. -/
structure HeaderFields where
  song : Nat
  edition : Nat
  pages : Nat
  duration : Nat
  parts : Nat
deriving DecidableEq, Repr

/-- Table 4-3: the judgement of one block. -/
inductive Judgement where
  | bad
  | free
  | candidate (header : HeaderFields)
  | reclaim
deriving DecidableEq, Repr

/-- R72: where a die's mount scan stands: not begun or ended, waiting for page 0 of a block, or for the closing page of a block
whose header was valid. -/
inductive ScanPoint where
  | notScanning
  | header (block : Nat)
  | closing (block : Nat) (header : HeaderFields)
  | done
deriving DecidableEq, Repr

/-- R94: the steps of a die's identification, each with a die watch of its own: the reset and the identity read. -/
inductive IdentStep where
  | reset | identityRead
deriving DecidableEq, Repr

/-- R93, R94, R99, R100, R104: one die position; `identifying` is the step of its identification in progress. -/
structure Die where
  state : DieState
  identifying : Option IdentStep
  watch : Timer
  op : Option Request
  waiting : List Request
  map : Option (List BlockState)
  scan : ScanPoint
  judged : List Judgement
deriving DecidableEq, Repr

/-- 04 introduction: the kinds of library operation, in the order that numbers them. -/
inductive OperationKind where
  | mount | install | withdraw
deriving DecidableEq, Repr

/-- 04 introduction: how an operation ended. -/
inductive OperationEnd where
  | done | abandoned | failedProgram | failedErase | failedDie
deriving DecidableEq, Repr

/-- 04 introduction: the last-operation outcome. -/
structure LastOperation where
  kind : OperationKind
  song : Option Nat
  ending : OperationEnd
deriving DecidableEq, Repr

/-- R108: the fault kinds. -/
inductive FaultKind where
  | read | program | erase | die
deriving DecidableEq, Repr

/-- R108: the last fault. -/
structure LastFault where
  kind : FaultKind
  die : Nat
  block : Nat
deriving DecidableEq, Repr

/-- The Library Store Controller (05 introduction). -/
structure Library where
  state : LibState
  die0 : Die
  die1 : Die
  reclaim : List (Nat × Nat)
  programMark : Nat
  libwp : Bool
  lastOperation : Option LastOperation
  lastFault : Option LastFault
  faultCount : Nat
deriving DecidableEq, Repr

/-! ## Chapter 6: the play context and the Stream Reader -/

/-- R111: the states of the play context. -/
inductive PlayState where
  | idle | gap | staging | holding | running | paused
deriving DecidableEq, Repr

/-- R111: the song the play context holds. -/
structure HeldSong where
  song : Nat
  blk : SongBlock
deriving DecidableEq, Repr

/-- R131: the end kinds, in the order that numbers them. -/
inductive EndKind where
  | ended | skipped | damaged
deriving DecidableEq, Repr

/-- Table 6-1: how the last entry of the play context went. -/
inductive PlayEnd where
  | ended (kind : EndKind)
  | struck (reason : StrikeReason)
  | cleared
deriving DecidableEq, Repr

/-- Table 6-1: the last outcome. -/
structure PlayOutcome where
  ticket : Nat
  song : Nat
  ending : PlayEnd
deriving DecidableEq, Repr

/-- Table 6-1: the play context record. -/
structure Play where
  state : PlayState
  entry : Option Nat
  song : Option HeldSong
  time : Nat
  tempo : Int
  key : Int
  cueHold : Nat
  startPending : Bool
  hold : Timer
  gap : Timer
  lateLines : Nat
  unknownWindows : Nat
  damagedPages : Nat
  skippedRecords : Nat
  firstUnderrun : Bool
  lastOutcome : Option PlayOutcome
deriving DecidableEq, Repr

/-- R116: the states of the Stream Reader. -/
inductive ReaderState where
  | idle | fetching | stalled | finished
deriving DecidableEq, Repr

/-- R116: a page buffer; a DECODING buffer holds the offset of the next record. -/
inductive Buffer where
  | empty
  | requested (page : Nat)
  | full (page : Nat) (data : List Byte)
  | decoding (page : Nat) (data : List Byte) (offset : Nat)
deriving DecidableEq, Repr

/-- R192: a syllable of a LINE. -/
structure Syllable where
  glyphs : Nat
  start : Nat
  stop : Nat
deriving DecidableEq, Repr

/-- R192: a LINE record. -/
structure LineRecord where
  mask : Nat
  codes : List Nat
  syllables : List Syllable
deriving DecidableEq, Repr

/-- R192: a stream record; parts A to D are 0 to 3. -/
inductive Record where
  | line (line : LineRecord)
  | note (part number start stop : Nat)
  | beat (time : Nat)
deriving DecidableEq, Repr

/-- R118, R140: a LINE in the queue, its ordinal, and whether it has been given a row. -/
structure QueuedLine where
  line : LineRecord
  ordinal : Nat
  given : Bool
deriving DecidableEq, Repr

/-- R166: the onset result. -/
inductive Onset where
  | notJudged | early | late
deriving DecidableEq, Repr

/-- R163: a seat's tally on a NOTE. -/
structure Tally where
  hit : Nat
  near : Nat
  miss : Nat
  silent : Nat
  onset : Onset
deriving DecidableEq, Repr

/-- R163: a NOTE in the queue. -/
structure QueuedNote where
  part : Nat
  number : Nat
  start : Nat
  stop : Nat
  key : Option Int
  tallies : List Tally
deriving DecidableEq, Repr

/-- R116, R117, R118, R120: the Stream Reader. -/
structure Reader where
  state : ReaderState
  buf0 : Buffer
  buf1 : Buffer
  nextFetch : Nat
  held : Option Record
  lastKey : Option Nat
  lastStarts : List (Option Nat)
  keyReached : Bool
  lines : List QueuedLine
  notes : List QueuedNote
  beats : List Nat
  ordinals : Nat
deriving DecidableEq, Repr

/-! ## Chapter 7: the Lyric Compositor -/

/-- R136: the video path states. -/
inductive VideoPath where
  | pass | lost
deriving DecidableEq, Repr

/-- R140: the row states. -/
inductive RowState where
  | empty | shown | wiping | held
deriving DecidableEq, Repr

/-- R140: a row record; `line` is the ordinal of its line, `free` its free time in milliseconds. -/
structure Row where
  state : RowState
  line : Option Nat
  free : Nat
deriving DecidableEq, Repr

/-- R149: the content of the title card: the codes of its two lines. -/
structure TitleContent where
  upper : List Nat
  lower : List Nat
deriving DecidableEq, Repr

/-- R149, R150: the title card. -/
structure TitleCard where
  shown : Bool
  content : Option TitleContent
deriving DecidableEq, Repr

/-- R152: one group of the score card: the part its seat sang and its score. -/
structure ScoreGroup where
  part : Nat
  score : Nat
deriving DecidableEq, Repr

/-- R152: the score card. -/
structure ScoreCard where
  shown : Bool
  groups : List ScoreGroup
deriving DecidableEq, Repr

/-- R147: a loaded glyph: its width and its 32 rows of coverage, top row first. -/
structure Glyph where
  width : Nat
  rows : List (List Coverage)
deriving DecidableEq, Repr

/-- R139, R145, R146: one glyph or box of a drawn line: its left edge, its width, its coverage rows (none for the box of a
code not loaded), and how many of its columns are drawn in the wiped colour. -/
structure PlacedGlyph where
  x : Nat
  width : Nat
  rows : Option (List (List Coverage))
  wiped : Nat
  wipedColour : Colour
  unwipedColour : Colour
deriving DecidableEq, Repr

/-- R136, R139: one element of what is drawn over the picture, in drawing order: the lost-video background, a line of glyphs cut at
`clip`, and the intro dots. -/
inductive PlaneItem where
  | fill (colour : Colour)
  | text (glyphs : List PlacedGlyph) (baseline clip : Nat) (outline : Colour)
  | dots (count left bottom : Nat) (colour : Colour)
deriving DecidableEq, Repr

/-- The Lyric Compositor, less glyph memory and the display settings (07 introduction). -/
structure Lyric where
  path : VideoPath
  watch : Timer
  runCount : Nat
  frameOpen : Bool
  row0 : Row
  row1 : Row
  title : TitleCard
  card : ScoreCard
  cardTimer : Timer
  missing : Nat
  truncated : Nat
  plane : List PlaneItem
deriving DecidableEq, Repr

/-! ## Chapter 8: the Voice Scorer -/

/-- Table 8-1: a channel record. -/
structure Channel where
  level : Int
  present : Bool
  riseRun : Nat
  fallRun : Nat
  changed : Bool
deriving DecidableEq, Repr

/-- R160: the seat states. -/
inductive SeatState where
  | idle | armed | singing | done
deriving DecidableEq, Repr

/-- Table 8-3: a seat record. -/
structure Seat where
  state : SeatState
  channel : Option Nat
  part : Nat
  handset : Option Nat
  micSeen : Bool
  weighted : Frac
  durations : Nat
  notes : Nat
  total : Nat
  hit : Nat
  near : Nat
  voiced : Nat
deriving DecidableEq, Repr

/-- R169: the statuses, in the order that numbers them. -/
inductive SeatStatus where
  | notUsed | noMic | noNotes | scored
deriving DecidableEq, Repr

/-- R170: one seat of the result record. -/
structure SeatResult where
  status : SeatStatus
  score : Nat
  part : Nat
  handset : Option Nat
  notes : Nat
  total : Nat
  hit : Nat
  near : Nat
  voiced : Nat
deriving DecidableEq, Repr

/-- R170: the result record. -/
structure ResultRecord where
  ticket : Nat
  song : Nat
  edition : Nat
  kind : EndKind
  seats : List SeatResult
  unread : Bool
  previousUnread : Bool
deriving DecidableEq, Repr

/-- The Voice Scorer (08 introduction). `window` holds the audio frames of the window in progress, newest first. -/
structure Scorer where
  channels : List Channel
  seats : List Seat
  window : List AudioFrame
  result : Option ResultRecord
deriving DecidableEq, Repr

/-! ## The part, and the machine -/

/-- The PH7260: its eleven blocks (Table 0-1) and the room settings record. -/
structure Part where
  settings : Settings
  display : Display
  port : Port
  attn : Attention
  book : Book
  slots : List Slot
  stores : List Store
  line : Line
  catalog : List CatEntry
  install : Option Install
  lib : Library
  play : Play
  reader : Reader
  lyric : Lyric
  glyphs : List (Nat × Glyph)
  scorer : Scorer
deriving DecidableEq, Repr

/-- The machine: the part, and the commands that wait for it, first in, first out (assumption 1). -/
structure State where
  part : Part
  pending : List Instr
deriving DecidableEq, Repr

/-- Why a step could stop. The data book gives every event an effect, so no command of this model stops. -/
inductive Fault where
  /-- Raised by no command: no rule of the data book stops the part. Safe. -/
  | partStopped
deriving DecidableEq, Repr

/-- Why a command could have no meaning. -/
inductive Refusal where
  /-- Raised by exec for a command whose meaning is not written yet; none is left. Safe. -/
  | notModelled (mnemonic : String)
deriving DecidableEq, Repr

/-! ## After reset -/

/-- R183: every source clear, every entry MASKED. -/
def SourceSet.none : SourceSet :=
  { library := false, line := false, play := false, score := false, book := false, handset := false, video := false }

/-- Table 9-5, R46: the settings after pin reset. -/
def Settings.reset : Settings :=
  { orderMode := .rotation, quota := 3, divisor := 15, replyWindow := 4, missLimit := 6, lineEnable := true,
    openClaims := true, holdTime := 20, holdAction := .start, autoStart := true, gapTime := 5, videoFormat := .hd60,
    voiceThreshold := -42, octaveTolerance := true }

/-- Table 7-1: the display settings after pin reset. -/
def Display.reset : Display :=
  { unwiped := { a := 0xFFFFFF#24, b := 0xFFFFFF#24, c := 0xFFFFFF#24, d := 0xFFFFFF#24 },
    wiped := { a := 0x3070FF#24, b := 0xFF4060#24, c := 0x40D060#24, d := 0xFFB020#24 },
    togetherUnwiped := 0xFFFFFF#24, togetherWiped := 0xC050FF#24, outline := 0x000000#24,
    lostBackground := 0x101020#24, upperBaseline := 600, lowerBaseline := 660, safeWidth := 1152, spaceWidth := 12,
    lead := 3000, clearDelay := 500, cardTime := 8 }

/-- R176, R177: the port after pin reset. -/
def Port.reset : Port :=
  { state := .idle, answer := none, collision := false, lookup := none, ignoreSelect := false, sdo := [] }

/-- R183: the Attention Unit after pin reset. -/
def Attention.reset : Attention := { pending := .none, unmasked := .none }

/-- R25: the book after pin reset. -/
def Book.reset : Book := { entries := [], counter := 1, hold := false, lastStrike := none, strikeCount := 0 }

/-- R47: a FREE slot with no serial and every count 0. -/
def Slot.reset : Slot :=
  { state := .free, serial := none, misses := 0, parity := 0, framing := 0, check := 0, overlaps := 0, live := 0 }

/-- Table 3-1: the empty values of a store. -/
def Store.empty : Store := { reply := .empty, struck := [], cued := none, score := none, position := .clear }

/-- R47: the line while pin reset is held: RUNNING, round number 0, REPLY stopped, counts 0, no turn. -/
def Line.inReset : Line :=
  { state := .running, round := 0, turn := .none, reply := none, lastServed := 0, tx := none, txNext := none, rx := [],
    rxClass := .stray, afterMiss := false, divisorNow := 15, strays := 0, lates := 0, badClaims := 0, breaks := 0 }

/-- R47: the line at the first instant after the reset: the first round has begun, its number is 1, it serves no slot, and the
first claim window opens at once with its OPEN (assumption 9). -/
def Line.reset : Line :=
  { Line.inReset with round := 1, turn := .claimWindow, tx := some { kind := .openWindow, address := 31, body := [] } }

/-- R110: a die position after pin reset. -/
def Die.reset : Die :=
  { state := .unidentified, identifying := none, watch := none, op := none, waiting := [], map := none,
    scan := .notScanning, judged := [] }

/-- R110: the Library Store after pin reset. LIBWP_N is an input; high is a DESIGN CHOICE (assumption 10). -/
def Library.reset : Library :=
  { state := .unmounted, die0 := Die.reset, die1 := Die.reset, reclaim := [], programMark := 0, libwp := true,
    lastOperation := none, lastFault := none, faultCount := 0 }

/-- R135, Table 6-1: the play context after pin reset. -/
def Play.reset : Play :=
  { state := .idle, entry := none, song := none, time := 0, tempo := 0, key := 0, cueHold := 20, startPending := false,
    hold := none, gap := none, lateLines := 0, unknownWindows := 0, damagedPages := 0, skippedRecords := 0,
    firstUnderrun := false, lastOutcome := none }

/-- R135: the Stream Reader after pin reset, and after its emptying (R116). -/
def Reader.reset : Reader :=
  { state := .idle, buf0 := .empty, buf1 := .empty, nextFetch := 0, held := none, lastKey := none,
    lastStarts := [none, none, none, none], keyReached := false, lines := [], notes := [], beats := [], ordinals := 0 }

/-- R154: an EMPTY row with free time 0. -/
def Row.reset : Row := { state := .empty, line := none, free := 0 }

/-- R154: the compositor after pin reset: PASS at 60 frames per second, the watch loaded with 50 ms. -/
def Lyric.reset : Lyric :=
  { path := .pass, watch := some (50 * Config.ticksPerMs), runCount := 0, frameOpen := false, row0 := Row.reset,
    row1 := Row.reset, title := { shown := false, content := none }, card := { shown := false, groups := [] },
    cardTimer := none, missing := 0, truncated := 0, plane := [] }

/-- R172: a channel after pin reset. -/
def Channel.reset : Channel := { level := -96, present := false, riseRun := 0, fallRun := 0, changed := false }

/-- R172: a seat after pin reset, bound to the channel of its number. -/
def Seat.reset (channel : Option Nat) : Seat :=
  { state := .idle, channel := channel, part := 0, handset := none, micSeen := false, weighted := { num := 0, den := 1 },
    durations := 0, notes := 0, total := 0, hit := 0, near := 0, voiced := 0 }

/-- R172: the scorer after pin reset. -/
def Scorer.reset : Scorer :=
  { channels := [Channel.reset, Channel.reset, Channel.reset, Channel.reset],
    seats := [Seat.reset (some 0), Seat.reset (some 1), Seat.reset (some 2), Seat.reset (some 3)],
    window := [], result := none }

/-- The part at the first instant after pin reset (R25, R47, R48, R92, R110, R135, R154, R172, R176, R183). -/
def Part.reset : Part :=
  { settings := Settings.reset, display := Display.reset, port := Port.reset, attn := Attention.reset, book := Book.reset,
    slots := List.replicate Config.slotCount Slot.reset, stores := List.replicate Config.slotCount Store.empty,
    line := Line.reset, catalog := [], install := none, lib := Library.reset, play := Play.reset, reader := Reader.reset,
    lyric := Lyric.reset, glyphs := [], scorer := Scorer.reset }

/-- The machine right after reset, with nothing waiting. -/
def State.reset : State := { part := Part.reset, pending := [] }

end Sys2Proof.Machine
end

