-- ==== Sys2Proof/Machine/Ops.lean ====
section
/-! DEFINITION. Machine/Ops.lean: the operations every block shares: field encodings and the CRC-16 (R188), saturating counts, timers
(R113), and access to the numbered records of the part. -/

namespace Sys2Proof.Machine

/-! ## Field encodings (Table 10-1) -/

/-- U8. -/
def u8 (n : Nat) : List Byte := [BitVec.ofNat 8 n]

/-- U16, least significant byte first (R188). -/
def u16 (n : Nat) : List Byte := [BitVec.ofNat 8 n, BitVec.ofNat 8 (n / 256)]

/-- U24, least significant byte first (R188). -/
def u24 (n : Nat) : List Byte := [BitVec.ofNat 8 n, BitVec.ofNat 8 (n / 256), BitVec.ofNat 8 (n / 65536)]

/-- S8, two's complement. -/
def s8 (k : Int) : List Byte := [BitVec.ofInt 8 k]

/-- on/off, and a set or clear flag. -/
def flag (b : Bool) : List Byte := [if b then 1#8 else 0#8]

/-- colour: the RGB value as U24, blue byte first. -/
def colourBytes (c : Colour) : List Byte := u24 c.toNat

/-- tag: a length and that many bytes. -/
def tagBytes (t : List Byte) : List Byte := u8 t.length ++ t

/-- A record that may be absent: a presence byte, then the record (R189). -/
def present (bytes : Option (List Byte)) : List Byte :=
  match bytes with
  | none => [0#8]
  | some b => 1#8 :: b

/-- R188: a single field that may be none or absent: the field, or 00h. The 00h is one byte whatever the width of the field
(assumption 23). -/
def orNone (field : Option (List Byte)) : List Byte := field.getD [0#8]

/-- A list of varying length with a U8 count (R189). -/
def counted (items : List (List Byte)) : List Byte := u8 items.length ++ items.flatten

/-- The value of a U16. -/
def ofU16 (b0 b1 : Byte) : Nat := b0.toNat + 256 * b1.toNat

/-- The value of a U24. -/
def ofU24 (b0 b1 b2 : Byte) : Nat := b0.toNat + 256 * b1.toNat + 65536 * b2.toNat

/-- The value of an S16. -/
def ofS16 (b0 b1 : Byte) : Int := (b1 ++ b0 : BitVec 16).toInt

/-- The byte at an offset of a page; past the end of the bytes given, FFh. -/
def byteAt (bytes : List Byte) (offset : Nat) : Byte := bytes.getD offset 0xFF#8

/-- The U16 at an offset. -/
def u16At (bytes : List Byte) (offset : Nat) : Nat := ofU16 (byteAt bytes offset) (byteAt bytes (offset + 1))

/-- The U24 at an offset. -/
def u24At (bytes : List Byte) (offset : Nat) : Nat :=
  ofU24 (byteAt bytes offset) (byteAt bytes (offset + 1)) (byteAt bytes (offset + 2))

/-! ## CRC-16 (R188): polynomial 1021h, from FFFFh, most significant bit first, not inverted -/

/-- One bit of the CRC. -/
def crcBit (c : BitVec 16) : BitVec 16 := if c.msb then (c <<< 1) ^^^ 0x1021#16 else c <<< 1

/-- One byte of the CRC. -/
def crcByte (c : BitVec 16) (b : Byte) : BitVec 16 :=
  crcBit (crcBit (crcBit (crcBit (crcBit (crcBit (crcBit (crcBit (c ^^^ (b ++ 0#8 : BitVec 16)))))))))

/-- The CRC-16 of a span. -/
def crc16 (span : List Byte) : BitVec 16 := span.foldl crcByte 0xFFFF#16

/-- The CRC-16 of a span as it stands in a frame. -/
def crcBytes (span : List Byte) : List Byte := u16 (crc16 span).toNat

/-! ## Enumerations: from 1, in the order of the defining table (R188) -/

/-- Table 9-2. -/
def Cause.code : Cause → Nat
  | .badForm => 1 | .notMounted => 2 | .noSuchSong => 3 | .notReady => 4 | .offline => 5 | .bookFull => 6
  | .quota => 7 | .duplicate => 8 | .noSuchTicket => 9 | .notYours => 10 | .tooLate => 11 | .seatsFull => 12
  | .inUse => 13 | .pending => 14 | .protectedLow => 15 | .noSpace => 16 | .order => 17 | .noInstall => 18
  | .limit => 19 | .busy => 20 | .notCued => 21 | .notPlaying => 22 | .badFrame => 23 | .unknownCommand => 24

/-- R189: the encodings of the outcomes. -/
def Outcome.code : Outcome → Nat
  | .none => 0 | .ok => 1 | .accepted => 2 | .wait => 3 | .refused => 4

def OrderMode.code : OrderMode → Nat
  | .rotation => 1 | .arrival => 2

def HoldAction.code : HoldAction → Nat
  | .start => 1 | .skip => 2

/-- R189. -/
def VideoFormat.code : VideoFormat → Nat
  | .hd50 => 1 | .hd60 => 2 | .full50 => 3 | .full60 => 4

/-- R188: WAITING, CUED and PLAYING are 1, 2 and 3. -/
def EntryState.code : EntryState → Nat
  | .waiting => 1 | .cued => 2 | .playing => 3

/-- R188: the strike reasons from CANCELLED = 1 to CLEARED = 7. -/
def StrikeReason.code : StrikeReason → Nat
  | .cancelled => 1 | .withdrawn => 2 | .damaged => 3 | .skipped => 4 | .left => 5 | .barred => 6 | .cleared => 7

def SlotState.code : SlotState → Nat
  | .free => 1 | .active => 2 | .silent => 3 | .barred => 4

def LineState.code : LineState → Nat
  | .off => 1 | .running => 2 | .broken => 3

def CatState.code : CatState → Nat
  | .ready => 1 | .withdrawing => 2 | .offline => 3

def LibState.code : LibState → Nat
  | .unmounted => 1 | .mounting => 2 | .mounted => 3 | .failed => 4

def DieState.code : DieState → Nat
  | .unidentified => 1 | .absent => 2 | .idle => 3 | .busy => 4 | .faulted => 5

def OperationKind.code : OperationKind → Nat
  | .mount => 1 | .install => 2 | .withdraw => 3

/-- How an operation ended: DONE 1, ABANDONED 2, FAILED 3 (assumption 23). -/
def OperationEnd.code : OperationEnd → Nat
  | .done => 1 | .abandoned => 2 | .failedProgram => 3 | .failedErase => 3 | .failedDie => 3

def FaultKind.code : FaultKind → Nat
  | .read => 1 | .program => 2 | .erase => 3 | .die => 4

/-- The fault kind of a FAILED operation, as R108 numbers them; 00h for none (R188). -/
def OperationEnd.faultCode : OperationEnd → Nat
  | .done => 0 | .abandoned => 0 | .failedProgram => 2 | .failedErase => 3 | .failedDie => 4

def PlayState.code : PlayState → Nat
  | .idle => 1 | .gap => 2 | .staging => 3 | .holding => 4 | .running => 5 | .paused => 6

def ReaderState.code : ReaderState → Nat
  | .idle => 1 | .fetching => 2 | .stalled => 3 | .finished => 4

def EndKind.code : EndKind → Nat
  | .ended => 1 | .skipped => 2 | .damaged => 3

def VideoPath.code : VideoPath → Nat
  | .pass => 1 | .lost => 2

def RowState.code : RowState → Nat
  | .empty => 1 | .shown => 2 | .wiping => 3 | .held => 4

def SeatState.code : SeatState → Nat
  | .idle => 1 | .armed => 2 | .singing => 3 | .done => 4

def SeatStatus.code : SeatStatus → Nat
  | .notUsed => 1 | .noMic => 2 | .noNotes => 3 | .scored => 4

/-- R188: an origin of DESK is 20h; a slot is its number. -/
def Origin.code : Origin → Nat
  | .desk => 0x20
  | .slot n => n

/-- R188: a seat claim, or another slot that may be none: 00h for none. -/
def claimCode (claim : Option Nat) : Nat := claim.getD 0

/-- R188: a microphone channel of none is FFh. -/
def channelCode (channel : Option Nat) : Nat := channel.getD 0xFF

/-! ## Counts and timers -/

/-- A saturating count (00_scope, Numbers). -/
def satInc (top n : Nat) : Nat := if n < top then n + 1 else n

/-- A timer loaded with a number of milliseconds, running or not before (R113). -/
def loadMs (ms : Nat) : Timer := some (ms * Config.ticksPerMs)

/-- One audio frame of real time passes (assumption 2): a running timer counts down. -/
def tickTimer (t : Timer) : Timer := t.map (· - 1)

/-- R113: the expiry of a timer acts on a part in which its count is at most `n`. The audio frame that brings a count to 0 expires it
(`n` = 0); the timer's own event expires it within its last tick (`n` = 1, assumption 2). A stopped timer does not expire (assumption 3). -/
def Part.expireAt (n : Nat) (timer : Part → Timer) (expiry : Part → Part) (p : Part) : Part :=
  if (timer p).any (fun k => k ≤ n) then expiry p else p

/-- The time remaining in milliseconds (R113); a remainder that is no whole number of milliseconds is rounded as the free value
gives (assumption 15). -/
def remainingMs (ticks : Nat) : Nat :=
  if ticks % Config.ticksPerMs = 0 then ticks / Config.ticksPerMs
  else if Config.timerRoundsUp ticks then ticks / Config.ticksPerMs + 1 else ticks / Config.ticksPerMs

/-- A timer in an answer: stopped, or its time remaining in milliseconds (assumption 23). -/
def timerBytes (t : Timer) : List Byte := present (t.map fun n => u24 (remainingMs n))

/-! ## Numbered records -/

/-- R40: the slot record of a slot 1 to 16. -/
def Part.slot (p : Part) (n : Nat) : Slot := p.slots.getD (n - 1) Slot.reset

/-- Change the slot record of a slot 1 to 16. -/
def Part.mapSlot (p : Part) (n : Nat) (f : Slot → Slot) : Part := { p with slots := p.slots.modify (n - 1) f }

/-- R48: the store of a slot 1 to 16. -/
def Part.store (p : Part) (n : Nat) : Store := p.stores.getD (n - 1) Store.empty

/-- Change the store of a slot 1 to 16. -/
def Part.mapStore (p : Part) (n : Nat) (f : Store → Store) : Part := { p with stores := p.stores.modify (n - 1) f }

/-- The slot numbers 1 to 16. -/
def slotNumbers : List Nat := [1, 2, 3, 4, 5, 6, 7, 8, 9, 10, 11, 12, 13, 14, 15, 16]

/-- R93: the die at a die position; any number but 0 names position 1. -/
def Part.die (p : Part) (d : Nat) : Die := if d = 0 then p.lib.die0 else p.lib.die1

/-- Change the die at a die position. -/
def Part.mapDie (p : Part) (d : Nat) (f : Die → Die) : Part :=
  if d = 0 then { p with lib := { p.lib with die0 := f p.lib.die0 } }
  else { p with lib := { p.lib with die1 := f p.lib.die1 } }

/-- R159: a seat record. -/
def Part.seat (p : Part) (i : Nat) : Seat := p.scorer.seats.getD i (Seat.reset none)

/-- The machine with its part changed. -/
def State.mapPart (s : State) (f : Part → Part) : State := { s with part := f s.part }

/-- R66: the catalog entry of a song. -/
def Part.catEntry (p : Part) (song : Nat) : Option CatEntry := p.catalog.find? fun e => e.song == song

/-- Change the catalog entry of a song, if there is one. -/
def Part.mapCatEntry (p : Part) (song : Nat) (f : CatEntry → CatEntry) : Part :=
  { p with catalog := p.catalog.map fun e => if e.song == song then f e else e }

/-! ## Song block pages (R191) -/

/-- R191: the header marker. -/
def headerMarker : List Byte := [0x5C#8, 0x3A#8, 0x0E#8, 0x71#8]

/-- R191: the closing marker. -/
def closingMarker : List Byte := [0x3A#8, 0x5C#8, 0x71#8, 0x0E#8]

/-- R72, R80: the ranges of a song's header fields. -/
def headerInRange (h : HeaderFields) : Bool :=
  1 ≤ h.song && h.song ≤ 999999 && 1 ≤ h.edition && h.edition ≤ 255 && 1 ≤ h.pages && h.pages ≤ 62 &&
    1000 ≤ h.duration && h.duration ≤ 1200000 && 1 ≤ h.parts && h.parts ≤ 4

/-- Table 10-5: the fields of a header page. -/
def headerFieldsOf (page : List Byte) : HeaderFields :=
  { song := u24At page 4, edition := (byteAt page 7).toNat, pages := (byteAt page 8).toNat,
    duration := u24At page 9, parts := (byteAt page 12).toNat }

/-- R191: the fields of a page that is valid as a song header. -/
def validHeader (page : List Byte) : Option HeaderFields :=
  if page.take 4 = headerMarker ∧ headerInRange (headerFieldsOf page) = true then some (headerFieldsOf page) else none

/-- R191: a tag at an offset, a length above 12 taken as 12. -/
def tagAt (page : List Byte) (offset : Nat) : List Byte :=
  (page.drop (offset + 1)).take (min (byteAt page offset).toNat 12)

/-- Table 10-5: the title tag. -/
def titleTagOf (page : List Byte) : List Byte := tagAt page 13

/-- Table 10-5: the artist tag. -/
def artistTagOf (page : List Byte) : List Byte := tagAt page 26

/-- Table 10-5, R191: the title glyph codes, a count above 32 taken as 32. -/
def titleGlyphsOf (page : List Byte) : List Nat :=
  (List.range (min (byteAt page 39).toNat 32)).map fun i => u16At page (40 + 2 * i)

/-- R191: the page n + 1 is a closing page that matches the header. -/
def closingMatches (page : List Byte) (h : HeaderFields) : Bool :=
  page.take 4 == closingMarker && u24At page 4 == h.song && (byteAt page 7).toNat == h.edition &&
    (byteAt page 8).toNat == h.pages

/-- Bytes followed by FFh up to a length. -/
def padFF (length : Nat) (bytes : List Byte) : List Byte := bytes ++ List.replicate (length - bytes.length) 0xFF#8

/-- R191, Table 10-5: the header page the install forms from its record. -/
def headerPage (r : Install) : List Byte :=
  padFF Config.pageBytes
    (headerMarker ++ u24 r.song ++ u8 r.target.edition ++ u8 r.target.pages ++ u24 r.target.duration ++
      u8 r.target.parts ++ padFF 13 (tagBytes r.title) ++ padFF 13 (tagBytes r.artist) ++ u8 r.glyphs.length ++
      r.glyphs.flatMap u16)

/-- R191: the closing page. -/
def closingPage (r : Install) : List Byte :=
  padFF Config.pageBytes (closingMarker ++ u24 r.song ++ u8 r.target.edition ++ u8 r.target.pages)

/-! ## Page reads (R95) -/

/-- R95: the outcome of a page read. -/
inductive ReadOutcome where
  | clean
  | corrected (count : Nat)
  | uncorrectable
deriving DecidableEq, Repr

/-- R95: the correction count of a sector, none when it is uncorrectable. -/
def sectorCount : SectorRead → Option Nat
  | .erased zeros => if zeros ≤ 8 then some zeros else none
  | .coded errors _ => if errors ≤ 8 then some errors else none

/-- R95: the data the controller gives for a sector. -/
def sectorBytes : SectorRead → List Byte
  | .erased _ => List.replicate 512 0xFF#8
  | .coded _ data => data

/-- R95: the four sectors of a read in page order. -/
def readSectors (r : PageRead) : List SectorRead := [r.sector0, r.sector1, r.sector2, r.sector3]

/-- R95: UNCORRECTABLE when any sector is, else CORRECTED with the highest count, or CLEAN when that is 0. -/
def readOutcome (r : PageRead) : ReadOutcome :=
  if (readSectors r).any fun x => (sectorCount x).isNone then .uncorrectable
  else
    let count := ((readSectors r).map fun x => (sectorCount x).getD 0).foldl max 0
    if count = 0 then .clean else .corrected count

/-- R95: the data of a CLEAN or CORRECTED read; none for an UNCORRECTABLE one. -/
def readData (r : PageRead) : Option (List Byte) :=
  if readOutcome r = .uncorrectable then none else some ((readSectors r).flatMap sectorBytes)

/-- R191: any value of spare byte 0 but FFh is the factory bad marker. -/
def readFactoryBad (r : PageRead) : Bool := r.marker != 0xFF#8

end Sys2Proof.Machine
end

