-- ==== Sys2Proof/Machine/Flags.lean ====
section
/-! DEFINITION. Machine/Flags.lean: the Attention Unit (R179 to R183): the seven pending flags, the mask, ATTN, and RDY of the port. -/

namespace Sys2Proof.Machine

/-- The flag of a source. -/
def SourceSet.get (f : SourceSet) : Source → Bool
  | .library => f.library | .line => f.line | .play => f.play | .score => f.score
  | .book => f.book | .handset => f.handset | .video => f.video

/-- A set with the flag of one source written. -/
def SourceSet.put (f : SourceSet) (src : Source) (b : Bool) : SourceSet :=
  match src with
  | .library => { f with library := b }
  | .line => { f with line := b }
  | .play => { f with play := b }
  | .score => { f with score := b }
  | .book => { f with book := b }
  | .handset => { f with handset := b }
  | .video => { f with video := b }

/-- Table 9-4: the sources from priority 0 to priority 6. -/
def sourcesByPriority : List Source := [.library, .line, .play, .score, .book, .handset, .video]

/-- R179: raising a source makes its flag pending, masked or not. -/
def Part.raise (p : Part) (src : Source) : Part :=
  { p with attn := { p.attn with pending := p.attn.pending.put src true } }

/-- R179: a clearing act makes the flag clear. -/
def Part.clearSource (p : Part) (src : Source) : Part :=
  { p with attn := { p.attn with pending := p.attn.pending.put src false } }

/-- R180: ATTN is asserted when and only when a source is pending and unmasked. -/
def Part.attnPin (p : Part) : Bool :=
  sourcesByPriority.any fun src => p.attn.pending.get src && p.attn.unmasked.get src

/-- R181: the pending unmasked source of highest priority. -/
def Part.reportedSource (p : Part) : Option Source :=
  sourcesByPriority.find? fun src => p.attn.pending.get src && p.attn.unmasked.get src

/-- R181: the sources whose clearing acts include READ ATTENTION. -/
def clearedByReport : Source → Bool
  | .book => true | .handset => true | .video => true
  | .library => false | .line => false | .play => false | .score => false

/-- R188: a source as an enumeration in the order of Table 9-4, 00h for NONE. -/
def sourceCode : Option Source → Nat
  | none => 0
  | some .library => 1 | some .line => 2 | some .play => 3 | some .score => 4
  | some .book => 5 | some .handset => 6 | some .video => 7

/-- The pending set of an answer: one flag for each source in priority order (assumption 23). -/
def pendingBytes (f : SourceSet) : List Byte := sourcesByPriority.flatMap fun src => flag (f.get src)

/-- The mask of an answer: MASKED 1 or UNMASKED 2 for each source in priority order (R182, R188). -/
def maskBytes (unmasked : SourceSet) : List Byte :=
  sourcesByPriority.flatMap fun src => u8 (if unmasked.get src then 2 else 1)

/-- R176: RDY is high while an answer frame waits. -/
def Part.rdy (p : Part) : Bool := p.port.state == .answerReady

end Sys2Proof.Machine
end

