-- ==== Sys2Proof/Machine/Operands.lean ====
section
/-! DEFINITION. Machine/Operands.lean: the parameter forms of the commands (R178, R189) and the body forms of the handset messages
(R190). Each answers none where the bytes do not have the form, which is refused BAD FORM before the owning block sees it; ranges that a block's
own rule checks are left to that rule. -/

namespace Sys2Proof.Machine

/-! ## Single values -/

/-- A command that takes no parameters. -/
def takesNone : List Byte → Option Unit
  | [] => some ()
  | _ => none

/-- R189: an optional flag is the byte 01h when present and no byte when absent. -/
def optionalFlag : List Byte → Option Bool
  | [] => some false
  | [b] => if b = 1#8 then some true else none
  | _ => none

/-- An on/off value: 00h off, 01h on. -/
def onOffValue : List Byte → Option Bool
  | [b] => if b = 0#8 then some false else if b = 1#8 then some true else none
  | _ => none

/-- A U8. -/
def u8Value : List Byte → Option Nat
  | [b] => some b.toNat
  | _ => none

/-- An S8. -/
def s8Value : List Byte → Option Int
  | [b] => some b.toInt
  | _ => none

/-- A U16. -/
def u16Value : List Byte → Option Nat
  | [b0, b1] => some (ofU16 b0 b1)
  | _ => none

/-- A U24. -/
def u24Value : List Byte → Option Nat
  | [b0, b1, b2] => some (ofU24 b0 b1 b2)
  | _ => none

/-- An S16. -/
def s16Value : List Byte → Option Int
  | [b0, b1] => some (ofS16 b0 b1)
  | _ => none

/-- A value kept when it lies in a range. -/
def inRange (lo hi : Nat) (v : Option Nat) : Option Nat := v.filter fun n => lo ≤ n && n ≤ hi

/-- An integer value kept when it lies in a range. -/
def inRangeInt (lo hi : Int) (v : Option Int) : Option Int := v.filter fun n => lo ≤ n && n ≤ hi

/-! ## Request Book -/

/-- R13: the parameters of ADD REQUEST. -/
structure AddParams where
  song : Nat
  singers : Nat
  key : Int
  tempo : Int
  front : Bool
deriving DecidableEq, Repr

/-- R13, R189: song, singers, key, tempo and the FRONT flag. -/
def addParams : List Byte → Option AddParams
  | s0 :: s1 :: s2 :: n :: k :: t :: rest =>
    (optionalFlag rest).map fun front =>
      { song := ofU24 s0 s1 s2, singers := n.toNat, key := k.toInt, tempo := t.toInt, front := front }
  | _ => none

/-- R189: optional fields and named lists: pairs of a field number and a value of the field's width. A number the command does not
list, and a pair cut short, have no reading. `fuel` bounds the pairs by the bytes. -/
def takePairs (width : Nat → Option Nat) : Nat → List Byte → Option (List (Nat × List Byte))
  | _, [] => some []
  | 0, _ :: _ => none
  | fuel + 1, n :: rest =>
    match width n.toNat with
    | none => none
    | some w =>
      if rest.length < w then none
      else (takePairs width fuel (rest.drop w)).map fun more => (n.toNat, rest.take w) :: more

/-- R189: the pairs of a list in which no number is given twice. -/
def pairsOf (width : Nat → Option Nat) (bytes : List Byte) : Option (List (Nat × List Byte)) :=
  (takePairs width bytes.length bytes).filter fun pairs => decide (pairs.map Prod.fst).Nodup

/-- The value of a field number in a list of pairs. -/
def fieldValue (pairs : List (Nat × List Byte)) (n : Nat) : Option (List Byte) :=
  (pairs.find? fun f => f.1 == n).map Prod.snd

/-- R15: the parameters of EDIT REQUEST. -/
structure EditParams where
  ticket : Nat
  key : Option Int
  tempo : Option Int
  singers : Option Nat
deriving DecidableEq, Repr

/-- R189: EDIT REQUEST numbers key 1, tempo 2 and singers 3. -/
def editWidth : Nat → Option Nat
  | 1 => some 1 | 2 => some 1 | 3 => some 1
  | _ => none

/-- R15, R189: a ticket and any of key, tempo and singers. -/
def editParams : List Byte → Option EditParams
  | t0 :: t1 :: rest =>
    (pairsOf editWidth rest).map fun pairs =>
      { ticket := ofU16 t0 t1, key := (fieldValue pairs 1).bind s8Value, tempo := (fieldValue pairs 2).bind s8Value,
        singers := (fieldValue pairs 3).bind u8Value }
  | _ => none

/-- R16, R189: a ticket and a target position. -/
def placeParams : List Byte → Option (Nat × Nat)
  | [t0, t1, pos] => some (ofU16 t0 t1, pos.toNat)
  | _ => none

/-! ## Song Catalog -/

/-- R78, R189: a starting song number and a count. -/
def listParams : List Byte → Option (Nat × Nat)
  | [s0, s1, s2, n] => some (ofU24 s0 s1 s2, n.toNat)
  | _ => none

/-- R80: the parameters of INSTALL BEGIN. -/
structure InstallParams where
  song : Nat
  pages : Nat
  duration : Nat
  parts : Nat
  title : List Byte
  artist : List Byte
  glyphs : List Nat
deriving DecidableEq, Repr

/-- Table 10-1: a tag, a length from 0 to 12 and that many bytes. -/
def takeTag : List Byte → Option (List Byte × List Byte)
  | n :: rest => if n.toNat ≤ 12 ∧ n.toNat ≤ rest.length then some (rest.take n.toNat, rest.drop n.toNat) else none
  | [] => none

/-- That many U16 values and nothing after them. -/
def u16List : Nat → List Byte → Option (List Nat)
  | 0, [] => some []
  | n + 1, b0 :: b1 :: rest => (u16List n rest).map fun more => ofU16 b0 b1 :: more
  | _, _ => none

/-- R80, R189: song, stream pages, duration, parts, title tag, artist tag and a U8 count of title glyph codes. -/
def installParams : List Byte → Option InstallParams
  | s0 :: s1 :: s2 :: n :: d0 :: d1 :: d2 :: q :: rest =>
    match takeTag rest with
    | none => none
    | some (title, rest) =>
      match takeTag rest with
      | some (artist, g :: rest) =>
        (u16List g.toNat rest).map fun codes =>
          { song := ofU24 s0 s1 s2, pages := n.toNat, duration := ofU24 d0 d1 d2, parts := q.toNat, title := title,
            artist := artist, glyphs := codes }
      | _ => none
  | _ => none

/-- R83, R189: a page index and 2048 data bytes. -/
def pageParams : List Byte → Option (Nat × List Byte)
  | i :: data => if data.length = Config.pageBytes then some (i.toNat, data) else none
  | [] => none

/-! ## Lyric Display -/

/-- R189: the bytes of one row of a coverage image. -/
def rowBytes (width : Nat) : Nat := (width + 3) / 4

/-- R189: the pixels of one row, four to a byte, the leftmost in the two least significant bits. -/
def coverageRow (width : Nat) (bytes : List Byte) : List Coverage :=
  (List.range width).map fun j => (bytes.getD (j / 4) 0#8 >>> (2 * (j % 4))).setWidth 2

/-- R189: the 32 rows of a coverage image, top row first. -/
def coverageRows (width : Nat) (bytes : List Byte) : List (List Coverage) :=
  (List.range 32).map fun r => coverageRow width ((bytes.drop (r * rowBytes width)).take (rowBytes width))

/-- R148, R189: that many glyphs and nothing after them. -/
def takeGlyphs : Nat → List Byte → Option (List Glyph)
  | 0, [] => some []
  | n + 1, w :: rest =>
    if 1 ≤ w.toNat ∧ w.toNat ≤ 32 ∧ 32 * rowBytes w.toNat ≤ rest.length then
      (takeGlyphs n (rest.drop (32 * rowBytes w.toNat))).map fun more =>
        { width := w.toNat, rows := coverageRows w.toNat (rest.take (32 * rowBytes w.toNat)) } :: more
    else none
  | _, _ => none

/-- R148, R189: the first code and the glyphs, with every check of R148. -/
def glyphParams : List Byte → Option (Nat × List Glyph)
  | f0 :: f1 :: c0 :: c1 :: rest =>
    if 1 ≤ ofU16 f0 f1 ∧ 1 ≤ ofU16 c0 c1 ∧ ofU16 f0 f1 + ofU16 c0 c1 ≤ 2048 then
      (takeGlyphs (ofU16 c0 c1) rest).map fun glyphs => (ofU16 f0 f1, glyphs)
    else none
  | _ => none

/-- R189: the widths of the DISPLAY SETTINGS fields; field 20 is CLEAR COUNTS and carries no value. -/
def displayWidth : Nat → Option Nat
  | 1 => some 3 | 2 => some 3 | 3 => some 3 | 4 => some 3 | 5 => some 3 | 6 => some 3 | 7 => some 3 | 8 => some 3
  | 9 => some 3 | 10 => some 3 | 11 => some 3 | 12 => some 3 | 13 => some 2 | 14 => some 2 | 15 => some 2
  | 16 => some 1 | 17 => some 3 | 18 => some 3 | 19 => some 1 | 20 => some 0
  | _ => none

/-- A colour value. -/
def colourValue (bytes : List Byte) : Option Colour := (u24Value bytes).map fun n => BitVec.ofNat 24 n

/-- R153, Table 7-1, R189: one field written, none when its value is out of range. -/
def writeDisplay (d : Display) (field : Nat × List Byte) : Option Display :=
  match field.1 with
  | 1 => (colourValue field.2).map fun c => { d with unwiped := { d.unwiped with a := c } }
  | 2 => (colourValue field.2).map fun c => { d with unwiped := { d.unwiped with b := c } }
  | 3 => (colourValue field.2).map fun c => { d with unwiped := { d.unwiped with c := c } }
  | 4 => (colourValue field.2).map fun c => { d with unwiped := { d.unwiped with d := c } }
  | 5 => (colourValue field.2).map fun c => { d with wiped := { d.wiped with a := c } }
  | 6 => (colourValue field.2).map fun c => { d with wiped := { d.wiped with b := c } }
  | 7 => (colourValue field.2).map fun c => { d with wiped := { d.wiped with c := c } }
  | 8 => (colourValue field.2).map fun c => { d with wiped := { d.wiped with d := c } }
  | 9 => (colourValue field.2).map fun c => { d with togetherUnwiped := c }
  | 10 => (colourValue field.2).map fun c => { d with togetherWiped := c }
  | 11 => (colourValue field.2).map fun c => { d with outline := c }
  | 12 => (colourValue field.2).map fun c => { d with lostBackground := c }
  | 13 => (inRange 64 719 (u16Value field.2)).map fun n => { d with upperBaseline := n }
  | 14 => (inRange 64 719 (u16Value field.2)).map fun n => { d with lowerBaseline := n }
  | 15 => (inRange 256 1280 (u16Value field.2)).map fun n => { d with safeWidth := n }
  | 16 => (inRange 1 32 (u8Value field.2)).map fun n => { d with spaceWidth := n }
  | 17 => (inRange 1000 6000 (u24Value field.2)).map fun n => { d with lead := n }
  | 18 => (inRange 0 2000 (u24Value field.2)).map fun n => { d with clearDelay := n }
  | 19 => (inRange 0 30 (u8Value field.2)).map fun n => { d with cardTime := n }
  | _ => some d

/-- R153: the settings after DISPLAY SETTINGS and whether CLEAR COUNTS is present. The baselines left are judged once every
present value is written. -/
def displayParams (d : Display) (bytes : List Byte) : Option (Display × Bool) :=
  match pairsOf displayWidth bytes with
  | none => none
  | some pairs =>
    match pairs.foldlM writeDisplay d with
    | none => none
    | some d' =>
      if d'.upperBaseline + 32 ≤ d'.lowerBaseline then some (d', (fieldValue pairs 20).isSome) else none

/-! ## Voice Scorer, Attention Unit, room settings -/

/-- R162, R189: a seat from 0 to 3 and a channel from 0 to 3, or FFh for none. -/
def bindParams : List Byte → Option (Nat × Option Nat)
  | [seat, channel] =>
    if seat.toNat ≤ 3 then
      if channel = 0xFF#8 then some (seat.toNat, none)
      else if channel.toNat ≤ 3 then some (seat.toNat, some channel.toNat) else none
    else none
  | _ => none

/-- R182: one mask entry, MASKED 1 or UNMASKED 2. -/
def maskEntry (b : Byte) : Option Bool := if b = 1#8 then some false else if b = 2#8 then some true else none

/-- R182: one entry for each source, as the set of UNMASKED sources. That the entries stand in the order of Table 9-4, by priority, is the model's
choice (assumption 52). -/
def maskParams : List Byte → Option SourceSet
  | [b0, b1, b2, b3, b4, b5, b6] =>
    match maskEntry b0, maskEntry b1, maskEntry b2, maskEntry b3, maskEntry b4, maskEntry b5, maskEntry b6 with
    | some m0, some m1, some m2, some m3, some m4, some m5, some m6 =>
      some { library := m0, line := m1, play := m2, score := m3, book := m4, handset := m5, video := m6 }
    | _, _, _, _, _, _, _ => none
  | _ => none

/-- R189: the widths of the CONFIGURE fields, numbered 1 to 13 in the order of Table 9-5. -/
def configWidth : Nat → Option Nat
  | 1 => some 1 | 2 => some 1 | 3 => some 2 | 4 => some 3 | 5 => some 1 | 6 => some 1 | 7 => some 1 | 8 => some 1
  | 9 => some 1 | 10 => some 1 | 11 => some 1 | 12 => some 1 | 13 => some 1
  | _ => none

/-- Order mode, ROTATION 1 or ARRIVAL 2. -/
def orderModeValue : Option Nat → Option OrderMode
  | some 1 => some .rotation
  | some 2 => some .arrival
  | _ => none

/-- Hold action, START 1 or SKIP 2. -/
def holdActionValue : Option Nat → Option HoldAction
  | some 1 => some .start
  | some 2 => some .skip
  | _ => none

/-- R189: video format 1 to 4. -/
def videoFormatValue : Option Nat → Option VideoFormat
  | some 1 => some .hd50
  | some 2 => some .hd60
  | some 3 => some .full50
  | some 4 => some .full60
  | _ => none

/-- R185, Table 9-5: one field written, none when its value is outside its range. -/
def writeSetting (c : Settings) (field : Nat × List Byte) : Option Settings :=
  match field.1 with
  | 1 => (orderModeValue (u8Value field.2)).map fun m => { c with orderMode := m }
  | 2 => (inRange 1 8 (u8Value field.2)).map fun n => { c with quota := n }
  | 3 => (inRange 1 65535 (u16Value field.2)).map fun n => { c with divisor := n }
  | 4 => (inRange 1 15 (u24Value field.2)).map fun n => { c with replyWindow := n }
  | 5 => (inRange 1 15 (u8Value field.2)).map fun n => { c with missLimit := n }
  | 6 => (onOffValue field.2).map fun b => { c with lineEnable := b }
  | 7 => (inRange 0 120 (u8Value field.2)).map fun n => { c with holdTime := n }
  | 8 => (holdActionValue (u8Value field.2)).map fun a => { c with holdAction := a }
  | 9 => (onOffValue field.2).map fun b => { c with autoStart := b }
  | 10 => (inRange 0 60 (u8Value field.2)).map fun n => { c with gapTime := n }
  | 11 => (videoFormatValue (u8Value field.2)).map fun v => { c with videoFormat := v }
  | 12 => (inRangeInt (-60) (-20) (s8Value field.2)).map fun n => { c with voiceThreshold := n }
  | 13 => (onOffValue field.2).map fun b => { c with octaveTolerance := b }
  | _ => none

/-- R185: the settings after CONFIGURE, none for BAD FORM. -/
def configParams (c : Settings) (bytes : List Byte) : Option Settings :=
  match pairsOf configWidth bytes with
  | none => none
  | some pairs => pairs.foldlM writeSetting c

/-! ## Handset messages (R190) -/

/-- Table 3-2, R190: the seven messages with their fields. -/
inductive Message where
  | ask (song singers : Nat) (key : Int)
  | find (song : Nat)
  | mine
  | drop (ticket : Nat)
  | key (ticket : Nat) (key : Int)
  | join (ticket : Nat)
  | leave
deriving DecidableEq, Repr

/-- R57, R58: the key range of a message. -/
def keyInRange (k : Int) : Bool := -7 ≤ k && k ≤ 7

/-- A ticket from 1 to 65535. -/
def ticketInRange (t : Nat) : Bool := 1 ≤ t && t ≤ 65535

/-- A song number from 1 to 999,999. -/
def songInRange (n : Nat) : Bool := 1 ≤ n && n ≤ 999999

/-- R57 step 2, R190: the message of an ANSWER body; none for an unknown kind, a body of the wrong length for its kind, or a field out of
range, which are refused BAD FORM. -/
def messageOf (kind : Byte) (fields : List Byte) : Option Message :=
  match kind.toNat, fields with
  | 1, [s0, s1, s2, n, k] =>
    if songInRange (ofU24 s0 s1 s2) && 1 ≤ n.toNat && n.toNat ≤ 4 && keyInRange k.toInt then
      some (.ask (ofU24 s0 s1 s2) n.toNat k.toInt) else none
  | 2, [s0, s1, s2] => if songInRange (ofU24 s0 s1 s2) then some (.find (ofU24 s0 s1 s2)) else none
  | 3, [] => some .mine
  | 4, [t0, t1] => if ticketInRange (ofU16 t0 t1) then some (.drop (ofU16 t0 t1)) else none
  | 5, [t0, t1, k] =>
    if ticketInRange (ofU16 t0 t1) && keyInRange k.toInt then some (.key (ofU16 t0 t1) k.toInt) else none
  | 6, [t0, t1] => if ticketInRange (ofU16 t0 t1) then some (.join (ofU16 t0 t1)) else none
  | 7, [] => some .leave
  | _, _ => none

end Sys2Proof.Machine
end

