-- ==== Sys2Proof/Machine/Port.lean ====
section
/-! DEFINITION. Machine/Port.lean: the Command Port's part in every command (R174, R176, R178): taking a command, the collision, and forming
the answer. -/

namespace Sys2Proof.Machine

/-- What the owning block gives back: an outcome with its data (R178), or, for LOOK UP SONG of a READY song, that the port stays
EXECUTING until the lookup read ends (R77). -/
inductive CmdResult where
  | ok (data : List Byte)
  | accepted
  | wait
  | refused (cause : Cause)
  | executing (song : Nat)
deriving DecidableEq, Repr

/-- R176: the owning block forms the answer; the port enters ANSWER READY. -/
def Part.answer (p : Part) (tag : Byte) (outcome : Outcome) (data : List Byte) : Part :=
  { p with port := { p.port with state := .answerReady, answer := some { tag, outcome, data }, lookup := none } }

/-- R178: a REFUSED answer carries one data byte, the cause (R189). -/
def Part.refuse (p : Part) (tag : Byte) (cause : Cause) : Part := p.answer tag .refused (u8 cause.code)

/-- R176, R178: the answer a result gives. -/
def Part.finish (p : Part) (tag : Byte) (result : CmdResult) : Part :=
  match result with
  | .ok data => p.answer tag .ok data
  | .accepted => p.answer tag .accepted []
  | .wait => p.answer tag .wait []
  | .refused cause => p.refuse tag cause
  | .executing song => { p with port := { p.port with state := .executing, answer := none, lookup := some { tag, song } } }

/-- R173: SDO holds FFh throughout a WRITE select: the record of the bytes sent on it is empty (assumption 12). -/
def Part.quietSdo (p : Part) : Part := { p with port := { p.port with sdo := [] } }

/-- R177: the WRITE select is ignored and COLLISION is set. -/
def Part.collide (p : Part) : Part := { p with port := { p.port with collision := true } }.quietSdo

/-- R173: the select in progress when a pin reset ended is ignored, and the part takes the next one (assumption 11). -/
def Part.passSelect (p : Part) : Part := { p with port := { p.port with ignoreSelect := false } }

/-- R174: a WRITE select that ends with a well-formed frame of a known command. In IDLE the command is taken; in EXECUTING and ANSWER
READY the frame is ignored and COLLISION is set. -/
def Part.takeCommand (p : Part) (tag : Byte) (body : Part → Part × CmdResult) : Part :=
  if p.port.ignoreSelect then p.passSelect
  else
    match p.port.state with
    | .idle => ((body p).1.finish tag (body p).2).quietSdo
    | .executing => p.collide
    | .answerReady => p.collide

/-- R178: parameters without the form of the command are refused BAD FORM before the owning block sees them. -/
def withForm {α : Type} (form : Option α) (p : Part) (k : α → Part × CmdResult) : Part × CmdResult :=
  match form with
  | none => (p, .refused .badForm)
  | some a => k a

end Sys2Proof.Machine
end

