-- ==== Sys2Proof/Machine/Library.lean ====
section
/-! DEFINITION. Machine/Library.lean: the Library Store Controller's shared operations (R93 to R108): requests, the arbiter, the block
map, the reclaim list, page health and faults. -/

namespace Sys2Proof.Machine

/-! ## Requests and the arbiter -/

/-- Table 5-4: the class of a request. -/
def requestClass : Requester → Nat
  | .stream => 1
  | .lookupSlot _ _ => 2
  | .lookupPort => 2
  | .scan => 3
  | .install _ => 4
  | .withdraw _ => 5
  | .reclaim => 6

/-- Table 5-3: page reads are the requests of classes 1 to 3. -/
def isRead (r : Request) : Bool := requestClass r.requester ≤ 3

/-- R101, R103: reads are always eligible; programs and erases while LIBWP_N is high. -/
def eligible (libwp : Bool) (r : Request) : Bool := isRead r || libwp

/-- R100: whether a request that arrives for the die ends at once as ended by die fault. -/
def Part.dieFaulted (p : Part) (d : Nat) : Bool := (p.die d).state == .faulted

/-- R101: the granted request begins: the die becomes BUSY and the die watch is loaded (R99). -/
def Part.startOp (p : Part) (d : Nat) (r : Request) : Part :=
  p.mapDie d fun x => { x with state := .busy, op := some r, watch := loadMs Config.dieTimeoutMs }

/-- R101: a request that arrives at an IDLE die is granted at once if it is eligible; otherwise it joins the waiting list. R100: a
request for a FAULTED die is not placed in the list; its requester ends it as ended by die fault (`Part.dieFaulted`, assumption 33). -/
def Part.request (p : Part) (d : Nat) (r : Request) : Part :=
  match (p.die d).state with
  | .idle =>
    if eligible p.lib.libwp r then p.startOp d r else p.mapDie d fun x => { x with waiting := x.waiting ++ [r] }
  | .busy => p.mapDie d fun x => { x with waiting := x.waiting ++ [r] }
  | .unidentified => p
  | .absent => p
  | .faulted => p

/-- R101 step 1: the eligible waiting request of the highest class, the first to arrive within it. -/
def chooseWaiting (libwp : Bool) (waiting : List Request) : Option Request :=
  [1, 2, 3, 4, 5].findSome? fun c => waiting.find? fun r => eligible libwp r && requestClass r.requester == c

/-- R106: the oldest block of a die in the reclaim list. -/
def oldestReclaim (reclaim : List (Nat × Nat)) (d : Nat) : Option Nat :=
  (reclaim.find? fun x => x.1 == d).map Prod.snd

/-- R101: the arbiter's choice for a die with no operation in progress. -/
def Part.grant (p : Part) (d : Nat) : Part :=
  match chooseWaiting p.lib.libwp (p.die d).waiting with
  | some r => (p.mapDie d fun x => { x with waiting := x.waiting.erase r }).startOp d r
  | none =>
    match oldestReclaim p.lib.reclaim d with
    | some b =>
      if p.lib.libwp && p.lib.state == .mounted then
        p.startOp d { requester := .reclaim, block := b, page := 0, data := [], givenUp := false }
      else p.mapDie d fun x => { x with state := .idle }
    | none => p.mapDie d fun x => { x with state := .idle }

/-- R101, R103: an IDLE die grants. -/
def Part.grantIfIdle (p : Part) (d : Nat) : Part := if (p.die d).state = .idle then p.grant d else p

/-- The operation in progress ends and its watch stops (R99). The die stays BUSY until its requester has acted; the arbiter then grants
(assumption 21). -/
def Part.opEnds (p : Part) (d : Nat) : Part := p.mapDie d fun x => { x with op := none, watch := none }

/-- R102: a requester withdraws its waiting requests and gives up an operation in progress. -/
def Part.giveUp (p : Part) (d : Nat) (mine : Requester → Bool) : Part :=
  p.mapDie d fun x =>
    { x with
      waiting := x.waiting.filter fun r => !mine r.requester
      op := x.op.map fun r => if mine r.requester then { r with givenUp := true } else r }

/-! ## The bytes of a page program -/

/-- R97, R191: the 13 ECC bytes of a sector, a free value (assumption 13). -/
def eccOf (sector : List Byte) : List Byte := (List.range 13).map (Config.eccByte sector)

/-- R191: the 64 spare bytes a page program writes: the factory bad marker and bytes 1 to 7 as FFh, the ECC of the four sectors, and
bytes 60 to 63 as FFh. -/
def programSpare (data : List Byte) : List Byte :=
  List.replicate 8 0xFF#8 ++ (List.range 4).flatMap (fun k => eccOf ((data.drop (512 * k)).take 512)) ++
    List.replicate 4 0xFF#8

/-- R97: the page the controller sends to a die whose operation in progress is a program: its data and its spare. An output, which
no state depends on. -/
def Part.programmedPage (p : Part) (d : Nat) : Option (List Byte) :=
  match (p.die d).op with
  | none => none
  | some r =>
    match r.requester with
    | .install (.program _) => some (r.data ++ programSpare r.data)
    | .install .erase => none
    | .stream => none
    | .lookupSlot _ _ => none
    | .lookupPort => none
    | .scan => none
    | .withdraw _ => none
    | .reclaim => none

/-! ## The block map and the reclaim list -/

/-- R104: one block of a die's map takes a state. -/
def Part.setBlock (p : Part) (d b : Nat) (st : BlockState) : Part :=
  p.mapDie d fun x => { x with map := x.map.map fun m => m.set b st }

/-- R104: the count of a die's blocks in a state. -/
def blockCount (x : Die) (st : BlockState) : Nat := (x.map.getD []).count st

/-- R105: the free pool, in ascending block order. -/
def Die.freePool (x : Die) : List Nat :=
  ((x.map.getD []).zipIdx.filter fun b => b.1 == BlockState.free).map Prod.snd

/-- R105: the bad-block set. -/
def Die.badBlocks (x : Die) : List Nat :=
  ((x.map.getD []).zipIdx.filter fun b => b.1 == BlockState.bad).map Prod.snd

/-- R106: a block enters at the end of the reclaim list, at most once. -/
def Part.reclaimJoin (p : Part) (d b : Nat) : Part :=
  let p := p.setBlock d b .reclaim
  if p.lib.reclaim.contains (d, b) then p
  else { p with lib := { p.lib with reclaim := p.lib.reclaim ++ [(d, b)] } }

/-- R106, R101: a block enters the reclaim list and an IDLE die of its own starts its erase. -/
def Part.reclaimPush (p : Part) (d b : Nat) : Part := (p.reclaimJoin d b).grantIfIdle d

/-- R106: a block leaves the reclaim list. -/
def Part.reclaimLeave (p : Part) (d b : Nat) : Part :=
  { p with lib := { p.lib with reclaim := p.lib.reclaim.filter fun x => x != (d, b) } }

/-! ## Faults and page health -/

/-- R108: a fault replaces the last fault, raises the fault count and raises LIBRARY attention. -/
def Part.recordFault (p : Part) (kind : FaultKind) (d b : Nat) : Part :=
  { p with
    lib := { p.lib with lastFault := some { kind, die := d, block := b }, faultCount := satInc 255 p.lib.faultCount } }.raise
    .library

/-- R96: the health of the entry whose current block is the block read. -/
def markHealth (outcome : ReadOutcome) (e : CatEntry) : CatEntry :=
  match outcome with
  | .clean => e
  | .corrected n => if 6 ≤ n then { e with weak := true } else e
  | .uncorrectable => { e with damaged := true }

/-- R96: the controller's own effects at the completion of a page read. -/
def Part.pageReadEffects (p : Part) (d b : Nat) (outcome : ReadOutcome) : Part :=
  let p := { p with
    catalog := p.catalog.map fun e =>
      if e.current.die == d && e.current.block == b then markHealth outcome e else e }
  match outcome with
  | .uncorrectable => p.recordFault .read d b
  | .clean => p
  | .corrected _ => p

/-- 04 introduction: the catalog writes the last-operation outcome. -/
def Part.operationEnds (p : Part) (kind : OperationKind) (song : Option Nat) (ending : OperationEnd) : Part :=
  { p with lib := { p.lib with lastOperation := some { kind, song, ending } } }

end Sys2Proof.Machine
end

