-- ==== Sys2Proof/Machine/Catalog.lean ====
section
/-! DEFINITION. Machine/Catalog.lean: the Song Catalog's shared operations: pin counts (R69), the successor switch (R85, R88), the install
record's operations (R81, R82, R85, R86) and mount resolution and completion (R72 to R74). -/

namespace Sys2Proof.Machine

/-- R69: the song has gained a live entry. -/
def Part.addPin (p : Part) (song : Nat) : Part := p.mapCatEntry song fun e => { e with pins := e.pins + 1 }

/-- R69: the song has lost a live entry. -/
def Part.dropPin (p : Part) (song : Nat) : Part := p.mapCatEntry song fun e => { e with pins := e.pins - 1 }

/-! ## The switch -/

/-- R88: the entry takes a new block; WEAK and DAMAGED are cleared and an OFFLINE entry becomes READY. -/
def switchEntry (blk : SongBlock) (e : CatEntry) : CatEntry :=
  { e with current := blk, weak := false, damaged := false,
           state := if e.state = .offline then .ready else e.state, successor := none }

/-- R85, R88: the switch of a song to a block. The old block goes to the end of the reclaim list unless its die is
FAULTED. -/
def Part.switchTo (p : Part) (song : Nat) (blk : SongBlock) : Part :=
  match p.catEntry song with
  | none => p
  | some e =>
    let p := p.mapCatEntry song (switchEntry blk)
    if (p.die e.current.die).state = .faulted then p else p.reclaimPush e.current.die e.current.block

/-- R88: the play context releases a song; a waiting successor becomes the entry's block. -/
def Part.release (p : Part) (song : Nat) : Part :=
  match (p.catEntry song).bind CatEntry.successor with
  | none => p
  | some blk => p.switchTo song blk

/-- R66: an entry joins the catalog in its place in song order. -/
def insertEntry (e : CatEntry) : List CatEntry → List CatEntry
  | [] => [e]
  | x :: rest => if e.song < x.song then e :: x :: rest else x :: insertEntry e rest

/-- R74, R85: a new entry: READY, healthy, with no live entries and no successor. -/
def newEntry (song : Nat) (blk : SongBlock) : CatEntry :=
  { song, current := blk, state := .ready, weak := false, damaged := false, pins := 0, successor := none }

/-! ## Install -/

/-- R81 step 1 and 2: the die an install goes to: the one the held song does not lie on if it has a FREE block, else the one
with more FREE blocks, die 0 when they are equal. `free0` and `free1` are the FREE counts, 0 for a die that is FAULTED or holds no map. -/
def chooseDie (held : Option Nat) (free0 free1 : Nat) : Option Nat :=
  if free0 = 0 ∧ free1 = 0 then none
  else if held = some 0 ∧ 0 < free1 then some 1
  else if held = some 1 ∧ 0 < free0 then some 0
  else if free0 < free1 then some 1 else some 0

/-- R80, R81: the FREE blocks of a die that an install may take. -/
def usableFree (x : Die) : Nat := if x.state = .faulted then 0 else blockCount x .free

/-- R81: the die an INSTALL BEGIN chooses now. -/
def Part.installDie (p : Part) : Option Nat :=
  chooseDie (p.play.song.map fun s => s.blk.die) (usableFree p.lib.die0) (usableFree p.lib.die1)

/-- R105: the lowest-numbered FREE block of a die. -/
def Part.lowestFree (p : Part) (d : Nat) : Nat := ((p.die d).map.getD []).findIdx fun b => b == BlockState.free

/-- R86: the install fails: the record returns to NONE, the outcome is written and LIBRARY attention raised. -/
def Part.installFails (p : Part) (ending : OperationEnd) : Part :=
  match p.install with
  | none => p
  | some r => ({ p with install := none }.operationEnds .install (some r.song) ending).raise .library

/-- R82: the catalog requests an install operation, in the install program class. On a FAULTED die it ends as R86 gives (R100). -/
def Part.installRequest (p : Part) (r : Install) (op : InstallOp) (page : Nat) (data : List Byte) : Part :=
  let p := { p with install := some { r with inFlight := some op } }
  if p.dieFaulted r.target.die then p.installFails .failedDie
  else p.request r.target.die { requester := .install op, block := r.target.block, page, data, givenUp := false }

/-- R82: with no install operation in flight, the next one is requested when it may be. The page to program is the program mark
(R97): the header, then each stream page once taken, then the closing page once INSTALL CLOSE has been taken. -/
def Part.installProceed (p : Part) : Part :=
  match p.install with
  | none => p
  | some r =>
    match r.inFlight with
    | some _ => p
    | none =>
      let k := p.lib.programMark
      if k = 0 then p.installRequest r (.program 0) 0 (headerPage r)
      else if k ≤ r.target.pages then
        match r.buffered with
        | [] => p
        | data :: _ => p.installRequest r (.program k) k data
      else if r.closing then p.installRequest r (.program k) k (closingPage r) else p

/-- R85: whether the play context's entry names the song. -/
def Part.holdsSong (p : Part) (song : Nat) : Bool := (p.play.song.map HeldSong.song) == some song

/-- R85: the closing program completes PASS and the install takes effect. -/
def Part.installCompletes (p : Part) (r : Install) : Part :=
  let p := { p with install := none }.setBlock r.target.die r.target.block .song
  let p :=
    match p.catEntry r.song with
    | none => { p with catalog := insertEntry (newEntry r.song r.target) p.catalog }
    | some _ =>
      if p.holdsSong r.song then p.mapCatEntry r.song fun e => { e with successor := some r.target }
      else p.switchTo r.song r.target
  (p.operationEnds .install (some r.song) .done).raise .library

/-! ## Mount -/

/-- R73: a candidate of the mount with its place. -/
structure Candidate where
  header : HeaderFields
  die : Nat
  block : Nat
deriving DecidableEq, Repr

/-- The candidates of a die's judgements, in block order. -/
def candidatesOf (d : Nat) (judged : List Judgement) : List Candidate :=
  judged.zipIdx.filterMap fun j =>
    match j.1 with
    | .candidate header => some { header, die := d, block := j.2 }
    | .bad => none
    | .free => none
    | .reclaim => none

/-- R73: whether one candidate is kept before another of the same song: the higher edition, then the lower die, then the lower
block. -/
def beats (a b : Candidate) : Bool :=
  a.header.song == b.header.song &&
    (b.header.edition < a.header.edition ||
      (a.header.edition == b.header.edition && (a.die < b.die || (a.die == b.die && a.block < b.block))))

/-- R73: the kept candidates. -/
def keptCandidates (all : List Candidate) : List Candidate := all.filter fun c => !all.any fun a => beats a c

/-- R74: the state a judged block enters the map in. -/
def judgedState (kept : List Candidate) (d : Nat) (j : Judgement × Nat) : BlockState :=
  match j.1 with
  | .bad => .bad
  | .free => .free
  | .reclaim => .reclaim
  | .candidate _ => if kept.any fun c => c.die == d && c.block == j.2 then .song else .reclaim

/-- R74: the block map of a die from its judgements. -/
def mapOf (kept : List Candidate) (d : Nat) (judged : List Judgement) : List BlockState :=
  judged.zipIdx.map (judgedState kept d)

/-- The blocks of a map in RECLAIM, in ascending order. -/
def reclaimOf (d : Nat) (map : List BlockState) : List (Nat × Nat) :=
  (map.zipIdx.filter fun b => b.1 == BlockState.reclaim).map fun b => (d, b.2)

/-- R74: the catalog entry of a kept candidate. -/
def entryOf (c : Candidate) : CatEntry :=
  newEntry c.header.song
    { edition := c.header.edition, die := c.die, block := c.block, pages := c.header.pages, duration := c.header.duration,
      parts := c.header.parts }

/-- R74: the entries of the kept candidates in song order. -/
def catalogOf (kept : List Candidate) : List CatEntry := kept.foldl (fun cat c => insertEntry (entryOf c) cat) []

/-- R74: a scanned die takes its map and its scan ends; a die that was not scanned to its end holds none. -/
def mountDie (kept : List Candidate) (d : Nat) (x : Die) : Die :=
  if x.scan = .done then { x with map := some (mapOf kept d x.judged), scan := .notScanning, judged := [] }
  else { x with scan := .notScanning, judged := [] }

/-- R74: mount completion: the block maps, the reclaim list, the catalog, MOUNTED, the outcome and LIBRARY attention. Background
erase begins from this event (R101). -/
def Part.completeMount (p : Part) : Part :=
  let judged := fun (x : Die) => if x.scan = .done then x.judged else []
  let kept := keptCandidates (candidatesOf 0 (judged p.lib.die0) ++ candidatesOf 1 (judged p.lib.die1))
  let die0 := mountDie kept 0 p.lib.die0
  let die1 := mountDie kept 1 p.lib.die1
  let p := { p with
    catalog := catalogOf kept
    lib := { p.lib with
      die0 := die0, die1 := die1, state := .mounted,
      reclaim := reclaimOf 0 (die0.map.getD []) ++ reclaimOf 1 (die1.map.getD []) } }
  let p := (p.operationEnds .mount none .done).raise .library
  (p.grantIfIdle 0).grantIfIdle 1

/-- R71, R75: the mount ends in FAILED: no further scan read is requested and nothing judged is kept. -/
def Part.failMount (p : Part) : Part :=
  let stop := fun (x : Die) => { x with scan := .notScanning, judged := [] }
  let p := { p with lib := { p.lib with state := .failed, die0 := stop p.lib.die0, die1 := stop p.lib.die1 } }
  (p.operationEnds .mount none .failedDie).raise .library

/-- R72: a scan read of a page of a block, in the mount scan read class. -/
def Part.requestScan (p : Part) (d block page : Nat) : Part :=
  p.request d { requester := .scan, block, page, data := [], givenUp := false }

/-- R72: the scan of a present die begins with block 0. -/
def Part.beginScan (p : Part) (d : Nat) : Part :=
  if (p.die d).state = .idle then
    (p.mapDie d fun x => { x with scan := .header 0, judged := [] }).requestScan d 0 0
  else p

/-- R71, R72: once both positions are identified, the present dies are scanned at the same time (assumption 19). -/
def Part.beginScans (p : Part) : Part :=
  if p.lib.die0.identifying.isSome || p.lib.die1.identifying.isSome then p else (p.beginScan 0).beginScan 1

/-- R73, R74, R75: the mount completes when the scans of all present dies are complete. -/
def Part.mountIfScanned (p : Part) : Part :=
  let scanned := fun (x : Die) => x.scan == .done || x.state == .absent || x.state == .faulted
  if p.lib.state = .mounting ∧ p.lib.die0.scan = .done ∧ scanned p.lib.die1 = true then p.completeMount else p

/-- R72: a block is judged, and the next block is read or the die's scan is complete. -/
def Part.judgeBlock (p : Part) (d block : Nat) (j : Judgement) : Part :=
  if block + 1 < Config.blocksPerDie then
    (p.mapDie d fun x => { x with judged := x.judged ++ [j], scan := .header (block + 1) }).requestScan d (block + 1) 0
  else (p.mapDie d fun x => { x with judged := x.judged ++ [j], scan := .done }).mountIfScanned

/-- Table 4-3: the judgement of a block from its page 0 when that settles it; none when page n + 1 must be read, for the header
given. -/
def judgePage0 (r : PageRead) : Judgement ⊕ HeaderFields :=
  if readFactoryBad r then .inl .bad
  else
    match (readData r).bind validHeader with
    | none => .inl .free
    | some h => .inr h

/-- Table 4-3: the judgement from page n + 1. -/
def judgeClosing (h : HeaderFields) (r : PageRead) : Judgement :=
  match readData r with
  | none => .reclaim
  | some page => if closingMatches page h then .candidate h else .reclaim

end Sys2Proof.Machine
end

