-- ==== Sys2Proof/Machine/Book.lean ====
section
/-! DEFINITION. Machine/Book.lean: the Notice Store's shared operations (R48 to R56) and the Request Book's: positions (R1, R21), tickets
(R4), placement (R5 to R8), the shared add (R10), strikes (R17), retirement (R20), departure (R19) and JOIN (R12). -/

namespace Sys2Proof.Machine

/-! ## Positions -/

/-- R1: each live entry with its position: 0 for the CUED or PLAYING entry, waiting entries numbered on from `next`. -/
def positionsFrom : Nat → List Entry → List (Nat × Entry)
  | _, [] => []
  | next, e :: rest =>
    if e.state = .waiting then (next, e) :: positionsFrom (next + 1) rest else (0, e) :: positionsFrom next rest

/-- R1: the positions of a book order. -/
def positions (entries : List Entry) : List (Nat × Entry) := positionsFrom 1 entries

/-- The live entry of a ticket. -/
def Part.entry (p : Part) (ticket : Nat) : Option Entry := p.book.entries.find? fun e => e.ticket == ticket

/-- R1: the position of a live ticket. -/
def positionOf (entries : List Entry) (ticket : Nat) : Option Nat :=
  ((positions entries).find? fun x => x.2.ticket == ticket).map Prod.fst

/-- R1: the CUED or PLAYING entry. -/
def heldEntry (entries : List Entry) : Option Entry := entries.find? fun e => e.state != .waiting

/-- R1: the WAITING entries in book order. -/
def waitingEntries (entries : List Entry) : List Entry := entries.filter fun e => e.state == .waiting

/-- The entries of a slot in book order as TICKETS and POSITION list them, up to 8 (R53, R61). -/
def ticketLines (entries : List Entry) (slot : Nat) : List TicketLine :=
  (((positions entries).filter fun x => x.2.origin == .slot slot).take 8).map fun x =>
    { ticket := x.2.ticket, position := x.1, state := x.2.state }

/-- R21: whether an entry of the slot has moved: WAITING before and after, at another position. -/
def slotMoved (before after : List Entry) (slot : Nat) : Bool :=
  (positions after).any fun x =>
    x.2.origin == .slot slot && x.2.state == .waiting &&
      (positions before).any fun y => y.2.ticket == x.2.ticket && y.2.state == .waiting && y.1 != x.1

/-! ## Notice Store -/

/-- R53: the POSITION flag of a slot becomes SET, whatever its value. -/
def Part.setPosition (p : Part) (slot : Nat) : Part := p.mapStore slot fun st => { st with position := .set }

/-- R55: the struck list has dropped its oldest item; a POLL out to the slot that carries it no longer has it. -/
def dropCarried (slot : Nat) (turn : Turn) : Turn :=
  match turn with
  | .poll s (some (.struck true)) => if s = slot then .poll s (some (.struck false)) else turn
  | .poll _ _ => turn
  | .none => turn
  | .claimWindow => turn
  | .idleInterval => turn

/-- R50: a STRUCK item joins the end of the slot's struck list; of 8 the oldest is dropped first. -/
def Part.pushStruck (p : Part) (slot : Nat) (item : StruckItem) : Part :=
  if (p.store slot).struck.length < Config.struckCapacity then
    p.mapStore slot fun st => { st with struck := st.struck ++ [item] }
  else
    { p.mapStore slot fun st => { st with struck := st.struck.drop 1 ++ [item] } with
      line := { p.line with turn := dropCarried slot p.line.turn } }

/-- R51: the cued notice of a slot is set to a ticket. -/
def Part.setCued (p : Part) (slot ticket : Nat) : Part := p.mapStore slot fun st => { st with cued := some ticket }

/-- R52: the score notice of a slot is set. -/
def Part.setScore (p : Part) (slot : Nat) (notice : ScoreNotice) : Part :=
  p.mapStore slot fun st => { st with score := some notice }

/-- R49, R57: a reply is placed in the slot's reply slot. -/
def Part.placeReply (p : Part) (slot : Nat) (reply : Reply) : Part :=
  p.mapStore slot fun st => { st with reply := .held reply }

/-- R56, R102: whether a request is the FIND read bound to a slot. -/
def boundTo (slot : Nat) : Requester → Bool
  | .lookupSlot s _ => s == slot
  | .stream => false
  | .lookupPort => false
  | .scan => false
  | .install _ => false
  | .withdraw _ => false
  | .reclaim => false

/-- R56: the slot's store is emptied. A bound read still waiting is withdrawn; one in progress is unbound, and its result discarded. -/
def Part.emptyStore (p : Part) (slot : Nat) : Part :=
  ((p.mapStore slot fun _ => Store.empty).giveUp 0 (boundTo slot)).giveUp 1 (boundTo slot)

/-! ## Changes to the book -/

/-- R21: the book order changes, and every slot with a moved entry has its POSITION flag set. -/
def Part.withEntries (p : Part) (entries : List Entry) : Part :=
  (slotNumbers.filter (slotMoved p.book.entries entries)).foldl Part.setPosition
    { p with book := { p.book with entries := entries } }

/-- The entry of a ticket changes in its place; no entry moves. -/
def Part.mapEntry (p : Part) (ticket : Nat) (f : Entry → Entry) : Part :=
  { p with book := { p.book with
      entries := p.book.entries.map fun e => if e.ticket == ticket then f e else e } }

/-- The book order without a ticket. -/
def withoutTicket (entries : List Entry) (ticket : Nat) : List Entry := entries.filter fun e => e.ticket != ticket

/-- R1: the book order with an entry inserted among the WAITING entries behind the first `n` of them. -/
def insertWaiting (entries : List Entry) (n : Nat) (e : Entry) : List Entry :=
  (entries.filter fun x => x.state != .waiting) ++ (waitingEntries entries).take n ++ [e] ++
    (waitingEntries entries).drop n

/-- R4: advancing the ticket counter. -/
def nextTicket (v : Nat) : Nat := if v = 65535 then 1 else v + 1

/-- R4: the first value from the counter on that no live entry carries. -/
def findTicket (entries : List Entry) : Nat → Nat → Nat
  | 0, v => v
  | fuel + 1, v => if entries.any fun e => e.ticket == v then findTicket entries fuel (nextTicket v) else v

/-- R4: the ticket an accepted add issues; the search ends within 65 candidates. -/
def issueTicket (b : Book) : Nat := findTicket b.entries 65 b.counter

/-- R5: the base round. -/
def baseRound (entries : List Entry) : Nat :=
  match heldEntry entries with
  | some e => e.round
  | none =>
    match waitingEntries entries with
    | e :: _ => e.round
    | [] => 0

/-- R6: the highest round among the live entries of an origin, none if it has none. -/
def lastRound (entries : List Entry) (o : Origin) : Option Nat :=
  ((entries.filter fun e => e.origin == o).map Entry.round).max?

/-- R6: the round a new entry receives in ROTATION. -/
def rotationRound (entries : List Entry) (o : Origin) : Nat :=
  match lastRound entries o with
  | none => min 65535 (baseRound entries)
  | some last => min 65535 (max (baseRound entries) (last + 1))

/-- R6: how many WAITING entries stand up to the last one whose round is at most r. -/
def rotationPlace (entries : List Entry) (r : Nat) : Nat :=
  (waitingEntries entries).length - ((waitingEntries entries).reverse.takeWhile fun e => r < e.round).length

/-- R7: the round a new entry receives in ARRIVAL. -/
def arrivalRound (entries : List Entry) : Nat :=
  match entries.getLast? with
  | some e => e.round
  | none => baseRound entries

/-- R6, R7, R8: the round of a new entry and how many WAITING entries stand before it. -/
def placement (mode : OrderMode) (entries : List Entry) (o : Origin) (front : Bool) : Nat × Nat :=
  if front then (baseRound entries, 0)
  else
    match mode with
    | .rotation => (rotationRound entries o, rotationPlace entries (rotationRound entries o))
    | .arrival => (arrivalRound entries, (waitingEntries entries).length)

/-- Table 1-1: seat 0 is claimed by the origin slot, or by none for DESK; the other claims are none. -/
def seatsFor (o : Origin) (singers : Nat) : List (Option Nat) :=
  (match o with | .slot n => some n | .desk => none) :: List.replicate (singers - 1) none

/-- R10: the inputs of an add. -/
structure AddInput where
  origin : Origin
  song : Nat
  singers : Nat
  key : Int
  tempo : Int
  front : Bool
deriving DecidableEq, Repr

/-- R15, R10: the tempo range. -/
def tempoInRange (t : Int) : Bool := -5 ≤ t && t ≤ 5

/-- Table 1-3: the checks that concern a handset origin alone. -/
def Part.slotAddCheck (p : Part) (slot song : Nat) : Option Cause :=
  if p.settings.quota ≤ (p.slot slot).live then some .quota
  else if p.book.entries.any fun e => e.origin == .slot slot && e.song == song then some .duplicate else none

/-- Table 1-3: the first check of an add that fails. -/
def Part.addCheck (p : Part) (a : AddInput) : Option Cause :=
  if !(songInRange a.song && 1 ≤ a.singers && a.singers ≤ 4 && keyInRange a.key && tempoInRange a.tempo) then
    some .badForm
  else if p.lib.state != .mounted then some .notMounted
  else
    match p.catEntry a.song with
    | none => some .noSuchSong
    | some c =>
      if c.state != .ready then some .notReady
      else if Config.bookCapacity ≤ p.book.entries.length then some .bookFull
      else
        match a.origin with
        | .desk => none
        | .slot n => p.slotAddCheck n a.song

/-- R10: the entry of an add. -/
def Part.newEntry (p : Part) (a : AddInput) : Entry :=
  { ticket := issueTicket p.book, song := a.song, origin := a.origin,
    round := (placement p.settings.orderMode p.book.entries a.origin a.front).1, singers := a.singers,
    seats := seatsFor a.origin a.singers, key := a.key, tempo := a.tempo, state := .waiting }

/-- R10, R11: the origin slot's live-entry count changes when the origin is a handset. -/
def Part.mapLive (p : Part) (o : Origin) (f : Nat → Nat) : Part :=
  match o with
  | .desk => p
  | .slot n => p.mapSlot n fun x => { x with live := f x.live }

/-- R10: what an accepted add does. -/
def Part.insertNew (p : Part) (a : AddInput) : Part :=
  let e := p.newEntry a
  let place := (placement p.settings.orderMode p.book.entries a.origin a.front).2
  let p := p.withEntries (insertWaiting p.book.entries place e)
  let p := { p with book := { p.book with counter := nextTicket e.ticket } }
  let p := (p.addPin a.song).mapLive a.origin (· + 1)
  match a.origin with
  | .desk => p
  | .slot _ => p.raise .book

/-- R10: the shared add: the cause of its refusal, or the new ticket and the position it holds once the add is complete. -/
def Part.add (p : Part) (a : AddInput) : Part × (Cause ⊕ Nat × Nat) :=
  match p.addCheck a with
  | some cause => (p, .inl cause)
  | none =>
    let ticket := issueTicket p.book
    let p := p.insertNew a
    (p, .inr (ticket, (positionOf p.book.entries ticket).getD 0))

/-! ## Leaving the book -/

/-- R17: whether a strike places a STRUCK item in its origin's store. -/
def givesStruckItem : StrikeReason → Bool
  | .cancelled => true | .withdrawn => true | .damaged => true | .skipped => true
  | .left => false | .barred => false | .cleared => false

/-- R17: the STRUCK item for a handset origin that is ACTIVE or SILENT. -/
def Part.noticeStrike (p : Part) (e : Entry) (reason : StrikeReason) : Part :=
  match e.origin with
  | .desk => p
  | .slot n =>
    if givesStruckItem reason && ((p.slot n).state == .active || (p.slot n).state == .silent) then
      p.pushStruck n { ticket := e.ticket, reason }
    else p

/-- R17: the book's part in a strike of an entry. `quiet` holds for a strike made by CANCEL REQUEST or by room clear, which raises
no BOOK attention; room clear also sets no POSITION flag (R21, R25). -/
def Part.strikeEntry (p : Part) (e : Entry) (reason : StrikeReason) (quiet : Bool) : Part :=
  let left := withoutTicket p.book.entries e.ticket
  let p := if reason = .cleared then { p with book := { p.book with entries := left } } else p.withEntries left
  let p := (p.dropPin e.song).mapLive e.origin (· - 1)
  let p := p.noticeStrike e reason
  let p := { p with book := { p.book with
    lastStrike := some { ticket := e.ticket, song := e.song, origin := e.origin, reason },
    strikeCount := satInc 255 p.book.strikeCount } }
  if quiet then p else p.raise .book

/-- R17: the strike of a ticket, if it is live. -/
def Part.strike (p : Part) (ticket : Nat) (reason : StrikeReason) (quiet : Bool) : Part :=
  match p.entry ticket with
  | none => p
  | some e => p.strikeEntry e reason quiet

/-- R18: one event strikes every WAITING entry of a kind, in book order. -/
def Part.strikeWaiting (p : Part) (which : Entry → Bool) (reason : StrikeReason) (quiet : Bool) : Part :=
  ((waitingEntries p.book.entries).filter which).foldl (fun p e => p.strike e.ticket reason quiet) p

/-- R20, R25: an entry is removed without a strike: its song's pin count and its origin's live-entry count fall. -/
def Part.removeEntry (p : Part) (e : Entry) : Part :=
  (({ p with book := { p.book with entries := withoutTicket p.book.entries e.ticket } }).dropPin e.song).mapLive e.origin
    (· - 1)

/-- R20: retirement of the PLAYING entry. -/
def Part.retire (p : Part) (e : Entry) : Part := (p.removeEntry e).raise .book

/-- R19 steps 2 and 3: what a departure leaves of an entry: no claim of the slot, and DESK as origin if it was the slot. -/
def leaveEntry (slot : Nat) (e : Entry) : Entry :=
  { e with
    seats := e.seats.map fun c => if c = some slot then none else c
    origin := if e.origin = .slot slot then .desk else e.origin }

/-- R19: the Request Book acts on a departure. -/
def Part.bookDeparture (p : Part) (slot : Nat) (reason : StrikeReason) : Part :=
  let p := p.strikeWaiting (fun e => e.origin == .slot slot) reason false
  let p := { p with book := { p.book with entries := p.book.entries.map (leaveEntry slot) } }
  p.mapSlot slot fun x => { x with live := 0 }

/-- R41 steps 3 and 4: the slot record on entering FREE or BARRED. -/
def departSlot (barred : Bool) (x : Slot) : Slot :=
  if barred then { x with state := .barred, misses := 0 }
  else { x with state := .free, misses := 0, serial := none, parity := 0, framing := 0, check := 0, overlaps := 0 }

/-- R41: a slot enters FREE or BARRED by other causes than room clear. -/
def Part.depart (p : Part) (slot : Nat) (barred : Bool) : Part :=
  let p := p.bookDeparture slot (if barred then .barred else .left)
  let p := p.emptyStore slot
  (p.mapSlot slot (departSlot barred)).raise .handset

/-! ## Seats -/

/-- R12: the lowest-numbered seat from 1 upward whose claim is none. -/
def freeSeat (e : Entry) : Option Nat :=
  ((e.seats.zipIdx).find? fun c => c.1 == none && 1 ≤ c.2).map Prod.snd

/-- R12: the first check of a JOIN that fails, or the entry and the seat it takes. -/
def Part.joinCheck (p : Part) (slot ticket : Nat) : Cause ⊕ Entry × Nat :=
  match p.entry ticket with
  | none => .inl .noSuchTicket
  | some e =>
    if e.state = .playing then .inl .tooLate
    else if e.seats.contains (some slot) then .inl .duplicate
    else
      match freeSeat e with
      | none => .inl .seatsFull
      | some seat => .inr (e, seat)

/-- R12, R51: an accepted JOIN: the seat takes the claim and BOOK attention is raised; on a CUED entry the slot's cued notice is set. -/
def Part.join (p : Part) (slot : Nat) (e : Entry) (seat : Nat) : Part :=
  let p := (p.mapEntry e.ticket fun x => { x with seats := x.seats.set seat (some slot) }).raise .book
  if e.state = .cued then p.setCued slot e.ticket else p

/-! ## Key -/

/-- R15, R63, R111: a key is written to a live entry, and to the play context when it holds that entry. -/
def Part.writeKey (p : Part) (ticket : Nat) (key : Int) : Part :=
  let p := p.mapEntry ticket fun e => { e with key := key }
  if p.play.entry = some ticket then { p with play := { p.play with key := key } } else p

end Sys2Proof.Machine
end

