-- ==== Sys2Proof/Machine/Reader.lean ====
section
/-! DEFINITION. Machine/Reader.lean: the Stream Reader (R116 to R120, R192): the examination of stream pages, the three queues, the
refilling of the page buffers, and the underrun counts (R133). -/

namespace Sys2Proof.Machine

/-! ## Examination of one record (R117, R192) -/

/-- R117: what stands at an offset of a stream page: the end mark or the end of the page, something for which the rest of the page is
skipped, a record that is skipped, or a record in range; with the offset after it. -/
inductive Examined where
  | endMark
  | skipRest
  | skipRecord (next : Nat)
  | record (r : Record) (next : Nat)
deriving DecidableEq, Repr

/-- R192: the syllable at an offset. -/
def syllableAt (page : List Byte) (offset : Nat) : Syllable :=
  { glyphs := (byteAt page offset).toNat, start := u24At page (offset + 1), stop := u24At page (offset + 4) }

/-- R192: the LINE at an offset. -/
def lineAt (page : List Byte) (offset : Nat) : LineRecord :=
  let g := (byteAt page (offset + 2)).toNat
  let y := (byteAt page (offset + 3)).toNat
  { mask := (byteAt page (offset + 1)).toNat
    codes := (List.range g).map fun i => u16At page (offset + 4 + 2 * i)
    syllables := (List.range y).map fun j => syllableAt page (offset + 4 + 2 * g + 7 * j) }

/-- Table 6-3: each syllable starts before it ends, and at or after the end of the one before it. -/
def syllablesOrdered : Nat → List Syllable → Bool
  | _, [] => true
  | from_, y :: rest => from_ ≤ y.start && y.start < y.stop && syllablesOrdered y.stop rest

/-- The start of a line's first syllable. -/
def LineRecord.firstStart (l : LineRecord) : Nat := (l.syllables.head?.map Syllable.start).getD 0

/-- The end of a line's last syllable. -/
def LineRecord.lastEnd (l : LineRecord) : Nat := (l.syllables.getLast?.map Syllable.stop).getD 0

/-- Table 6-3, R192: a LINE is in range. -/
def lineInRange (blk : SongBlock) (l : LineRecord) : Bool :=
  1 ≤ l.codes.length && l.codes.length ≤ 40 && l.codes.all (· ≤ 2047) && 1 ≤ l.syllables.length &&
    l.syllables.length ≤ 24 && (l.syllables.all fun y => 1 ≤ y.glyphs) &&
    (l.syllables.map Syllable.glyphs).sum == l.codes.length && syllablesOrdered 0 l.syllables &&
    l.lastEnd ≤ blk.duration && 1 ≤ l.mask && l.mask < 2 ^ blk.parts

/-- Table 6-3: a record is in range for the song. -/
def recordInRange (blk : SongBlock) : Record → Bool
  | .line l => lineInRange blk l
  | .note part number start stop =>
    part < blk.parts && 36 ≤ number && number ≤ 96 && start < stop && stop ≤ blk.duration
  | .beat time => time < blk.duration

/-- R192: a record's key. -/
def Record.key : Record → Nat
  | .line l => l.firstStart
  | .note _ _ start _ => start
  | .beat time => time

/-- R117 rules 2 and 3: a record of a known length at an offset; a part byte of 0 is no part. -/
def examineRecord (blk : SongBlock) (page : List Byte) (offset length : Nat) (r : Option Record) : Examined :=
  if page.length < offset + length then .skipRest
  else
    match r with
    | none => .skipRecord (offset + length)
    | some r => if recordInRange blk r then .record r (offset + length) else .skipRecord (offset + length)

/-- R192: the NOTE at an offset; parts A to D are 1 to 4 in the record. -/
def noteAt (page : List Byte) (offset : Nat) : Option Record :=
  let part := (byteAt page (offset + 1)).toNat
  if part = 0 then none
  else some (.note (part - 1) (byteAt page (offset + 2)).toNat (u24At page (offset + 3)) (u24At page (offset + 6)))

/-- R117, R192: the record at an offset of a stream page. A LINE whose two counts lie past the end of the page runs past it. -/
def examine (blk : SongBlock) (page : List Byte) (offset : Nat) : Examined :=
  if page.length ≤ offset then .endMark
  else
    match (byteAt page offset).toNat with
    | 0 => .endMark
    | 255 => .endMark
    | 1 =>
      if page.length < offset + 4 then .skipRest
      else
        examineRecord blk page offset
          (4 + 2 * (byteAt page (offset + 2)).toNat + 7 * (byteAt page (offset + 3)).toNat)
          (some (.line (lineAt page offset)))
    | 2 => examineRecord blk page offset 9 (noteAt page offset)
    | 3 => examineRecord blk page offset 4 (some (.beat (u24At page (offset + 1))))
    | _ => .skipRest

/-! ## Underrun (R133) -/

/-- R133: the first rise of either count after a promotion sets first-underrun-reported and raises PLAY attention. -/
def Part.underrun (p : Part) : Part :=
  if p.play.firstUnderrun then p else { p with play := { p.play with firstUnderrun := true } }.raise .play

/-- R133: late lines rises by one. -/
def Part.countLateLine (p : Part) : Part :=
  { p with play := { p.play with lateLines := satInc 65535 p.play.lateLines } }.underrun

/-- R133: unknown windows rises by one. -/
def Part.countUnknownWindow (p : Part) : Part :=
  { p with play := { p.play with unknownWindows := satInc 65535 p.play.unknownWindows } }.underrun

/-! ## Placing a record (R118) -/

/-- Whether the play context is RUNNING or PAUSED. -/
def Part.playing (p : Part) : Bool := p.play.state == .running || p.play.state == .paused

/-- Song time has reached a time in milliseconds. -/
def Part.reached (p : Part) (ms : Nat) : Bool := ms * Config.stepsPerMs ≤ p.play.time

/-- R133: a LINE placed now is late. -/
def Part.lateLine (p : Part) (l : LineRecord) : Bool :=
  p.playing && l.firstStart * Config.stepsPerMs < p.play.time + p.display.lead * Config.stepsPerMs &&
    p.reader.lines.all QueuedLine.given

/-- R163: a NOTE joins the queue with its captured key absent and its tallies at zero and not yet judged. -/
def newTally : Tally := { hit := 0, near := 0, miss := 0, silent := 0, onset := .notJudged }

/-- R140: a LINE joins the line queue and takes its ordinal. -/
def Part.placeLine (p : Part) (l : LineRecord) : Part :=
  let late := p.lateLine l
  let p := { p with reader := { p.reader with
    lines := p.reader.lines ++ [{ line := l, ordinal := p.reader.ordinals, given := false }]
    ordinals := p.reader.ordinals + 1 } }
  if late then p.countLateLine else p

/-- R118: a record is placed in its queue, or, having passed while playing, is not placed; none when its queue is full. -/
def Part.place (p : Part) (r : Record) : Option Part :=
  match r with
  | .line l => if p.reader.lines.length < Config.lineCapacity then some (p.placeLine l) else none
  | .note part number start stop =>
    if p.playing && p.reached stop then some p
    else if p.reader.notes.length < Config.noteCapacity then
      some { p with reader := { p.reader with
        notes := p.reader.notes ++
          [{ part, number, start, stop, key := none, tallies := List.replicate 4 newTally }] } }
    else none
  | .beat time =>
    if p.playing && p.reached time then some p
    else if p.reader.beats.length < Config.beatCapacity then
      some { p with reader := { p.reader with beats := p.reader.beats ++ [time] } }
    else none

/-- R118: a record is placed, or held with the reader STALLED when its queue is full. -/
def Part.placeOrHold (p : Part) (r : Record) : Part :=
  match p.place r with
  | some p' => p'
  | none => { p with reader := { p.reader with held := some r, state := .stalled } }

/-! ## Accepting a record (R117) -/

/-- R117: skipped records rises by one. -/
def Part.countSkipped (p : Part) : Part :=
  { p with play := { p.play with skippedRecords := satInc 65535 p.play.skippedRecords } }

/-- The start of the last accepted NOTE of a part. -/
def Reader.lastStart (r : Reader) (part : Nat) : Option Nat := r.lastStarts.getD part none

/-- R117 rules 4 and 5: a record in range is skipped all the same. -/
def outOfOrder (rd : Reader) (r : Record) : Bool :=
  (match rd.lastKey with
    | some k => r.key < k
    | none => false) ||
  match r with
  | .note part _ start _ => rd.lastStart part == some start
  | .line _ => false
  | .beat _ => false

/-- R117: the last accepted NOTE of the part, still queued with a later end, ends at the new NOTE's start. -/
def truncateNote (rd : Reader) (part start : Nat) (n : QueuedNote) : QueuedNote :=
  if n.part = part ∧ rd.lastStart part = some n.start ∧ start < n.stop then { n with stop := start } else n

/-- R117: what accepting a record does to the reader before the record is placed. -/
def Reader.accept (rd : Reader) (r : Record) : Reader :=
  let rd := { rd with lastKey := some r.key, keyReached := rd.keyReached || 8000 ≤ r.key }
  match r with
  | .note part _ start _ =>
    { rd with notes := rd.notes.map (truncateNote rd part start), lastStarts := rd.lastStarts.set part (some start) }
  | .line _ => rd
  | .beat _ => rd

/-- R117 rules 4 to 6: a record in range is skipped and counted, or accepted and placed. -/
def Part.takeRecord (p : Part) (r : Record) : Part :=
  if outOfOrder p.reader r then p.countSkipped
  else { p with reader := p.reader.accept r }.placeOrHold r

/-! ## Buffers (R116) -/

/-- The page a buffer holds or awaits. -/
def Buffer.page : Buffer → Option Nat
  | .empty => none
  | .requested k => some k
  | .full k _ => some k
  | .decoding k _ _ => some k

/-- One of the two buffers. -/
def Reader.buffer (rd : Reader) (first : Bool) : Buffer := if first then rd.buf0 else rd.buf1

/-- One of the two buffers written. -/
def Reader.setBuffer (rd : Reader) (first : Bool) (b : Buffer) : Reader :=
  if first then { rd with buf0 := b } else { rd with buf1 := b }

/-- The buffers of a part's reader written. -/
def Part.setBuffer (p : Part) (first : Bool) (b : Buffer) : Part := { p with reader := p.reader.setBuffer first b }

/-- R116: the page being decoded and the offset of the next record in it. -/
def Reader.decodingPage (rd : Reader) : Option (Nat × Nat) :=
  match rd.buf0, rd.buf1 with
  | .decoding k _ offset, _ => some (k, offset)
  | .empty, .decoding k _ offset => some (k, offset)
  | .requested _, .decoding k _ offset => some (k, offset)
  | .full _ _, .decoding k _ offset => some (k, offset)
  | _, _ => none

/-- The request of a stream fetch (R116): class 1 of the song's die. -/
def Part.requestStream (p : Part) (blk : SongBlock) (page : Nat) : Part :=
  p.request blk.die { requester := .stream, block := blk.block, page, data := [], givenUp := false }

/-- R116: a buffer becomes EMPTY, and the next page to fetch is requested into it while there is one. -/
def Part.refill (p : Part) (blk : SongBlock) (first : Bool) : Part :=
  if p.reader.nextFetch ≤ blk.pages then
    let k := p.reader.nextFetch
    { p with reader := { p.reader.setBuffer first (.requested k) with nextFetch := k + 1 } }.requestStream blk k
  else p.setBuffer first .empty

/-- R117: one examination in the page being decoded. -/
def Part.decodeOne (p : Part) (blk : SongBlock) (first : Bool) (k : Nat) (data : List Byte) (offset : Nat) : Part :=
  match examine blk data offset with
  | .endMark => p.refill blk first
  | .skipRest => p.countSkipped.refill blk first
  | .skipRecord next => (p.setBuffer first (.decoding k data next)).countSkipped
  | .record r next => (p.setBuffer first (.decoding k data next)).takeRecord r

/-- R116: whether the page of a FULL buffer is the lowest page not yet decoded. -/
def lowestPage (k : Nat) (other : Buffer) : Bool :=
  match other.page with
  | none => true
  | some j => k < j

/-- R116: one step of a FETCHING reader: one examination, the start of the lowest page that has arrived, or FINISHED; none when the
reader waits. -/
def Part.readerStep (p : Part) (blk : SongBlock) : Option Part :=
  match p.reader.buf0, p.reader.buf1 with
  | .decoding k data offset, _ => some (p.decodeOne blk true k data offset)
  | _, .decoding k data offset => some (p.decodeOne blk false k data offset)
  | .full k data, other =>
    if lowestPage k other then some (p.setBuffer true (.decoding k data 0))
    else
      match other with
      | .full j data1 => some (p.setBuffer false (.decoding j data1 0))
      | _ => none
  | other, .full k data => if lowestPage k other then some (p.setBuffer false (.decoding k data 0)) else none
  | .empty, .empty =>
    if blk.pages < p.reader.nextFetch then some { p with reader := { p.reader with state := .finished } } else none
  | _, _ => none

/-- R116, R117: the reader examines and places until it waits for a page, stalls or finishes. Two pages of 2048 bytes hold at most
1024 records, so the fuel does not run out. -/
def Part.readerLoop (blk : SongBlock) : Nat → Part → Part
  | 0, p => p
  | fuel + 1, p =>
    if p.reader.state = .fetching then
      match p.readerStep blk with
      | some p' => Part.readerLoop blk fuel p'
      | none => p
    else p

/-- The reader goes on with the song the play context holds. -/
def Part.readerRun (p : Part) : Part :=
  match p.play.song with
  | none => p
  | some song => Part.readerLoop song.blk 2100 p

/-- R118: a queue has lost a record: a STALLED reader places the record it holds if there is room, and decoding resumes. -/
def Part.readerResume (p : Part) : Part :=
  match p.reader.state, p.reader.held with
  | .stalled, some r =>
    match p.place r with
    | none => p
    | some p' => { p' with reader := { p'.reader with held := none, state := .fetching } }.readerRun
  | _, _ => p

/-- R116, R102: the reader is emptied: its waiting fetches are withdrawn, a fetch in progress is given up, and everything returns to its
value after pin reset. -/
def Part.readerEmpty (p : Part) : Part :=
  let p := (p.giveUp 0 (· == .stream)).giveUp 1 (· == .stream)
  { p with reader := Reader.reset }

/-- R116: at a promotion the reader enters FETCHING and requests page 0 and page 1. -/
def Part.readerStart (p : Part) (blk : SongBlock) : Part :=
  let p := { p with reader := { Reader.reset with
    state := .fetching, buf0 := .requested 0, buf1 := .requested 1, nextFetch := 2 } }
  (p.requestStream blk 0).requestStream blk 1

/-- R120: staging ready. -/
def Reader.stagingReady (rd : Reader) : Bool :=
  rd.state != .idle &&
    (rd.keyReached || rd.lines.length == Config.lineCapacity || rd.notes.length == Config.noteCapacity ||
      rd.beats.length == Config.beatCapacity || rd.state == .finished)

end Sys2Proof.Machine
end

