-- ==== Sys2Proof/Machine/Compositor.lean ====
section
/-! DEFINITION. Machine/Compositor.lean: the Lyric Compositor (R139 to R152): glyph memory, layout, the rows, the cards, the dots, the plane
drawn at a frame start, and the pixels it gives. -/

namespace Sys2Proof.Machine

/-! ## Glyph memory (R147) -/

/-- R147: the canonical form of glyph memory: the loaded codes 1 to 2047 in strictly rising order. -/
def glyphsOrdered : Nat → List (Nat × Glyph) → Bool
  | _, [] => true
  | last, g :: rest => last < g.1 && g.1 ≤ 2047 && glyphsOrdered g.1 rest

/-- R147: glyph memory is in its canonical form. Code 0 is computed and never listed. -/
def glyphsWf (m : List (Nat × Glyph)) : Bool := glyphsOrdered 0 m

/-- R147: the glyph loaded for a code, none for a code that is not loaded. -/
def glyphAt (m : List (Nat × Glyph)) (code : Nat) : Option Glyph := (m.find? fun g => g.1 == code).map Prod.snd

/-- R148: a glyph is written, replacing what its code held. -/
def writeGlyph (code : Nat) (g : Glyph) : List (Nat × Glyph) → List (Nat × Glyph)
  | [] => [(code, g)]
  | x :: rest =>
    if code < x.1 then (code, g) :: x :: rest
    else if code = x.1 then (code, g) :: rest
    else x :: writeGlyph code g rest

/-- R148: the glyphs load the codes from the first onward. -/
def writeGlyphs : Nat → List Glyph → List (Nat × Glyph) → List (Nat × Glyph)
  | _, [], m => m
  | code, g :: rest, m => writeGlyphs (code + 1) rest (writeGlyph code g m)

/-- R147: the number of loaded codes, code 0 among them. -/
def loadedCodes (m : List (Nat × Glyph)) : Nat := m.length + 1

/-- R145: whether a code has no glyph and stands as a box. -/
def Part.boxed (p : Part) (code : Nat) : Bool := code != 0 && (glyphAt p.glyphs code).isNone

/-- R145, R147: the width of a code: the space width for code 0, 16 for a box. -/
def Part.codeWidth (p : Part) (code : Nat) : Nat :=
  if code = 0 then p.display.spaceWidth
  else
    match glyphAt p.glyphs code with
    | some g => g.width
    | none => 16

/-! ## Layout (R145) -/

/-- R136: the active pixels of a line of the format. -/
def activeWidth : VideoFormat → Nat
  | .hd50 => 1280 | .hd60 => 1280 | .full50 => 1920 | .full60 => 1920

/-- R136: the active lines of the format. -/
def activeLines : VideoFormat → Nat
  | .hd50 => 720 | .hd60 => 720 | .full50 => 1080 | .full60 => 1080

/-- R136: the frames per second of the format. -/
def frameRate : VideoFormat → Nat
  | .hd50 => 50 | .hd60 => 60 | .full50 => 50 | .full60 => 60

/-- R145: a line's width. -/
def Part.lineWidth (p : Part) (codes : List Nat) : Nat := (codes.map p.codeWidth).sum

/-- R145: the safe area's left edge, rounded down to a whole pixel (assumption 18). -/
def Part.safeLeft (p : Part) : Nat := (activeWidth p.settings.videoFormat - p.display.safeWidth) / 2

/-- R145: a line's left edge: centred within the safe area, or the safe area's left edge for a line beyond the safe width. -/
def Part.lineLeft (p : Part) (codes : List Nat) : Nat :=
  if p.lineWidth codes ≤ p.display.safeWidth then (activeWidth p.settings.videoFormat - p.lineWidth codes) / 2
  else p.safeLeft

/-- R145: the counts rise once for a line laid out: one for each missing glyph, and one when it is truncated. -/
def Part.countLayout (p : Part) (codes : List Nat) : Part :=
  { p with lyric := { p.lyric with
    missing := min 65535 (p.lyric.missing + codes.countP p.boxed)
    truncated := if p.display.safeWidth < p.lineWidth codes then satInc 65535 p.lyric.truncated else p.lyric.truncated } }

/-! ## Rows (R140 to R144) -/

/-- One of the two rows. -/
def Part.row (p : Part) (upper : Bool) : Row := if upper then p.lyric.row0 else p.lyric.row1

/-- One of the two rows written. -/
def Part.setRow (p : Part) (upper : Bool) (r : Row) : Part :=
  { p with lyric := if upper then { p.lyric with row0 := r } else { p.lyric with row1 := r } }

/-- R140: the line with ordinal k belongs to row k mod 2. -/
def rowOwns (upper : Bool) (ordinal : Nat) : Bool := ordinal % 2 == if upper then 0 else 1

/-- The queued line of an ordinal. -/
def Reader.lineOf (rd : Reader) (ordinal : Nat) : Option QueuedLine := rd.lines.find? fun q => q.ordinal == ordinal

/-- R140: a row's next line: its own line of the lowest ordinal not yet given a row. -/
def Reader.nextLine (rd : Reader) (upper : Bool) : Option QueuedLine :=
  rd.lines.find? fun q => rowOwns upper q.ordinal && !q.given

/-- R143: the clear time of a queued line. -/
def Part.clearTime (p : Part) (q : QueuedLine) : Nat :=
  let last := q.line.lastEnd
  match p.reader.lineOf (q.ordinal + 2) with
  | some next => max last (min (last + p.display.clearDelay) (next.line.firstStart - 200))
  | none => last + p.display.clearDelay

/-- R142: the state a row takes from its line's times. -/
def Part.rowStateOf (p : Part) (l : LineRecord) : RowState :=
  if !p.reached l.firstStart then .shown else if !p.reached l.lastEnd then .wiping else .held

/-- R150: the title card is taken down. -/
def Part.titleDown (p : Part) : Part :=
  { p with lyric := { p.lyric with title := { shown := false, content := none } } }

/-- R143: a line leaves the line queue, and a STALLED reader goes on at the same event. -/
def Part.retireLine (p : Part) (ordinal : Nat) : Part :=
  { p with reader := { p.reader with lines := p.reader.lines.filter fun q => q.ordinal != ordinal } }.readerResume

/-- R143, R144: a row with free time `free` and no line. -/
def emptyRow (free : Nat) : Row := { state := .empty, line := none, free := free }

/-- R143: a row clears its line; its free time becomes the clear time. -/
def Part.clearRow (p : Part) (upper : Bool) (q : QueuedLine) : Part :=
  (p.setRow upper (emptyRow (p.clearTime q))).retireLine q.ordinal

/-- R141: the show time of a row's next line has come. -/
def Part.showReached (p : Part) (free : Nat) (q : QueuedLine) : Bool :=
  q.line.firstStart * Config.stepsPerMs ≤ p.play.time + p.display.lead * Config.stepsPerMs && p.reached free

/-- R141: a row takes its next line, which is laid out; the line with ordinal 0 ends the title card (R150). -/
def Part.takeLine (p : Part) (upper : Bool) (q : QueuedLine) : Part :=
  let p := { p with reader := { p.reader with
    lines := p.reader.lines.map fun (x : QueuedLine) => if x.ordinal = q.ordinal then { x with given := true } else x } }
  let p := p.setRow upper { (p.row upper) with state := p.rowStateOf q.line, line := some q.ordinal }
  let p := p.countLayout q.line.codes
  if q.ordinal = 0 then p.titleDown else p

/-- The queued line a row holds. -/
def Part.rowLine (p : Part) (upper : Bool) : Option QueuedLine := (p.row upper).line.bind p.reader.lineOf

/-- R141 to R143: one step of bringing a row up to song time: it clears its line, takes its next line, or is done with the state
its line's times give. -/
def Part.rowStep (p : Part) (upper : Bool) : Part × Bool :=
  match p.rowLine upper with
  | some q =>
    if p.reached (p.clearTime q) then (p.clearRow upper q, true)
    else (p.setRow upper { (p.row upper) with state := p.rowStateOf q.line }, false)
  | none =>
    match p.reader.nextLine upper with
    | some q => if p.showReached (p.row upper).free q then (p.takeLine upper q, true) else (p, false)
    | none => (p, false)

/-- R143: a row repeats clearing and taking. Two pages and the queue hold fewer lines than the fuel allows. -/
def Part.rowLoop (upper : Bool) : Nat → Part → Part
  | 0, p => p
  | fuel + 1, p =>
    match p.rowStep upper with
    | (p', true) => Part.rowLoop upper fuel p'
    | (p', false) => p'

/-- R139 stage 2: each row is brought up to song time, the upper row wholly before the lower (assumption 42). -/
def Part.rowsUp (p : Part) : Part := Part.rowLoop false 1024 (Part.rowLoop true 1024 p)

/-- R144: one step of a forward NUDGE on a row: it clears its line, or its next line retires without being shown. -/
def Part.nudgeRowStep (p : Part) (upper : Bool) : Part × Bool :=
  match p.rowLine upper with
  | some q => if p.reached (p.clearTime q) then (p.clearRow upper q, true) else (p, false)
  | none =>
    match p.reader.nextLine upper with
    | some q => if p.reached (p.clearTime q) then (p.clearRow upper q, true) else (p, false)
    | none => (p, false)

/-- R144: a row repeats until neither applies. -/
def Part.nudgeRowLoop (upper : Bool) : Nat → Part → Part
  | 0, p => p
  | fuel + 1, p =>
    match p.nudgeRowStep upper with
    | (p', true) => Part.nudgeRowLoop upper fuel p'
    | (p', false) => p'

/-- R144: a forward NUDGE acts on each row in turn, the upper first (assumption 42). -/
def Part.nudgeRows (p : Part) : Part := Part.nudgeRowLoop false 1024 (Part.nudgeRowLoop true 1024 p)

/-- R131 stage 7: both rows are cleared at the end of a song; their lines have left with the reader, and the free times wait for the
next promotion (assumption 37). -/
def Part.clearRows (p : Part) : Part :=
  { p with lyric := { p.lyric with row0 := emptyRow p.lyric.row0.free, row1 := emptyRow p.lyric.row1.free } }

/-- R140, R154: both rows EMPTY with free time 0. -/
def Part.resetRows (p : Part) : Part := { p with lyric := { p.lyric with row0 := Row.reset, row1 := Row.reset } }

/-! ## Cards (R149, R150, R152) -/

/-- R115 stage 7, R149, R152: at a promotion the score card is taken down, CARD stops, and the title card is shown with no content. -/
def Part.promotionCards (p : Part) : Part :=
  { p with lyric := { p.lyric with
    card := { shown := false, groups := [] }, cardTimer := none, title := { shown := true, content := none } } }

/-- R149: the codes of the title card's lines. -/
def titleContentOf (page : List Byte) : TitleContent :=
  { upper := if (titleGlyphsOf page).isEmpty then (titleTagOf page).map BitVec.toNat else titleGlyphsOf page
    lower := (artistTagOf page).map BitVec.toNat }

/-- R149: the title card takes its content and both lines are laid out. -/
def Part.titleArrives (p : Part) (page : List Byte) : Part :=
  let content := titleContentOf page
  (({ p with lyric := { p.lyric with title := { p.lyric.title with content := some content } } }).countLayout
    content.upper).countLayout content.lower

/-- R152: the score card is taken down. -/
def Part.cardDown (p : Part) : Part :=
  { p with lyric := { p.lyric with card := { shown := false, groups := [] }, cardTimer := none } }

/-- The decimal digits of a number without leading zeros; `fuel` bounds their count. -/
def decimalDigits : Nat → Nat → List Nat
  | 0, n => [n % 10]
  | fuel + 1, n => if n < 10 then [n] else decimalDigits fuel (n / 10) ++ [n % 10]

/-- R152: the digit codes of a score. -/
def scoreCodes (score : Nat) : List Nat := (decimalDigits 5 score).map (16 + ·)

/-- R152: the groups of the score card from the result record; a seat NOT USED gives none. -/
def groupsOf (seats : List SeatResult) : List ScoreGroup :=
  (seats.filter fun x => x.status != .notUsed).map fun x => { part := x.part, score := x.score }

/-- R152: the codes of the score card with the part of each, groups separated by three spaces. -/
def cardCodes : List ScoreGroup → List (Nat × Nat)
  | [] => []
  | [g] => (scoreCodes g.score).map fun c => (c, g.part)
  | g :: rest => ((scoreCodes g.score).map fun c => (c, g.part)) ++ List.replicate 3 (0, g.part) ++ cardCodes rest

/-- R152, R113: the score card is shown and laid out, and CARD is loaded; a card time of 0 expires it at the load, and the layout has been
counted all the same (assumption 43). -/
def Part.showCard (p : Part) (seats : List SeatResult) : Part :=
  let groups := groupsOf seats
  let p := p.countLayout ((cardCodes groups).map Prod.fst)
  if p.display.cardTime = 0 then p.cardDown
  else
    { p with lyric := { p.lyric with
      card := { shown := true, groups := groups }, cardTimer := loadMs (1000 * p.display.cardTime) } }

/-! ## Drawing (R139, R145, R146, R151) -/

/-- The colour of a part. -/
def PartColours.of (c : PartColours) (part : Nat) : Colour :=
  match part with
  | 0 => c.a
  | 1 => c.b
  | 2 => c.c
  | _ => c.d

/-- R146: a line of one part takes that part's colours, another the together colours: unwiped and wiped. -/
def Display.lineColours (d : Display) (mask : Nat) : Colour × Colour :=
  match mask with
  | 1 => (d.unwiped.a, d.wiped.a)
  | 2 => (d.unwiped.b, d.wiped.b)
  | 4 => (d.unwiped.c, d.wiped.c)
  | 8 => (d.unwiped.d, d.wiped.d)
  | _ => (d.togetherUnwiped, d.togetherWiped)

/-- R146: the wiped columns of a span of w pixels: less than f times w from its left edge, rounded down. -/
def wipedColumns (time w : Nat) (y : Syllable) : Nat :=
  if time < y.start * Config.stepsPerMs then 0
  else if y.stop * Config.stepsPerMs ≤ time then w
  else (time - y.start * Config.stepsPerMs) * w / ((y.stop - y.start) * Config.stepsPerMs)

/-- A code to be drawn, its wiped columns and its two colours. -/
structure DrawnCode where
  code : Nat
  wiped : Nat
  wipedColour : Colour
  unwipedColour : Colour
deriving DecidableEq, Repr

/-- R146: the wiped columns of each glyph of a span with `count` wiped columns in all. -/
def Part.wipeSpan (p : Part) : Nat → List Nat → List (Nat × Nat)
  | _, [] => []
  | count, c :: rest => (c, min count (p.codeWidth c)) :: p.wipeSpan (count - p.codeWidth c) rest

/-- R146: the wiped columns of each glyph of a line, syllable by syllable. -/
def Part.wipeLine (p : Part) : List Syllable → List Nat → List (Nat × Nat)
  | [], _ => []
  | y :: rest, codes =>
    p.wipeSpan (wipedColumns p.play.time (p.lineWidth (codes.take y.glyphs)) y) (codes.take y.glyphs) ++
      p.wipeLine rest (codes.drop y.glyphs)

/-- R145: the glyphs of a line from a left edge on, with no space between them. -/
def Part.placeGlyphs (p : Part) : Nat → List DrawnCode → List PlacedGlyph
  | _, [] => []
  | x, c :: rest =>
    { x := x, width := p.codeWidth c.code
      rows := if c.code = 0 then some [] else (glyphAt p.glyphs c.code).map Glyph.rows
      wiped := c.wiped, wipedColour := c.wipedColour, unwipedColour := c.unwipedColour } ::
      p.placeGlyphs (x + p.codeWidth c.code) rest

/-- R145: a line drawn in a row band, cut at the safe area's right edge. -/
def Part.textItem (p : Part) (upper : Bool) (codes : List DrawnCode) : PlaneItem :=
  .text (p.placeGlyphs (p.lineLeft (codes.map DrawnCode.code)) codes)
    (if upper then p.display.upperBaseline else p.display.lowerBaseline) (p.safeLeft + p.display.safeWidth)
    p.display.outline

/-- Codes drawn in one colour. -/
def plainCodes (colour : Colour) (codes : List Nat) : List DrawnCode :=
  codes.map fun c => { code := c, wiped := 0, wipedColour := colour, unwipedColour := colour }

/-- R149: the title card's lines, in the together unwiped colour. -/
def Part.titleItems (p : Part) : List PlaneItem :=
  match p.lyric.title.shown, p.lyric.title.content with
  | true, some content =>
    [p.textItem true (plainCodes p.display.togetherUnwiped content.upper),
      p.textItem false (plainCodes p.display.togetherUnwiped content.lower)]
  | _, _ => []

/-- R146: a row's line with its wipe at song time. -/
def Part.rowItems (p : Part) (upper : Bool) : List PlaneItem :=
  match p.rowLine upper with
  | none => []
  | some q =>
    let colours := p.display.lineColours q.line.mask
    [p.textItem upper ((p.wipeLine q.line.syllables q.line.codes).map fun c =>
      { code := c.1, wiped := c.2, wipedColour := colours.2, unwipedColour := colours.1 })]

/-- R151: the number of intro dots. -/
def Part.introDots (p : Part) : Nat :=
  if !p.playing then 0
  else
    match p.reader.lineOf 0 with
    | none => 0
    | some q =>
      if p.reached q.line.firstStart then 0
      else
        let k := p.reader.beats.countP fun b => !p.reached b && b < q.line.firstStart
        if k ≤ 4 then k else 0

/-- R151: the dots, centred in the 32-line band directly above the upper row. -/
def Part.dotItems (p : Part) : List PlaneItem :=
  if p.introDots = 0 then []
  else [.dots p.introDots p.safeLeft (p.display.upperBaseline - 40) p.display.togetherUnwiped]

/-- R152: the score card, each group in the wiped colour of its part. -/
def Part.cardItems (p : Part) : List PlaneItem :=
  if p.lyric.card.shown then
    [p.textItem true ((cardCodes p.lyric.card.groups).map fun c =>
      { code := c.1, wiped := 0, wipedColour := p.display.wiped.of c.2, unwipedColour := p.display.wiped.of c.2 })]
  else []

/-- R136: in LOST the picture is filled with the background colour; in PASS it is the input frame. -/
def Part.pictureItems (p : Part) : List PlaneItem :=
  match p.lyric.path with
  | .pass => []
  | .lost => [.fill p.display.lostBackground]

/-- R139 stage 5: the plane is drawn. -/
def Part.draw (p : Part) : Part :=
  { p with lyric := { p.lyric with
    plane := p.pictureItems ++ p.titleItems ++ p.rowItems true ++ p.rowItems false ++ p.dotItems ++ p.cardItems } }

/-- R139: a frame-start event. Song time is read where it stands; rows and dots act while a song plays, and the title card ends at 5,000
ms of song time (R150). -/
def Part.frameStart (p : Part) : Part :=
  if p.playing then
    let p := p.rowsUp
    (if p.reached 5000 then p.titleDown else p).draw
  else p.draw

/-! ## Pixels (R139) -/

/-- R139: one channel blended in thirds; a result that is no whole number is rounded as the free value gives (assumption 16). -/
def blendChannel (c colour under : Nat) : Nat :=
  let n := c * colour + (3 - c) * under
  if n % 3 = 0 then n / 3 else if Config.blendRoundsUp n then n / 3 + 1 else n / 3

/-- R139: a pixel of coverage c gives c/3 of its colour and keeps (3 - c)/3 of the pixel beneath. -/
def blend (c : Nat) (colour under : Colour) : Colour :=
  BitVec.ofNat 8 (blendChannel c (colour.extractLsb' 16 8).toNat (under.extractLsb' 16 8).toNat) ++
    BitVec.ofNat 8 (blendChannel c (colour.extractLsb' 8 8).toNat (under.extractLsb' 8 8).toNat) ++
    BitVec.ofNat 8 (blendChannel c (colour.extractLsb' 0 8).toNat (under.extractLsb' 0 8).toNat)

/-- The glyph of a line that stands over a column, left of the cut. -/
def textGlyphAt (glyphs : List PlacedGlyph) (clip x : Nat) : Option PlacedGlyph :=
  if clip ≤ x then none else glyphs.find? fun g => g.x ≤ x && x < g.x + g.width

/-- R147: whether a line of the picture lies in the 32-line band of a baseline. -/
def inBand (baseline y : Nat) : Bool := baseline ≤ y + 31 && y ≤ baseline

/-- R147, R145: the coverage of a pixel by a line of glyphs; ink that is cut away covers nothing and has no outline (assumption 41). -/
def textCoverage (glyphs : List PlacedGlyph) (baseline clip x y : Nat) : Nat :=
  match textGlyphAt glyphs clip x with
  | none => 0
  | some g =>
    match g.rows with
    | none => 0
    | some rows => if inBand baseline y then (((rows.getD (y + 31 - baseline) []).getD (x - g.x) 0#2)).toNat else 0

/-- R145: whether a pixel is on the one-pixel border of a box. -/
def onBox (glyphs : List PlacedGlyph) (baseline clip x y : Nat) : Bool :=
  match textGlyphAt glyphs clip x with
  | none => false
  | some g =>
    g.rows.isNone && inBand baseline y &&
      (x == g.x || x + 1 == g.x + g.width || y + 31 == baseline || y == baseline)

/-- R139: whether a pixel touches, side or corner, a pixel of coverage 2 or 3. -/
def touchesInk (glyphs : List PlacedGlyph) (baseline clip x y : Nat) : Bool :=
  [x - 1, x, x + 1].any fun i => [y - 1, y, y + 1].any fun j => 2 ≤ textCoverage glyphs baseline clip i j

/-- R139, R145, R146: a pixel of a line of glyphs over the pixel beneath. A pixel of coverage 0 is one that this line leaves at 0, whatever an
earlier line drew there (assumption 40); the outline of drawn ink stands also on the column just right of the cut (assumption 41). -/
def textPixel (glyphs : List PlacedGlyph) (baseline clip : Nat) (outline : Colour) (x y : Nat) (under : Colour) : Colour :=
  if onBox glyphs baseline clip x y then outline
  else
    match textGlyphAt glyphs clip x with
    | some g =>
      if 0 < textCoverage glyphs baseline clip x y then
        blend (textCoverage glyphs baseline clip x y) (if x - g.x < g.wiped then g.wipedColour else g.unwipedColour) under
      else if touchesInk glyphs baseline clip x y then outline else under
    | none => if touchesInk glyphs baseline clip x y then outline else under

/-- R151: the whole pixels between the centre of a disc 16 px across and the nearer side of column (or line) i of its 16 by 16 square. The
centre is the corner where columns 7 and 8 and lines 7 and 8 meet. -/
def dotNear (i : Nat) : Nat := if i < 8 then 7 - i else i - 8

/-- R151: the same to the farther side, one pixel on. -/
def dotFar (i : Nat) : Nat := dotNear i + 1

/-- R151: whether a disc covers the pixel at column c and line r of its square: it does when the pixel's farthest corner is within 8 px of the
centre, and does not when the nearest is not less than 8 px away; a pixel that the edge crosses is the free value's (assumption 17). -/
def discCovers (c r : Nat) : Bool :=
  if dotFar c ^ 2 + dotFar r ^ 2 ≤ 64 then true
  else if 64 ≤ dotNear c ^ 2 + dotNear r ^ 2 then false
  else Config.dotEdgeCovers c r

/-- R151: whether a dot covers a pixel: discs in squares of 16 px, left edges 24 px apart (assumption 17), with their bottom line at `bottom`. -/
def dotAt (count left bottom x y : Nat) : Bool :=
  left ≤ x && (x - left) / 24 < count && (x - left) % 24 < 16 && bottom ≤ y + 15 && y ≤ bottom &&
    discCovers ((x - left) % 24) (y + 15 - bottom)

/-- R139: one element of the plane over the pixel beneath. -/
def itemPixel (x y : Nat) (under : Colour) (item : PlaneItem) : Colour :=
  match item with
  | .fill colour => colour
  | .text glyphs baseline clip outline => textPixel glyphs baseline clip outline x y under
  | .dots count left bottom colour => if dotAt count left bottom x y then colour else under

/-- R136, R139: the output pixel at column x and line y of the frame whose plane stands drawn, over the input's pixel. -/
def Part.outputPixel (p : Part) (x y : Nat) (input : Colour) : Colour := p.lyric.plane.foldl (itemPixel x y) input

end Sys2Proof.Machine
end

