-- ==== Sys2Proof/Machine/Scorer.lean ====
section
/-! DEFINITION. Machine/Scorer.lean: the Voice Scorer (R155 to R172): samples and levels, presence, the classification of windows, the
evaluation of a window, note scores, finalization and the result record. -/

namespace Sys2Proof.Machine

/-! ## Samples, level and pitch (R155, R156) -/

/-- R155: the sample of a channel in an audio frame: channels 0 and 1 on MIC_SD0, 2 and 3 on MIC_SD1, the lower-numbered in the first
half; 24 bits from the second bit clock of the half. -/
def sampleOf (f : AudioFrame) (channel : Nat) : Sample :=
  match channel with
  | 0 => f.sd0.extractLsb' 39 24
  | 1 => f.sd0.extractLsb' 7 24
  | 2 => f.sd1.extractLsb' 39 24
  | _ => f.sd1.extractLsb' 7 24

/-- R155: the samples of a channel in a window whose frames stand newest first, oldest first. -/
def channelSamples (window : List AudioFrame) (channel : Nat) : List Sample :=
  window.reverse.map fun f => sampleOf f channel

/-- The sum of the squares of the samples. -/
def sumSquares (samples : List Sample) : Nat := (samples.map fun x => x.toInt.natAbs * x.toInt.natAbs).sum

/-- R155, R156: the sum of squares of 480 samples at full scale, 2^23 (assumption 24). -/
def fullScaleSquares : Nat := Config.windowFrames * 2 ^ 46

/-- R156: the root-mean-square level in dB relative to full scale, rounded down to a whole dB and no lower than -96: the level is at least
-n dB when the tenth power of the mean square is at least that of full scale divided by 10^n. -/
def levelOf (samples : List Sample) : Int :=
  match (List.range 97).find? fun n => fullScaleSquares ^ 10 ≤ sumSquares samples ^ 10 * 10 ^ n with
  | some n => -n
  | none => -96

/-- R156: the pitch estimate, none for UNVOICED. -/
def pitchEstimate (threshold level : Int) (samples : List Sample) : Option Config.Pitch :=
  if level < threshold then none
  else
    (Config.fundamental samples).filter fun x => 0 < x.den && 80 * x.den ≤ x.num && x.num ≤ 1100 * x.den

/-! ## Presence (R157) -/

/-- R157: a channel record after a window of a level, and whether that is a presence rise. -/
def presenceStep (threshold level : Int) (c : Channel) : Channel × Bool :=
  if c.present then
    if level < threshold then
      if c.fallRun + 1 = 50 then
        ({ c with level := level, present := false, fallRun := 0, riseRun := 0, changed := true }, false)
      else ({ c with level := level, fallRun := c.fallRun + 1 }, false)
    else ({ c with level := level, fallRun := 0 }, false)
  else if threshold ≤ level then
    if c.riseRun + 1 = 3 then
      ({ c with level := level, present := true, riseRun := 0, fallRun := 0, changed := true }, true)
    else ({ c with level := level, riseRun := c.riseRun + 1 }, false)
  else ({ c with level := level, riseRun := 0 }, false)

/-! ## Seats (R159 to R162) -/

/-- R159: the sums, counts and mic seen of a seat at zero or clear. -/
def zeroSeat (s : Seat) : Seat :=
  { s with micSeen := false, weighted := { num := 0, den := 1 }, durations := 0, notes := 0, total := 0, hit := 0,
           near := 0, voiced := 0 }

/-- The seats changed by their numbers. -/
def Part.mapSeats (p : Part) (f : Nat → Seat → Seat) : Part :=
  { p with scorer := { p.scorer with seats := p.scorer.seats.mapIdx f } }

/-- R115 stage 3, R160, R161: the seats at a promotion. A seat from singers to 3 keeps the handset of the song before (assumption 44). -/
def Part.armSeats (p : Part) (singers parts : Nat) (claims : List (Option Nat)) : Part :=
  p.mapSeats fun i s =>
    if i < singers then { zeroSeat s with state := .armed, part := i % parts, handset := claims.getD i none }
    else { zeroSeat s with state := .idle }

/-- R127: every ARMED seat becomes SINGING. -/
def Part.startSeats (p : Part) : Part :=
  p.mapSeats fun _ s => if s.state = .armed then { s with state := .singing } else s

/-- R131 stage 4: every seat becomes DONE (assumption 38). -/
def Part.doneSeats (p : Part) : Part := p.mapSeats fun _ s => { s with state := .done }

/-- R121: every seat returns to IDLE. -/
def Part.idleSeats (p : Part) : Part := p.mapSeats fun _ s => { s with state := .idle }

/-- R172: room clear returns a seat to its values after pin reset but for its part and its binding. -/
def Part.clearSeats (p : Part) : Part := p.mapSeats fun _ s => { zeroSeat s with state := .idle, handset := none }

/-- The book entry the play context holds. -/
def Part.heldBookEntry (p : Part) : Option Entry := p.play.entry.bind p.entry

/-- R161: the seats from 0 to singers - 1 read their handsets from the entry's seat list. -/
def Part.readHandsets (p : Part) : Part :=
  match p.heldBookEntry with
  | none => p
  | some e => p.mapSeats fun i s => if i < e.singers then { s with handset := e.seats.getD i none } else s

/-- R162: the binding of a seat to a channel or to none. -/
def Part.bindSeat (p : Part) (seat : Nat) (channel : Option Nat) : Part :=
  p.mapSeats fun i s =>
    if i = seat then { s with channel := channel }
    else if channel.isSome && s.channel == channel then { s with channel := none } else s

/-! ## Classification (R165, R166) -/

/-- R165: the classes of a window. -/
inductive WindowClass where
  | hit | near | miss | silent
deriving DecidableEq, Repr

/-- R165: 1200 times the base-2 logarithm of an estimate over 261.63 Hz, rounded to the nearest whole cent. It is irrational or a whole
number, so no half arises (assumption 25). -/
def centsFromNote60 (x : Config.Pitch) : Int :=
  ((Nat.log2 ((x.num * 100) ^ 2400 * 2 ^ 6000 / (x.den * 26163) ^ 2400) : Int) - 6000 + 1) / 2

/-- R165: the distance in cents from note n at key k. -/
def centsFrom (x : Config.Pitch) (number : Nat) (key : Int) : Int :=
  centsFromNote60 x - 100 * ((number : Int) + key - 60)

/-- R165: folding by whole multiples of 1200 into -599 to +600. -/
def foldCents (d : Int) : Int := (d + 599) % 1200 - 599

/-- R165: the class of a window against a note. -/
def classify (tolerance : Bool) (number : Nat) (key : Int) (estimate : Option Config.Pitch) : WindowClass :=
  match estimate with
  | none => .silent
  | some x =>
    let d := if tolerance then foldCents (centsFrom x number key) else centsFrom x number key
    if d.natAbs ≤ 50 then .hit else if d.natAbs ≤ 100 then .near else .miss

/-- R166: the onset of a note from start to stop judged at a window with song time `time`. -/
def onsetAt (time start stop : Nat) : Onset :=
  if time ≤ start * Config.stepsPerMs + min (100 * Config.stepsPerMs) ((stop - start) * Config.stepsPerMs / 2) then .early
  else .late

/-- R165, R166: a tally with one window more. -/
def tallyAdd (time start stop : Nat) (w : WindowClass) (t : Tally) : Tally :=
  let onset := if t.onset = .notJudged then onsetAt time start stop else t.onset
  match w with
  | .hit => { t with hit := t.hit + 1, onset := onset }
  | .near => { t with near := t.near + 1, onset := onset }
  | .miss => { t with miss := t.miss + 1 }
  | .silent => { t with silent := t.silent + 1 }

/-- R165: a seat's window counts with one window more. -/
def seatCount (w : WindowClass) (s : Seat) : Seat :=
  { s with
    total := satInc 65535 s.total
    hit := if w = .hit then satInc 65535 s.hit else s.hit
    near := if w = .near then satInc 65535 s.near else s.near
    voiced := if w = .silent then s.voiced else satInc 65535 s.voiced }

/-! ## Evaluation of a window (R164) -/

/-- R164: a queued NOTE is active at song time. -/
def Part.noteActive (p : Part) (n : QueuedNote) : Bool := p.reached n.start && !p.reached n.stop

/-- R164 step 1: the NOTEs that become active capture the entry's key; at an activation the seats read their handsets. -/
def Part.activate (p : Part) : Part :=
  match p.heldBookEntry with
  | none => p
  | some e =>
    let fresh := fun (n : QueuedNote) => p.noteActive n && n.key.isNone
    if p.reader.notes.any fresh then
      { p with reader := { p.reader with
          notes := p.reader.notes.map fun (n : QueuedNote) => if fresh n then { n with key := some e.key } else n } }.readHandsets
    else p

/-- R164 step 2: a classified window is added to the seat's tally on the note and to the seat's counts. -/
def Part.addWindow (p : Part) (seat : Nat) (n : QueuedNote) (w : WindowClass) : Part :=
  { p with reader := { p.reader with
      notes := p.reader.notes.map fun (x : QueuedNote) =>
        if x.part = n.part ∧ x.start = n.start then
          { x with tallies := x.tallies.modify seat (tallyAdd p.play.time n.start n.stop w) }
        else x } }.mapSeats fun i s => if i = seat then seatCount w s else s

/-- R164 step 2: one seat. -/
def Part.evaluateSeat (estimates : List (Option Config.Pitch)) (p : Part) (seat : Nat) : Part :=
  if (p.seat seat).state = .singing then
    match (p.seat seat).channel with
    | none => p
    | some c =>
      let p := p.mapSeats fun i s => if i = seat then { s with micSeen := true } else s
      match p.reader.notes.find? fun n => n.part == (p.seat seat).part && p.noteActive n with
      | none => p
      | some n =>
        p.addWindow seat n
          (classify p.settings.octaveTolerance n.number (n.key.getD 0) ((estimates.getD c none)))
  else p

/-- R164, R133: a window is evaluated while RUNNING; with the note queue empty and the reader not FINISHED it is an unknown window. -/
def Part.evaluateWindow (p : Part) (estimates : List (Option Config.Pitch)) : Part :=
  if p.play.state = .running then
    if p.reader.notes.isEmpty && p.reader.state != .finished then p.countUnknownWindow
    else [0, 1, 2, 3].foldl (Part.evaluateSeat estimates) p.activate
  else p

/-! ## Note scores (R167) -/

/-- An exact sum in lowest terms. -/
def Frac.add (a b : Frac) : Frac :=
  let num := a.num * b.den + b.num * a.den
  let den := a.den * b.den
  { num := num / Nat.gcd num den, den := den / Nat.gcd num den }

/-- R167: the windows of a tally. -/
def Tally.windows (t : Tally) : Nat := t.hit + t.near + t.miss + t.silent

/-- R167: the note score times its weight: s = 0.70 p + 0.20 r + 0.10 c over the common denominator 20 W. -/
def noteScore (t : Tally) (duration : Nat) : Frac :=
  { num := duration *
      (7 * (2 * t.hit + t.near) + (if t.onset = .early then 4 * t.windows else 0) + 2 * (t.hit + t.near + t.miss))
    den := 20 * t.windows }

/-- R167: a retiring NOTE scored for a seat. -/
def scoreSeat (n : QueuedNote) (i : Nat) (s : Seat) : Seat :=
  let t := n.tallies.getD i newTally
  if s.state = .singing ∧ s.part = n.part ∧ 0 < t.windows then
    { s with
      weighted := s.weighted.add (noteScore t (n.stop - n.start))
      durations := s.durations + (n.stop - n.start)
      notes := satInc 65535 s.notes }
  else s

/-- R128, R167: every NOTE whose end song time has reached retires: it is scored and leaves the queue. -/
def Part.retireNotes (p : Part) : Part :=
  let done := p.reader.notes.filter fun n => p.reached n.stop
  let p := done.foldl (fun p n => p.mapSeats (scoreSeat n)) p
  { p with reader := { p.reader with notes := p.reader.notes.filter fun n => !p.reached n.stop } }

/-- R168: every NOTE whose end song time has reached leaves the queue unscored. -/
def Part.excludeNotes (p : Part) : Part :=
  { p with reader := { p.reader with notes := p.reader.notes.filter fun n => !p.reached n.stop } }

/-- R128, R130: every BEAT whose time song time has reached leaves the queue. -/
def Part.dropBeats (p : Part) : Part :=
  { p with reader := { p.reader with beats := p.reader.beats.filter fun b => !p.reached b } }

/-! ## The result (R169 to R171) -/

/-- R169, R171: floor(10000 times the weighted sum over the sum of durations), 0 when that is 0. -/
def scoreOf (s : Seat) : Nat := 10000 * s.weighted.num / (s.weighted.den * s.durations)

/-- R169: a seat's status at finalization. -/
def statusOf (s : Seat) : SeatStatus :=
  if s.state ≠ .singing then .notUsed
  else if !s.micSeen then .noMic
  else if s.durations = 0 then .noNotes else .scored

/-- R169, R170: a seat of the result record. -/
def seatResult (s : Seat) : SeatResult :=
  { status := statusOf s, score := if statusOf s = .scored then scoreOf s else 0, part := s.part, handset := s.handset,
    notes := s.notes, total := s.total, hit := s.hit, near := s.near, voiced := s.voiced }

/-- R169, R170: the seats are finalized, the result record is written and SCORE attention is raised. -/
def Part.writeResult (p : Part) (ticket song edition : Nat) (kind : EndKind) : Part :=
  let p := p.readHandsets
  let previous := match p.scorer.result with
    | some r => r.unread
    | none => false
  { p with scorer := { p.scorer with
      result := some
        { ticket, song, edition, kind, seats := p.scorer.seats.map seatResult, unread := true,
          previousUnread := previous } } }.raise .score

/-- R52: the score notices of the slots with a seat claim on the ending entry. -/
def Part.scoreNotices (p : Part) (e : Entry) : Part :=
  e.seats.zipIdx.foldl
    (fun p c =>
      match c.1 with
      | none => p
      | some slot =>
        p.setScore slot
          { ticket := e.ticket, seat := c.2
            score := match p.scorer.result with
              | some r => (r.seats[c.2]?.map SeatResult.score).getD 0
              | none => 0 }) p

/-! ## The window end (R156, R157) -/

/-- R156, R157: every channel is measured and its presence updated. Answers the part, whether the channel bound to seat 0 rose, and the
four pitch estimates. -/
def Part.measure (p : Part) : Part × Bool × List (Option Config.Pitch) :=
  let threshold := p.settings.voiceThreshold
  let samples := [0, 1, 2, 3].map (channelSamples p.scorer.window)
  let levels := samples.map levelOf
  let steps := p.scorer.channels.mapIdx fun i c => presenceStep threshold (levels.getD i (-96)) c
  let estimates := samples.zipWith (fun x l => pitchEstimate threshold l x) levels
  let rise := match (p.seat 0).channel with
    | some c => (steps[c]?.map Prod.snd).getD false
    | none => false
  ({ p with scorer := { p.scorer with channels := steps.map Prod.fst, window := [] } }, rise, estimates)

end Sys2Proof.Machine
end

