-- ==== Sys2Proof/Machine/Play.lean ====
section
/-! DEFINITION. Machine/Play.lean: the Play Controller's shared operations: promotion (R114, R115), the strike of the CUED entry (R121), entry
into RUNNING (R127), HOLD and GAP (R113, R125, R132), the end of a song (R131) and the song clock (R128). -/

namespace Sys2Proof.Machine

/-! ## Timers of the play context -/

/-- R112, R131, R121: the play context enters GAP and loads GAP with the gap time; a gap time of 0 expires it at the load, which returns
the play context to IDLE (R113, R132). -/
def Part.loadGap (p : Part) : Part :=
  if p.settings.gapTime = 0 then { p with play := { p.play with state := .idle, gap := none } }
  else { p with play := { p.play with state := .gap, gap := loadMs (1000 * p.settings.gapTime) } }

/-- R132: GAP expires in GAP. -/
def Part.gapExpire (p : Part) : Part :=
  if p.play.state = .gap then { p with play := { p.play with state := .idle, gap := none } } else p

/-! ## Promotion -/

/-- R114: the four promotion conditions. -/
def Part.promotionDue (p : Part) : Bool :=
  p.play.state == .idle && !p.book.hold && p.lib.state == .mounted && !(waitingEntries p.book.entries).isEmpty

/-- R115 stage 2, R111: the play context record at a promotion. The last outcome stays through it: the model's choice (assumption 49). -/
def Part.takeCue (p : Part) (e : Entry) (blk : SongBlock) : Part :=
  { p with play := { p.play with
    state := .staging, entry := some e.ticket, song := some { song := e.song, blk }, time := 0, tempo := e.tempo,
    key := e.key, cueHold := p.settings.holdTime, startPending := false, lateLines := 0, unknownWindows := 0,
    damagedPages := 0, skippedRecords := 0, firstUnderrun := false } }

/-- R51: the cued notices of the slots with a seat claim on the promoted entry. -/
def Part.cueNotices (p : Part) (e : Entry) : Part :=
  (e.seats.filterMap id).foldl (fun p slot => p.setCued slot e.ticket) p

/-- R115: the promotion of an entry whose song has this block, in its stages. -/
def Part.promote (p : Part) (e : Entry) (blk : SongBlock) : Part :=
  let p := p.withEntries
    (p.book.entries.map fun x => if x.ticket == e.ticket then { x with state := .cued } else x)
  let p := (p.raise .book).takeCue e blk
  let p := (p.armSeats e.singers blk.parts e.seats).cueNotices e
  ((p.raise .play).readerStart blk).promotionCards.resetRows

/-- R114: the promotion that is due is made once the event's own effects are complete. Every live entry names a READY catalog entry
(R67). -/
def Part.promoteIfDue (p : Part) : Part :=
  if p.promotionDue then
    match waitingEntries p.book.entries with
    | [] => p
    | e :: _ =>
      match p.catEntry e.song with
      | none => p
      | some c => p.promote e c.current
  else p

/-! ## The cue -/

/-- R111, R121, R131: the entry and the song leave the play context with an outcome. -/
def Part.letGo (p : Part) (ticket song : Nat) (ending : PlayEnd) : Part :=
  { p with play := { p.play with
    entry := none, song := none, hold := none, startPending := false,
    lastOutcome := some { ticket, song, ending } } }

/-- R121: the next state after a strike of the CUED entry for a reason. -/
def Part.afterCueStrike (p : Part) (reason : StrikeReason) : Part :=
  match reason with
  | .cancelled => p.loadGap.raise .play
  | .skipped => p.loadGap.raise .play
  | .damaged => { p with play := { p.play with state := .idle } }.raise .play
  | .cleared => { p with play := { p.play with state := .idle } }
  | .withdrawn => p
  | .left => p
  | .barred => p

/-- R121: a strike of the CUED entry. WITHDRAWN, LEFT and BARRED strike no CUED entry (Table 1-4). -/
def Part.cueStrike (p : Part) (reason : StrikeReason) (quiet : Bool) : Part :=
  match p.play.entry, p.play.song with
  | some ticket, some song =>
    let p := (p.strike ticket reason quiet).letGo ticket song.song (.struck reason)
    let p := p.readerEmpty.idleSeats.titleDown
    (p.release song.song).afterCueStrike reason
  | _, _ => p

/-- R127: the play context enters RUNNING from HOLDING or STAGING. -/
def Part.enterRunning (p : Part) : Part :=
  match p.play.entry with
  | none => p
  | some ticket =>
    let p := { p with play := { p.play with state := .running, hold := none, startPending := false } }
    ((p.mapEntry ticket fun e => { e with state := .playing }).startSeats).raise .play

/-- R125: HOLD expires in HOLDING and the hold action is taken. -/
def Part.holdExpire (p : Part) : Part :=
  if p.play.state = .holding then
    match p.settings.holdAction with
    | .start => p.enterRunning
    | .skip => p.cueStrike .skipped false
  else p

/-- R113, R123, R125: HOLD is loaded with a number of seconds; 0 expires it at the load. -/
def Part.loadHold (p : Part) (seconds : Nat) : Part :=
  let p := { p with play := { p.play with state := .holding, hold := loadMs (1000 * seconds) } }
  if seconds = 0 then p.holdExpire else p

/-- R123: staging ready is acted on in STAGING. -/
def Part.stagingCheck (p : Part) : Part :=
  if p.play.state = .staging ∧ p.reader.stagingReady = true then
    if p.play.startPending then p.enterRunning else p.loadHold p.play.cueHold
  else p

/-- R124: a presence rise on seat 0's channel. -/
def Part.presenceRise (p : Part) : Part :=
  if p.settings.autoStart then
    match p.play.state with
    | .staging => { p with play := { p.play with startPending := true } }
    | .holding => p.enterRunning
    | .idle => p
    | .gap => p
    | .running => p
    | .paused => p
  else p

/-! ## The end of a song and the song clock -/

/-- R131 stage 7: both rows are cleared, the title card comes down (R150), and the score card is shown from the result record. -/
def Part.endDisplay (p : Part) : Part :=
  let p := p.clearRows.titleDown
  match p.scorer.result with
  | some r => p.showCard r.seats
  | none => p

/-- R131: the end of a PLAYING song, in its stages. -/
def Part.endSong (p : Part) (kind : EndKind) : Part :=
  match p.heldBookEntry, p.play.song with
  | some e, some song =>
    let p := p.writeResult e.ticket song.song song.blk.edition kind
    let p := ((p.scoreNotices e).retire e).doneSeats
    let p := (p.release song.song).readerEmpty.endDisplay
    ((p.letGo e.ticket song.song (.ended kind)).loadGap).raise .play
  | _, _ => p

/-- The duration of the held song in steps of song time. -/
def Part.durationSteps (p : Part) : Nat :=
  match p.play.song with
  | some song => song.blk.duration * Config.stepsPerMs
  | none => 0

/-- R128, R130: the song ends ENDED when song time equals the duration. -/
def Part.endIfReached (p : Part) : Part := if p.play.time = p.durationSteps then p.endSong .ended else p

/-- R128: the song clock advances at an audio frame event while RUNNING. A STALLED reader whose queue has lost a record goes on (R118) before the
song ends at its duration (assumption 46). -/
def Part.advance (p : Part) : Part :=
  if p.play.state = .running then
    let p := { p with play := { p.play with
      time := min (p.play.time + (25 + p.play.tempo).toNat) p.durationSteps } }
    p.retireNotes.dropBeats.readerResume.endIfReached
  else p

/-- R156, R157, R164: the window end: the channels are measured, a presence rise on seat 0's channel is handed on, and the window is
evaluated (assumption 22). -/
def Part.windowEnds (p : Part) : Part :=
  match p.measure with
  | (p', rise, estimates) => (if rise then p'.presenceRise else p').evaluateWindow estimates

end Sys2Proof.Machine
end

