-- ==== Sys2Proof/Machine/Line.lean ====
section
/-! DEFINITION. Machine/Line.lean: the Handset Line Controller's shared operations (R26 to R39): the frames of the line, poll rounds and turns,
delivery of notices (R54, R55), misses, claim windows and the claim decision. -/

namespace Sys2Proof.Machine

/-! ## Frames (R27, R32, R190) -/

/-- R190: the frame kinds. -/
def TxKind.code : TxKind → Nat
  | .poll => 1 | .openWindow => 2 | .grant => 3

/-- R190: the bytes of a handset line frame; the CRC-16 spans the address through the last body byte. -/
def lineFrame (address kind : Nat) (body : List Byte) : List Byte :=
  0xC5#8 :: (u8 address ++ u8 kind ++ u8 body.length ++ body) ++
    crcBytes (u8 address ++ u8 kind ++ u8 body.length ++ body)

/-- The bytes of a frame of the part. -/
def TxFrame.bytes (f : TxFrame) : List Byte := lineFrame f.address f.kind.code f.body

/-- R27, R32: a frame of the part is taken to be going out while no frame is being received; characters and breaks come from the
surroundings only while HL_DE is low (assumption 7). -/
def Part.sending (p : Part) : Bool := p.line.tx.isSome && p.line.rx.isEmpty

/-- The number of ones in a byte. -/
def onesOf (b : Byte) : Nat := ((List.range 8).map fun i => (b.getLsbD i).toNat).sum

/-- R27: the parity bit that makes the ones even. -/
def parityOf (b : Byte) : Bool := onesOf b % 2 == 1

/-- R27: a framing error: the stop bit is sampled at space. -/
def framingError (c : RxChar) : Bool := !c.stop

/-- R27: a parity error; a character with both faults counts as a framing error. -/
def parityError (c : RxChar) : Bool := c.stop && c.parity != parityOf c.data

/-- R27: a spoiled character. -/
def spoiled (c : RxChar) : Bool := framingError c || parityError c

/-- R27: a byte as a good character. -/
def charOf (b : Byte) : RxChar := { data := b, parity := parityOf b, stop := true }

/-- R32: a received frame's address, kind and body. -/
structure RxFrame where
  address : Nat
  kind : Nat
  body : List Byte
deriving DecidableEq, Repr

/-- R32: the frame the characters hold, none when they are not well-formed. -/
def parseFrame (chars : List RxChar) : Option RxFrame :=
  if chars.any spoiled then none
  else
    match chars.map RxChar.data with
    | start :: address :: kind :: length :: rest =>
      if start = 0xC5#8 ∧ length.toNat ≤ 40 ∧ rest.length = length.toNat + 2 ∧
          rest.drop length.toNat = crcBytes (address :: kind :: length :: rest.take length.toNat) then
        some { address := address.toNat, kind := kind.toNat, body := rest.take length.toNat }
      else none
    | _ => none

/-! ## Sending -/

/-- R32: a frame of the part falls due. It is sent at once, or when the frame being received ends, or behind a frame that is
already going out. -/
def Part.sendFrame (p : Part) (f : TxFrame) : Part :=
  if p.sending then { p with line := { p.line with txNext := some f } }
  else { p with line := { p.line with tx := some f, txNext := none } }

/-- A frame of the part that has not begun is not sent any more; one that is going out runs to its end. -/
def Part.dropDue (p : Part) : Part :=
  if p.sending then { p with line := { p.line with txNext := none } }
  else { p with line := { p.line with tx := none, txNext := none } }

/-! ## Delivery (R54, R55, R190) -/

/-- R190: an entry of TICKETS or POSITION. -/
def ticketLineBytes (x : TicketLine) : List Byte := u16 x.ticket ++ u8 x.position ++ u8 x.state.code

/-- R190: the message kind a reply answers, its result byte and its fields. The six upper bits of SONG INFO's flags byte are 0: the model's choice
(assumption 50). -/
def replyBytes (r : Reply) : List Byte :=
  match r with
  | .refused kind cause => kind :: u8 cause.code
  | .taken ticket position => u8 1 ++ u8 0 ++ u16 ticket ++ u8 position
  | .songInfo i =>
    u8 2 ++ u8 0 ++ u24 i.song ++ u8 i.edition ++ u8 i.state.code ++ u24 i.duration ++ u8 i.parts ++
      u8 (i.weak.toNat + 2 * i.damaged.toNat) ++ tagBytes i.title ++ tagBytes i.artist
  | .tickets entries => u8 3 ++ u8 0 ++ counted (entries.map ticketLineBytes)
  | .dropped ticket => u8 4 ++ u8 0 ++ u16 ticket
  | .keyed ticket key => u8 5 ++ u8 0 ++ u16 ticket ++ s8 key
  | .seated ticket seat => u8 6 ++ u8 0 ++ u16 ticket ++ u8 seat

/-- R51: whether the cued notice's ticket is carried by the CUED or PLAYING entry. -/
def Part.cuedCurrent (p : Part) (ticket : Nat) : Bool := (heldEntry p.book.entries).any fun e => e.ticket == ticket

/-- R51, R54: when a POLL is formed, a cued notice whose ticket is no longer carried is removed, if the choice comes to it. -/
def Part.dropStaleCued (p : Part) (slot : Nat) : Part :=
  match (p.store slot).cued with
  | none => p
  | some ticket => if p.cuedCurrent ticket then p else p.mapStore slot fun st => { st with cued := none }

/-- R54: the choice below the reply and the struck list. -/
def Part.offerNotice (p : Part) (slot : Nat) : Part × Option Carried × List Byte :=
  let p := p.dropStaleCued slot
  match (p.store slot).cued, (p.store slot).score, (p.store slot).position with
  | some ticket, _, _ => (p, some (.cued ticket), u8 3 ++ u16 ticket)
  | none, some n, _ => (p, some (.score n), u8 4 ++ u16 n.ticket ++ u8 n.seat ++ u16 n.score)
  | none, none, .set =>
    (p.mapStore slot fun st => { st with position := .sent }, some .position,
      u8 5 ++ counted ((ticketLines p.book.entries slot).map ticketLineBytes))
  | none, none, .clear => (p, none, [])
  | none, none, .sent => (p, none, [])

/-- R54: the item the store offers to a POLL, with the POLL's body. -/
def Part.offer (p : Part) (slot : Nat) : Part × Option Carried × List Byte :=
  match (p.store slot).reply, (p.store slot).struck with
  | .held r, _ => (p, some .reply, u8 1 ++ replyBytes r)
  | _, x :: _ => (p, some (.struck true), u8 2 ++ u16 x.ticket ++ u8 x.reason.code)
  | _, [] => p.offerNotice slot

/-- R55: a valid ANSWER removes the item carried when it is still present unchanged. -/
def removeCarried (c : Carried) (st : Store) : Store :=
  match c with
  | .reply =>
    match st.reply with
    | .held _ => { st with reply := .empty }
    | .empty => st
    | .waiting => st
  | .struck true => { st with struck := st.struck.drop 1 }
  | .struck false => st
  | .cued ticket => if st.cued = some ticket then { st with cued := none } else st
  | .score n => if st.score = some n then { st with score := none } else st
  | .position => if st.position = .sent then { st with position := .clear } else st

/-- R53, R55: at a miss or an abandoned turn the POSITION flag returns from SENT to SET. -/
def returnCarried (st : Store) : Store := if st.position = .sent then { st with position := .set } else st

/-! ## Rounds and turns (R33, R34, R37) -/

/-- R33: whether the round serves a slot in its present state. -/
def Part.served (p : Part) (slot : Nat) : Bool :=
  (p.slot slot).state == .active || ((p.slot slot).state == .silent && p.line.round == 0)

/-- R33: the next slot to serve: the lowest-numbered above the last one served in this round. -/
def Part.nextSlot (p : Part) : Option Nat := slotNumbers.find? fun n => p.line.lastServed < n && p.served n

/-- R34: a poll turn begins: the store is asked for its item and a POLL that carries it is sent. -/
def Part.pollTurn (p : Part) (slot : Nat) : Part :=
  match p.offer slot with
  | (p', carried, body) =>
    { p' with line := { p'.line with turn := .poll slot carried, lastServed := slot } }.sendFrame
      { kind := .poll, address := slot, body := body }

/-- R37: a claim window opens and its OPEN is sent. -/
def Part.openWindow (p : Part) : Part :=
  { p with line := { p.line with turn := .claimWindow } }.sendFrame { kind := .openWindow, address := 31, body := [] }

/-- R33: an idle interval: REPLY is loaded with the reply window. -/
def Part.idleInterval (p : Part) : Part :=
  { p with line := { p.line with turn := .idleInterval, reply := loadMs p.settings.replyWindow } }

/-- R33: a new round starts: the round number advances and the divisor takes effect. -/
def Part.startRound (p : Part) : Part :=
  let p := { p with line := { p.line with
    round := (p.line.round + 1) % 8, divisorNow := p.settings.divisor, lastServed := 0, turn := .none, reply := none } }
  match p.nextSlot with
  | some n => p.pollTurn n
  | none => if p.settings.openClaims then p.openWindow else p.idleInterval

/-- R33: at the end of a turn the next slot is served, or the serving part of the round ends. -/
def Part.nextTurn (p : Part) : Part :=
  let p := { p with line := { p.line with turn := .none, reply := none } }
  match p.nextSlot with
  | some n => p.pollTurn n
  | none =>
    if p.settings.openClaims then p.openWindow
    else if p.line.lastServed = 0 then p.idleInterval else p.startRound

/-- R35: a miss of a slot. -/
def Part.miss (p : Part) (slot : Nat) : Part :=
  let x := p.slot slot
  let misses := satInc 15 x.misses
  let p := p.mapStore slot returnCarried
  if x.state = .active ∧ p.settings.missLimit ≤ misses then
    (p.mapSlot slot fun x => { x with misses := misses, state := .silent }).raise .handset
  else p.mapSlot slot fun x => { x with misses := misses }

/-- R32: the frame being received will be discarded as a stray frame when it ends. -/
def Part.strayRest (p : Part) : Part := { p with line := { p.line with rxClass := .stray } }

/-- R32: what abandoning the turn, window or interval in progress does: REPLY stops, no miss is counted, the item stays and is offered
again, and a frame still being received will be a stray frame. -/
def Part.abandonTurn (p : Part) : Part :=
  let p := match p.line.turn with
    | .poll slot _ => p.mapStore slot returnCarried
    | .none => p
    | .claimWindow => p
    | .idleInterval => p
  { p with line := { p.line with turn := .none, reply := none } }.strayRest.dropDue

/-- R36: the slot being served has become FREE or BARRED: its turn is abandoned and the next slot is chosen. -/
def Part.abandonIfServing (p : Part) (slot : Nat) : Part :=
  match p.line.turn with
  | .poll s _ => if s = slot then p.abandonTurn.nextTurn else p
  | .none => p
  | .claimWindow => p
  | .idleInterval => p

/-- R37, R46: OPEN CLAIMS off closes a claim window at once and the next round starts. -/
def Part.closeWindow (p : Part) : Part :=
  match p.line.turn with
  | .claimWindow => p.abandonTurn.startRound
  | .poll _ _ => p
  | .none => p
  | .idleInterval => p

/-! ## Line-enable and break (R29, R30, R31) -/

/-- The part transmits nothing more. -/
def Part.silence (p : Part) : Part := { p with line := { p.line with tx := none, txNext := none } }

/-- R29: line-enable is written. -/
def Part.enableLine (p : Part) (on : Bool) : Part :=
  match on, p.line.state with
  | false, .running =>
    let p := p.abandonTurn.silence
    { p with line := { p.line with state := .off } }
  | false, .broken => { p with line := { p.line with state := .off } }
  | false, .off => p
  | true, .off => { p with line := { p.line with state := .running } }.startRound
  | true, .running => p
  | true, .broken => p

/-- R30: a break. The frame being received is discarded at once, and the stray-frame count stays as it was: the model's choice beside R32's
abandoned turn (assumption 8). -/
def Part.breakLine (p : Part) : Part :=
  let p := p.abandonTurn.silence
  { p with line := { p.line with state := .broken, rx := [], breaks := satInc 255 p.line.breaks } }.raise .line

/-- R31: the end of a break. -/
def Part.endBreak (p : Part) : Part := ({ p with line := { p.line with state := .running } }.raise .line).startRound

/-! ## Claims (R38, R39) -/

/-- R38, R190: the serial of a claim body: four bytes of A5h, then the serial three times. -/
def claimSerial (body : List Byte) : Option (List Byte) :=
  if body.length = 22 ∧ body.take 4 = List.replicate 4 0xA5#8 ∧ (body.drop 4).take 6 = (body.drop 10).take 6 ∧
      (body.drop 10).take 6 = body.drop 16 then some (body.drop 16)
  else none

/-- R190: the body of a CLAIM. -/
def claimBody (serial : List Byte) : List Byte := List.replicate 4 0xA5#8 ++ serial ++ serial ++ serial

/-- R38: the serial of a valid CLAIM frame. -/
def validClaim (f : Option RxFrame) : Option (List Byte) :=
  match f with
  | none => none
  | some f => if f.address = 0 ∧ f.kind = 0x12 then claimSerial f.body else none

/-- R39: the slot that holds a serial. -/
def Part.slotOfSerial (p : Part) (serial : List Byte) : Option Nat :=
  slotNumbers.find? fun n => (p.slot n).serial == some serial

/-- R39: the lowest-numbered FREE slot. -/
def Part.lowestFreeSlot (p : Part) : Option Nat := slotNumbers.find? fun n => (p.slot n).state == .free

/-- R39: a re-claim by the serial of an ACTIVE or SILENT slot. -/
def Part.reclaimSlot (p : Part) (n : Nat) : Part :=
  if (p.slot n).state = .silent then
    (p.mapSlot n fun x => { x with misses := 0, state := .active }).raise .handset
  else p.mapSlot n fun x => { x with misses := 0 }

/-- R39: a FREE slot is given to a serial. -/
def Part.giveSlot (p : Part) (n : Nat) (serial : List Byte) : Part :=
  ((p.mapSlot n fun _ => { Slot.reset with state := .active, serial := some serial }).mapStore n fun _ =>
    Store.empty).raise .handset

/-- R39, R190: the decision on a serial: the table after it and the result byte of the GRANT. -/
def Part.decideClaim (p : Part) (serial : List Byte) : Part × Nat :=
  match p.slotOfSerial serial with
  | some n => if (p.slot n).state = .barred then (p, 0x81) else (p.reclaimSlot n, n)
  | none =>
    match p.lowestFreeSlot with
    | some n => (p.giveSlot n serial, n)
    | none => (p, 0x80)

/-- R37, R39: a valid CLAIM is taken: the window closes with a GRANT. -/
def Part.takeClaim (p : Part) (serial : List Byte) : Part :=
  match p.decideClaim serial with
  | (p', result) =>
    { p' with line := { p'.line with turn := .none, reply := none } }.sendFrame
      { kind := .grant, address := 0, body := serial ++ u8 result }

end Sys2Proof.Machine
end

