-- ==== Sys2Proof/Machine/Messages.lean ====
section
/-! DEFINITION. Machine/Messages.lean: the handset messages (R57 to R65), the taking of an ANSWER (R35) and the judgement of the frames the line
receives (R32, R35, R38). -/

namespace Sys2Proof.Machine

/-! ## The seven messages -/

/-- R59: SONG INFO formed from a catalog entry, with the tags that were read. -/
def songInfoOf (e : CatEntry) (title artist : List Byte) : SongInfo :=
  { song := e.song, edition := e.current.edition, state := e.state, duration := e.current.duration,
    parts := e.current.parts, weak := e.weak, damaged := e.damaged, title := title, artist := artist }

/-- R58: ASK. -/
def Part.takeAsk (p : Part) (slot song singers : Nat) (key : Int) : Part :=
  match p.add { origin := .slot slot, song, singers, key, tempo := 0, front := false } with
  | (p', .inl cause) => p'.placeReply slot (.refused 1#8 cause)
  | (p', .inr (ticket, position)) => p'.placeReply slot (.taken ticket position)

/-- R59: a FIND of a READY song: the reply slot becomes PENDING, bound to a lookup read of page 0 of the song's block. A read that a
FAULTED die ends at once (R100) is answered from the entry (R60). -/
def Part.findRead (p : Part) (slot : Nat) (e : CatEntry) : Part :=
  if p.dieFaulted e.current.die then p.placeReply slot (.songInfo (songInfoOf e [] []))
  else
    (p.mapStore slot fun st => { st with reply := .waiting }).request e.current.die
      { requester := .lookupSlot slot e.song, block := e.current.block, page := 0, data := [], givenUp := false }

/-- R59: FIND. -/
def Part.takeFind (p : Part) (slot song : Nat) : Part :=
  if p.lib.state = .mounted then
    match p.catEntry song with
    | none => p.placeReply slot (.refused 2#8 .noSuchSong)
    | some e => if e.state = .ready then p.findRead slot e else p.placeReply slot (.songInfo (songInfoOf e [] []))
  else p.placeReply slot (.refused 2#8 .notMounted)

/-- R61: MINE. -/
def Part.takeMine (p : Part) (slot : Nat) : Part :=
  (p.placeReply slot (.tickets (ticketLines p.book.entries slot))).mapStore slot fun st => { st with position := .clear }

/-- R62, R63: the live entry of a ticket that the slot is the origin of, or the cause of the refusal. -/
def Part.ownEntry (p : Part) (slot ticket : Nat) : Cause ⊕ Entry :=
  match p.entry ticket with
  | none => .inl .noSuchTicket
  | some e => if e.origin = .slot slot then .inr e else .inl .notYours

/-- R62: what DROP does to the entry. -/
def Part.dropEntry (p : Part) (e : Entry) : Part :=
  match e.state with
  | .waiting => p.strike e.ticket .cancelled false
  | .cued => p.cueStrike .skipped false
  | .playing => p.endSong .skipped

/-- R62: DROP. -/
def Part.takeDrop (p : Part) (slot ticket : Nat) : Part :=
  match p.ownEntry slot ticket with
  | .inl cause => p.placeReply slot (.refused 4#8 cause)
  | .inr e => (p.placeReply slot (.dropped ticket)).dropEntry e

/-- R63: KEY. -/
def Part.takeKey (p : Part) (slot ticket : Nat) (key : Int) : Part :=
  match p.ownEntry slot ticket with
  | .inl cause => p.placeReply slot (.refused 5#8 cause)
  | .inr _ => ((p.placeReply slot (.keyed ticket key)).writeKey ticket key).raise .book

/-- R64: JOIN. -/
def Part.takeJoin (p : Part) (slot ticket : Nat) : Part :=
  match p.joinCheck slot ticket with
  | .inl cause => p.placeReply slot (.refused 6#8 cause)
  | .inr (e, seat) => (p.placeReply slot (.seated ticket seat)).join slot e seat

/-- R57 step 3: the message acts as its rule gives. -/
def Part.act (p : Part) (slot : Nat) (m : Message) : Part :=
  match m with
  | .ask song singers key => p.takeAsk slot song singers key
  | .find song => p.takeFind slot song
  | .mine => p.takeMine slot
  | .drop ticket => p.takeDrop slot ticket
  | .key ticket key => p.takeKey slot ticket key
  | .join ticket => p.takeJoin slot ticket
  | .leave => p.depart slot false

/-- R57: a message is judged: overlap, form, action. -/
def Part.takeMessage (p : Part) (slot : Nat) (kind : Byte) (fields : List Byte) : Part :=
  match (p.store slot).reply with
  | .empty =>
    match messageOf kind fields with
    | none => p.placeReply slot (.refused kind .badForm)
    | some m => p.act slot m
  | .waiting => p.mapSlot slot fun x => { x with overlaps := satInc 255 x.overlaps }
  | .held _ => p.mapSlot slot fun x => { x with overlaps := satInc 255 x.overlaps }

/-! ## Judging frames -/

/-- R35 steps 1 to 3: the slot's misses become 0, a SILENT slot becomes ACTIVE, and the item carried is removed. -/
def Part.hearAnswer (p : Part) (slot : Nat) (carried : Option Carried) : Part :=
  let silent := (p.slot slot).state = .silent
  let p := p.mapSlot slot fun x => { x with misses := 0, state := if x.state = .silent then .active else x.state }
  let p := if silent then p.raise .handset else p
  match carried with
  | none => p
  | some c => p.mapStore slot (removeCarried c)

/-- R35: a valid ANSWER is taken and the turn ends. -/
def Part.takeAnswer (p : Part) (slot : Nat) (carried : Option Carried) (body : List Byte) : Part :=
  let p := p.hearAnswer slot carried
  let p := match body with
    | [] => p
    | kind :: fields => p.takeMessage slot kind fields
  p.nextTurn

/-- R35: a frame that is not a valid ANSWER: a check error when no character of it is spoiled, and a miss. -/
def Part.badAnswer (p : Part) (slot : Nat) (chars : List RxChar) : Part :=
  let p := if chars.any spoiled then p else p.mapSlot slot fun x => { x with check := satInc 255 x.check }
  (p.miss slot).nextTurn

/-- R35: a frame that ends in a poll turn. -/
def Part.judgeAnswer (p : Part) (slot : Nat) (carried : Option Carried) (chars : List RxChar) : Part :=
  match parseFrame chars with
  | none => p.badAnswer slot chars
  | some f =>
    if f.address = slot ∧ f.kind = 0x11 then p.takeAnswer slot carried f.body else p.badAnswer slot chars

/-- R37, R38: a frame that ends in a claim window. When REPLY has expired meanwhile, a frame that is no valid CLAIM closes the window; REPLY
that is not loaded yet, since the window's OPEN waits for the frame to end, has not expired (assumption 6). -/
def Part.judgeClaim (p : Part) (chars : List RxChar) : Part :=
  match validClaim (parseFrame chars) with
  | some serial => p.takeClaim serial
  | none =>
    let p := { p with line := { p.line with badClaims := satInc 255 p.line.badClaims } }
    match p.line.reply, p.line.tx with
    | none, none => p.startRound
    | _, _ => p

/-- R34: a frame is discarded as a late answer. -/
def Part.countLate (p : Part) : Part := { p with line := { p.line with lates := satInc 255 p.line.lates } }

/-- R32: a frame is discarded as a stray frame. -/
def Part.countStray (p : Part) : Part := { p with line := { p.line with strays := satInc 255 p.line.strays } }

/-- R32: a frame ends and is judged by the rule that owns the turn, window or interval in progress at that moment. -/
def Part.judgeByTurn (p : Part) (chars : List RxChar) : Part :=
  match p.line.turn with
  | .poll slot carried => p.judgeAnswer slot carried chars
  | .claimWindow => p.judgeClaim chars
  | .none => p.countStray
  | .idleInterval => p.countStray

/-- R32, R34, R36: the frame being received ends (assumption 6). -/
def Part.frameEnds (p : Part) : Part :=
  let chars := p.line.rx
  let p := { p with line := { p.line with rx := [] } }
  match p.line.rxClass with
  | .byTurn => p.judgeByTurn chars
  | .late => p.countLate
  | .stray => p.countStray

/-! ## Characters -/

/-- R32, R34: how a frame that begins now will be judged, with no frame of the part going out. One that begins in an idle interval after a
REPLY expiry and before the next POLL is late by R34, though R32 calls a frame of the interval stray; in a claim window the window's rule
goes before R34. Both are the model's choice (assumption 6). -/
def Line.classNow (l : Line) : RxClass :=
  match l.turn with
  | .poll _ _ => .byTurn
  | .claimWindow => .byTurn
  | .none => if l.afterMiss then .late else .byTurn
  | .idleInterval => if l.afterMiss then .late else .byTurn

/-- R34: REPLY at the first character of a frame: a poll turn stops it. -/
def Line.replyAtFirst (l : Line) : Timer :=
  match l.turn with
  | .poll _ _ => none
  | .claimWindow => l.reply
  | .none => l.reply
  | .idleInterval => l.reply

/-- R27: the error of a spoiled character is counted against the slot whose poll turn is in progress. -/
def Part.countSpoiled (p : Part) (c : RxChar) : Part :=
  match p.line.turn with
  | .poll slot _ =>
    if framingError c then p.mapSlot slot fun x => { x with framing := satInc 255 x.framing }
    else if parityError c then p.mapSlot slot fun x => { x with parity := satInc 255 x.parity }
    else p
  | .none => p
  | .claimWindow => p
  | .idleInterval => p

/-- R34: the first character of a frame. In a poll turn it stops REPLY. -/
def Part.firstChar (p : Part) : Part :=
  { p with line := { p.line with rxClass := p.line.classNow, reply := p.line.replyAtFirst } }

/-- R32: a character joins the frame being received; the 47th ends it. -/
def Part.joinFrame (p : Part) (c : RxChar) : Part :=
  let p := p.countSpoiled c
  let p := { p with line := { p.line with rx := p.line.rx ++ [c] } }
  if 47 ≤ p.line.rx.length then p.frameEnds else p

/-- R27, R32: a character arrives. While a frame of the part is going out the receiver ignores it. Outside RUNNING no new frame is
received; one that was being received when the line went OFF goes on to its end (assumption 8). -/
def Part.receiveChar (p : Part) (c : RxChar) : Part :=
  match p.line.rx with
  | [] => if p.line.state = .running ∧ p.sending = false then p.firstChar.joinFrame c else p
  | _ :: _ => p.joinFrame c

/-- R32: the idle gap that ends a frame. -/
def Part.receiveGap (p : Part) : Part :=
  match p.line.rx with
  | [] => p
  | _ :: _ => p.frameEnds

/-- R32: a whole frame: the characters not yet received arrive, and then the idle gap (assumption 5). -/
def Part.receiveFrame (p : Part) (chars : List RxChar) : Part :=
  ((chars.drop p.line.rx.length).foldl Part.receiveChar p).receiveGap

/-- R190: an ANSWER from an address, as its characters. -/
def answerChars (address : Byte) (body : List Byte) : List RxChar := (lineFrame address.toNat 0x11 body).map charOf

/-- The frame event of an ANSWER with a message of a kind. R114: the promotion that is due follows the end of the turn, so the next slot's
POLL has been formed before it: the model's choice (assumption 47). -/
def Part.messageFrame (p : Part) (address : Byte) (kind : Nat) (fields : List Byte) : Part :=
  (p.receiveFrame (answerChars address (u8 kind ++ fields))).promoteIfDue

end Sys2Proof.Machine
end

