-- ==== Sys2Proof/Machine/CatalogCommands.lean ====
section
/-! DEFINITION. Machine/CatalogCommands.lean: the desk's library commands (R70, R77, R78, R80 to R84, R87, R89, R109). -/

namespace Sys2Proof.Machine

/-- R94, R99: a step of a die position's identification begins, and its watch is loaded. -/
def beginIdentStep (step : IdentStep) (x : Die) : Die :=
  { x with identifying := some step, watch := loadMs Config.dieTimeoutMs }

/-- R70, R71: MOUNT. -/
def cmdMount (params : List Byte) (p : Part) : Part × CmdResult :=
  withForm (takesNone params) p fun _ =>
    if p.lib.state = .unmounted then
      ({ p with lib := { p.lib with
          state := .mounting, die0 := beginIdentStep .reset p.lib.die0, die1 := beginIdentStep .reset p.lib.die1 } }, .accepted)
    else (p, .refused .busy)

/-- R77, R78: the successor's edition; 00h is the mark that there is none (R188). -/
def successorBytes (e : CatEntry) : List Byte := orNone (e.successor.map fun b => u8 b.edition)

/-- R77: the tags and title glyph codes of a page 0. -/
def tagsBytes (page : List Byte) : List Byte :=
  tagBytes (titleTagOf page) ++ tagBytes (artistTagOf page) ++ counted ((titleGlyphsOf page).map u16)

/-- R77: the data of LOOK UP SONG, with the page the lookup read returned if there is one. One presence byte stands before the title tag, the
artist tag and the glyph codes together: the model's choice (assumption 23). -/
def lookupBytes (e : CatEntry) (page : Option (List Byte)) : List Byte :=
  u24 e.song ++ u8 e.current.edition ++ u8 e.state.code ++ u8 e.current.die ++ u16 e.current.block ++
    u8 e.current.pages ++ u24 e.current.duration ++ u8 e.current.parts ++ flag e.weak ++ flag e.damaged ++ u8 e.pins ++
    successorBytes e ++ present (page.map tagsBytes)

/-- R77: LOOK UP SONG. A read that a FAULTED die ends at once (R100) leaves the answer to the entry (R76). -/
def cmdLookUpSong (params : List Byte) (p : Part) : Part × CmdResult :=
  withForm (u24Value params) p fun song =>
    if !songInRange song then (p, .refused .badForm)
    else if p.lib.state != .mounted then (p, .refused .notMounted)
    else
      match p.catEntry song with
      | none => (p, .refused .noSuchSong)
      | some e =>
        if e.state == .ready && !p.dieFaulted e.current.die then
          (p.request e.current.die
            { requester := .lookupPort, block := e.current.block, page := 0, data := [], givenUp := false },
            .executing song)
        else (p, .ok (lookupBytes e none))

/-- R78: one entry of LIST SONGS. -/
def listBytes (e : CatEntry) : List Byte :=
  u24 e.song ++ u8 e.current.edition ++ u8 e.state.code ++ flag e.weak ++ flag e.damaged ++ u24 e.current.duration ++
    u8 e.current.parts ++ u8 e.pins ++ successorBytes e

/-- R78: the data of LIST SONGS. The number of catalog entries, up to 4096, is a U16: the model's choice beside R189's counts of one byte
(assumption 23). -/
def Part.songList (p : Part) (start count : Nat) : List Byte :=
  let from_ := p.catalog.filter fun e => start ≤ e.song
  u16 p.catalog.length ++ counted ((from_.take count).map listBytes) ++ flag (count < from_.length)

/-- R78: LIST SONGS. -/
def cmdListSongs (params : List Byte) (p : Part) : Part × CmdResult :=
  withForm (listParams params) p fun (start, count) =>
    if !(songInRange start && 1 ≤ count && count ≤ 32) then (p, .refused .badForm)
    else if p.lib.state != .mounted then (p, .refused .notMounted)
    else (p, .ok (p.songList start count))

/-! ## Install -/

/-- Table 4-4, first row. -/
def installInRange (a : InstallParams) : Bool :=
  songInRange a.song && 1 ≤ a.pages && a.pages ≤ 62 && 1000 ≤ a.duration && a.duration ≤ 1200000 && 1 ≤ a.parts &&
    a.parts ≤ 4 && a.glyphs.length ≤ 32 && a.glyphs.all (· ≤ 2047)

/-- Table 4-4: the checks on the song's entry, if any. -/
def installEntryCheck (e : CatEntry) : Option Cause :=
  if e.state = .offline then some .offline
  else if e.successor.isSome || e.state == .withdrawing then some .pending
  else if 255 ≤ e.current.edition then some .limit else none

/-- Table 4-4: the first check of INSTALL BEGIN that fails, but for the last. -/
def Part.installCheck (p : Part) (a : InstallParams) : Option Cause :=
  if !installInRange a then some .badForm
  else if p.lib.state != .mounted then some .notMounted
  else if p.install.isSome then some .busy
  else if !p.lib.libwp then some .protectedLow
  else (p.catEntry a.song).bind installEntryCheck

/-- R81: the edition an install writes. -/
def Part.installEdition (p : Part) (song : Nat) : Nat :=
  match p.catEntry song with
  | none => 1
  | some e => e.current.edition + 1

/-- R79, R81: the record of an accepted INSTALL BEGIN on a die and block. -/
def Part.installRecord (p : Part) (a : InstallParams) (d b : Nat) : Install :=
  { closing := false, song := a.song,
    target := { edition := p.installEdition a.song, die := d, block := b, pages := a.pages, duration := a.duration,
                parts := a.parts },
    title := a.title, artist := a.artist, glyphs := a.glyphs, nextPage := 1, buffered := [],
    replacement := (p.catEntry a.song).isSome, inFlight := none }

/-- R81: the install opens: its block becomes FILLING and the erase is requested. -/
def Part.installOpen (p : Part) (a : InstallParams) (d : Nat) : Part :=
  let r := p.installRecord a d (p.lowestFree d)
  (p.setBlock d (p.lowestFree d) .filling).installRequest r .erase 0 []

/-- R80, R81: INSTALL BEGIN. -/
def cmdInstallBegin (params : List Byte) (p : Part) : Part × CmdResult :=
  withForm (installParams params) p fun a =>
    match p.installCheck a with
    | some cause => (p, .refused cause)
    | none =>
      match p.installDie with
      | none => (p, .refused .noSpace)
      | some d => (p.installOpen a d, .ok (u8 (p.installEdition a.song) ++ u8 d ++ u16 (p.lowestFree d)))

/-- R83: INSTALL PAGE. -/
def cmdInstallPage (params : List Byte) (p : Part) : Part × CmdResult :=
  withForm (pageParams params) p fun (index, data) =>
    if index < 1 || 62 < index then (p, .refused .badForm)
    else
      match p.install with
      | none => (p, .refused .noInstall)
      | some r =>
        if r.closing || index != r.nextPage || r.target.pages < index then (p, .refused .order)
        else if 2 ≤ r.buffered.length then (p, .wait)
        else
          ({ p with install := some { r with nextPage := index + 1, buffered := r.buffered ++ [data] } }.installProceed,
            .ok [])

/-- R84: INSTALL CLOSE. -/
def cmdInstallClose (params : List Byte) (p : Part) : Part × CmdResult :=
  withForm (takesNone params) p fun _ =>
    match p.install with
    | none => (p, .refused .noInstall)
    | some r =>
      if r.closing || r.nextPage != r.target.pages + 1 then (p, .refused .order)
      else ({ p with install := some { r with closing := true } }.installProceed, .accepted)

/-- R87, R102: whether a request is an install operation. -/
def installRequester : Requester → Bool
  | .install _ => true
  | .stream => false
  | .lookupSlot _ _ => false
  | .lookupPort => false
  | .scan => false
  | .withdraw _ => false
  | .reclaim => false

/-- R87: whether the closing program is in progress on the die. -/
def Part.closingInProgress (p : Part) (r : Install) : Bool :=
  r.closing &&
    (p.die r.target.die).op.any fun x => !x.givenUp && x.requester == .install (.program (r.target.pages + 1))

/-- R87: the install is given up: its waiting operation is withdrawn and its block goes to the end of the reclaim list. -/
def Part.abandonInstall (p : Part) (r : Install) : Part :=
  let p := ({ p with install := none }.giveUp r.target.die installRequester).operationEnds .install (some r.song) .abandoned
  p.reclaimPush r.target.die r.target.block

/-- R87: INSTALL ABANDON. -/
def cmdInstallAbandon (params : List Byte) (p : Part) : Part × CmdResult :=
  withForm (takesNone params) p fun _ =>
    match p.install with
    | none => (p, .refused .noInstall)
    | some r => if p.closingInProgress r then (p, .refused .busy) else (p.abandonInstall r, .ok [])

/-! ## Withdraw -/

/-- R89 checks 4 to 7. -/
def Part.withdrawCheck (p : Part) (e : CatEntry) : Option Cause :=
  if e.state = .offline then some .offline
  else if p.holdsSong e.song || e.successor.isSome then some .inUse
  else if e.state == .withdrawing || p.install.any fun r => r.song == e.song then some .pending
  else if !p.lib.libwp then some .protectedLow else none

/-- R89: an accepted WITHDRAW SONG. An erase that a FAULTED die ends at once (R100) ends as R90 gives. -/
def Part.withdraw (p : Part) (e : CatEntry) : Part :=
  let p := p.strikeWaiting (fun x => x.song == e.song) .withdrawn false
  if p.dieFaulted e.current.die then
    ((p.mapCatEntry e.song fun x => { x with state := .offline }).operationEnds .withdraw (some e.song) .failedDie).raise .library
  else
    (p.mapCatEntry e.song fun x => { x with state := .withdrawing }).request e.current.die
      { requester := .withdraw e.song, block := e.current.block, page := 0, data := [], givenUp := false }

/-- R89: WITHDRAW SONG. -/
def cmdWithdrawSong (params : List Byte) (p : Part) : Part × CmdResult :=
  withForm (u24Value params) p fun song =>
    if !songInRange song then (p, .refused .badForm)
    else if p.lib.state != .mounted then (p, .refused .notMounted)
    else
      match p.catEntry song with
      | none => (p, .refused .noSuchSong)
      | some e =>
        match p.withdrawCheck e with
        | some cause => (p, .refused cause)
        | none => (p.withdraw e, .accepted)

/-! ## Library status -/

/-- R109: the counts of a die with a block map, up to 2048 each. Each is a U16: the model's choice beside R189's counts of one byte
(assumption 23). -/
def countBytes (x : Die) : Option (List Byte) :=
  x.map.map fun m =>
    u16 (m.count .free) ++ u16 (m.count .song) ++ u16 (m.count .filling) ++ u16 (m.count .reclaim) ++ u16 (m.count .bad)

/-- R109: one die position. An identification in progress has no class and no block, and is shown as no operation: the model's choice
(assumption 23). -/
def dieBytes (x : Die) : List Byte :=
  u8 x.state.code ++ present (countBytes x) ++
    present (x.op.map fun r => u8 (requestClass r.requester) ++ u16 r.block) ++ u16 x.waiting.length

/-- R79, R109: the install operation in flight: 00h for none. -/
def inFlightCode : Option InstallOp → Nat
  | none => 0
  | some .erase => 1
  | some (.program _) => 2

/-- R79, R109: the install record; NONE, OPEN and CLOSING are 1, 2 and 3. -/
def installBytes (r : Install) : List Byte :=
  u8 (if r.closing then 3 else 2) ++ u24 r.song ++ u8 r.target.edition ++ u8 r.target.pages ++ u24 r.target.duration ++
    u8 r.target.parts ++ tagBytes r.title ++ tagBytes r.artist ++ counted (r.glyphs.map u16) ++ u8 r.target.die ++
    u16 r.target.block ++ u8 r.nextPage ++ u8 r.buffered.length ++ flag r.replacement ++ u8 (inFlightCode r.inFlight)

/-- R109: the last-operation outcome; its song is 00h for a mount (R188), and the fault kind follows FAILED and is 00h otherwise
(assumption 23). -/
def lastOperationBytes (x : LastOperation) : List Byte :=
  u8 x.kind.code ++ orNone (x.song.map u24) ++ u8 x.ending.code ++ u8 x.ending.faultCode

/-- R109: the data of LIBRARY STATUS. The level of LIBWP_N is 01h for high and 00h for low, and the number of blocks in the reclaim list, up to
4096, is a U16: the model's choices (assumption 23). -/
def Part.libraryBytes (p : Part) : List Byte :=
  u8 p.lib.state.code ++ flag p.lib.libwp ++ dieBytes p.lib.die0 ++ dieBytes p.lib.die1 ++ u16 p.lib.reclaim.length ++
    present (p.install.map installBytes) ++ present (p.lib.lastOperation.map lastOperationBytes) ++
    present (p.lib.lastFault.map fun f => u8 f.kind.code ++ u8 f.die ++ u16 f.block) ++ u8 p.lib.faultCount

/-- R109: LIBRARY STATUS. -/
def cmdLibraryStatus (params : List Byte) (p : Part) : Part × CmdResult :=
  withForm (optionalFlag params) p fun clearFaults =>
    let cleared :=
      if clearFaults then { p with lib := { p.lib with lastFault := none, faultCount := 0 } } else p
    (cleared.clearSource .library, .ok p.libraryBytes)

/-! ## The commands -/

/-- MOUNT (R70). -/
def execMount (tag : Byte) (params : List Byte) (s : State) : Host.Outcome State Fault Refusal :=
  .next (s.mapPart fun p => p.takeCommand tag (cmdMount params))

/-- LOOK_UP_SONG (R77). -/
def execLookUpSong (tag : Byte) (params : List Byte) (s : State) : Host.Outcome State Fault Refusal :=
  .next (s.mapPart fun p => p.takeCommand tag (cmdLookUpSong params))

/-- LIST_SONGS (R78). -/
def execListSongs (tag : Byte) (params : List Byte) (s : State) : Host.Outcome State Fault Refusal :=
  .next (s.mapPart fun p => p.takeCommand tag (cmdListSongs params))

/-- INSTALL_BEGIN (R80). -/
def execInstallBegin (tag : Byte) (params : List Byte) (s : State) : Host.Outcome State Fault Refusal :=
  .next (s.mapPart fun p => p.takeCommand tag (cmdInstallBegin params))

/-- INSTALL_PAGE (R83). -/
def execInstallPage (tag : Byte) (params : List Byte) (s : State) : Host.Outcome State Fault Refusal :=
  .next (s.mapPart fun p => p.takeCommand tag (cmdInstallPage params))

/-- INSTALL_CLOSE (R84). -/
def execInstallClose (tag : Byte) (params : List Byte) (s : State) : Host.Outcome State Fault Refusal :=
  .next (s.mapPart fun p => p.takeCommand tag (cmdInstallClose params))

/-- INSTALL_ABANDON (R87). -/
def execInstallAbandon (tag : Byte) (params : List Byte) (s : State) : Host.Outcome State Fault Refusal :=
  .next (s.mapPart fun p => p.takeCommand tag (cmdInstallAbandon params))

/-- WITHDRAW_SONG (R89). -/
def execWithdrawSong (tag : Byte) (params : List Byte) (s : State) : Host.Outcome State Fault Refusal :=
  .next (s.mapPart fun p => p.takeCommand tag (cmdWithdrawSong params))

/-- LIBRARY_STATUS (R109). -/
def execLibraryStatus (tag : Byte) (params : List Byte) (s : State) : Host.Outcome State Fault Refusal :=
  .next (s.mapPart fun p => p.takeCommand tag (cmdLibraryStatus params))

end Sys2Proof.Machine
end

