-- ==== Sys2Proof/Machine/DieEvents.lean ====
section
/-! DEFINITION. Machine/DieEvents.lean: the completions of the die operations, identification, the die watch and LIBWP_N (R72, R76, R82, R85, R86,
R90, R91, R94 to R99, R103, R106, R107, R119, R122). An event that a die cannot give in its present state changes nothing
(assumption 3). -/

namespace Sys2Proof.Machine

/-! ## The end of an operation -/

/-- The operation in progress on a die, if its requester is of a kind. -/
def Part.runningOp (p : Part) (d : Nat) (kind : Requester → Bool) : Option Request :=
  (p.die d).op.filter fun r => kind r.requester

/-- R101: the requester has acted; the arbiter grants, and the promotion that is due is made. -/
def Part.opDone (p : Part) (d : Nat) : Part := (p.grant d).promoteIfDue

/-- R95, R96, R102: a page read of a kind completes: the controller's own effects, then its requester's unless it has given the read
up. -/
def Part.readCompletes (p : Part) (d : Nat) (kind : Requester → Bool) (read : PageRead)
    (act : Request → Part → Part) : Part :=
  match p.runningOp d kind with
  | none => p
  | some r =>
    let q := (p.opEnds d).pageReadEffects d r.block (readOutcome read)
    (if r.givenUp then q else act r q).opDone d

/-! ## Stream fetches (R119, R122) -/

/-- Which buffer awaits a page. -/
def Reader.awaits (rd : Reader) (page : Nat) : Bool := rd.buf0 == .requested page

/-- R122: the page is a valid header that names the play context's song, edition and stream-page count. -/
def headerUsable (song : HeldSong) (page : List Byte) : Bool :=
  match validHeader page with
  | none => false
  | some h => h.song == song.song && h.edition == song.blk.edition && h.pages == song.blk.pages

/-- The reader examines what it can, and then staging ready is judged (R120, R123), once for the event: the model's choice (assumption 48). -/
def Part.readerGoesOn (p : Part) : Part := p.readerRun.stagingCheck

/-- R122, R116: a usable header gives the title card its content, and its buffer takes the next page to fetch. -/
def Part.headerTaken (p : Part) (song : HeldSong) (page : List Byte) : Part :=
  (p.titleArrives page).refill song.blk (p.reader.awaits 0)

/-- R122: the header read is judged. -/
def Part.headerArrives (p : Part) (song : HeldSong) (data : Option (List Byte)) : Part :=
  match data.filter (headerUsable song) with
  | some page => (p.headerTaken song page).readerGoesOn
  | none => (p.mapCatEntry song.song fun e => { e with damaged := true }).cueStrike .damaged false

/-- R119, R116: a stream page stands in its buffer, or is skipped whole and counted, and its buffer takes the next page to fetch. -/
def Part.pageTaken (p : Part) (song : HeldSong) (page : Nat) (data : Option (List Byte)) : Part :=
  match data with
  | some bytes => p.setBuffer (p.reader.awaits page) (.full page bytes)
  | none =>
    { p with play := { p.play with damagedPages := satInc 62 p.play.damagedPages } }.refill song.blk (p.reader.awaits page)

/-- R119: a stream page arrives, and the reader goes on. -/
def Part.pageArrives (p : Part) (song : HeldSong) (page : Nat) (data : Option (List Byte)) : Part :=
  (p.pageTaken song page data).readerGoesOn

/-- R119, R122: the reader takes the outcome of a stream fetch. -/
def Part.streamArrives (read : PageRead) (r : Request) (p : Part) : Part :=
  match p.play.song with
  | none => p
  | some song =>
    if r.page = 0 then p.headerArrives song (readData read) else p.pageArrives song r.page (readData read)

/-! ## Lookup reads (R60, R76, R77) -/

/-- R60: a FIND's lookup read has ended; the reply is formed from the entry as it stands, with the tags of the page if there
is one. -/
def Part.findAnswered (p : Part) (slot song : Nat) (page : Option (List Byte)) : Part :=
  match p.catEntry song, page with
  | some e, some data => p.placeReply slot (.songInfo (songInfoOf e (titleTagOf data) (artistTagOf data)))
  | some e, none => p.placeReply slot (.songInfo (songInfoOf e [] []))
  | none, _ => p.placeReply slot (.refused 2#8 .noSuchSong)

/-- R77: the lookup read of LOOK UP SONG has ended and the command is answered. -/
def Part.lookupAnswered (p : Part) (page : Option (List Byte)) : Part :=
  match p.port.lookup with
  | none => p
  | some c =>
    match p.catEntry c.song with
    | some e => p.answer c.tag .ok (lookupBytes e page)
    | none => p.refuse c.tag .noSuchSong

/-- R76: the requester of a lookup read forms its answer. -/
def Part.lookupEnds (page : Option (List Byte)) (r : Request) (p : Part) : Part :=
  match r.requester with
  | .lookupSlot slot song => p.findAnswered slot song page
  | .lookupPort => p.lookupAnswered page
  | .stream => p
  | .scan => p
  | .install _ => p
  | .withdraw _ => p
  | .reclaim => p

/-- Table 5-4: a lookup read. -/
def isLookup (q : Requester) : Bool := requestClass q == 2

/-! ## The mount (R71, R72, R94) -/

/-- R72: a scan read judges its block, or calls for the read of its closing page. -/
def Part.scanArrives (d : Nat) (read : PageRead) (_ : Request) (p : Part) : Part :=
  match (p.die d).scan with
  | .header b =>
    match judgePage0 read with
    | .inl j => p.judgeBlock d b j
    | .inr h => (p.mapDie d fun x => { x with scan := .closing b h }).requestScan d b (h.pages + 1)
  | .closing b h => p.judgeBlock d b (judgeClosing h read)
  | .notScanning => p
  | .done => p

/-- R93, Table 5-1: the geometry of a die the part takes. -/
def geometryOk (g : Geometry) : Bool :=
  g.blocks == Config.blocksPerDie && g.pages == Config.pagesPerBlock && g.dataBytes == Config.pageBytes &&
    g.spareBytes == Config.spareBytes

/-- R71, R94: a position is identified, present or ABSENT. -/
def Part.identified (p : Part) (d : Nat) (present : Bool) : Part :=
  let p := p.mapDie d fun x =>
    { x with identifying := none, watch := none, state := if present then .idle else .absent }
  if p.lib.state = .mounting then if d = 0 ∧ present = false then p.failMount else p.beginScans else p

/-- R94, R99: a die reports in its identification. Ready after the reset, its identity read begins with a die watch of its own; a geometry ends
the identification, and both steps when the end of the reset had no event of its own (assumption 20). -/
def Part.identifies (p : Part) (d : Nat) (report : IdentReport) : Part :=
  match (p.die d).identifying, report with
  | none, _ => p
  | some .reset, .ready => p.mapDie d (beginIdentStep .identityRead)
  | some .identityRead, .ready => p
  | some _, .geometry g => p.identified d (geometryOk g)

/-! ## Install operations (R82, R85, R86, R87, R97, R98) -/

/-- R97: the program mark. -/
def Part.setMark (p : Part) (n : Nat) : Part := { p with lib := { p.lib with programMark := n } }

/-- R82: no operation of the install is in flight; the next is requested when it may be. -/
def Part.installNext (p : Part) (r : Install) : Part :=
  { p with install := some { r with inFlight := none } }.installProceed

/-- R82: at a stream page's PASS the page leaves the buffered pages. -/
def dropProgrammed (r : Install) (page : Nat) : Install :=
  { r with buffered := if page = 0 then r.buffered else r.buffered.drop 1 }

/-- R82: an install operation has completed PASS. -/
def Part.installPassed (p : Part) (r : Install) (op : InstallOp) : Part :=
  match op with
  | .erase => (p.setMark 0).installNext r
  | .program k =>
    let p := p.setMark (p.lib.programMark + 1)
    if k = r.target.pages + 1 then p.installCompletes r else p.installNext (dropProgrammed r k)

/-- The fault kind of a failing install operation, and how the install ends with it (R86). -/
def failOf : InstallOp → FaultKind × OperationEnd
  | .erase => (.erase, .failedErase)
  | .program _ => (.program, .failedProgram)

/-- R86, R97, R98, R87: an install operation ends FAIL: the fault is recorded and the block becomes BAD; the install fails, or the block of
an abandoned install leaves the reclaim list. -/
def Part.installOpFails (p : Part) (d : Nat) (x : Request) (op : InstallOp) : Part :=
  let p := (p.recordFault (failOf op).1 d x.block).setBlock d x.block .bad
  if x.givenUp then p.reclaimLeave d x.block else p.installFails (failOf op).2

/-- R82, R87: an install operation ends. -/
def Part.installOpEnds (p : Part) (d : Nat) (pass : Bool) (x : Request) : Part :=
  match x.requester, p.install with
  | .install op, some r =>
    if pass then if x.givenUp then p else p.installPassed r op else p.installOpFails d x op
  | .install op, none => if pass then p else p.installOpFails d x op
  | _, _ => p

/-- An operation of a kind ends on a die, and its requester acts. -/
def Part.eraseCompletes (p : Part) (d : Nat) (kind : Requester → Bool) (act : Request → Part → Part) : Part :=
  match p.runningOp d kind with
  | none => p
  | some r => (act r (p.opEnds d)).opDone d

/-! ## Withdraw and reclaim erases (R90, R106) -/

/-- R90: the entry is removed from the catalog. -/
def Part.removeCatEntry (p : Part) (song : Nat) : Part :=
  { p with catalog := p.catalog.filter fun e => e.song != song }

/-- R90: a withdraw erase ends PASS or FAIL. -/
def Part.withdrawEnds (d : Nat) (pass : Bool) (r : Request) (p : Part) : Part :=
  match r.requester with
  | .withdraw song =>
    if pass then
      (((p.removeCatEntry song).setBlock d r.block .free).operationEnds .withdraw (some song) .done).raise .library
    else
      ((((p.recordFault .erase d r.block).removeCatEntry song).setBlock d r.block .bad).operationEnds .withdraw
        (some song) .failedErase).raise .library
  | .stream => p
  | .lookupSlot _ _ => p
  | .lookupPort => p
  | .scan => p
  | .install _ => p
  | .reclaim => p

/-- Table 5-4: a withdraw erase. -/
def isWithdraw (q : Requester) : Bool := requestClass q == 5

/-- R106: a reclaim erase ends PASS or FAIL. -/
def Part.reclaimEnds (d : Nat) (pass : Bool) (r : Request) (p : Part) : Part :=
  let p := p.reclaimLeave d r.block
  if pass then p.setBlock d r.block .free else (p.setBlock d r.block .bad).recordFault .erase d r.block

/-! ## Die fault (R75, R91, R99, R107) -/

/-- R107 step 1: the die enters FAULTED with nothing in progress and nothing waiting. -/
def Part.dieStops (p : Part) (d : Nat) : Part :=
  p.mapDie d fun x => { x with state := .faulted, op := none, waiting := [], watch := none }

/-- R91: what a fault of die d does to a catalog entry. -/
def offlineEntry (d : Nat) (e : CatEntry) : CatEntry :=
  { e with
    state := if e.current.die = d then .offline else e.state
    successor := e.successor.filter fun b => b.die != d }

/-- R107 step 3: the successor blocks on die d, in song order. -/
def successorBlocks (d : Nat) (catalog : List CatEntry) : List Nat :=
  catalog.filterMap fun e => (e.successor.filter fun b => b.die == d).map SongBlock.block

/-- R104: the FILLING block on die d. -/
def fillingBlock (d : Nat) (install : Option Install) : List Nat :=
  ((install.filter fun r => r.target.die == d).map fun r => r.target.block).toList

/-- R107 steps 3 and 4, R91: the block map, the reclaim list and the catalog at a fault of die d. -/
def Part.catalogFaults (p : Part) (d : Nat) : Part :=
  let blocks := fillingBlock d p.install ++ successorBlocks d p.catalog
  let p := { p with catalog := p.catalog.map (offlineEntry d) }
  blocks.foldl (fun p b => p.reclaimJoin d b) p

/-- R107 step 2: a request of a faulted die ends. -/
def Part.endedByFault (p : Part) (r : Request) : Part :=
  if r.givenUp then p
  else
    match r.requester with
    | .lookupSlot slot song => p.findAnswered slot song none
    | .lookupPort => p.lookupAnswered none
    | .install _ => p.installFails .failedDie
    | .withdraw song => (p.operationEnds .withdraw (some song) .failedDie).raise .library
    | .stream => p
    | .scan => p
    | .reclaim => p

/-- R91: an install whose FILLING block lies on the die and which had no operation outstanding fails too. -/
def Part.installOnDieFails (p : Part) (d : Nat) : Part :=
  if p.install.any fun r => r.target.die == d then p.installFails .failedDie else p

/-- R107 step 4: whether an entry names a song whose current block lies on die d. -/
def Part.namesOffline (p : Part) (e : Entry) : Bool := (p.catEntry e.song).any fun c => c.state == .offline

/-- R107 step 4: the play context ends or strikes a song on the die. -/
def Part.playFaults (p : Part) (d : Nat) : Part :=
  if p.play.song.any fun h => h.blk.die == d then
    if p.playing then p.endSong .damaged else p.cueStrike .damaged false
  else p

/-- R107, R18, R50: a die fault while the library is MOUNTED. `ended` holds the operation in progress and the waiting requests (assumption
29). The entries that name an OFFLINE song are those of the moment the catalog has acted, before the play context's release switches a
successor (R88); they are struck in book order, the CUED entry first. -/
def Part.mountedFault (p : Part) (d block : Nat) (ended : List Request) : Part :=
  let p := ended.foldl Part.endedByFault ((p.dieStops d).catalogFaults d)
  let p := p.installOnDieFails d
  (((p.playFaults d).strikeWaiting p.namesOffline .damaged false).recordFault .die d block).promoteIfDue

/-- R75, R107: a die fault while the library is MOUNTING. -/
def Part.mountingFault (p : Part) (d block : Nat) : Part :=
  let p := (p.dieStops d).recordFault .die d block
  if d = 0 then p.failMount else (p.mapDie d fun x => { x with scan := .notScanning, judged := [] }).mountIfScanned

/-- R99, R107: the die watch expires during an operation. -/
def Part.dieFaults (p : Part) (d : Nat) (r : Request) : Part :=
  match p.lib.state with
  | .mounted => p.mountedFault d r.block (r :: (p.die d).waiting)
  | .mounting => p.mountingFault d r.block
  | .failed => (p.dieStops d).recordFault .die d r.block
  | .unmounted => p

/-- R99: the die watch expires. -/
def Part.watchExpires (p : Part) (d : Nat) : Part :=
  if (p.die d).identifying.isSome then p.identified d false
  else
    match (p.die d).op with
    | none => p
    | some r => p.dieFaults d r

/-- R99, R113: the event of a die watch's expiry. -/
def Part.watchExpiry (p : Part) (d : Nat) : Part := p.expireAt 1 (fun q => (q.die d).watch) fun q => q.watchExpires d

/-! ## LIBWP_N (R103) -/

/-- R103: LIBWP_N takes a level. -/
def Part.protectChanges (p : Part) (high : Bool) : Part :=
  let rises := high && !p.lib.libwp
  let p := { p with lib := { p.lib with libwp := high } }
  if rises then (p.grantIfIdle 0).grantIfIdle 1 else p

/-! ## The commands -/

/-- STREAM_FETCH_COMPLETE (R119, R122). -/
def execStreamFetchComplete (die : Fin 2) (read : PageRead) (s : State) : Host.Outcome State Fault Refusal :=
  .next (s.mapPart fun p => p.readCompletes die (· == .stream) read (Part.streamArrives read))

/-- LOOKUP_READ_COMPLETE (R76). -/
def execLookupReadComplete (die : Fin 2) (read : PageRead) (s : State) : Host.Outcome State Fault Refusal :=
  .next (s.mapPart fun p => p.readCompletes die isLookup read (Part.lookupEnds (readData read)))

/-- MOUNT_SCAN_READ_COMPLETE (R72). -/
def execMountScanReadComplete (die : Fin 2) (read : PageRead) (s : State) : Host.Outcome State Fault Refusal :=
  .next (s.mapPart fun p => p.readCompletes die (· == .scan) read (Part.scanArrives die read))

/-- IDENTIFICATION (R94). -/
def execIdentification (die : Fin 2) (report : IdentReport) (s : State) : Host.Outcome State Fault Refusal :=
  .next (s.mapPart fun p => p.identifies die report)

/-- INSTALL_PROGRAM_COMPLETE (R82). -/
def execInstallProgramComplete (die : Fin 2) (pass : Bool) (s : State) : Host.Outcome State Fault Refusal :=
  .next (s.mapPart fun p => p.eraseCompletes die installRequester fun r q => q.installOpEnds die pass r)

/-- WITHDRAW_ERASE_COMPLETE (R90). -/
def execWithdrawEraseComplete (die : Fin 2) (pass : Bool) (s : State) : Host.Outcome State Fault Refusal :=
  .next (s.mapPart fun p => p.eraseCompletes die isWithdraw (Part.withdrawEnds die pass))

/-- RECLAIM_ERASE_COMPLETE (R106). -/
def execReclaimEraseComplete (die : Fin 2) (pass : Bool) (s : State) : Host.Outcome State Fault Refusal :=
  .next (s.mapPart fun p => p.eraseCompletes die (· == .reclaim) (Part.reclaimEnds die pass))

/-- DIE_WATCH_EXPIRY (R99). -/
def execDieWatchExpiry (die : Fin 2) (s : State) : Host.Outcome State Fault Refusal :=
  .next (s.mapPart fun p => p.watchExpiry die)

/-- LIBWP_N_CHANGE (R103). -/
def execLibwpChange (high : Bool) (s : State) : Host.Outcome State Fault Refusal :=
  .next (s.mapPart fun p => p.protectChanges high)

end Sys2Proof.Machine
end

