-- ==== Sys2Proof/Machine/LineEvents.lean ====
section
/-! DEFINITION. Machine/LineEvents.lean: the events of the handset line (R30 to R39, R57 to R65). An event that finds the line in no state
in which it can happen changes nothing (assumption 3). -/

namespace Sys2Proof.Machine

/-! ## Frames of the part that have left -/

/-- The frame of a kind that is going out, if it is the one. -/
def Part.outgoing (p : Part) (kind : TxKind) : Option TxFrame :=
  if p.line.state = .running ∧ p.line.rx = [] then p.line.tx.filter fun f => f.kind == kind else none

/-- A frame of the part has left; a frame that was due behind it goes out. -/
def Part.txLeaves (p : Part) : Part := { p with line := { p.line with tx := p.line.txNext, txNext := none } }

/-- REPLY is loaded with a number of milliseconds. -/
def Part.loadReply (p : Part) (ms : Nat) : Part := { p with line := { p.line with reply := loadMs ms } }

/-- R34: the POLL to a slot belongs to the poll turn in progress, and no frame is due behind it. -/
def Part.pollOfTurn (p : Part) (f : TxFrame) : Bool :=
  p.line.txNext.isNone &&
    match p.line.turn with
    | .poll slot _ => slot == f.address
    | .none => false
    | .claimWindow => false
    | .idleInterval => false

/-- R34: the last stop bit of a POLL has left, and REPLY is loaded with the reply window. A POLL whose turn was abandoned loads
nothing. -/
def Part.pollSent (p : Part) : Part :=
  match p.outgoing .poll with
  | none => p
  | some f =>
    let q := { p.txLeaves with line := { p.txLeaves.line with afterMiss := false } }
    if p.pollOfTurn f then q.loadReply p.settings.replyWindow else q

/-- R37: the OPEN has left, and REPLY is loaded with four times the reply window. An OPEN whose window was closed loads nothing. -/
def Part.openSent (p : Part) : Part :=
  match p.outgoing .openWindow with
  | none => p
  | some _ =>
    if p.line.txNext = none ∧ p.line.turn = .claimWindow then p.txLeaves.loadReply (4 * p.settings.replyWindow)
    else p.txLeaves

/-- R37: the GRANT has left, and the next round starts. -/
def Part.grantSent (p : Part) : Part :=
  match p.outgoing .grant with
  | none => p
  | some _ => if p.line.txNext = none ∧ p.line.turn = .none then p.txLeaves.startRound else p.txLeaves

/-! ## REPLY, breaks -/

/-- R34, R37, R33: REPLY expires in a poll turn, a claim window or an idle interval. -/
def Part.replyExpires (p : Part) : Part :=
  match p.line.state, p.line.turn with
  | .running, .poll slot _ =>
    let q := { p with line := { p.line with reply := none, afterMiss := true } }
    (q.miss slot).nextTurn
  | .running, .claimWindow =>
    match p.line.rx with
    | [] => p.startRound
    | _ :: _ => { p with line := { p.line with reply := none } }
  | .running, .idleInterval => p.startRound
  | _, _ => p

/-- R34, R113: the event of REPLY's expiry. -/
def Part.replyExpiry (p : Part) : Part := p.expireAt 1 (fun q => q.line.reply) Part.replyExpires

/-- R30: a break while the line is RUNNING and HL_DE is low. -/
def Part.breakBegins (p : Part) : Part := if p.line.state = .running ∧ p.sending = false then p.breakLine else p

/-- R31: the end of a break. -/
def Part.breakEnds (p : Part) : Part := if p.line.state = .broken then p.endBreak else p

/-- R32, R34: a frame arrives whole, the line and the frame's content decide what it is (assumption 5), and the promotion that an accepted
message makes due follows (R114). -/
def Part.wholeFrame (p : Part) (chars : List RxChar) : Part := (p.receiveFrame chars).promoteIfDue

/-- R34, R32: a frame that began before the frame of the part that is due had begun, so between frames the part sends. It is late after
REPLY expiry and before the next POLL is sent, else stray; R27 counts its spoiled characters. The frame that is due follows it
(assumption 7). -/
def Part.frameBetween (p : Part) (chars : List RxChar) : Part :=
  let p := chars.foldl Part.countSpoiled p
  if p.line.afterMiss then p.countLate else p.countStray

/-- R34, R32: a frame that no turn or window judges. Its row says that it began outside every frame of the part. -/
def Part.outsideFrame (p : Part) (chars : List RxChar) : Part :=
  if p.line.state = .running ∧ p.sending = true ∧ chars ≠ [] then p.frameBetween chars else p.wholeFrame chars

/-! ## The commands -/

/-- POLL_SENT (R34). -/
def execPollSent (s : State) : Host.Outcome State Fault Refusal := .next (s.mapPart Part.pollSent)

/-- RECEIVED_CHARACTER (R27, R34). -/
def execReceivedCharacter (c : RxChar) (s : State) : Host.Outcome State Fault Refusal :=
  .next (s.mapPart fun p => p.receiveChar c)

/-- REPLY_EXPIRY (R34). -/
def execReplyExpiry (s : State) : Host.Outcome State Fault Refusal := .next (s.mapPart Part.replyExpiry)

/-- INVALID_ANSWER (R35). -/
def execInvalidAnswer (chars : List RxChar) (s : State) : Host.Outcome State Fault Refusal :=
  .next (s.mapPart fun p => p.wholeFrame chars)

/-- ANSWER (R35). -/
def execAnswer (address : Byte) (body : List Byte) (s : State) : Host.Outcome State Fault Refusal :=
  .next (s.mapPart fun p => p.wholeFrame (answerChars address body))

/-- ASK (R58). -/
def execAsk (address : Byte) (fields : List Byte) (s : State) : Host.Outcome State Fault Refusal :=
  .next (s.mapPart fun p => p.messageFrame address 1 fields)

/-- FIND (R59). -/
def execFind (address : Byte) (fields : List Byte) (s : State) : Host.Outcome State Fault Refusal :=
  .next (s.mapPart fun p => p.messageFrame address 2 fields)

/-- MINE (R61). -/
def execMine (address : Byte) (fields : List Byte) (s : State) : Host.Outcome State Fault Refusal :=
  .next (s.mapPart fun p => p.messageFrame address 3 fields)

/-- DROP (R62). -/
def execDrop (address : Byte) (fields : List Byte) (s : State) : Host.Outcome State Fault Refusal :=
  .next (s.mapPart fun p => p.messageFrame address 4 fields)

/-- KEY (R63). -/
def execKey (address : Byte) (fields : List Byte) (s : State) : Host.Outcome State Fault Refusal :=
  .next (s.mapPart fun p => p.messageFrame address 5 fields)

/-- JOIN (R64). -/
def execJoin (address : Byte) (fields : List Byte) (s : State) : Host.Outcome State Fault Refusal :=
  .next (s.mapPart fun p => p.messageFrame address 6 fields)

/-- LEAVE (R65). -/
def execLeave (address : Byte) (fields : List Byte) (s : State) : Host.Outcome State Fault Refusal :=
  .next (s.mapPart fun p => p.messageFrame address 7 fields)

/-- LATE_ANSWER (R34). -/
def execLateAnswer (chars : List RxChar) (s : State) : Host.Outcome State Fault Refusal :=
  .next (s.mapPart fun p => p.outsideFrame chars)

/-- STRAY_FRAME (R32). -/
def execStrayFrame (chars : List RxChar) (s : State) : Host.Outcome State Fault Refusal :=
  .next (s.mapPart fun p => p.outsideFrame chars)

/-- OPEN_SENT (R37). -/
def execOpenSent (s : State) : Host.Outcome State Fault Refusal := .next (s.mapPart Part.openSent)

/-- CLAIM (R38, R39): a CLAIM frame with the serial three times over. -/
def execClaim (serial : List Byte) (s : State) : Host.Outcome State Fault Refusal :=
  .next (s.mapPart fun p => p.wholeFrame ((lineFrame 0 0x12 (claimBody serial)).map charOf))

/-- BAD_CLAIM (R38). -/
def execBadClaim (chars : List RxChar) (s : State) : Host.Outcome State Fault Refusal :=
  .next (s.mapPart fun p => p.wholeFrame chars)

/-- GRANT_SENT (R37). -/
def execGrantSent (s : State) : Host.Outcome State Fault Refusal := .next (s.mapPart Part.grantSent)

/-- BREAK (R30). -/
def execBreak (s : State) : Host.Outcome State Fault Refusal := .next (s.mapPart Part.breakBegins)

/-- BREAK_END (R31). -/
def execBreakEnd (s : State) : Host.Outcome State Fault Refusal := .next (s.mapPart Part.breakEnds)

end Sys2Proof.Machine
end

