-- ==== Sys2Proof/Machine/BookCommands.lean ====
section
/-! DEFINITION. Machine/BookCommands.lean: the desk's book commands (R13 to R16, R23, R24). -/

namespace Sys2Proof.Machine

/-- R114: an event's own effects are complete, and the promotion that is due is made. -/
def thenPromote (r : Part × CmdResult) : Part × CmdResult := (r.1.promoteIfDue, r.2)

/-- R13: ADD REQUEST. -/
def cmdAddRequest (params : List Byte) (p : Part) : Part × CmdResult :=
  withForm (addParams params) p fun a =>
    match p.add { origin := .desk, song := a.song, singers := a.singers, key := a.key, tempo := a.tempo,
                  front := a.front } with
    | (p', .inl cause) => (p', .refused cause)
    | (p', .inr (ticket, position)) => thenPromote (p', .ok (u16 ticket ++ u8 position))

/-- R14: what CANCEL REQUEST does to a live entry. -/
def Part.cancelEntry (p : Part) (e : Entry) : Part :=
  match e.state with
  | .waiting => p.strike e.ticket .cancelled true
  | .cued => p.cueStrike .cancelled true
  | .playing => p.endSong .skipped

/-- R14: CANCEL REQUEST. -/
def cmdCancelRequest (params : List Byte) (p : Part) : Part × CmdResult :=
  withForm (u16Value params) p fun ticket =>
    match p.entry ticket with
    | none => (p, .refused .noSuchTicket)
    | some e => thenPromote (p.cancelEntry e, .ok [])

/-- R15: the seat list resized: seats appended with claim none, or the highest-numbered removed with their claims. -/
def resizeSeats (seats : List (Option Nat)) (singers : Nat) : List (Option Nat) :=
  seats.take singers ++ List.replicate (singers - seats.length) none

/-- R15 check 1: an optional field is present and every present field is in range. -/
def editInRange (a : EditParams) : Bool :=
  (a.key.isSome || a.tempo.isSome || a.singers.isSome) && a.key.all keyInRange && a.tempo.all tempoInRange &&
    a.singers.all fun n => 1 ≤ n && n ≤ 4

/-- R15: the tempo and singers of an edit written to an entry. -/
def editEntry (a : EditParams) (e : Entry) : Entry :=
  { e with
    tempo := a.tempo.getD e.tempo
    singers := a.singers.getD e.singers
    seats := match a.singers with
      | none => e.seats
      | some n => resizeSeats e.seats n }

/-- R15: every present field is written. -/
def Part.applyEdit (p : Part) (a : EditParams) : Part :=
  let p := p.mapEntry a.ticket (editEntry a)
  match a.key with
  | none => p
  | some k => p.writeKey a.ticket k

/-- R15: EDIT REQUEST. -/
def cmdEditRequest (params : List Byte) (p : Part) : Part × CmdResult :=
  withForm (editParams params) p fun a =>
    if editInRange a then
      match p.entry a.ticket with
      | none => (p, .refused .noSuchTicket)
      | some e =>
        if (a.tempo.isSome || a.singers.isSome) && e.state != .waiting then (p, .refused .tooLate)
        else (p.applyEdit a, .ok [])
    else (p, .refused .badForm)

/-- R16: the round a moved entry takes from its new neighbour, the others WAITING being given in order. -/
def neighbourRound (others : List Entry) (position : Nat) : Option Nat :=
  if 1 < position then others[position - 2]?.map Entry.round else others.head?.map Entry.round

/-- R16: an entry is taken out of the list and reinserted at a position among the WAITING entries. -/
def Part.placeEntry (p : Part) (e : Entry) (position : Nat) : Part :=
  let others := withoutTicket p.book.entries e.ticket
  let round := (neighbourRound (waitingEntries others) position).getD e.round
  p.withEntries (insertWaiting others (position - 1) { e with round := round })

/-- R16: PLACE REQUEST. The answer at the entry's present position carries the position too (assumption 23). -/
def cmdPlaceRequest (params : List Byte) (p : Part) : Part × CmdResult :=
  withForm (placeParams params) p fun (ticket, position) =>
    if position < 1 || 64 < position then (p, .refused .badForm)
    else
      match p.entry ticket with
      | none => (p, .refused .noSuchTicket)
      | some e =>
        if e.state != .waiting then (p, .refused .tooLate)
        else if (waitingEntries p.book.entries).length < position then (p, .refused .badForm)
        else if positionOf p.book.entries ticket = some position then (p, .ok (u8 position))
        else (p.placeEntry e position, .ok (u8 position))

/-- R23: a live entry with its position in an answer (assumption 23). -/
def entryBytes (x : Nat × Entry) : List Byte :=
  u8 x.1 ++ u16 x.2.ticket ++ u24 x.2.song ++ u8 x.2.origin.code ++ u16 x.2.round ++ u8 x.2.singers ++
    counted (x.2.seats.map fun c => u8 (claimCode c)) ++ s8 x.2.key ++ s8 x.2.tempo ++ u8 x.2.state.code

/-- R17, R23: the last-strike record in an answer. -/
def lastStrikeBytes (x : LastStrike) : List Byte :=
  u16 x.ticket ++ u24 x.song ++ u8 x.origin.code ++ u8 x.reason.code

/-- R23: the data of READ BOOK. -/
def Part.bookBytes (p : Part) : List Byte :=
  u8 p.settings.orderMode.code ++ u8 p.settings.quota ++ flag p.book.hold ++ u16 p.book.counter ++
    u8 p.book.entries.length ++ counted ((positions p.book.entries).map entryBytes) ++
    present (p.book.lastStrike.map lastStrikeBytes) ++ u8 p.book.strikeCount

/-- R23: READ BOOK. -/
def cmdReadBook (params : List Byte) (p : Part) : Part × CmdResult :=
  withForm (takesNone params) p fun _ =>
    ({ p with book := { p.book with strikeCount := 0 } }.clearSource .book, .ok p.bookBytes)

/-- R24: HOLD BOOK. -/
def cmdHoldBook (params : List Byte) (p : Part) : Part × CmdResult :=
  withForm (onOffValue params) p fun on =>
    let p := { p with book := { p.book with hold := on } }
    if on then (p, .ok []) else thenPromote (p, .ok [])

/-! ## The commands -/

/-- ADD_REQUEST (R13). -/
def execAddRequest (tag : Byte) (params : List Byte) (s : State) : Host.Outcome State Fault Refusal :=
  .next (s.mapPart fun p => p.takeCommand tag (cmdAddRequest params))

/-- CANCEL_REQUEST (R14). -/
def execCancelRequest (tag : Byte) (params : List Byte) (s : State) : Host.Outcome State Fault Refusal :=
  .next (s.mapPart fun p => p.takeCommand tag (cmdCancelRequest params))

/-- EDIT_REQUEST (R15). -/
def execEditRequest (tag : Byte) (params : List Byte) (s : State) : Host.Outcome State Fault Refusal :=
  .next (s.mapPart fun p => p.takeCommand tag (cmdEditRequest params))

/-- PLACE_REQUEST (R16). -/
def execPlaceRequest (tag : Byte) (params : List Byte) (s : State) : Host.Outcome State Fault Refusal :=
  .next (s.mapPart fun p => p.takeCommand tag (cmdPlaceRequest params))

/-- READ_BOOK (R23). -/
def execReadBook (tag : Byte) (params : List Byte) (s : State) : Host.Outcome State Fault Refusal :=
  .next (s.mapPart fun p => p.takeCommand tag (cmdReadBook params))

/-- HOLD_BOOK (R24). -/
def execHoldBook (tag : Byte) (params : List Byte) (s : State) : Host.Outcome State Fault Refusal :=
  .next (s.mapPart fun p => p.takeCommand tag (cmdHoldBook params))

end Sys2Proof.Machine
end

