-- ==== Sys2Proof/Machine/PortCommands.lean ====
section
/-! DEFINITION. Machine/PortCommands.lean: the commands the Command Port and the Attention Unit own (R181, R182, R184 to R187). -/

namespace Sys2Proof.Machine

/-! ## Identify and attention -/

/-- R184, R189: family code, part number, revision, frame limit and the seven capacities. -/
def identifyBytes : List Byte :=
  u8 0x50 ++ u16 7260 ++ u8 2 ++ u16 2112 ++ u16 16 ++ u16 64 ++ u16 4096 ++ u16 2 ++ u16 4 ++ u16 4 ++ u16 2048

/-- R184: IDENTIFY. -/
def cmdIdentify (params : List Byte) (p : Part) : Part × CmdResult :=
  withForm (takesNone params) p fun _ => (p, .ok identifyBytes)

/-- R181: a reported source is cleared when its clearing acts include READ ATTENTION. -/
def Part.clearReported (p : Part) : Part :=
  match p.reportedSource with
  | none => p
  | some src => if clearedByReport src then p.clearSource src else p

/-- R181: READ ATTENTION. -/
def cmdReadAttention (params : List Byte) (p : Part) : Part × CmdResult :=
  withForm (takesNone params) p fun _ =>
    (p.clearReported, .ok (u8 (sourceCode p.reportedSource) ++ pendingBytes p.attn.pending))

/-- R182: SET ATTENTION MASK. -/
def cmdSetAttentionMask (params : List Byte) (p : Part) : Part × CmdResult :=
  withForm (maskParams params) p fun unmasked =>
    ({ p with attn := { p.attn with unmasked := unmasked } }, .ok (maskBytes unmasked ++ pendingBytes p.attn.pending))

/-! ## CONFIGURE (R185, R186) -/

/-- R186, R189: every field of Table 9-5 in its order, and open-claims. -/
def Settings.bytes (c : Settings) : List Byte :=
  u8 c.orderMode.code ++ u8 c.quota ++ u16 c.divisor ++ u24 c.replyWindow ++ u8 c.missLimit ++ flag c.lineEnable ++
    u8 c.holdTime ++ u8 c.holdAction.code ++ flag c.autoStart ++ u8 c.gapTime ++ u8 c.videoFormat.code ++
    s8 c.voiceThreshold ++ flag c.octaveTolerance ++ flag c.openClaims

/-- R185: the play context holds a song: STAGING, HOLDING, RUNNING or PAUSED. -/
def Part.holdsAny (p : Part) : Bool := p.play.state != .idle && p.play.state != .gap

/-- R137: three frame periods of a format in milliseconds. -/
def watchMs (v : VideoFormat) : Nat := 3000 / frameRate v

/-- R138: a new video format acts at the command: in PASS the watch is loaded at the new rate, in LOST the run count returns to 0. -/
def Part.formatActs (p : Part) : Part :=
  match p.lyric.path with
  | .pass => { p with lyric := { p.lyric with watch := loadMs (watchMs p.settings.videoFormat) } }
  | .lost => { p with lyric := { p.lyric with runCount := 0 } }

/-- R185: the fields are written; line-enable (R29) and a new video format (R138) act at the command. -/
def Part.configure (p : Part) (c : Settings) : Part :=
  let q := { p with settings := c }
  let q := if p.settings.videoFormat = c.videoFormat then q else q.formatActs
  if p.settings.lineEnable = c.lineEnable then q else q.enableLine c.lineEnable

/-- R185, R186: CONFIGURE. -/
def cmdConfigure (params : List Byte) (p : Part) : Part × CmdResult :=
  withForm (configParams p.settings params) p fun c =>
    if p.settings.videoFormat != c.videoFormat && p.holdsAny then (p, .refused .busy)
    else (p.configure c, .ok c.bytes)

/-! ## CLEAR ROOM (R187) -/

/-- R135: the PLAYING entry is removed without an end. -/
def Part.removePlaying (p : Part) : Part :=
  match p.heldBookEntry, p.play.song with
  | some e, some song =>
    let p := (p.removeEntry e).letGo e.ticket song.song .cleared
    let p := p.readerEmpty.idleSeats.release song.song
    { p with play := { p.play with state := .idle } }
  | _, _ => p

/-- R135, R25: the play context and the entry it holds at room clear. -/
def Part.clearPlay (p : Part) : Part :=
  let p := match p.play.state with
    | .staging => p.cueStrike .cleared true
    | .holding => p.cueStrike .cleared true
    | .running => p.removePlaying
    | .paused => p.removePlaying
    | .gap => { p with play := { p.play with state := .idle } }
    | .idle => p
  { p with play := { p.play with hold := none, gap := none, startPending := false } }

/-- R25: every WAITING entry is struck CLEARED, and the hold flag is cleared. -/
def Part.clearBook (p : Part) : Part :=
  let p := p.strikeWaiting (fun _ => true) .cleared true
  { p with book := { p.book with hold := false } }

/-- R47, R56: every slot becomes FREE and every store is emptied; a poll turn in progress is abandoned and the round goes on. -/
def Part.clearHandsets (p : Part) : Part :=
  let p := slotNumbers.foldl Part.emptyStore p
  let p := { p with slots := List.replicate Config.slotCount Slot.reset }
  match p.line.turn with
  | .poll _ _ => p.abandonTurn.nextTurn
  | .none => p
  | .claimWindow => p
  | .idleInterval => p

/-- R154: the rows and cards at room clear. -/
def Part.clearDisplay (p : Part) : Part := p.resetRows.titleDown.cardDown

/-- R172: the scorer at room clear. -/
def Part.clearScorer (p : Part) : Part :=
  let p := p.clearSeats
  { p with scorer := { p.scorer with result := none } }

/-- R183: the sources room clear clears. -/
def Part.clearRoomSources (p : Part) : Part :=
  (((p.clearSource .play).clearSource .score).clearSource .book).clearSource .handset

/-- R187: room clear: the book's removals come before any slot becomes FREE. -/
def Part.clearRoom (p : Part) : Part :=
  p.clearPlay.clearBook.readerEmpty.clearHandsets.clearDisplay.clearScorer.clearRoomSources

/-- R187: CLEAR ROOM. -/
def cmdClearRoom (params : List Byte) (p : Part) : Part × CmdResult :=
  withForm (takesNone params) p fun _ => (p.clearRoom, .ok [])

/-! ## The commands -/

/-- IDENTIFY (R184). -/
def execIdentify (tag : Byte) (params : List Byte) (s : State) : Host.Outcome State Fault Refusal :=
  .next (s.mapPart fun p => p.takeCommand tag (cmdIdentify params))

/-- READ_ATTENTION (R181). -/
def execReadAttention (tag : Byte) (params : List Byte) (s : State) : Host.Outcome State Fault Refusal :=
  .next (s.mapPart fun p => p.takeCommand tag (cmdReadAttention params))

/-- SET_ATTENTION_MASK (R182). -/
def execSetAttentionMask (tag : Byte) (params : List Byte) (s : State) : Host.Outcome State Fault Refusal :=
  .next (s.mapPart fun p => p.takeCommand tag (cmdSetAttentionMask params))

/-- CONFIGURE (R185). -/
def execConfigure (tag : Byte) (params : List Byte) (s : State) : Host.Outcome State Fault Refusal :=
  .next (s.mapPart fun p => p.takeCommand tag (cmdConfigure params))

/-- CLEAR_ROOM (R187). -/
def execClearRoom (tag : Byte) (params : List Byte) (s : State) : Host.Outcome State Fault Refusal :=
  .next (s.mapPart fun p => p.takeCommand tag (cmdClearRoom params))

end Sys2Proof.Machine
end

