-- ==== Sys2Proof/Machine/VideoEvents.lean ====
section
/-! DEFINITION. Machine/VideoEvents.lean: the frame starts, the video watch and CARD (R136 to R139, R152), and the pin reset (R110). -/

namespace Sys2Proof.Machine

/-- R136: cycles of the 27 MHz reference clock in a frame of the format. -/
def framePeriod (v : VideoFormat) : Nat := 27000000 / frameRate v

/-- R137: a frame is well-formed: its lines, the pixels of each, and its length within 2 % of the frame period (assumption 27). -/
def frameWellFormed (v : VideoFormat) (f : InputFrame) : Bool :=
  (f.runs.map Prod.fst).sum == activeLines v && (f.runs.all fun r => r.1 == 0 || r.2 == activeWidth v) &&
    50 * f.cycles ≤ 51 * framePeriod v && 49 * framePeriod v ≤ 50 * f.cycles

/-- R137: the video watch is loaded with three frame periods. -/
def Part.loadWatch (p : Part) : Part :=
  { p with lyric := { p.lyric with watch := loadMs (watchMs p.settings.videoFormat) } }

/-- The next input frame start ends a frame that is judged, or does not. -/
def Part.openFrame (p : Part) (b : Bool) : Part := { p with lyric := { p.lyric with frameOpen := b } }

/-- R138: the run count. -/
def Part.setRun (p : Part) (n : Nat) : Part := { p with lyric := { p.lyric with runCount := n } }

/-- R138: the path enters PASS at the frame start that ends the second well-formed frame. The first frame start after it is not judged
(R137, assumption 26). -/
def Part.regainVideo (p : Part) : Part :=
  ((({ p with lyric := { p.lyric with path := .pass } }.loadWatch).openFrame false).raise .video).frameStart

/-- R138: an input frame start in LOST. The frame it ends is judged by the format as it then stands, also where CONFIGURE changed it within that frame:
the model's choice (assumption 51). -/
def Part.inputLost (p : Part) (ended : InputFrame) : Part :=
  if p.lyric.frameOpen then
    if frameWellFormed p.settings.videoFormat ended then
      if 2 ≤ p.lyric.runCount + 1 then (p.setRun 2).regainVideo else p.setRun (p.lyric.runCount + 1)
    else p.setRun 0
  else p.openFrame true

/-- R137, R139: an input frame start in PASS. The frame it ends is judged by the format as it then stands, also where CONFIGURE changed it within that
frame: the model's choice (assumption 51). -/
def Part.inputPass (p : Part) (ended : InputFrame) : Part :=
  let p := if p.lyric.frameOpen && frameWellFormed p.settings.videoFormat ended then p.loadWatch else p
  (p.openFrame true).frameStart

/-- R137, R138: an input frame start. -/
def Part.inputFrame (p : Part) (ended : InputFrame) : Part :=
  match p.lyric.path with
  | .pass => p.inputPass ended
  | .lost => p.inputLost ended

/-- R136: the start of an internally generated frame, which only LOST has. -/
def Part.internalFrame (p : Part) : Part :=
  match p.lyric.path with
  | .pass => p
  | .lost => p.frameStart

/-- R137: the video watch expires in PASS. -/
def Part.videoLost (p : Part) : Part :=
  match p.lyric.path with
  | .pass => { p with lyric := { p.lyric with path := .lost, watch := none, runCount := 0 } }.raise .video
  | .lost => p

/-- R137, R113: the event of the video watch's expiry. -/
def Part.videoWatchExpiry (p : Part) : Part := p.expireAt 1 (fun q => q.lyric.watch) Part.videoLost

/-- R152, R113: the event of CARD's expiry. -/
def Part.cardExpiry (p : Part) : Part := p.expireAt 1 (fun q => q.lyric.cardTimer) Part.cardDown

/-- R110 and the after-reset rules of every chapter: the part at the first instant after a pin reset. LIBWP_N keeps its level, which the
surroundings drive, and a select in progress is ignored (R173). -/
def Part.pinReset (p : Part) (selLow : Bool) : Part :=
  { Part.reset with
    lib := { Library.reset with libwp := p.lib.libwp }
    port := { Port.reset with ignoreSelect := selLow } }

/-! ## The commands -/

/-- PIN_RESET (R110). -/
def execPinReset (selLow : Bool) (s : State) : Host.Outcome State Fault Refusal :=
  .next (s.mapPart fun p => p.pinReset selLow)

/-- INPUT_FRAME_START (R137, R138, R139). -/
def execInputFrameStart (ended : InputFrame) (s : State) : Host.Outcome State Fault Refusal :=
  .next (s.mapPart fun p => p.inputFrame ended)

/-- INTERNAL_FRAME_START (R136, R139). -/
def execInternalFrameStart (s : State) : Host.Outcome State Fault Refusal := .next (s.mapPart Part.internalFrame)

/-- VIDEO_WATCH_EXPIRY (R137). -/
def execVideoWatchExpiry (s : State) : Host.Outcome State Fault Refusal := .next (s.mapPart Part.videoWatchExpiry)

/-- CARD_EXPIRY (R152). -/
def execCardExpiry (s : State) : Host.Outcome State Fault Refusal := .next (s.mapPart Part.cardExpiry)

end Sys2Proof.Machine
end

