-- ==== Sys2Proof/Machine/PlayEvents.lean ====
section
/-! DEFINITION. Machine/PlayEvents.lean: the timers of the play context, the audio frame and the passing of time on every timer (R113, R125, R128,
R132, R155, R156). -/

namespace Sys2Proof.Machine

/-! ## HOLD and GAP -/

/-- R125: HOLD's count reaches zero, and the promotion that its effects make due follows (R114). -/
def Part.holdExpires (p : Part) : Part := p.holdExpire.promoteIfDue

/-- R132: GAP's count reaches zero, and the promotion that is then due follows (R114). -/
def Part.gapExpires (p : Part) : Part := p.gapExpire.promoteIfDue

/-- R125, R113: the event of HOLD's expiry. -/
def Part.holdExpiry (p : Part) : Part := p.expireAt 1 (fun q => q.play.hold) Part.holdExpires

/-- R132, R113: the event of GAP's expiry. -/
def Part.gapExpiry (p : Part) : Part := p.expireAt 1 (fun q => q.play.gap) Part.gapExpires

/-! ## The passing of time (assumption 2) -/

/-- R113: every timer of the part with what its expiry does, in the order in which those that reach zero at one audio frame expire
(assumption 2). -/
def expiries : List ((Part → Timer) × (Part → Part)) :=
  [(fun q => (q.die 0).watch, fun q => q.watchExpires 0), (fun q => (q.die 1).watch, fun q => q.watchExpires 1),
    (fun q => q.line.reply, Part.replyExpires), (fun q => q.lyric.watch, Part.videoLost),
    (fun q => q.lyric.cardTimer, Part.cardDown), (fun q => q.play.hold, Part.holdExpires),
    (fun q => q.play.gap, Part.gapExpires)]

/-- One audio frame of real time passes on every running timer. -/
def Part.tick (p : Part) : Part :=
  { p with
    line := { p.line with reply := tickTimer p.line.reply }
    lib := { p.lib with
      die0 := { p.lib.die0 with watch := tickTimer p.lib.die0.watch }
      die1 := { p.lib.die1 with watch := tickTimer p.lib.die1.watch } }
    play := { p.play with hold := tickTimer p.play.hold, gap := tickTimer p.play.gap }
    lyric := { p.lyric with watch := tickTimer p.lyric.watch, cardTimer := tickTimer p.lyric.cardTimer } }

/-- R113: one audio frame of real time passes, and each timer whose count has reached zero expires. -/
def Part.timePasses (p : Part) : Part := expiries.foldl (fun q x => q.expireAt 0 x.1 x.2) p.tick

/-- R127, R128, R155: one audio frame event. Song time advances when the play context was RUNNING before the event; a HOLD expiry of this frame enters
RUNNING with song time as it stands. The 480th frame of the window ends it. -/
def Part.audioFrame (p : Part) (f : AudioFrame) : Part :=
  let running := p.play.state == .running
  let p := p.timePasses
  let p := { p with scorer := { p.scorer with window := f :: p.scorer.window } }
  let p := if running then p.advance else p
  (if Config.windowFrames ≤ p.scorer.window.length then p.windowEnds else p).promoteIfDue

/-! ## The commands -/

/-- HOLD_EXPIRY (R125). -/
def execHoldExpiry (s : State) : Host.Outcome State Fault Refusal := .next (s.mapPart Part.holdExpiry)

/-- GAP_EXPIRY (R132). -/
def execGapExpiry (s : State) : Host.Outcome State Fault Refusal := .next (s.mapPart Part.gapExpiry)

/-- AUDIO_FRAME (R128, R155). -/
def execAudioFrame (frame : AudioFrame) (s : State) : Host.Outcome State Fault Refusal :=
  .next (s.mapPart fun p => p.audioFrame frame)

/-- WINDOW_END (R156): the audio frame event that carries the window's 480th sample; the count of the frames decides. -/
def execWindowEnd (frame : AudioFrame) (s : State) : Host.Outcome State Fault Refusal :=
  .next (s.mapPart fun p => p.audioFrame frame)

end Sys2Proof.Machine
end

