-- ==== Sys2Proof/Machine/DisplayCommands.lean ====
section
/-! DEFINITION. Machine/DisplayCommands.lean: the desk's lyric display and scoring commands (R148, R153, R162, R171). -/

namespace Sys2Proof.Machine

/-! ## Lyric display -/

/-- R148: LOAD GLYPHS. The number of glyphs is answered as a U16, the width its own parameter has (assumption 23). -/
def cmdLoadGlyphs (params : List Byte) (p : Part) : Part × CmdResult :=
  withForm (glyphParams params) p fun (first, glyphs) =>
    ({ p with glyphs := writeGlyphs first glyphs p.glyphs }, .ok (u16 glyphs.length))

/-- One colour for each part A to D. -/
def PartColours.bytes (c : PartColours) : List Byte :=
  colourBytes c.a ++ colourBytes c.b ++ colourBytes c.c ++ colourBytes c.d

/-- R153, R189: the display settings in the order that numbers them. -/
def Display.bytes (d : Display) : List Byte :=
  d.unwiped.bytes ++ d.wiped.bytes ++ colourBytes d.togetherUnwiped ++ colourBytes d.togetherWiped ++
    colourBytes d.outline ++ colourBytes d.lostBackground ++ u16 d.upperBaseline ++ u16 d.lowerBaseline ++
    u16 d.safeWidth ++ u8 d.spaceWidth ++ u24 d.lead ++ u24 d.clearDelay ++ u8 d.cardTime

/-- R153: a row record: its state, the ordinal of its line or the mark that it is EMPTY, and its free time. The ordinal is a U16
(assumption 23), and the mark is 00h (R188). -/
def Row.bytes (r : Row) : List Byte := u8 r.state.code ++ orNone (r.line.map u16) ++ u24 r.free

/-- R153: the data of DISPLAY SETTINGS. -/
def Part.displayBytes (p : Part) : List Byte :=
  p.display.bytes ++ u8 p.settings.videoFormat.code ++ u8 p.lyric.path.code ++ p.lyric.row0.bytes ++ p.lyric.row1.bytes ++
    flag p.lyric.title.shown ++ flag p.lyric.card.shown ++ timerBytes p.lyric.cardTimer ++ u16 (loadedCodes p.glyphs) ++
    u16 p.lyric.missing ++ u16 p.lyric.truncated

/-- R153: both display counts return to 0. -/
def Part.clearDisplayCounts (p : Part) : Part := { p with lyric := { p.lyric with missing := 0, truncated := 0 } }

/-- R153: DISPLAY SETTINGS. -/
def cmdDisplaySettings (params : List Byte) (p : Part) : Part × CmdResult :=
  withForm (displayParams p.display params) p fun (d, clearCounts) =>
    let p := { p with display := d }
    (if clearCounts then p.clearDisplayCounts else p, .ok p.displayBytes)

/-! ## Scoring -/

/-- R162: the bindings of the four seats. -/
def Part.bindingBytes (p : Part) : List Byte := p.scorer.seats.flatMap fun s => u8 (channelCode s.channel)

/-- R162: BIND MIC. -/
def cmdBindMic (params : List Byte) (p : Part) : Part × CmdResult :=
  withForm (bindParams params) p fun (seat, channel) =>
    (p.bindSeat seat channel, .ok (p.bindSeat seat channel).bindingBytes)

/-- R170: a seat of the result record; parts A to D are 1 to 4 (R188). -/
def seatResultBytes (x : SeatResult) : List Byte :=
  u8 x.status.code ++ u16 x.score ++ u8 (x.part + 1) ++ u8 (claimCode x.handset) ++ u16 x.notes ++ u16 x.total ++
    u16 x.hit ++ u16 x.near ++ u16 x.voiced

/-- R171: the result record with all its fields. -/
def resultBytes (r : ResultRecord) : List Byte :=
  u16 r.ticket ++ u24 r.song ++ u8 r.edition ++ u8 r.kind.code ++ r.seats.flatMap seatResultBytes ++ flag r.unread ++
    flag r.previousUnread

/-- R171: the score so far of a seat. -/
def scoreSoFar (s : Seat) : Nat := if s.durations = 0 then 0 else scoreOf s

/-- R171: a seat record as it stands. -/
def seatBytes (s : Seat) : List Byte :=
  u8 s.state.code ++ u8 (channelCode s.channel) ++ u8 (s.part + 1) ++ u8 (claimCode s.handset) ++ flag s.micSeen ++
    u16 s.notes ++ u24 s.durations ++ u16 s.total ++ u16 s.hit ++ u16 s.near ++ u16 s.voiced ++ u16 (scoreSoFar s)

/-- R171: the data of SCORE REPORT. -/
def Part.scoreBytes (p : Part) : List Byte :=
  present (p.scorer.result.map resultBytes) ++ p.scorer.seats.flatMap seatBytes

/-- R171: the result record's unread flag is cleared. -/
def Part.markRead (p : Part) : Part :=
  { p with scorer := { p.scorer with result := p.scorer.result.map fun (r : ResultRecord) => { r with unread := false } } }

/-- R171: SCORE REPORT. -/
def cmdScoreReport (params : List Byte) (p : Part) : Part × CmdResult :=
  withForm (takesNone params) p fun _ => (p.markRead.clearSource .score, .ok p.scoreBytes)

/-! ## The commands -/

/-- LOAD_GLYPHS (R148). -/
def execLoadGlyphs (tag : Byte) (params : List Byte) (s : State) : Host.Outcome State Fault Refusal :=
  .next (s.mapPart fun p => p.takeCommand tag (cmdLoadGlyphs params))

/-- DISPLAY_SETTINGS (R153). -/
def execDisplaySettings (tag : Byte) (params : List Byte) (s : State) : Host.Outcome State Fault Refusal :=
  .next (s.mapPart fun p => p.takeCommand tag (cmdDisplaySettings params))

/-- BIND_MIC (R162). -/
def execBindMic (tag : Byte) (params : List Byte) (s : State) : Host.Outcome State Fault Refusal :=
  .next (s.mapPart fun p => p.takeCommand tag (cmdBindMic params))

/-- SCORE_REPORT (R171). -/
def execScoreReport (tag : Byte) (params : List Byte) (s : State) : Host.Outcome State Fault Refusal :=
  .next (s.mapPart fun p => p.takeCommand tag (cmdScoreReport params))

end Sys2Proof.Machine
end

