-- ==== Sys2Proof/Machine/LineCommands.lean ====
section
/-! DEFINITION. Machine/LineCommands.lean: the desk's handset line commands (R42 to R46). -/

namespace Sys2Proof.Machine

/-- R42: the current turn in an answer: a poll turn with its slot, a claim window, an idle interval, or 00h for none
(assumption 23). -/
def turnBytes : Turn → List Byte
  | .none => u8 0
  | .poll slot _ => u8 1 ++ u8 slot
  | .claimWindow => u8 2
  | .idleInterval => u8 3

/-- R42: the data of LINE STATUS. -/
def Part.lineBytes (p : Part) : List Byte :=
  u8 p.line.state.code ++ u16 p.settings.divisor ++ u24 p.settings.replyWindow ++ u8 p.settings.missLimit ++
    flag p.settings.lineEnable ++ flag p.settings.openClaims ++ u8 p.line.round ++ turnBytes p.line.turn ++
    u8 p.line.strays ++ u8 p.line.lates ++ u8 p.line.badClaims ++ u8 p.line.breaks

/-- R42: LINE STATUS. -/
def cmdLineStatus (params : List Byte) (p : Part) : Part × CmdResult :=
  withForm (takesNone params) p fun _ =>
    ({ p with line := { p.line with strays := 0, lates := 0, badClaims := 0, breaks := 0 } }.clearSource .line,
      .ok p.lineBytes)

/-- R43: one slot record in an answer; 00h is the mark that its serial is absent (R188). -/
def slotBytes (x : Slot) : List Byte :=
  u8 x.state.code ++ orNone x.serial ++ u8 x.misses ++ u8 x.parity ++ u8 x.framing ++ u8 x.check ++ u8 x.overlaps ++
    u8 x.live

/-- R43: the data of HANDSET TABLE: the 16 records in slot order. -/
def Part.tableBytes (p : Part) : List Byte := slotNumbers.flatMap fun n => slotBytes (p.slot n)

/-- R43: the four error counts of every slot return to 0. -/
def Part.clearErrorCounts (p : Part) : Part :=
  { p with slots := p.slots.map fun (x : Slot) => { x with parity := 0, framing := 0, check := 0, overlaps := 0 } }

/-- R43: HANDSET TABLE. -/
def cmdHandsetTable (params : List Byte) (p : Part) : Part × CmdResult :=
  withForm (optionalFlag params) p fun clearCounts =>
    ((if clearCounts then p.clearErrorCounts else p).clearSource .handset, .ok p.tableBytes)

/-- R46: OPEN CLAIMS. -/
def cmdOpenClaims (params : List Byte) (p : Part) : Part × CmdResult :=
  withForm (onOffValue params) p fun on =>
    let p := { p with settings := { p.settings with openClaims := on } }
    (if on then p else p.closeWindow, .ok [])

/-- R44, R45: a slot parameter from 1 to 16. -/
def slotParam (params : List Byte) : Option Nat := inRange 1 16 (u8Value params)

/-- R41, R36: a slot enters FREE or BARRED at a desk command, and its turn, if it has one, is abandoned. -/
def Part.departDesk (p : Part) (slot : Nat) (barred : Bool) : Part := (p.depart slot barred).abandonIfServing slot

/-- R44: BAR HANDSET. -/
def cmdBarHandset (params : List Byte) (p : Part) : Part × CmdResult :=
  withForm (slotParam params) p fun slot =>
    match (p.slot slot).state with
    | .free => (p, .refused .badForm)
    | .barred => (p, .ok [])
    | .active => (p.departDesk slot true, .ok [])
    | .silent => (p.departDesk slot true, .ok [])

/-- R45: RELEASE HANDSET. -/
def cmdReleaseHandset (params : List Byte) (p : Part) : Part × CmdResult :=
  withForm (slotParam params) p fun slot =>
    match (p.slot slot).state with
    | .free => (p, .ok [])
    | .barred => (p.departDesk slot false, .ok [])
    | .active => (p.departDesk slot false, .ok [])
    | .silent => (p.departDesk slot false, .ok [])

/-! ## The commands -/

/-- LINE_STATUS (R42). -/
def execLineStatus (tag : Byte) (params : List Byte) (s : State) : Host.Outcome State Fault Refusal :=
  .next (s.mapPart fun p => p.takeCommand tag (cmdLineStatus params))

/-- HANDSET_TABLE (R43). -/
def execHandsetTable (tag : Byte) (params : List Byte) (s : State) : Host.Outcome State Fault Refusal :=
  .next (s.mapPart fun p => p.takeCommand tag (cmdHandsetTable params))

/-- OPEN_CLAIMS (R46). -/
def execOpenClaims (tag : Byte) (params : List Byte) (s : State) : Host.Outcome State Fault Refusal :=
  .next (s.mapPart fun p => p.takeCommand tag (cmdOpenClaims params))

/-- BAR_HANDSET (R44). -/
def execBarHandset (tag : Byte) (params : List Byte) (s : State) : Host.Outcome State Fault Refusal :=
  .next (s.mapPart fun p => p.takeCommand tag (cmdBarHandset params))

/-- RELEASE_HANDSET (R45). -/
def execReleaseHandset (tag : Byte) (params : List Byte) (s : State) : Host.Outcome State Fault Refusal :=
  .next (s.mapPart fun p => p.takeCommand tag (cmdReleaseHandset params))

end Sys2Proof.Machine
end

