-- ==== Sys2Proof/Machine/PlayCommands.lean ====
section
/-! DEFINITION. Machine/PlayCommands.lean: the desk's play commands (R124 to R126, R129, R130, R132, R134). -/

namespace Sys2Proof.Machine

/-! ## Play status (R134) -/

/-- R134: the entry and the song the play context holds. -/
def Part.heldBytes (p : Part) : Option (List Byte) :=
  match p.play.entry, p.play.song with
  | some ticket, some h =>
    some
      (u16 ticket ++ u24 h.song ++ u8 h.blk.edition ++ u8 h.blk.die ++ u16 h.blk.block ++ u8 h.blk.pages ++
        u24 h.blk.duration ++ u8 h.blk.parts)
  | _, _ => none

/-- Table 6-1: how the last entry went; ENDED, SKIPPED, DAMAGED, STRUCK and CLEARED are 1 to 5, and STRUCK is followed by its
reason. -/
def playEndBytes : PlayEnd → List Byte
  | .ended kind => u8 kind.code
  | .struck reason => u8 4 ++ u8 reason.code
  | .cleared => u8 5

/-- R134: the last outcome. -/
def playOutcomeBytes (x : PlayOutcome) : List Byte := u16 x.ticket ++ u24 x.song ++ playEndBytes x.ending

/-- R134: one microphone channel. -/
def channelBytes (c : Channel) : List Byte := s8 c.level ++ flag c.present ++ flag c.changed

/-- R134: the Stream Reader in PLAY STATUS; 00h for no page being decoded. -/
def Reader.statusBytes (rd : Reader) : List Byte :=
  u8 rd.state.code ++ u8 rd.nextFetch ++ u8 ((rd.decodingPage.map Prod.fst).getD 0) ++ u8 rd.lines.length ++
    u8 rd.notes.length ++ u8 rd.beats.length

/-- Table 6-2: the four play settings. -/
def Settings.playBytes (c : Settings) : List Byte :=
  u8 c.holdTime ++ u8 c.holdAction.code ++ flag c.autoStart ++ u8 c.gapTime

/-- R134: the data of PLAY STATUS. -/
def Part.playBytes (p : Part) : List Byte :=
  u8 p.play.state.code ++ present p.heldBytes ++ u24 (p.play.time / Config.stepsPerMs) ++ s8 p.play.tempo ++
    s8 p.play.key ++ flag p.play.startPending ++ u8 p.play.cueHold ++ timerBytes p.play.hold ++ timerBytes p.play.gap ++
    p.settings.playBytes ++ p.reader.statusBytes ++ u16 p.play.lateLines ++ u16 p.play.unknownWindows ++
    u8 p.play.damagedPages ++ u16 p.play.skippedRecords ++ present (p.play.lastOutcome.map playOutcomeBytes) ++
    p.scorer.channels.flatMap channelBytes

/-- R134, R157: the presence-changed flags of all channels are cleared. -/
def Part.clearPresenceChanged (p : Part) : Part :=
  { p with scorer := { p.scorer with channels := p.scorer.channels.map fun (c : Channel) => { c with changed := false } } }

/-- R134: PLAY STATUS. -/
def cmdPlayStatus (params : List Byte) (p : Part) : Part × CmdResult :=
  withForm (takesNone params) p fun _ => (p.clearPresenceChanged.clearSource .play, .ok p.playBytes)

/-! ## Starting, skipping and holding -/

/-- Table 6-4: START. -/
def cmdStart (params : List Byte) (p : Part) : Part × CmdResult :=
  withForm (takesNone params) p fun _ =>
    match p.play.state with
    | .staging => ({ p with play := { p.play with startPending := true } }, .ok [])
    | .holding => (p.enterRunning, .ok [])
    | .idle => (p, .refused .notCued)
    | .gap => (p, .refused .notCued)
    | .running => (p, .refused .notCued)
    | .paused => (p, .refused .notCued)

/-- R126: SKIP. -/
def cmdSkip (params : List Byte) (p : Part) : Part × CmdResult :=
  withForm (takesNone params) p fun _ =>
    match p.play.state with
    | .staging => thenPromote (p.cueStrike .skipped false, .ok [])
    | .holding => thenPromote (p.cueStrike .skipped false, .ok [])
    | .running => thenPromote (p.endSong .skipped, .ok [])
    | .paused => thenPromote (p.endSong .skipped, .ok [])
    | .idle => (p, .refused .notCued)
    | .gap => (p, .refused .notCued)

/-- R125: EXTEND HOLD. -/
def cmdExtendHold (params : List Byte) (p : Part) : Part × CmdResult :=
  withForm (u8Value params) p fun seconds =>
    if 120 < seconds then (p, .refused .badForm)
    else if p.play.state = .holding then thenPromote (p.loadHold seconds, .ok [])
    else (p, .refused .notCued)

/-- R129: PAUSE. -/
def cmdPause (params : List Byte) (p : Part) : Part × CmdResult :=
  withForm (takesNone params) p fun _ =>
    if p.play.state = .running then ({ p with play := { p.play with state := .paused } }.raise .play, .ok [])
    else (p, .refused .notPlaying)

/-- R129: RESUME. -/
def cmdResume (params : List Byte) (p : Part) : Part × CmdResult :=
  withForm (takesNone params) p fun _ =>
    if p.play.state = .paused then ({ p with play := { p.play with state := .running } }.raise .play, .ok [])
    else (p, .refused .notPlaying)

/-! ## Nudge and next -/

/-- R130: song time after a nudge by a number of milliseconds: at most the duration, and not below 0. -/
def Part.nudgedTime (p : Part) (ms : Int) : Nat :=
  min p.durationSteps ((p.play.time : Int) + ms * (Config.stepsPerMs : Nat)).toNat

/-- Song time takes a value. -/
def Part.setTime (p : Part) (steps : Nat) : Part := { p with play := { p.play with time := steps } }

/-- R130, R144, R168: what a forward nudge does beyond moving song time. A STALLED reader whose queue has lost a record goes on
(R118) before the compositor clears the rows (assumption 46). -/
def Part.nudgeForward (p : Part) : Part := p.excludeNotes.dropBeats.readerResume.nudgeRows.endIfReached

/-- R130: what a nudge by an amount does. -/
def Part.nudge (p : Part) (ms : Int) : Part :=
  if ms = 0 then p
  else if 0 < ms then (p.setTime (p.nudgedTime ms)).nudgeForward else p.setTime (p.nudgedTime ms)

/-- R130: NUDGE. The new song time is answered in whole milliseconds rounded down, as PLAY STATUS gives it (assumption 23). -/
def cmdNudge (params : List Byte) (p : Part) : Part × CmdResult :=
  withForm (s16Value params) p fun ms =>
    if ms < -500 || 2000 < ms then (p, .refused .badForm)
    else if p.playing then thenPromote (p.nudge ms, .ok (u24 (p.nudgedTime ms / Config.stepsPerMs)))
    else (p, .refused .notPlaying)

/-- R132: NEXT NOW. -/
def cmdNextNow (params : List Byte) (p : Part) : Part × CmdResult :=
  withForm (takesNone params) p fun _ =>
    if p.play.state = .gap then thenPromote (p.gapExpire, .ok []) else (p, .refused .busy)

/-! ## The commands -/

/-- PLAY_STATUS (R134). -/
def execPlayStatus (tag : Byte) (params : List Byte) (s : State) : Host.Outcome State Fault Refusal :=
  .next (s.mapPart fun p => p.takeCommand tag (cmdPlayStatus params))

/-- START (R124). -/
def execStart (tag : Byte) (params : List Byte) (s : State) : Host.Outcome State Fault Refusal :=
  .next (s.mapPart fun p => p.takeCommand tag (cmdStart params))

/-- SKIP (R126). -/
def execSkip (tag : Byte) (params : List Byte) (s : State) : Host.Outcome State Fault Refusal :=
  .next (s.mapPart fun p => p.takeCommand tag (cmdSkip params))

/-- EXTEND_HOLD (R125). -/
def execExtendHold (tag : Byte) (params : List Byte) (s : State) : Host.Outcome State Fault Refusal :=
  .next (s.mapPart fun p => p.takeCommand tag (cmdExtendHold params))

/-- PAUSE (R129). -/
def execPause (tag : Byte) (params : List Byte) (s : State) : Host.Outcome State Fault Refusal :=
  .next (s.mapPart fun p => p.takeCommand tag (cmdPause params))

/-- RESUME (R129). -/
def execResume (tag : Byte) (params : List Byte) (s : State) : Host.Outcome State Fault Refusal :=
  .next (s.mapPart fun p => p.takeCommand tag (cmdResume params))

/-- NUDGE (R130). -/
def execNudge (tag : Byte) (params : List Byte) (s : State) : Host.Outcome State Fault Refusal :=
  .next (s.mapPart fun p => p.takeCommand tag (cmdNudge params))

/-- NEXT_NOW (R132). -/
def execNextNow (tag : Byte) (params : List Byte) (s : State) : Host.Outcome State Fault Refusal :=
  .next (s.mapPart fun p => p.takeCommand tag (cmdNextNow params))

end Sys2Proof.Machine
end

