-- ==== Sys2Proof/Machine/Selects.lean ====
section
/-! DEFINITION. Machine/Selects.lean: the selects of the link as bytes (R173 to R177, R189): ignored selects, WRITE selects judged from their
frame bytes, and READ selects. -/

namespace Sys2Proof.Machine

/-! ## Command frames (Table 10-2) -/

/-- A command frame: its code, its tag and its parameters. -/
structure CommandFrame where
  code : Nat
  tag : Byte
  params : List Byte
deriving DecidableEq, Repr

/-- R174, R189: the command frame the bytes hold, none when the frame is bad: no byte, more than 2112, a length field that does not agree
with the number of bytes, or a CRC-16 that does not match. -/
def parseCommand (frame : List Byte) : Option CommandFrame :=
  match frame with
  | l0 :: l1 :: code :: tag :: rest =>
    if 6 ≤ frame.length ∧ frame.length ≤ Config.frameLimit ∧ ofU16 l0 l1 = frame.length ∧
        frame.drop (frame.length - 2) = crcBytes (frame.take (frame.length - 2)) then
      some { code := code.toNat, tag := tag, params := rest.take (rest.length - 2) }
    else none
  | _ => none

/-- Table 9-3, R189: the command of each code; codes 00h and 26h to FFh name none. -/
def commandOf (code : Nat) (params : List Byte) : Option (Part → Part × CmdResult) :=
  match code with
  | 1 => some (cmdAddRequest params)
  | 2 => some (cmdCancelRequest params)
  | 3 => some (cmdEditRequest params)
  | 4 => some (cmdPlaceRequest params)
  | 5 => some (cmdReadBook params)
  | 6 => some (cmdHoldBook params)
  | 7 => some (cmdLineStatus params)
  | 8 => some (cmdHandsetTable params)
  | 9 => some (cmdOpenClaims params)
  | 10 => some (cmdBarHandset params)
  | 11 => some (cmdReleaseHandset params)
  | 12 => some (cmdMount params)
  | 13 => some (cmdLookUpSong params)
  | 14 => some (cmdListSongs params)
  | 15 => some (cmdInstallBegin params)
  | 16 => some (cmdInstallPage params)
  | 17 => some (cmdInstallClose params)
  | 18 => some (cmdInstallAbandon params)
  | 19 => some (cmdWithdrawSong params)
  | 20 => some (cmdLibraryStatus params)
  | 21 => some (cmdPlayStatus params)
  | 22 => some (cmdStart params)
  | 23 => some (cmdSkip params)
  | 24 => some (cmdExtendHold params)
  | 25 => some (cmdPause params)
  | 26 => some (cmdResume params)
  | 27 => some (cmdNudge params)
  | 28 => some (cmdNextNow params)
  | 29 => some (cmdLoadGlyphs params)
  | 30 => some (cmdDisplaySettings params)
  | 31 => some (cmdBindMic params)
  | 32 => some (cmdScoreReport params)
  | 33 => some (cmdIdentify params)
  | 34 => some (cmdReadAttention params)
  | 35 => some (cmdSetAttentionMask params)
  | 36 => some (cmdConfigure params)
  | 37 => some (cmdClearRoom params)
  | _ => none

/-- R174: a frame judged in IDLE. -/
def Part.judgeFrame (p : Part) (frame : List Byte) : Part :=
  match parseCommand frame with
  | none => (p.refuse 0#8 .badFrame).quietSdo
  | some f =>
    match commandOf f.code f.params with
    | none => (p.refuse f.tag .unknownCommand).quietSdo
    | some body => p.takeCommand f.tag body

/-- R174: a WRITE select ends. The bits of a last byte that is not complete are no byte of the frame (assumption 45). -/
def Part.writeSelect (p : Part) (frame : List Byte) : Part :=
  if p.port.ignoreSelect then p.passSelect
  else
    match p.port.state with
    | .idle => p.judgeFrame frame
    | .executing => p.collide
    | .answerReady => p.collide

/-! ## READ selects (R175) -/

/-- R189: the port flags: COLLISION in the least significant bit. -/
def Part.portFlags (p : Part) : List Byte := flag p.port.collision

/-- Table 10-3: an answer frame as sent; the CRC-16 spans the tag through the last data byte. -/
def Part.answerFrame (p : Part) (a : Answer) : List Byte :=
  let span := a.tag :: (u8 a.outcome.code ++ p.portFlags ++ u16 a.data.length ++ a.data)
  span ++ crcBytes span

/-- R175: the empty frame: tag 0, outcome NONE and no data. -/
def emptyAnswer : Answer := { tag := 0#8, outcome := .none, data := [] }

/-- The bytes a READ select puts on SDO: a frame, and FFh after its last byte (R173). -/
def sdoBytes (n : Nat) (frame : List Byte) : List Byte := (frame ++ List.replicate (n - frame.length) 0xFF#8).take n

/-- The bytes a READ select put on SDO are recorded (assumption 12). -/
def Part.sendSdo (p : Part) (n : Nat) (frame : List Byte) : Part :=
  { p with port := { p.port with sdo := sdoBytes n frame } }

/-- R173, R175: byte `i` of the part on SDO in the last WRITE or READ select taken, counted from the direction byte: FFh during the direction
byte, throughout a WRITE select and after a READ frame's last byte. -/
def Part.sdoByte (p : Part) (i : Nat) : Byte := if i = 0 then 0xFF#8 else p.port.sdo.getD (i - 1) 0xFF#8

/-- R175: the answer is consumed: the port enters IDLE and COLLISION is cleared. -/
def Part.consume (p : Part) : Part :=
  { p with port := { p.port with state := .idle, answer := none, collision := false } }

/-- R175: a READ select in which the host clocks out `n` bytes after the direction byte. -/
def Part.readSelect (p : Part) (n : Nat) : Part :=
  if p.port.ignoreSelect then p.passSelect
  else
    match p.port.state, p.port.answer with
    | .answerReady, some a =>
      let sent := p.sendSdo n (p.answerFrame a)
      if (p.answerFrame a).length ≤ n then sent.consume else sent
    | _, _ => p.sendSdo n (p.answerFrame emptyAnswer)

/-- R173: a select by its direction byte, none for fewer than eight bits, with nothing after it. WRITE and READ are what they name; any
other select is ignored. -/
def Part.anySelect (p : Part) (direction : Option Byte) : Part :=
  if direction = some 0x3C#8 then p.writeSelect []
  else if direction = some 0xC3#8 then p.readSelect 0
  else p.passSelect

/-! ## The commands -/

/-- IGNORED_SELECT (R173). -/
def execIgnoredSelect (direction : Option Byte) (s : State) : Host.Outcome State Fault Refusal :=
  .next (s.mapPart fun p => p.anySelect direction)

/-- BAD_FRAME (R174): the frame's content decides (assumption 4). -/
def execBadFrame (frame : List Byte) (s : State) : Host.Outcome State Fault Refusal :=
  .next (s.mapPart fun p => p.writeSelect frame)

/-- UNKNOWN_COMMAND (R174): the frame's content decides (assumption 4). -/
def execUnknownCommand (frame : List Byte) (s : State) : Host.Outcome State Fault Refusal :=
  .next (s.mapPart fun p => p.writeSelect frame)

/-- COLLISION (R177): the port state decides (assumption 4). -/
def execCollision (frame : List Byte) (s : State) : Host.Outcome State Fault Refusal :=
  .next (s.mapPart fun p => p.writeSelect frame)

/-- READ_SELECT (R175). -/
def execReadSelect (bytesOut : Nat) (s : State) : Host.Outcome State Fault Refusal :=
  .next (s.mapPart fun p => p.readSelect bytesOut)

end Sys2Proof.Machine
end

