-- ==== Sys2Proof/Machine/Dispatch.lean ====
section
/-! DEFINITION. Machine/Dispatch.lean: one arm for each command, a direct call of its meaning. -/

namespace Sys2Proof.Machine

/-- The effect of a command on everything but the queue. -/
def exec (i : Instr) (s : State) : Host.Outcome State Fault Refusal :=
  match i with
  | .pinReset selLow => Sys2Proof.Machine.execPinReset selLow s
  | .ignoredSelect direction => Sys2Proof.Machine.execIgnoredSelect direction s
  | .badFrame frame => Sys2Proof.Machine.execBadFrame frame s
  | .unknownCommand frame => Sys2Proof.Machine.execUnknownCommand frame s
  | .collision frame => Sys2Proof.Machine.execCollision frame s
  | .readSelect bytesOut => Sys2Proof.Machine.execReadSelect bytesOut s
  | .addRequest tag params => Sys2Proof.Machine.execAddRequest tag params s
  | .cancelRequest tag params => Sys2Proof.Machine.execCancelRequest tag params s
  | .editRequest tag params => Sys2Proof.Machine.execEditRequest tag params s
  | .placeRequest tag params => Sys2Proof.Machine.execPlaceRequest tag params s
  | .readBook tag params => Sys2Proof.Machine.execReadBook tag params s
  | .holdBook tag params => Sys2Proof.Machine.execHoldBook tag params s
  | .lineStatus tag params => Sys2Proof.Machine.execLineStatus tag params s
  | .handsetTable tag params => Sys2Proof.Machine.execHandsetTable tag params s
  | .openClaims tag params => Sys2Proof.Machine.execOpenClaims tag params s
  | .barHandset tag params => Sys2Proof.Machine.execBarHandset tag params s
  | .releaseHandset tag params => Sys2Proof.Machine.execReleaseHandset tag params s
  | .mount tag params => Sys2Proof.Machine.execMount tag params s
  | .lookUpSong tag params => Sys2Proof.Machine.execLookUpSong tag params s
  | .listSongs tag params => Sys2Proof.Machine.execListSongs tag params s
  | .installBegin tag params => Sys2Proof.Machine.execInstallBegin tag params s
  | .installPage tag params => Sys2Proof.Machine.execInstallPage tag params s
  | .installClose tag params => Sys2Proof.Machine.execInstallClose tag params s
  | .installAbandon tag params => Sys2Proof.Machine.execInstallAbandon tag params s
  | .withdrawSong tag params => Sys2Proof.Machine.execWithdrawSong tag params s
  | .libraryStatus tag params => Sys2Proof.Machine.execLibraryStatus tag params s
  | .playStatus tag params => Sys2Proof.Machine.execPlayStatus tag params s
  | .start tag params => Sys2Proof.Machine.execStart tag params s
  | .skip tag params => Sys2Proof.Machine.execSkip tag params s
  | .extendHold tag params => Sys2Proof.Machine.execExtendHold tag params s
  | .pause tag params => Sys2Proof.Machine.execPause tag params s
  | .resume tag params => Sys2Proof.Machine.execResume tag params s
  | .nudge tag params => Sys2Proof.Machine.execNudge tag params s
  | .nextNow tag params => Sys2Proof.Machine.execNextNow tag params s
  | .loadGlyphs tag params => Sys2Proof.Machine.execLoadGlyphs tag params s
  | .displaySettings tag params => Sys2Proof.Machine.execDisplaySettings tag params s
  | .bindMic tag params => Sys2Proof.Machine.execBindMic tag params s
  | .scoreReport tag params => Sys2Proof.Machine.execScoreReport tag params s
  | .identify tag params => Sys2Proof.Machine.execIdentify tag params s
  | .readAttention tag params => Sys2Proof.Machine.execReadAttention tag params s
  | .setAttentionMask tag params => Sys2Proof.Machine.execSetAttentionMask tag params s
  | .configure tag params => Sys2Proof.Machine.execConfigure tag params s
  | .clearRoom tag params => Sys2Proof.Machine.execClearRoom tag params s
  | .pollSent => Sys2Proof.Machine.execPollSent s
  | .receivedCharacter c => Sys2Proof.Machine.execReceivedCharacter c s
  | .replyExpiry => Sys2Proof.Machine.execReplyExpiry s
  | .invalidAnswer chars => Sys2Proof.Machine.execInvalidAnswer chars s
  | .answer address body => Sys2Proof.Machine.execAnswer address body s
  | .ask address fields => Sys2Proof.Machine.execAsk address fields s
  | .find address fields => Sys2Proof.Machine.execFind address fields s
  | .mine address fields => Sys2Proof.Machine.execMine address fields s
  | .drop address fields => Sys2Proof.Machine.execDrop address fields s
  | .key address fields => Sys2Proof.Machine.execKey address fields s
  | .join address fields => Sys2Proof.Machine.execJoin address fields s
  | .leave address fields => Sys2Proof.Machine.execLeave address fields s
  | .lateAnswer chars => Sys2Proof.Machine.execLateAnswer chars s
  | .strayFrame chars => Sys2Proof.Machine.execStrayFrame chars s
  | .openSent => Sys2Proof.Machine.execOpenSent s
  | .claim serial => Sys2Proof.Machine.execClaim serial s
  | .badClaim chars => Sys2Proof.Machine.execBadClaim chars s
  | .grantSent => Sys2Proof.Machine.execGrantSent s
  | .lineBreak => Sys2Proof.Machine.execBreak s
  | .breakEnd => Sys2Proof.Machine.execBreakEnd s
  | .holdExpiry => Sys2Proof.Machine.execHoldExpiry s
  | .gapExpiry => Sys2Proof.Machine.execGapExpiry s
  | .audioFrame frame => Sys2Proof.Machine.execAudioFrame frame s
  | .windowEnd frame => Sys2Proof.Machine.execWindowEnd frame s
  | .streamFetchComplete die read => Sys2Proof.Machine.execStreamFetchComplete die read s
  | .lookupReadComplete die read => Sys2Proof.Machine.execLookupReadComplete die read s
  | .mountScanReadComplete die read => Sys2Proof.Machine.execMountScanReadComplete die read s
  | .identification die report => Sys2Proof.Machine.execIdentification die report s
  | .installProgramComplete die pass => Sys2Proof.Machine.execInstallProgramComplete die pass s
  | .withdrawEraseComplete die pass => Sys2Proof.Machine.execWithdrawEraseComplete die pass s
  | .reclaimEraseComplete die pass => Sys2Proof.Machine.execReclaimEraseComplete die pass s
  | .dieWatchExpiry die => Sys2Proof.Machine.execDieWatchExpiry die s
  | .libwpChange high => Sys2Proof.Machine.execLibwpChange high s
  | .inputFrameStart ended => Sys2Proof.Machine.execInputFrameStart ended s
  | .internalFrameStart => Sys2Proof.Machine.execInternalFrameStart s
  | .videoWatchExpiry => Sys2Proof.Machine.execVideoWatchExpiry s
  | .cardExpiry => Sys2Proof.Machine.execCardExpiry s

end Sys2Proof.Machine
end

