-- ==== Sys2Proof/Safety.lean ====
section
/-! DEFINITION. Safety.lean: the words the statements use: the command frame a host command travels in, a port that can take a command, the
state after an answer, and what holds of every part the data book describes. -/

namespace Sys2Proof

namespace Machine

/-! ## Command frames -/

/-- Table 10-2: the bytes of a command frame without its CRC-16. -/
def CommandFrame.span (f : CommandFrame) : List Byte :=
  u16 (f.params.length + 6) ++ u8 f.code ++ f.tag :: f.params

/-- Table 10-2, R189: the bytes of a command frame; the CRC-16 spans the length field through the last parameter byte. -/
def CommandFrame.bytes (f : CommandFrame) : List Byte := f.span ++ crcBytes f.span

end Machine

/-- R189: the command frame a host command travels in: its code by Table 9-3, its tag and its parameters; none for an event that is no
host command. -/
def Instr.commandFrame : Instr → Option Machine.CommandFrame
  | .pinReset _ => none
  | .ignoredSelect _ => none
  | .badFrame _ => none
  | .unknownCommand _ => none
  | .collision _ => none
  | .readSelect _ => none
  | .addRequest tag params => some ⟨1, tag, params⟩
  | .cancelRequest tag params => some ⟨2, tag, params⟩
  | .editRequest tag params => some ⟨3, tag, params⟩
  | .placeRequest tag params => some ⟨4, tag, params⟩
  | .readBook tag params => some ⟨5, tag, params⟩
  | .holdBook tag params => some ⟨6, tag, params⟩
  | .lineStatus tag params => some ⟨7, tag, params⟩
  | .handsetTable tag params => some ⟨8, tag, params⟩
  | .openClaims tag params => some ⟨9, tag, params⟩
  | .barHandset tag params => some ⟨10, tag, params⟩
  | .releaseHandset tag params => some ⟨11, tag, params⟩
  | .mount tag params => some ⟨12, tag, params⟩
  | .lookUpSong tag params => some ⟨13, tag, params⟩
  | .listSongs tag params => some ⟨14, tag, params⟩
  | .installBegin tag params => some ⟨15, tag, params⟩
  | .installPage tag params => some ⟨16, tag, params⟩
  | .installClose tag params => some ⟨17, tag, params⟩
  | .installAbandon tag params => some ⟨18, tag, params⟩
  | .withdrawSong tag params => some ⟨19, tag, params⟩
  | .libraryStatus tag params => some ⟨20, tag, params⟩
  | .playStatus tag params => some ⟨21, tag, params⟩
  | .start tag params => some ⟨22, tag, params⟩
  | .skip tag params => some ⟨23, tag, params⟩
  | .extendHold tag params => some ⟨24, tag, params⟩
  | .pause tag params => some ⟨25, tag, params⟩
  | .resume tag params => some ⟨26, tag, params⟩
  | .nudge tag params => some ⟨27, tag, params⟩
  | .nextNow tag params => some ⟨28, tag, params⟩
  | .loadGlyphs tag params => some ⟨29, tag, params⟩
  | .displaySettings tag params => some ⟨30, tag, params⟩
  | .bindMic tag params => some ⟨31, tag, params⟩
  | .scoreReport tag params => some ⟨32, tag, params⟩
  | .identify tag params => some ⟨33, tag, params⟩
  | .readAttention tag params => some ⟨34, tag, params⟩
  | .setAttentionMask tag params => some ⟨35, tag, params⟩
  | .configure tag params => some ⟨36, tag, params⟩
  | .clearRoom tag params => some ⟨37, tag, params⟩
  | .pollSent => none
  | .receivedCharacter _ => none
  | .replyExpiry => none
  | .invalidAnswer _ => none
  | .answer _ _ => none
  | .ask _ _ => none
  | .find _ _ => none
  | .mine _ _ => none
  | .drop _ _ => none
  | .key _ _ => none
  | .join _ _ => none
  | .leave _ _ => none
  | .lateAnswer _ => none
  | .strayFrame _ => none
  | .openSent => none
  | .claim _ => none
  | .badClaim _ => none
  | .grantSent => none
  | .lineBreak => none
  | .breakEnd => none
  | .holdExpiry => none
  | .gapExpiry => none
  | .audioFrame _ => none
  | .windowEnd _ => none
  | .streamFetchComplete _ _ => none
  | .lookupReadComplete _ _ => none
  | .mountScanReadComplete _ _ => none
  | .identification _ _ => none
  | .installProgramComplete _ _ => none
  | .withdrawEraseComplete _ _ => none
  | .reclaimEraseComplete _ _ => none
  | .dieWatchExpiry _ => none
  | .libwpChange _ => none
  | .inputFrameStart _ => none
  | .internalFrameStart => none
  | .videoWatchExpiry => none
  | .cardExpiry => none

namespace Machine

/-! ## The port before and after a command -/

/-- R174: the port takes the command of a WRITE select that ends now. -/
def Part.ready (p : Part) : Prop := p.port.state = .idle ∧ p.port.ignoreSelect = false

/-- R176, R173: a command's answer waits, SDO has held FFh, and nothing else has changed. -/
def State.answered (s : State) (tag : Byte) (outcome : Outcome) (data : List Byte) : State :=
  s.mapPart fun p => (p.answer tag outcome data).quietSdo

/-- R178: a REFUSED answer waits and nothing else has changed. -/
def State.refused (s : State) (tag : Byte) (cause : Cause) : State := s.answered tag .refused (u8 cause.code)

/-- R176: the answer of a host command stands in the port. -/
def State.hasAnswer (s : State) (tag : Byte) (outcome : Outcome) (data : List Byte) : Prop :=
  s.part.port.state = .answerReady ∧ s.part.port.answer = some { tag, outcome, data }

/-- R178, R189: how many parameter bytes a command of fixed length takes, by its code; none for the commands whose parameter bodies
vary in length, and for codes that name no command. -/
def fixedParams : Nat → Option Nat
  | 2 => some 2 | 4 => some 3 | 5 => some 0 | 6 => some 1 | 7 => some 0 | 9 => some 1 | 10 => some 1 | 11 => some 1
  | 12 => some 0 | 13 => some 3 | 14 => some 4 | 16 => some 2049 | 17 => some 0 | 18 => some 0 | 19 => some 3
  | 21 => some 0 | 22 => some 0 | 23 => some 0 | 24 => some 1 | 25 => some 0 | 26 => some 0 | 27 => some 2 | 28 => some 0
  | 31 => some 2 | 32 => some 0 | 33 => some 0 | 34 => some 0 | 35 => some 7 | 37 => some 0
  | _ => none

/-- An event's own effects made `u` of the part, the promotion that is then due is made (R114), and the command's OK answer waits
(R176). -/
def State.okThenPromote (s : State) (tag : Byte) (u : Part) (data : List Byte) : State :=
  State.answered { s with part := u.promoteIfDue } tag .ok data

/-! ## The handset line before an event -/

/-- R34: a poll turn to a slot is in progress; its POLL has left, and no frame is being received. -/
def Part.inTurn (p : Part) (slot : Nat) (carried : Option Carried) : Prop :=
  p.line.state = .running ∧ p.line.turn = .poll slot carried ∧ p.line.tx = none ∧ p.line.rx = []

/-- R37: a claim window is open; its OPEN has left, and no frame is being received. -/
def Part.inWindow (p : Part) : Prop :=
  p.line.state = .running ∧ p.line.turn = .claimWindow ∧ p.line.tx = none ∧ p.line.rx = []

/-- R32: between two parts a frame of the part falls due: it is sent at once, or behind the frame that is going out. -/
def Part.sends (before after : Part) (f : TxFrame) : Prop :=
  (before.sending = false → after.line.tx = some f ∧ after.line.txNext = none) ∧
    (before.sending = true → after.line.tx = before.line.tx ∧ after.line.txNext = some f)

/-- R34: the first character of a frame has stopped REPLY in a poll turn, and the frame has ended. -/
def Part.frameOfTurn (p : Part) : Part := { p with line := { p.line with reply := none, rxClass := .byTurn } }

/-- R35 steps 1 to 3: a valid ANSWER of the slot has ended: the slot is heard and the item carried is removed. -/
def Part.heard (p : Part) (slot : Nat) (carried : Option Carried) : Part := p.frameOfTurn.hearAnswer slot carried

/-- R35, R33, R114: the turn ends, the next slot or interval follows, and then the promotion that is due is made: the model's order
(assumption 47). -/
def Part.turnOver (p : Part) : Part := p.nextTurn.promoteIfDue

/-- R32, R33, R36: what becomes of the line when a slot departs. Where the slot is not the one being served the line stays. Where it is, its turn is
abandoned: a frame being received will be a stray frame, and the round serves the next slot above the last one served that is
ACTIVE, or SILENT in round 0; with no such slot its claim window opens, or with claims closed the next round starts. -/
def Part.turnLeaves (p u : Part) (slot : Nat) : Prop :=
  ((∀ carried, p.line.turn ≠ .poll slot carried) → u.line = p.line) ∧
  ∀ carried, p.line.turn = .poll slot carried →
    (∀ item, u.line.turn ≠ .poll slot item) ∧ u.line.rx = p.line.rx ∧ u.line.rxClass = .stray ∧
    (∀ n, p.line.lastServed < n → n ≤ 16 → n ≠ slot → p.served n = true →
      (∀ m, p.line.lastServed < m → m < n → m ≠ slot → p.served m = false) →
      (∃ item, u.line.turn = .poll n item) ∧ u.line.lastServed = n ∧ u.line.reply = none ∧ u.line.round = p.line.round) ∧
    ((∀ n, p.line.lastServed < n → n ≤ 16 → n ≠ slot → p.served n = false) →
      (p.settings.openClaims = true → u.line.turn = .claimWindow ∧ u.line.reply = none ∧ u.line.round = p.line.round) ∧
      (p.settings.openClaims = false → p.line.lastServed ≠ 0 → u.line.round = (p.line.round + 1) % 8))

/-! ## The arbiter -/

/-- R101, R103: whether the arbiter may start a request: a read always, a program or an erase while LIBWP_N is high. -/
def mayStart (libwp : Bool) (r : Request) : Prop := requestClass r.requester ≤ 3 ∨ libwp = true

/-- R101, R103: what the arbiter makes of a die with no operation in progress. Of the waiting requests that may start, the one of the highest class
(1 to 5: stream fetch, lookup, scan, install, withdraw) that arrived first is granted: it leaves the list, the die is BUSY and its watch is loaded with
20 ms, 960 ticks (assumption 36). With none that may start, in a MOUNTED library with LIBWP_N high, the erase of the die's oldest block in the reclaim
list is started. Else the die is IDLE and everything stays in its list. -/
def Part.granted (p : Part) (d : Nat) (x : Die) : Prop :=
  (∀ (r : Request) (first rest : List Request), (p.die d).waiting = first ++ r :: rest → requestClass r.requester ≤ 5 →
    mayStart p.lib.libwp r →
    (∀ y ∈ first, mayStart p.lib.libwp y → requestClass r.requester < requestClass y.requester) →
    (∀ y ∈ rest, mayStart p.lib.libwp y → requestClass r.requester ≤ requestClass y.requester) →
    x = { p.die d with state := .busy, op := some r, watch := some 960, waiting := first ++ rest }) ∧
  ((∀ y ∈ (p.die d).waiting, ¬mayStart p.lib.libwp y) →
    (∀ (first rest : List (Nat × Nat)) (block : Nat), p.lib.libwp = true → p.lib.state = .mounted →
      p.lib.reclaim = first ++ (d, block) :: rest → (∀ y ∈ first, y.1 ≠ d) →
      x = { p.die d with state := .busy, op := some ⟨.reclaim, block, 0, [], false⟩, watch := some 960 }) ∧
    (p.lib.libwp = false ∨ p.lib.state ≠ .mounted ∨ (∀ y ∈ p.lib.reclaim, y.1 ≠ d) →
      x = { p.die d with state := .idle }))

/-! ## The mount -/

/-- R72: a die has begun its mount scan: the read of page 0 of block 0 is in progress, with its watch loaded with 20 ms. -/
def Die.scanBegun (x : Die) : Prop :=
  x.state = .busy ∧ x.scan = .header 0 ∧ x.judged = [] ∧ x.watch = some 960 ∧
    x.op = some { requester := .scan, block := 0, page := 0, data := [], givenUp := false }

/-! ## Time -/

/-- R113: a timer that is running and stands on its last tick of 1/48 ms, so that it expires now (assumption 2). -/
def lastTick (t : Timer) : Bool := t.any fun n => n ≤ 1

/-- No timer of the part is on its last tick, so the next audio frame expires none (assumption 2). -/
def Part.quiet (p : Part) : Bool := expiries.all fun x => !lastTick (x.1 p)

/-! ## Stream records as bytes (Table 10-6) -/

/-- R192: the bytes of a syllable of a LINE. -/
def Syllable.bytes (y : Syllable) : List Byte := u8 y.glyphs ++ u24 y.start ++ u24 y.stop

/-- R192: the bytes of a record; parts A to D are 1 to 4 in a NOTE. -/
def Record.bytes : Record → List Byte
  | .line l => u8 1 ++ u8 l.mask ++ u8 l.codes.length ++ u8 l.syllables.length ++ l.codes.flatMap u16 ++
      l.syllables.flatMap Syllable.bytes
  | .note part number start stop => u8 2 ++ u8 (part + 1) ++ u8 number ++ u24 start ++ u24 stop
  | .beat time => u8 3 ++ u24 time

/-! ## What holds of every part -/

/-- R176: an answer waits in ANSWER READY alone, and LOOK UP SONG is in hand in EXECUTING alone. -/
def Port.wf (x : Port) : Prop :=
  (x.state = .answerReady ↔ x.answer.isSome = true) ∧ (x.state = .executing ↔ x.lookup.isSome = true)

/-- R111, R113: the entry and the song are present in STAGING, HOLDING, RUNNING and PAUSED alone; HOLD runs in HOLDING and GAP in
GAP, and nowhere else. -/
def Play.wf (x : Play) : Prop :=
  (x.entry.isSome = true ↔ x.state ≠ .idle ∧ x.state ≠ .gap) ∧ (x.song.isSome = x.entry.isSome) ∧
    (x.hold.isSome = true ↔ x.state = .holding) ∧ (x.gap.isSome = true ↔ x.state = .gap)

/-- R1, R3, R111: the tickets of the live entries are distinct; the play context's entry stands first in the book, CUED in STAGING and
HOLDING and PLAYING in RUNNING and PAUSED, and every other live entry is WAITING. -/
def Part.cueWf (p : Part) : Prop :=
  p.play.wf ∧ (p.book.entries.map Entry.ticket).Nodup ∧
    match p.play.entry with
    | none => ∀ e ∈ p.book.entries, e.state = .waiting
    | some ticket => ∃ e rest, p.book.entries = e :: rest ∧ e.ticket = ticket ∧ (∀ x ∈ rest, x.state = .waiting) ∧
        e.state = if p.play.state = .staging ∨ p.play.state = .holding then .cued else .playing

/-- R40, R48, R155, R159: 16 slots, 16 stores, four seats and four channels. -/
def Part.shaped (p : Part) : Prop :=
  p.slots.length = Config.slotCount ∧ p.stores.length = Config.slotCount ∧ p.scorer.seats.length = 4 ∧
    p.scorer.channels.length = 4

/-- R4: the tickets of the live entries are distinct and from 1 to 65535, as is the counter, and the book holds at most 64 entries. -/
def Book.wf (b : Book) : Prop :=
  b.entries.length ≤ Config.bookCapacity ∧ (b.entries.map Entry.ticket).Nodup ∧
    (∀ e ∈ b.entries, ticketInRange e.ticket = true) ∧ ticketInRange b.counter = true

end Machine

end Sys2Proof
end

