-- ==== Sys2Proof/Certificates/Slice0/Obligations.lean ====
section
/-! DEFINITION. Certificates/Slice0/Obligations.lean: the statements for the provers, chapter by chapter. Each docstring names the rules it
formalises; a clause that rests on the model's own choice names the log entry. -/

section

open Sys2Proof Sys2Proof.Machine

/-! ## The block and its queue -/

/-- A step takes the command at the front of the queue and gives it its effect with the queue's rest; with no command waiting the part idles.
Both are the model's choice, assumption 1. -/
def Obligations.StepTakesFrontCommand : Prop :=
  (∀ (c : Instr) (rest : List Instr) (s : State), s.pending = c :: rest →
    step s = exec c { s with pending := rest }) ∧
  ∀ s : State, s.pending = [] → step s = .next s

/-- No rule of the data book stops the part: every command answers a next state, and no command touches the queue behind it. -/
def Obligations.EveryCommandCompletes : Prop :=
  ∀ (c : Instr) (s : State), ∃ t : State, exec c s = .next t ∧ t.pending = s.pending

/-! ## Reset -/

/-- R25, R47, R48, R92, R110, R135, R154, R172, R173, R176, R183: a pin reset at any moment gives the part its after-reset state, in which the clauses below
hold. A select in progress when the reset ends is ignored, and the LIBWP_N input keeps its level (assumption 10); the first round has begun
(assumption 9), and fields that no rule gives a reset value stand where nothing has happened yet (assumption 31). -/
def Obligations.PinResetGivesResetState : Prop :=
  (∀ (selLow : Bool) (s : State),
     exec (.pinReset selLow) s =
       .next { part := { Part.reset with port := { Port.reset with ignoreSelect := selLow },
                                         lib := { Library.reset with libwp := s.part.lib.libwp } },
               pending := s.pending }) ∧
  (State.reset.pending = [] ∧
   (∀ p : Part, p = State.reset.part →
     (p.port.state = .idle ∧ p.port.answer = none ∧ p.port.collision = false ∧ p.rdy = false) ∧
     (p.attn.pending = SourceSet.none ∧ p.attn.unmasked = SourceSet.none ∧ p.attnPin = false) ∧
     (p.book.entries = [] ∧ p.book.hold = false ∧ p.book.counter = 1 ∧ p.book.lastStrike = none ∧
       p.book.strikeCount = 0 ∧ p.settings.orderMode = .rotation ∧ p.settings.quota = 3) ∧
     (p.line.state = .running ∧ p.line.round = 1 ∧ p.line.turn = .claimWindow ∧ p.line.strays = 0 ∧ p.line.lates = 0 ∧
       p.line.badClaims = 0 ∧ p.line.breaks = 0 ∧ p.settings.divisor = 15 ∧ p.settings.replyWindow = 4 ∧
       p.settings.missLimit = 6 ∧ p.settings.lineEnable = true ∧ p.settings.openClaims = true) ∧
     (p.slots.length = 16 ∧ ∀ x ∈ p.slots, x.state = .free ∧ x.serial = none ∧ x.misses = 0 ∧ x.live = 0) ∧
     (p.stores.length = 16 ∧ ∀ x ∈ p.stores, x = Store.empty) ∧
     (p.catalog = [] ∧ p.install = none ∧ p.lib.state = .unmounted ∧ p.lib.die0.state = .unidentified ∧
       p.lib.die1.state = .unidentified ∧ p.lib.reclaim = [] ∧ p.lib.faultCount = 0) ∧
     (p.play.state = .idle ∧ p.play.entry = none ∧ p.play.song = none ∧ p.play.hold = none ∧ p.play.gap = none ∧
       p.reader.state = .idle ∧ p.reader.buf0 = .empty ∧ p.reader.buf1 = .empty) ∧
     (p.lyric.path = .pass ∧ p.glyphs = [] ∧ p.scorer.result = none ∧
       p.scorer.seats = [Seat.reset (some 0), Seat.reset (some 1), Seat.reset (some 2), Seat.reset (some 3)])))

/-! ## Chapter 9: selects, frames, answers -/

/-- R173, R174, R189: a select with any other direction byte, or with fewer than eight bits, changes nothing. In IDLE a frame with no byte, with more than
2112, with a length field that does not agree or with a CRC-16 that does not match is answered REFUSED BAD FRAME with tag 0, and a well-formed frame of
code 00h, or of any from 26h to FFh, REFUSED UNKNOWN COMMAND with the frame's tag; nothing else changes. SDO holds FFh during the direction byte and
throughout every WRITE select (as assumption 12 records what the part puts on SDO). -/
def Obligations.SelectsJudged : Prop :=
  (∀ (direction : Option Byte) (s : State), direction ≠ some 0x3C#8 → direction ≠ some 0xC3#8 →
     s.part.port.ignoreSelect = false → exec (.ignoredSelect direction) s = .next s) ∧
  (∀ (frame : List Byte) (s : State), s.part.ready →
     (frame.length < 6 ∨ 2112 < frame.length ∨ u16At frame 0 ≠ frame.length ∨
       frame.drop (frame.length - 2) ≠ crcBytes (frame.take (frame.length - 2))) →
     exec (.badFrame frame) s = .next (s.refused 0#8 .badFrame)) ∧
  (∀ (f : CommandFrame) (s : State), s.part.ready → f.params.length ≤ 2106 → f.code < 256 → (f.code = 0 ∨ 0x26 ≤ f.code) →
     exec (.unknownCommand f.bytes) s = .next (s.refused f.tag .unknownCommand)) ∧
  (∀ p : Part, p.sdoByte 0 = 0xFF#8) ∧
  ∀ (i : Instr) (s t : State), s.part.port.ignoreSelect = false →
    ((∃ frame, i = .badFrame frame ∨ i = .unknownCommand frame ∨ i = .collision frame) ∨ i.commandFrame.isSome = true) →
    exec i s = .next t → ∀ k, t.part.sdoByte k = 0xFF#8

/-- R177: COLLISION is set, and nothing else changes, at each WRITE select that ends in EXECUTING or ANSWER READY, whatever the frame;
every frame sent shows it; the consumption of an answer clears it; it is clear after pin reset. The record of what stood on SDO, the model's own
(assumption 12), is left out of the count. -/
def Obligations.CollisionIsRecorded : Prop :=
  (∀ (i : Instr) (s : State), s.part.port.ignoreSelect = false → s.part.port.state ≠ .idle →
    ((∃ frame, i = .badFrame frame ∨ i = .unknownCommand frame ∨ i = .collision frame) ∨ i.commandFrame.isSome = true) →
    ∃ u : Machine.Part, exec i s = .next { s with part := u } ∧
      u = { s.part with port := { s.part.port with collision := true, sdo := u.port.sdo } }) ∧
  (∀ (p : Part) (a : Answer), (p.answerFrame a)[2]? = some (if p.port.collision then 1#8 else 0#8)) ∧
  (∀ (n : Nat) (s : State) (a : Answer), s.part.port.ignoreSelect = false → s.part.port.state = .answerReady →
    s.part.port.answer = some a → a.data.length + 7 ≤ n →
    ∃ t, exec (.readSelect n) s = .next t ∧ t.part.port.collision = false) ∧
  State.reset.part.port.collision = false

/-- R175: in ANSWER READY the waiting answer is sent from its first byte; sent whole, it is consumed, the port enters IDLE and
COLLISION is cleared; cut short, it stays. In IDLE and EXECUTING the empty frame is sent. What the link carried stands in the output
record (assumption 12); no other state changes. -/
def Obligations.ReadSelectSendsAnswer : Prop :=
  ∀ (n : Nat) (s : State), s.part.port.ignoreSelect = false →
    (∀ a, s.part.port.state = .answerReady → s.part.port.answer = some a → a.data.length + 7 ≤ n →
      exec (.readSelect n) s = .next { s with part := { s.part with port :=
        { s.part.port with state := .idle, answer := none, collision := false,
                           sdo := s.part.answerFrame a ++ List.replicate (n - (a.data.length + 7)) 0xFF#8 } } }) ∧
    (∀ a, s.part.port.state = .answerReady → s.part.port.answer = some a → n < a.data.length + 7 →
      exec (.readSelect n) s = .next { s with part := { s.part with port :=
        { s.part.port with sdo := (s.part.answerFrame a).take n } } }) ∧
    (s.part.port.state ≠ .answerReady →
      exec (.readSelect n) s = .next { s with part := { s.part with port :=
        { s.part.port with sdo := sdoBytes n (s.part.answerFrame emptyAnswer) } } })

/-- R178, R189: a parameter body of another length than its command's fixed length is refused BAD FORM before the owning block sees it, and nothing else
changes. So is a body that has not its command's form where the length varies: ADD REQUEST takes six bytes and perhaps the flag 01h, HANDSET TABLE and LIBRARY STATUS
no byte or the flag 01h, EDIT REQUEST a ticket and pairs of distinct numbers from 1 to 3 with a byte each, INSTALL BEGIN eight bytes, two tags of at most 12
bytes and a counted list of codes. -/
def Obligations.WrongLengthIsBadForm : Prop :=
  (∀ (tag : Byte) (params : List Byte) (s : State), s.part.ready →
    (params.length ≠ 6 → (∀ body, params = body ++ [1#8] → body.length ≠ 6) →
      exec (.addRequest tag params) s = .next (s.refused tag .badForm)) ∧
    (params ≠ [] → params ≠ [1#8] →
      exec (.handsetTable tag params) s = .next (s.refused tag .badForm) ∧
      exec (.libraryStatus tag params) s = .next (s.refused tag .badForm)) ∧
    ((¬∃ (t0 t1 : Byte) (pairs : List (Byte × Byte)), (pairs.map Prod.fst).Nodup ∧ (∀ x ∈ pairs, x.1 ∈ [1#8, 2#8, 3#8]) ∧
        params = t0 :: t1 :: pairs.flatMap fun x => [x.1, x.2]) →
      exec (.editRequest tag params) s = .next (s.refused tag .badForm)) ∧
    ((¬∃ (fixed title artist : List Byte) (codes : List (Byte × Byte)), fixed.length = 8 ∧ title.length ≤ 12 ∧ artist.length ≤ 12 ∧
        codes.length ≤ 255 ∧
        params = fixed ++ tagBytes title ++ tagBytes artist ++ u8 codes.length ++ codes.flatMap fun x => [x.1, x.2]) →
      exec (.installBegin tag params) s = .next (s.refused tag .badForm))) ∧
  ∀ (i : Instr) (f : CommandFrame) (n : Nat) (s : State), s.part.ready → i.commandFrame = some f →
    fixedParams f.code = some n → f.params.length ≠ n → exec i s = .next (s.refused f.tag .badForm)

/-- R189: reading the bytes of a command frame gives back its code, its tag and every parameter byte. -/
def Obligations.CommandFrameRoundTrip : Prop :=
  ∀ f : CommandFrame, f.code < 256 → f.params.length ≤ 2106 → parseCommand f.bytes = some f

/-- R174, R189: a WRITE select whose frame bytes are those of a host command does what the command does, in every state of the part. That the
COLLISION row carries the bytes of any WRITE select, and that their content and the port's state decide what they do, is the model's choice
(assumption 4). -/
def Obligations.FrameActsAsItsCommand : Prop :=
  ∀ (i : Instr) (f : CommandFrame) (s : State), i.commandFrame = some f → i.wellFormed = true →
    exec (.collision f.bytes) s = exec i s

/-- R176, Table 9-1: every step keeps the port as Table 9-1 says: an answer waits in ANSWER READY alone, and a LOOK UP SONG is in hand in
EXECUTING alone. -/
def Obligations.StepKeepsPort : Prop := ∀ s t : State, s.part.port.wf → step s = .next t → t.part.port.wf

/-! ## Chapter 9: attention, room settings, room clear -/

/-- R184: IDENTIFY answers OK with the family code, the part number, revision 2, the frame limit of 2112 bytes and the seven capacities, in every
state of every block, and changes no other state than the port's. -/
def Obligations.IdentifyAnswers : Prop :=
  ∀ (tag : Byte) (s : State), s.part.ready →
    ∃ u : Machine.Part, exec (.identify tag []) s = .next { s with part := u } ∧ u = { s.part with port := u.port } ∧
      u.port.state = .answerReady ∧ u.port.collision = s.part.port.collision ∧
      u.port.answer = some
        { tag := tag, outcome := .ok
          data := [0x50#8, 0x5C#8, 0x1C#8, 0x02#8, 0x40#8, 0x08#8, 0x10#8, 0x00#8, 0x40#8, 0x00#8, 0x00#8, 0x10#8, 0x02#8, 0x00#8,
            0x04#8, 0x00#8, 0x04#8, 0x00#8, 0x00#8, 0x08#8] }

/-- R180: ATTN is asserted when and only when a source is pending and unmasked; a raise makes it rise for an unmasked source alone, and the mask
stops no source from latching. -/
def Obligations.AttnFollowsPendingAndMask : Prop :=
  (∀ p : Part, p.attnPin = true ↔ ∃ src, p.attn.pending.get src = true ∧ p.attn.unmasked.get src = true) ∧
  (∀ (p : Part) (src : Source), (p.raise src).attn.pending.get src = true ∧
    (p.raise src).attnPin = (p.attnPin || p.attn.unmasked.get src) ∧
    ∀ other, other ≠ src → (p.raise src).attn.pending.get other = p.attn.pending.get other)

/-- R181, R182: READ ATTENTION reports the pending unmasked source of highest priority, and the pending set as it stood; a reported BOOK, HANDSET or VIDEO is
cleared, a reported LIBRARY, LINE, PLAY or SCORE stays, and nothing else changes. SET ATTENTION MASK writes the whole mask and answers OK with the mask and
the pending set, and clears no source; an entry with another value is refused BAD FORM with the mask unchanged. The layout of the sets in the
answer is assumption 23, and the order of the seven entries in the command assumption 52. -/
def Obligations.ReadAttentionAndMask : Prop :=
  (∀ (tag : Byte) (s : State), s.part.ready →
     (∀ src, s.part.attn.pending.get src = true → s.part.attn.unmasked.get src = true →
       (∀ other, sourceCode (some other) < sourceCode (some src) →
         ¬(s.part.attn.pending.get other = true ∧ s.part.attn.unmasked.get other = true)) →
       exec (.readAttention tag []) s =
         .next ((if src = .book ∨ src = .handset ∨ src = .video then s.mapPart fun p => p.clearSource src else s).answered
           tag .ok (u8 (sourceCode (some src)) ++ pendingBytes s.part.attn.pending))) ∧
     ((∀ src, ¬(s.part.attn.pending.get src = true ∧ s.part.attn.unmasked.get src = true)) →
       exec (.readAttention tag []) s = .next (s.answered tag .ok (u8 0 ++ pendingBytes s.part.attn.pending)))) ∧
  ((∀ (tag : Byte) (m : SourceSet) (s : State), s.part.ready →
     exec (.setAttentionMask tag (maskBytes m)) s =
       .next (State.answered { s with part := { s.part with attn := { s.part.attn with unmasked := m } } } tag .ok
         (maskBytes m ++ pendingBytes s.part.attn.pending))) ∧
   (∀ (tag : Byte) (params : List Byte) (s : State), s.part.ready → (∃ b ∈ params, b ≠ 1#8 ∧ b ≠ 2#8) →
     exec (.setAttentionMask tag params) s = .next (s.refused tag .badForm)))

/-- R185, R186: a CONFIGURE whose list is in form and in range writes every field of the list and answers OK with the whole record; it raises no
attention, and book, catalog, library, play context, glyphs and scorer stay. A new video format while the play context holds a song is
refused BUSY, and an ill-formed list, a field given twice or a value out of range BAD FORM, with nothing changed. R29: line-enable acts at the
command: off, the line enters OFF with its turn abandoned and nothing to send; on in OFF, it enters RUNNING and a round begins. R138: a new video
format loads the watch in PASS, in ticks of 1/48 ms (assumption 2), and returns the run count to 0 in LOST. -/
def Obligations.ConfigureWritesSettings : Prop :=
  ∀ (tag : Byte) (params : List Byte) (s : State), s.part.ready →
    (∀ c, configParams s.part.settings params = some c →
      (c.videoFormat = s.part.settings.videoFormat ∨ s.part.play.state = .idle ∨ s.part.play.state = .gap) →
      ∃ u : Machine.Part, exec (.configure tag params) s = .next (State.answered { s with part := u } tag .ok c.bytes) ∧
        (u.settings = c ∧ u.attn = s.part.attn ∧ u.book = s.part.book ∧ u.catalog = s.part.catalog ∧ u.lib = s.part.lib ∧
          u.play = s.part.play ∧ u.glyphs = s.part.glyphs ∧ u.display = s.part.display ∧ u.scorer = s.part.scorer) ∧
        (c.lineEnable = s.part.settings.lineEnable → u.line = s.part.line) ∧
        (c.lineEnable ≠ s.part.settings.lineEnable →
          (c.lineEnable = false → u.line.state = .off ∧ u.line.round = s.part.line.round ∧ u.slots = s.part.slots) ∧
          (c.lineEnable = false → s.part.line.state = .running →
            u.line.turn = .none ∧ u.line.reply = none ∧ u.line.tx = none ∧ u.line.txNext = none) ∧
          (c.lineEnable = false → s.part.line.state = .broken → u.line = { s.part.line with state := .off }) ∧
          (c.lineEnable = true → s.part.line.state = .off →
            u.line.state = .running ∧ u.line.round = (s.part.line.round + 1) % 8)) ∧
        u.lyric = if c.videoFormat = s.part.settings.videoFormat then s.part.lyric
          else if s.part.lyric.path = .pass then { s.part.lyric with watch := some (watchMs c.videoFormat * 48) }
          else { s.part.lyric with runCount := 0 }) ∧
    (∀ c, configParams s.part.settings params = some c → c.videoFormat ≠ s.part.settings.videoFormat →
      s.part.play.state ≠ .idle → s.part.play.state ≠ .gap →
      exec (.configure tag params) s = .next (s.refused tag .busy)) ∧
    (configParams s.part.settings params = none → exec (.configure tag params) s = .next (s.refused tag .badForm)) ∧
    (∀ quota : Nat, 1 ≤ quota → quota ≤ 8 →
      configParams s.part.settings [2#8, BitVec.ofNat 8 quota] = some { s.part.settings with quota := quota }) ∧
    (∀ field : Byte, (field.toNat = 0 ∨ 13 < field.toNat) → configParams s.part.settings (field :: params) = none) ∧
    configParams s.part.settings [2#8, 9#8] = none ∧ configParams s.part.settings [2#8, 3#8, 2#8, 3#8] = none

/-- R187, R25, R47, R56, R135, R154, R172, R183: CLEAR ROOM empties the book and keeps its counter, frees every slot, empties every store, makes
the play context and every seat IDLE with no result, takes both cards down, empties both rows, and clears PLAY, SCORE, BOOK and HANDSET; the other
sources, the mask, the settings, the glyphs, the install record and the line's state and counts stay, and the answer is OK with no data. With no poll turn
in progress the whole line stays. R32, R36, R33: a poll turn is abandoned: a frame being received will be a stray frame, and with no slot left to serve
the claim window of the same round opens, or with claims closed an idle interval of one reply window runs, in ticks of 1/48 ms (assumption 2). -/
def Obligations.ClearRoomEndsSession : Prop :=
  ∀ (tag : Byte) (s : State), s.part.ready → s.part.cueWf →
    ∃ u : Machine.Part, exec (.clearRoom tag []) s = .next (State.answered { s with part := u } tag .ok []) ∧
      (u.book.entries = [] ∧ u.book.hold = false ∧ u.book.counter = s.part.book.counter) ∧
      (u.slots = List.replicate 16 Slot.reset ∧ ∀ slot, 1 ≤ slot → slot ≤ 16 → u.store slot = Store.empty) ∧
      (u.play.state = .idle ∧ u.play.entry = none ∧ u.play.hold = none ∧ u.play.gap = none ∧ u.reader.state = .idle) ∧
      (u.lyric.row0.state = .empty ∧ u.lyric.row1.state = .empty ∧ u.lyric.title.shown = false ∧
        u.lyric.card.shown = false) ∧
      (u.scorer.result = none ∧ ∀ x ∈ u.scorer.seats, x.state = .idle) ∧
      (u.attn.pending = { s.part.attn.pending with play := false, score := false, book := false, handset := false } ∧
        u.attn.unmasked = s.part.attn.unmasked) ∧
      (u.settings = s.part.settings ∧ u.display = s.part.display ∧ u.glyphs = s.part.glyphs ∧
        u.install = s.part.install ∧ u.lib.state = s.part.lib.state ∧ u.line.state = s.part.line.state ∧
        u.line.strays = s.part.line.strays ∧ u.line.lates = s.part.line.lates ∧ u.line.badClaims = s.part.line.badClaims ∧
        u.line.breaks = s.part.line.breaks) ∧
      ((∀ slot carried, s.part.line.turn ≠ .poll slot carried) → u.line = s.part.line) ∧
      (s.part.settings.openClaims = true → u.line.round = s.part.line.round) ∧
      ∀ slot carried, s.part.line.turn = .poll slot carried →
        u.line.turn = (if s.part.settings.openClaims then .claimWindow else .idleInterval) ∧
        u.line.reply = (if s.part.settings.openClaims then none else some (s.part.settings.replyWindow * 48)) ∧
        u.line.rx = s.part.line.rx ∧ u.line.rxClass = .stray

/-! ## Chapter 1: the Request Book -/

/-- R4: the ticket an accepted add issues is carried by no live entry and lies from 1 to 65535, and the counter then holds the value after
it, from 65535 to 1. -/
def Obligations.IssuedTicketIsFresh : Prop :=
  (∀ b : Book, b.wf → b.entries.length < 64 →
    (∀ e ∈ b.entries, e.ticket ≠ issueTicket b) ∧ ticketInRange (issueTicket b) = true ∧
    ((∀ e ∈ b.entries, e.ticket ≠ b.counter) → issueTicket b = b.counter) ∧
    nextTicket 65535 = 1 ∧ ∀ v, v ≠ 65535 → nextTicket v = v + 1) ∧
  ∀ (p : Part) (a : AddInput), p.addCheck a = none →
    (p.add a).1.book.counter = nextTicket (issueTicket p.book) ∧
      ∃ position, (p.add a).2 = .inr (issueTicket p.book, position)

/-- R5, R7, R8: the base round is the round of the CUED or PLAYING entry, else that of the first WAITING entry, else 0. In ARRIVAL a new entry takes the last
live entry's round and stands last; with FRONT, in both modes, it takes the base round and stands before every WAITING entry. -/
def Obligations.BaseRoundAndSimplePlaces : Prop :=
  (baseRound [] = 0 ∧
   ∀ (e : Entry) (rest : List Entry), (∀ x ∈ rest, x.state = .waiting) → baseRound (e :: rest) = e.round) ∧
  ((∀ (entries : List Entry) (e : Entry) (o : Origin),
     placement .arrival (entries ++ [e]) o false = (e.round, (waitingEntries (entries ++ [e])).length)) ∧
   (∀ o : Origin, placement .arrival [] o false = (0, 0)) ∧
   (∀ (mode : OrderMode) (entries : List Entry) (o : Origin), placement mode entries o true = (baseRound entries, 0))) ∧
  ∀ (entries : List Entry) (e : Entry), (∀ x ∈ entries.drop 1, x.state = .waiting) →
    insertWaiting entries (waitingEntries entries).length e = entries ++ [e] ∧
    insertWaiting entries 0 e = entries.filter (fun x => x.state != .waiting) ++ e :: waitingEntries entries

/-- R6: in ROTATION a new entry takes the larger of the base round and last(o) + 1, at most 65535, or the base round when its origin has no live
entry, and stands directly after the last WAITING entry whose round is at most its own, or first when there is none. -/
def Obligations.RotationPlacesByRound : Prop :=
  (∀ (entries : List Entry) (o : Origin), (∀ e ∈ entries, e.origin ≠ o) →
    rotationRound entries o = min 65535 (baseRound entries)) ∧
  (∀ (entries : List Entry) (o : Origin) (last : Nat), (∃ e ∈ entries, e.origin = o ∧ e.round = last) →
    (∀ e ∈ entries, e.origin = o → e.round ≤ last) →
    rotationRound entries o = min 65535 (max (baseRound entries) (last + 1))) ∧
  (∀ (entries : List Entry) (r : Nat),
    (∀ e ∈ (waitingEntries entries).drop (rotationPlace entries r), r < e.round) ∧
    (rotationPlace entries r = 0 ∨
      ∃ e, (waitingEntries entries)[rotationPlace entries r - 1]? = some e ∧ e.round ≤ r)) ∧
  ∀ (entries : List Entry) (o : Origin),
    placement .rotation entries o false = (rotationRound entries o, rotationPlace entries (rotationRound entries o))

/-- R21, R53: a change of the book order sets the POSITION flag of exactly the slots with a moved entry, and touches nothing else of any store.
An entry of the slot has moved when it is WAITING before and after the change and its place among the WAITING entries is another. -/
def Obligations.PositionFlagsFollowMoves : Prop :=
  (∀ (p : Part) (entries : List Entry) (slot : Nat), p.shaped → 1 ≤ slot → slot ≤ 16 →
    (p.withEntries entries).store slot =
      { p.store slot with position := if slotMoved p.book.entries entries slot then .set else (p.store slot).position }) ∧
  ∀ (before after : List Entry) (slot : Nat),
    slotMoved before after slot = true ↔
      ∃ (e y : Entry) (i j : Nat), (waitingEntries after)[i]? = some e ∧ e.origin = .slot slot ∧
        (waitingEntries before)[j]? = some y ∧ y.ticket = e.ticket ∧ i ≠ j

/-- R13, R10, Table 1-1: an ADD REQUEST that passes the checks adds a WAITING entry of origin DESK with the ticket issued, in its place,
raises the song's pin count, raises no attention, and answers OK with the ticket and the position it holds, a U8 (assumption 23); the
promotion it makes possible follows. -/
def Obligations.AddRequestAddsEntry : Prop :=
  ∀ (tag : Byte) (params : List Byte) (a : AddParams) (s : State), s.part.ready → s.part.book.wf →
    addParams params = some a →
    ∀ input : AddInput, input = ⟨.desk, a.song, a.singers, a.key, a.tempo, a.front⟩ → s.part.addCheck input = none →
      ∀ place : Nat × Nat, place = placement s.part.settings.orderMode s.part.book.entries .desk a.front →
        ∃ u : Machine.Part, exec (.addRequest tag params) s =
            .next (s.okThenPromote tag u (u16 (issueTicket s.part.book) ++ u8 (place.2 + 1))) ∧
          u.book.entries = insertWaiting s.part.book.entries place.2
            { ticket := issueTicket s.part.book, song := a.song, origin := .desk, round := place.1, singers := a.singers,
              seats := List.replicate a.singers none, key := a.key, tempo := a.tempo, state := .waiting } ∧
          u.book.counter = nextTicket (issueTicket s.part.book) ∧
          (∀ c, s.part.catEntry a.song = some c → u.catEntry a.song = some { c with pins := c.pins + 1 }) ∧
          (∀ song, song ≠ a.song → u.catEntry song = s.part.catEntry song) ∧
          u.attn = s.part.attn ∧ u.slots = s.part.slots ∧ u.play = s.part.play ∧ u.lib = s.part.lib ∧
          u.settings = s.part.settings ∧ u.line = s.part.line ∧ u.scorer = s.part.scorer ∧ u.lyric = s.part.lyric

/-- R10, Table 1-3: the checks of an add in their order: the first that fails refuses it with its cause, and nothing else changes. QUOTA and
DUPLICATE concern a handset origin alone. -/
def Obligations.AddChecksInOrder : Prop :=
  ∀ (p : Part) (a : AddInput),
    (¬(1 ≤ a.song ∧ a.song ≤ 999999 ∧ 1 ≤ a.singers ∧ a.singers ≤ 4 ∧ -7 ≤ a.key ∧ a.key ≤ 7 ∧ -5 ≤ a.tempo ∧ a.tempo ≤ 5) →
      p.add a = (p, .inl .badForm)) ∧
    (1 ≤ a.song ∧ a.song ≤ 999999 ∧ 1 ≤ a.singers ∧ a.singers ≤ 4 ∧ -7 ≤ a.key ∧ a.key ≤ 7 ∧ -5 ≤ a.tempo ∧ a.tempo ≤ 5 →
      (p.lib.state ≠ .mounted → p.add a = (p, .inl .notMounted)) ∧
      (p.lib.state = .mounted → p.catEntry a.song = none → p.add a = (p, .inl .noSuchSong)) ∧
      (∀ c, p.lib.state = .mounted → p.catEntry a.song = some c → c.state ≠ .ready → p.add a = (p, .inl .notReady)) ∧
      (∀ c, p.lib.state = .mounted → p.catEntry a.song = some c → c.state = .ready →
        (64 ≤ p.book.entries.length → p.add a = (p, .inl .bookFull)) ∧
        (p.book.entries.length < 64 → a.origin = .desk → p.addCheck a = none) ∧
        (∀ n, p.book.entries.length < 64 → a.origin = .slot n →
          (p.settings.quota ≤ (p.slot n).live → p.add a = (p, .inl .quota)) ∧
          ((p.slot n).live < p.settings.quota → (∃ e ∈ p.book.entries, e.origin = .slot n ∧ e.song = a.song) →
            p.add a = (p, .inl .duplicate)) ∧
          ((p.slot n).live < p.settings.quota → (¬∃ e ∈ p.book.entries, e.origin = .slot n ∧ e.song = a.song) →
            p.addCheck a = none))))

/-- R14, R17, R121, R131: CANCEL REQUEST strikes a WAITING or CUED entry CANCELLED, ends the song of a PLAYING entry SKIPPED, answers OK, and
refuses a ticket that is not live NO SUCH TICKET with nothing changed. The strike raises no BOOK attention; the strike of the CUED entry and the end
of the song raise PLAY, and the retirement raises BOOK. -/
def Obligations.CancelRequestByState : Prop :=
  ∀ (tag b0 b1 : Byte) (s : State), s.part.ready → s.part.cueWf →
    (s.part.entry (ofU16 b0 b1) = none → exec (.cancelRequest tag [b0, b1]) s = .next (s.refused tag .noSuchTicket)) ∧
    (∀ e, s.part.entry (ofU16 b0 b1) = some e →
      ∃ u : Machine.Part, exec (.cancelRequest tag [b0, b1]) s = .next (s.okThenPromote tag u []) ∧
        u.book.entries = withoutTicket s.part.book.entries e.ticket ∧
        (e.state = .waiting → u.play = s.part.play ∧ u.attn = s.part.attn) ∧
        (e.state = .waiting ∨ e.state = .cued →
          u.book.lastStrike = some { ticket := e.ticket, song := e.song, origin := e.origin, reason := .cancelled } ∧
          u.book.strikeCount = satInc 255 s.part.book.strikeCount) ∧
        (e.state = .cued → u.play.state = (if s.part.settings.gapTime = 0 then .idle else .gap) ∧ u.play.entry = none ∧
          u.attn.pending = { s.part.attn.pending with play := true }) ∧
        (e.state = .playing → u.play.state = (if s.part.settings.gapTime = 0 then .idle else .gap) ∧ u.play.entry = none ∧
          u.book.lastStrike = s.part.book.lastStrike ∧ u.book.strikeCount = s.part.book.strikeCount ∧
          (u.scorer.result.map fun r => (r.ticket, r.kind)) = some (e.ticket, .skipped) ∧
          u.attn.pending = { s.part.attn.pending with play := true, score := true, book := true }))

/-- R15: EDIT REQUEST checks its form and ranges, the ticket and the state, in that order; accepted, it writes every present field of the entry and
nothing of any other, keeps the lower seats with their claims, and raises no attention. A key is written in the play context too when it holds the
entry (R111). -/
def Obligations.EditRequestWritesFields : Prop :=
  ∀ (tag : Byte) (params : List Byte) (a : EditParams) (s : State), s.part.ready → editParams params = some a →
    (editInRange a = false → exec (.editRequest tag params) s = .next (s.refused tag .badForm)) ∧
    (editInRange a = true → s.part.entry a.ticket = none →
      exec (.editRequest tag params) s = .next (s.refused tag .noSuchTicket)) ∧
    (∀ e, editInRange a = true → s.part.entry a.ticket = some e →
      ((a.tempo.isSome = true ∨ a.singers.isSome = true) → e.state ≠ .waiting →
        exec (.editRequest tag params) s = .next (s.refused tag .tooLate)) ∧
      ((a.tempo = none ∧ a.singers = none) ∨ e.state = .waiting →
        exec (.editRequest tag params) s = .next (State.answered { s with part := { s.part with
          book := { s.part.book with entries := s.part.book.entries.map fun x =>
            if x.ticket = a.ticket then
              { x with key := a.key.getD x.key, tempo := a.tempo.getD x.tempo, singers := a.singers.getD x.singers,
                       seats := match a.singers with
                         | none => x.seats
                         | some n => x.seats.take n ++ List.replicate (n - x.seats.length) none }
            else x }
          play := if s.part.play.entry = some a.ticket then { s.part.play with key := a.key.getD s.part.play.key }
            else s.part.play } } tag .ok []))) ∧
    (editInRange a = true ↔
      (a.key.isSome = true ∨ a.tempo.isSome = true ∨ a.singers.isSome = true) ∧
        (∀ k, a.key = some k → -7 ≤ k ∧ k ≤ 7) ∧ (∀ t, a.tempo = some t → -5 ≤ t ∧ t ≤ 5) ∧
        ∀ n, a.singers = some n → 1 ≤ n ∧ n ≤ 4)

/-- R16: PLACE REQUEST checks the target's range, the ticket, the state and the number of WAITING entries, in that order. Accepted, the entry stands
at the target with a neighbour's round, the order of the others is kept, and the answer is OK with the position; at its present position nothing
changes, and that the answer carries the position there too is the model's choice (assumption 23). -/
def Obligations.PlaceRequestMovesEntry : Prop :=
  ∀ (tag b0 b1 target : Byte) (s : State), s.part.ready → s.part.cueWf →
    (target.toNat < 1 ∨ 64 < target.toNat →
      exec (.placeRequest tag [b0, b1, target]) s = .next (s.refused tag .badForm)) ∧
    (1 ≤ target.toNat → target.toNat ≤ 64 →
      (s.part.entry (ofU16 b0 b1) = none →
        exec (.placeRequest tag [b0, b1, target]) s = .next (s.refused tag .noSuchTicket)) ∧
      (∀ e, s.part.entry (ofU16 b0 b1) = some e →
        (e.state ≠ .waiting → exec (.placeRequest tag [b0, b1, target]) s = .next (s.refused tag .tooLate)) ∧
        (e.state = .waiting → (waitingEntries s.part.book.entries).length < target.toNat →
          exec (.placeRequest tag [b0, b1, target]) s = .next (s.refused tag .badForm)) ∧
        (e.state = .waiting → positionOf s.part.book.entries e.ticket = some target.toNat →
          exec (.placeRequest tag [b0, b1, target]) s = .next (s.answered tag .ok (u8 target.toNat))) ∧
        (e.state = .waiting → target.toNat ≤ (waitingEntries s.part.book.entries).length →
          ∃ u : Machine.Part, exec (.placeRequest tag [b0, b1, target]) s =
              .next (State.answered { s with part := u } tag .ok (u8 target.toNat)) ∧
            positionOf u.book.entries e.ticket = some target.toNat ∧
            withoutTicket u.book.entries e.ticket = withoutTicket s.part.book.entries e.ticket ∧
            u.attn = s.part.attn ∧ u.play = s.part.play ∧
            (positionOf s.part.book.entries e.ticket ≠ some target.toNat →
              ∀ x y, (waitingEntries u.book.entries)[target.toNat - 1]? = some x →
                (waitingEntries u.book.entries)[if target.toNat = 1 then 1 else target.toNat - 2]? = some y →
                x.round = y.round))))

/-- R22, R23, R24: READ BOOK answers OK with the book as it stands, returns the strike count to 0, clears BOOK attention and changes nothing else, the
last-strike record included. HOLD BOOK on sets the flag and changes nothing else; off clears it, and the promotion that is then due is made; another value
is refused BAD FORM with nothing changed. The layout of the READ BOOK answer is assumption 23. -/
def Obligations.ReadAndHoldBook : Prop :=
  (∀ (tag : Byte) (s : State), s.part.ready →
     exec (.readBook tag []) s = .next (State.answered { s with part := { s.part with
       book := { s.part.book with strikeCount := 0 }
       attn := { s.part.attn with pending := { s.part.attn.pending with book := false } } } } tag .ok s.part.bookBytes)) ∧
  (∀ (tag : Byte) (s : State), s.part.ready →
     exec (.holdBook tag [1#8]) s =
       .next (State.answered { s with part := { s.part with book := { s.part.book with hold := true } } } tag .ok []) ∧
     exec (.holdBook tag [0#8]) s =
       .next (s.okThenPromote tag { s.part with book := { s.part.book with hold := false } } []) ∧
     ∀ b : Byte, b ≠ 0#8 → b ≠ 1#8 → exec (.holdBook tag [b]) s = .next (s.refused tag .badForm))

/-! ## Chapter 2: the handset line -/

/-- R42, R43, R46, R37: LINE STATUS answers OK with the line as it stands, returns the four line counts to 0 and clears LINE; HANDSET TABLE answers OK with the 16
records as they stand, clears HANDSET, and with CLEAR COUNTS returns the four error counts of every slot to 0; nothing else changes. OPEN CLAIMS writes
open-claims and answers OK: off during a claim window closes it with no GRANT and starts the next round, otherwise nothing but the setting changes. R37: REPLY is
stopped, and runs again only for an idle interval of the new round (in ticks of 1/48 ms, assumption 2), a frame being received will be a stray frame, and what
falls due to be sent is a POLL of the new round alone, behind a frame that is going out (assumption 7). The layout of the turn in the LINE STATUS answer is assumption 23. -/
def Obligations.LineReportsAndClaims : Prop :=
  (∀ (tag : Byte) (s : State), s.part.ready →
     exec (.lineStatus tag []) s = .next (State.answered { s with part := { s.part with
       line := { s.part.line with strays := 0, lates := 0, badClaims := 0, breaks := 0 }
       attn := { s.part.attn with pending := { s.part.attn.pending with line := false } } } } tag .ok s.part.lineBytes) ∧
     exec (.handsetTable tag []) s = .next (State.answered { s with part := { s.part with
       attn := { s.part.attn with pending := { s.part.attn.pending with handset := false } } } } tag .ok
         s.part.tableBytes) ∧
     exec (.handsetTable tag [1#8]) s = .next (State.answered { s with part := { s.part with
       slots := s.part.slots.map fun (x : Slot) => { x with parity := 0, framing := 0, check := 0, overlaps := 0 }
       attn := { s.part.attn with pending := { s.part.attn.pending with handset := false } } } } tag .ok
         s.part.tableBytes) ∧
     ∀ b : Byte, b ≠ 1#8 → exec (.handsetTable tag [b]) s = .next (s.refused tag .badForm)) ∧
  (∀ (tag : Byte) (s : State), s.part.ready →
     exec (.openClaims tag [1#8]) s = .next (State.answered { s with part := { s.part with
       settings := { s.part.settings with openClaims := true } } } tag .ok []) ∧
     (s.part.line.turn ≠ .claimWindow → exec (.openClaims tag [0#8]) s = .next (State.answered { s with part := { s.part with
       settings := { s.part.settings with openClaims := false } } } tag .ok [])) ∧
     (s.part.line.turn = .claimWindow →
       ∃ u : Machine.Part, exec (.openClaims tag [0#8]) s = .next (State.answered { s with part := u } tag .ok []) ∧
         u.settings = { s.part.settings with openClaims := false } ∧ u.line.turn ≠ .claimWindow ∧
         u.line.round = (s.part.line.round + 1) % 8 ∧ u.slots = s.part.slots ∧ u.attn = s.part.attn ∧
          u.line.rx = s.part.line.rx ∧ u.line.rxClass = .stray ∧
          u.line.reply = (if u.line.turn = .idleInterval then some (s.part.settings.replyWindow * 48) else none) ∧
          (∀ f, u.line.txNext = some f → f.kind = .poll) ∧
          (s.part.sending = true → u.line.tx = s.part.line.tx) ∧
          (s.part.sending = false → ∀ f, u.line.tx = some f → f.kind = .poll)) ∧
     ∀ b : Byte, b ≠ 0#8 → b ≠ 1#8 → exec (.openClaims tag [b]) s = .next (s.refused tag .badForm))

/-- R44, R45, R41, R19, R36: BAR HANDSET and RELEASE HANDSET of a slot by its state. Where the slot departs, its WAITING entries are struck, its claims and
its origin on the entry in play are dropped, its live entries and misses become 0, its store is emptied, and HANDSET is raised; a barred slot
keeps its serial and counts, a released one loses them. The turn of a slot being served is abandoned and the next slot is chosen (Part.turnLeaves).
A slot outside 1 to 16 is refused BAD FORM. -/
def Obligations.BarAndReleaseHandset : Prop :=
  ∀ (tag b : Byte) (s : State), s.part.ready → s.part.shaped → s.part.cueWf →
    (b.toNat < 1 ∨ 16 < b.toNat →
      exec (.barHandset tag [b]) s = .next (s.refused tag .badForm) ∧
      exec (.releaseHandset tag [b]) s = .next (s.refused tag .badForm)) ∧
    (1 ≤ b.toNat → b.toNat ≤ 16 →
      ((s.part.slot b.toNat).state = .free → exec (.barHandset tag [b]) s = .next (s.refused tag .badForm) ∧
        exec (.releaseHandset tag [b]) s = .next (s.answered tag .ok [])) ∧
      ((s.part.slot b.toNat).state = .barred → exec (.barHandset tag [b]) s = .next (s.answered tag .ok [])) ∧
      ((s.part.slot b.toNat).state = .active ∨ (s.part.slot b.toNat).state = .silent →
        ∃ u : Machine.Part, exec (.barHandset tag [b]) s = .next (State.answered { s with part := u } tag .ok []) ∧
          u.slot b.toNat = { s.part.slot b.toNat with state := .barred, misses := 0, live := 0 } ∧
          u.store b.toNat = Store.empty ∧ u.attn.pending.handset = true ∧
          u.book.entries = (s.part.book.entries.filter fun e =>
            !(e.state == .waiting && e.origin == .slot b.toNat)).map (leaveEntry b.toNat) ∧
          s.part.turnLeaves u b.toNat) ∧
      ((s.part.slot b.toNat).state ≠ .free →
        ∃ u : Machine.Part, exec (.releaseHandset tag [b]) s = .next (State.answered { s with part := u } tag .ok []) ∧
          u.slot b.toNat = Slot.reset ∧ u.store b.toNat = Store.empty ∧ u.attn.pending.handset = true ∧
          u.book.entries = (s.part.book.entries.filter fun e =>
            !(e.state == .waiting && e.origin == .slot b.toNat)).map (leaveEntry b.toNat) ∧
          s.part.turnLeaves u b.toNat))

/-- R33, R34, R37: a new round advances the round number, takes the divisor written, and serves the lowest-numbered slot that is ACTIVE, or SILENT in round 0:
a POLL to it falls due that carries the item the slot's store offers. With no slot to serve, the claim window opens with its OPEN to address 31, or with
claims closed an idle interval of one reply window runs, in ticks of 1/48 ms (assumption 2). R54, R51, R190: the store offers the held reply, else the oldest STRUCK
item, else the cued notice of the entry in play, else the score notice, else, with the flag SET, the POSITION item, else none. A cued notice that names
another entry is removed when the choice comes to it, the POSITION flag becomes SENT when its item is offered, and nothing else of the store changes. When a due POLL is sent
(assumption 7) and the upper bits of the SONG INFO flags byte (assumption 50) are the model's choices. -/
def Obligations.RoundStartsAtLowestSlot : Prop :=
  (∀ p : Part, p.startRound.line.round = (p.line.round + 1) % 8 ∧ p.startRound.line.divisorNow = p.settings.divisor ∧
    (∀ slot, 1 ≤ slot → slot ≤ 16 →
      ((p.slot slot).state = .active ∨ ((p.slot slot).state = .silent ∧ (p.line.round + 1) % 8 = 0)) →
      (∀ n, 1 ≤ n → n < slot →
        (p.slot n).state ≠ .active ∧ ((p.slot n).state = .silent → (p.line.round + 1) % 8 ≠ 0)) →
      p.startRound.line.turn = .poll slot (p.offer slot).2.1 ∧ p.startRound.line.lastServed = slot ∧
        p.startRound.stores = (p.offer slot).1.stores ∧
        p.sends p.startRound { kind := .poll, address := slot, body := (p.offer slot).2.2 }) ∧
    ((∀ n, 1 ≤ n → n ≤ 16 →
        (p.slot n).state ≠ .active ∧ ((p.slot n).state = .silent → (p.line.round + 1) % 8 ≠ 0)) →
      p.startRound.line.turn = (if p.settings.openClaims then .claimWindow else .idleInterval) ∧
      p.startRound.line.reply = (if p.settings.openClaims then none else some (p.settings.replyWindow * 48)) ∧
      (p.settings.openClaims = true → p.sends p.startRound { kind := .openWindow, address := 31, body := [] }) ∧
      (p.settings.openClaims = false →
        p.startRound.line.tx = p.line.tx ∧ p.startRound.line.txNext = p.line.txNext))) ∧
  ∀ (p : Part) (slot : Nat) (st : Store) (current : Option Nat), p.shaped → 1 ≤ slot → slot ≤ 16 → st = p.store slot →
    current = (heldEntry p.book.entries).map Entry.ticket →
    (∀ r, st.reply = .held r → p.offer slot = (p, some .reply, u8 1 ++ replyBytes r)) ∧
    ((∀ r, st.reply ≠ .held r) →
      (∀ x rest, st.struck = x :: rest → p.offer slot = (p, some (.struck true), u8 2 ++ u16 x.ticket ++ u8 x.reason.code)) ∧
      (st.struck = [] →
        (∀ ticket, st.cued = some ticket → current = some ticket → p.offer slot = (p, some (.cued ticket), u8 3 ++ u16 ticket)) ∧
        ((∀ ticket, st.cued = some ticket → current ≠ some ticket) →
          ∃ q : Machine.Part, (p.offer slot).1 = { p with stores := q.stores } ∧
            (∀ n, 1 ≤ n → n ≤ 16 → n ≠ slot → q.store n = p.store n) ∧
            (∀ x, st.score = some x →
              (p.offer slot).2 = (some (.score x), u8 4 ++ u16 x.ticket ++ u8 x.seat ++ u16 x.score) ∧
              q.store slot = { st with cued := none }) ∧
            (st.score = none → st.position = .set →
              (p.offer slot).2 =
                (some .position, u8 5 ++ counted ((ticketLines p.book.entries slot).map ticketLineBytes)) ∧
              q.store slot = { st with cued := none, position := .sent }) ∧
            (st.score = none → st.position ≠ .set →
              (p.offer slot).2 = (none, []) ∧ q.store slot = { st with cued := none }))))

/-- R34, R37, R33: when the POLL of the turn has left, REPLY is loaded with the reply window, and no answer is late any more; when the OPEN of
the window has left, with four reply windows; when the GRANT has left, the next round starts. Time is in ticks of 1/48 ms (assumption 2). When a frame
of the part goes out, and what is late, are the model's choices where the data book is silent (assumptions 6 and 7). -/
def Obligations.SentFramesLoadReply : Prop :=
  ∀ (f : TxFrame) (s : State), s.part.line.state = .running → s.part.line.rx = [] → s.part.line.tx = some f →
    s.part.line.txNext = none →
    (∀ carried, f.kind = .poll → s.part.line.turn = .poll f.address carried →
      exec .pollSent s = .next { s with part := { s.part with line := { s.part.line with
        tx := none, afterMiss := false, reply := some (s.part.settings.replyWindow * 48) } } }) ∧
    (f.kind = .openWindow → s.part.line.turn = .claimWindow →
      exec .openSent s = .next { s with part := { s.part with line := { s.part.line with
        tx := none, reply := some (4 * s.part.settings.replyWindow * 48) } } }) ∧
    (f.kind = .grant → s.part.line.turn = .none →
      exec .grantSent s =
        .next { s with part := Part.startRound { s.part with line := { s.part.line with tx := none } } })

/-- R34, R27, R32: in a poll turn the first character of a frame stops REPLY and begins the frame; a framing error, or else a parity error, is
counted against the slot, up to 255. While a frame of the part goes out, or outside RUNNING, a first character changes nothing (assumptions 7
and 8). -/
def Obligations.CharacterStopsReply : Prop :=
  ∀ (c : RxChar) (s : State),
    (∀ slot carried, s.part.inTurn slot carried → s.part.shaped → 1 ≤ slot → slot ≤ 16 →
      ∃ u : Machine.Part, exec (.receivedCharacter c) s = .next { s with part := u } ∧
        u.line = { s.part.line with reply := none, rxClass := .byTurn, rx := [c] } ∧
        u.slot slot = (if c.stop = false then
            { s.part.slot slot with framing := satInc 255 (s.part.slot slot).framing }
          else if c.parity = parityOf c.data then s.part.slot slot
          else { s.part.slot slot with parity := satInc 255 (s.part.slot slot).parity }) ∧
        (∀ n, 1 ≤ n → n ≤ 16 → n ≠ slot → u.slot n = s.part.slot n) ∧ u.stores = s.part.stores ∧ u.book = s.part.book ∧
        u.attn = s.part.attn) ∧
    (s.part.line.rx = [] → s.part.line.state ≠ .running ∨ s.part.line.tx.isSome = true →
      exec (.receivedCharacter c) s = .next s)

/-- R34, R35, R37, R33: REPLY expiry in a poll turn is a miss: misses rise by one, up to 15, an ACTIVE slot at the miss limit becomes SILENT and raises
HANDSET, the POSITION flag returns from SENT to SET, and the turn ends. In a claim window with no frame being received, and in an idle interval, the next
round starts; with a frame being received the window stays open. A frame that ends in a poll turn and is no valid ANSWER of the slot is a miss; with no
character spoiled it is a check error too, up to 255. REPLY expires on its last tick of 1/48 ms, and with more time remaining or while it is stopped the
row changes nothing: the model's choices (assumptions 2 and 3). The next POLL is formed before a
promotion that is due at the event: the model's choice (assumption 47). -/
def Obligations.MissesAreCounted : Prop :=
  (∀ s : State, s.part.line.state = .running → lastTick s.part.line.reply = true →
     (∀ slot carried, s.part.line.turn = .poll slot carried → s.part.shaped → 1 ≤ slot → slot ≤ 16 →
       ∃ u : Machine.Part, exec .replyExpiry s = .next { s with part := u.nextTurn } ∧
         u.slot slot = (if (s.part.slot slot).state = .active ∧
             s.part.settings.missLimit ≤ satInc 15 (s.part.slot slot).misses then
           { s.part.slot slot with misses := satInc 15 (s.part.slot slot).misses, state := .silent }
           else { s.part.slot slot with misses := satInc 15 (s.part.slot slot).misses }) ∧
         ((s.part.slot slot).state = .active → s.part.settings.missLimit ≤ satInc 15 (s.part.slot slot).misses →
           u.attn.pending = { s.part.attn.pending with handset := true }) ∧
         u.store slot = { s.part.store slot with
           position := if (s.part.store slot).position = .sent then .set else (s.part.store slot).position } ∧
         u.line.reply = none ∧ u.line.afterMiss = true ∧ u.book = s.part.book) ∧
     (s.part.line.turn = .claimWindow → s.part.line.rx = [] →
       exec .replyExpiry s = .next { s with part := s.part.startRound }) ∧
     (s.part.line.turn = .claimWindow → s.part.line.rx ≠ [] →
       exec .replyExpiry s = .next { s with part := { s.part with line := { s.part.line with reply := none } } }) ∧
     (s.part.line.turn = .idleInterval → exec .replyExpiry s = .next { s with part := s.part.startRound })) ∧
  (∀ s : State, lastTick s.part.line.reply = false → exec .replyExpiry s = .next s) ∧
  (∀ (chars : List RxChar) (slot : Nat) (carried : Option Carried) (s : State), s.part.inTurn slot carried → s.part.shaped →
     1 ≤ slot → slot ≤ 16 → 1 ≤ chars.length → chars.length ≤ 47 →
     (∀ f, parseFrame chars = some f → ¬(f.address = slot ∧ f.kind = 0x11)) →
     ∃ u : Machine.Part, exec (.invalidAnswer chars) s = .next { s with part := (u.miss slot).turnOver } ∧
       (u.slot slot).misses = (s.part.slot slot).misses ∧ (u.slot slot).state = (s.part.slot slot).state ∧
       u.stores = s.part.stores ∧ u.book = s.part.book ∧ u.attn = s.part.attn ∧ u.settings = s.part.settings ∧
       (u.slot slot).check =
         (if chars.any spoiled then (s.part.slot slot).check else satInc 255 (s.part.slot slot).check))

/-- R35, R55, R57: a valid ANSWER with no message makes the slot's misses 0, makes a SILENT slot ACTIVE with HANDSET raised, removes the item its POLL
carried when it is still present unchanged, and ends the turn. A message that finds a reply waiting is discarded and counted as an overlap; one of a wrong length
for its kind, or with a field out of range, is refused BAD FORM, and so, by the model's choice (assumption 32), is one of an unknown kind. R32: a frame
that began before the turn and ends in it is judged by it; that it then ends the turn though the turn's own POLL has not gone out is the
model's choice (assumption 6). The next POLL is formed before a
promotion that is due at the event: the model's choice (assumption 47). -/
def Obligations.AnswerIsTaken : Prop :=
  (∀ (address : Byte) (slot : Nat) (carried : Option Carried) (s : State), s.part.inTurn slot carried → s.part.shaped →
    1 ≤ slot → slot ≤ 16 → address.toNat = slot →
    exec (.answer address []) s = .next { s with part := (s.part.heard slot carried).turnOver } ∧
    ((s.part.heard slot carried).slot slot = { s.part.slot slot with
        misses := 0, state := if (s.part.slot slot).state = .silent then .active else (s.part.slot slot).state } ∧
      (s.part.heard slot carried).store slot =
        (match carried with | none => s.part.store slot | some c => removeCarried c (s.part.store slot)) ∧
      (s.part.heard slot carried).attn.pending.handset =
        (s.part.attn.pending.handset || (s.part.slot slot).state == .silent) ∧
      (s.part.heard slot carried).book = s.part.book) ∧
    (∀ (kind : Byte) (fields : List Byte), fields.length ≤ 39 →
      (((s.part.heard slot carried).store slot).reply ≠ .empty →
        exec (.answer address (kind :: fields)) s = .next { s with part := Part.turnOver (
          (s.part.heard slot carried).mapSlot slot fun x => { x with overlaps := satInc 255 x.overlaps }) }) ∧
      (((s.part.heard slot carried).store slot).reply = .empty → messageOf kind fields = none →
        exec (.answer address (kind :: fields)) s = .next { s with part := Part.turnOver (
          (s.part.heard slot carried).mapStore slot fun x => { x with reply := .held (.refused kind .badForm) }) }))) ∧
  (∀ (kind : Byte) (fields : List Byte),
    (kind.toNat = 0 ∨ 7 < kind.toNat → messageOf kind fields = none) ∧
    (∀ length, (kind, length) ∈ [(1#8, 5), (2#8, 3), (3#8, 0), (4#8, 2), (5#8, 3), (6#8, 2), (7#8, 0)] →
      fields.length ≠ length → messageOf kind fields = none)) ∧
  ∀ (address : Byte) (slot : Nat) (carried : Option Carried) (s : State), s.part.line.turn = .poll slot carried →
    s.part.line.rx = answerChars address [] → s.part.line.rxClass = .byTurn → address.toNat = slot →
    exec (.answer address []) s = .next { s with part :=
      (Part.hearAnswer { s.part with line := { s.part.line with rx := [] } } slot carried).turnOver }

/-! ## Chapter 3: handset messages -/

/-- R58, R10, R11: an ASK that passes the checks adds a WAITING entry of the slot with tempo 0 and seat 0 claimed by it, raises the slot's live
entries by one, raises BOOK, and holds the reply TAKEN with the ticket and its position; one that fails holds the first failing cause and changes
nothing else. The next POLL is formed before the promotion that is due at the event: the model's choice (assumption 47). -/
def Obligations.AskAddsEntry : Prop :=
  ∀ (address : Byte) (fields : List Byte) (slot song singers : Nat) (key : Int) (carried : Option Carried) (s : State),
    s.part.inTurn slot carried → s.part.shaped → s.part.book.wf → 1 ≤ slot → slot ≤ 16 → address.toNat = slot →
    messageOf 1#8 fields = some (.ask song singers key) → ((s.part.heard slot carried).store slot).reply = .empty →
    (∀ cause, (s.part.heard slot carried).addCheck ⟨.slot slot, song, singers, key, 0, false⟩ = some cause →
      exec (.ask address fields) s = .next { s with part := Part.turnOver (
        (s.part.heard slot carried).mapStore slot fun x => { x with reply := .held (.refused 1#8 cause) }) }) ∧
    ((s.part.heard slot carried).addCheck ⟨.slot slot, song, singers, key, 0, false⟩ = none →
      ∀ place : Nat × Nat, place = placement s.part.settings.orderMode s.part.book.entries (.slot slot) false →
        ∃ u : Machine.Part, exec (.ask address fields) s = .next { s with part := u.turnOver } ∧
          u.book.entries = insertWaiting s.part.book.entries place.2
            { ticket := issueTicket s.part.book, song := song, origin := .slot slot, round := place.1, singers := singers,
              seats := some slot :: List.replicate (singers - 1) none, key := key, tempo := 0, state := .waiting } ∧
          u.book.counter = nextTicket (issueTicket s.part.book) ∧
          (u.store slot).reply = .held (.taken (issueTicket s.part.book) (place.2 + 1)) ∧
          (u.slot slot).live = (s.part.slot slot).live + 1 ∧ (u.slot slot).misses = 0 ∧ u.attn.pending.book = true ∧
          (∀ c, s.part.catEntry song = some c → u.catEntry song = some { c with pins := c.pins + 1 }))

/-- R59, R61: FIND refuses NOT MOUNTED and NO SUCH SONG, answers SONG INFO without tags at once for a song that is not READY, and makes the reply slot
PENDING for one that is and whose die is not FAULTED; MINE holds TICKETS with the slot's own entries and clears the POSITION flag. Neither changes the book.
The next POLL is formed before a promotion that is due at the event: the model's choice (assumption 47). -/
def Obligations.FindAndMineReply : Prop :=
  ∀ (address : Byte) (slot : Nat) (carried : Option Carried) (s : State), s.part.inTurn slot carried → s.part.shaped →
    1 ≤ slot → slot ≤ 16 → address.toNat = slot → ((s.part.heard slot carried).store slot).reply = .empty →
    (∀ (b0 b1 b2 : Byte), songInRange (ofU24 b0 b1 b2) = true →
      (∀ c, s.part.catEntry (ofU24 b0 b1 b2) = some c → c.state = .ready → (s.part.die c.current.die).state ≠ .faulted) →
      ∃ u : Machine.Part, exec (.find address [b0, b1, b2]) s = .next { s with part := u.turnOver } ∧ u.book = s.part.book ∧
        (u.store slot).reply =
          (if s.part.lib.state = .mounted then
            match s.part.catEntry (ofU24 b0 b1 b2) with
            | none => .held (.refused 2#8 .noSuchSong)
            | some e => if e.state = .ready then .waiting else .held (.songInfo
                { song := e.song, edition := e.current.edition, state := e.state, duration := e.current.duration,
                  parts := e.current.parts, weak := e.weak, damaged := e.damaged, title := [], artist := [] })
          else .held (.refused 2#8 .notMounted))) ∧
    exec (.mine address []) s = .next { s with part := Part.turnOver (
      (s.part.heard slot carried).mapStore slot fun x =>
        { x with reply := .held (.tickets (ticketLines s.part.book.entries slot)), position := .clear }) }

/-- R62, R63: DROP and KEY refuse a ticket that is not live NO SUCH TICKET and one of another origin NOT YOURS. Accepted, both raise BOOK; DROP holds
DROPPED and takes the entry out of the book, a WAITING one struck CANCELLED and the CUED one SKIPPED, with a STRUCK item, and ends the song of a PLAYING one
SKIPPED; KEY holds KEYED and writes the key of that entry alone, and of the play context when it holds it. The next POLL is formed before the promotion that is
due at the event: the model's choice (assumption 47). -/
def Obligations.DropAndKeyOwnEntry : Prop :=
  ∀ (address b0 b1 k : Byte) (slot : Nat) (carried : Option Carried) (s : State), s.part.inTurn slot carried → s.part.shaped →
    s.part.cueWf → 1 ≤ slot → slot ≤ 16 → address.toNat = slot → 1 ≤ ofU16 b0 b1 → -7 ≤ k.toInt → k.toInt ≤ 7 →
    ((s.part.heard slot carried).store slot).reply = .empty →
    (∀ cause, (s.part.entry (ofU16 b0 b1) = none ∧ cause = .noSuchTicket) ∨
        (∃ e, s.part.entry (ofU16 b0 b1) = some e ∧ e.origin ≠ .slot slot ∧ cause = .notYours) →
      exec (.drop address [b0, b1]) s = .next { s with part := Part.turnOver (
        (s.part.heard slot carried).mapStore slot fun x => { x with reply := .held (.refused 4#8 cause) }) } ∧
      exec (.key address [b0, b1, k]) s = .next { s with part := Part.turnOver (
        (s.part.heard slot carried).mapStore slot fun x => { x with reply := .held (.refused 5#8 cause) }) }) ∧
    (∀ e, s.part.entry (ofU16 b0 b1) = some e → e.origin = .slot slot →
      (∃ u : Machine.Part, exec (.drop address [b0, b1]) s = .next { s with part := u.turnOver } ∧
        (u.store slot).reply = .held (.dropped (ofU16 b0 b1)) ∧ u.attn.pending.book = true ∧
        u.book.entries = withoutTicket s.part.book.entries (ofU16 b0 b1) ∧
        (e.state ≠ .playing → (s.part.slot slot).state = .active ∨ (s.part.slot slot).state = .silent →
          (u.store slot).struck.getLast? =
            some { ticket := e.ticket, reason := if e.state = .waiting then .cancelled else .skipped }) ∧
        (e.state = .waiting → u.book.lastStrike = some { ticket := e.ticket, song := e.song, origin := e.origin, reason := .cancelled } ∧
          u.play = s.part.play) ∧
        (e.state = .cued → u.book.lastStrike = some { ticket := e.ticket, song := e.song, origin := e.origin, reason := .skipped } ∧
          u.play.entry = none ∧ u.attn.pending.play = true) ∧
        (e.state = .playing → u.play.entry = none ∧ u.attn.pending.play = true ∧
          (u.scorer.result.map fun r => (r.ticket, r.kind)) = some (e.ticket, .skipped))) ∧
      (∃ u : Machine.Part, exec (.key address [b0, b1, k]) s = .next { s with part := u.turnOver } ∧
        (u.store slot).reply = .held (.keyed (ofU16 b0 b1) k.toInt) ∧ u.attn.pending.book = true ∧
        u.book = { s.part.book with entries := s.part.book.entries.map (fun x =>
          if x.ticket = ofU16 b0 b1 then { x with key := k.toInt } else x) } ∧
        u.play = if s.part.play.entry = some (ofU16 b0 b1) then { s.part.play with key := k.toInt } else s.part.play))

/-- R64, R12, R65, R41, R19: JOIN checks the ticket, the state, a claim already held and a free seat, in that order; accepted, the lowest free seat from 1
takes the claim, SEATED is held, BOOK is raised, and on a CUED entry the cued notice is set. LEAVE frees its slot with the departure effects and no
reply. The next POLL is formed before a
promotion that is due at the event: the model's choice (assumption 47). -/
def Obligations.JoinAndLeave : Prop :=
  (∀ (address b0 b1 : Byte) (slot : Nat) (carried : Option Carried) (s : State), s.part.inTurn slot carried → s.part.shaped →
     1 ≤ slot → slot ≤ 16 → address.toNat = slot → 1 ≤ ofU16 b0 b1 →
     ((s.part.heard slot carried).store slot).reply = .empty →
     (∀ cause,
       ((s.part.entry (ofU16 b0 b1) = none ∧ cause = .noSuchTicket) ∨
         ∃ e, s.part.entry (ofU16 b0 b1) = some e ∧
           ((e.state = .playing ∧ cause = .tooLate) ∨
             (e.state ≠ .playing ∧ some slot ∈ e.seats ∧ cause = .duplicate) ∨
             (e.state ≠ .playing ∧ some slot ∉ e.seats ∧ (∀ i, 1 ≤ i → e.seats[i]? ≠ some none) ∧ cause = .seatsFull))) →
       exec (.join address [b0, b1]) s = .next { s with part := Part.turnOver (
         (s.part.heard slot carried).mapStore slot fun x => { x with reply := .held (.refused 6#8 cause) }) }) ∧
     (∀ e i, s.part.entry (ofU16 b0 b1) = some e → e.state ≠ .playing → some slot ∉ e.seats → 1 ≤ i →
       e.seats[i]? = some none → (∀ j, 1 ≤ j → j < i → e.seats[j]? ≠ some none) →
       ∃ u : Machine.Part, exec (.join address [b0, b1]) s = .next { s with part := u.turnOver } ∧
         u.book = { s.part.book with entries := s.part.book.entries.map (fun x =>
           if x.ticket = ofU16 b0 b1 then { x with seats := x.seats.set i (some slot) } else x) } ∧
         (u.store slot).reply = .held (.seated (ofU16 b0 b1) i) ∧ u.attn.pending.book = true ∧
         (u.slot slot).live = (s.part.slot slot).live ∧ (e.state = .cued → (u.store slot).cued = some (ofU16 b0 b1)))) ∧
  (∀ (address : Byte) (slot : Nat) (carried : Option Carried) (s : State), s.part.inTurn slot carried → s.part.shaped →
     s.part.cueWf → 1 ≤ slot → slot ≤ 16 → address.toNat = slot →
     ((s.part.heard slot carried).store slot).reply = .empty →
     ∃ u : Machine.Part, exec (.leave address []) s = .next { s with part := u.turnOver } ∧ u.slot slot = Slot.reset ∧
       u.store slot = Store.empty ∧ u.attn.pending.handset = true ∧
       u.book.entries = (s.part.book.entries.filter fun e => !(e.state == .waiting && e.origin == .slot slot)).map
         (leaveEntry slot))

/-! ## Chapter 2: frames outside a turn, claims, breaks -/

/-- R32, R34: in an idle interval, or before the frame that is due has begun (assumption 7), a frame is discarded: it is counted late, up to
255, after REPLY expiry and before the next POLL is sent, also in an idle interval, which is the model's choice (assumption 6), else stray.
Nothing else of the table, the stores or the book changes. -/
def Obligations.OutsideFrameIsCounted : Prop :=
  ∀ (chars : List RxChar) (s : State), s.part.line.state = .running → s.part.line.rx = [] → 1 ≤ chars.length →
    chars.length ≤ 46 → (∀ c ∈ chars, spoiled c = false) →
    (s.part.line.tx.isSome = true ∨ s.part.line.turn = .idleInterval ∨ s.part.line.turn = .none) →
    s.part.promotionDue = false →
    (s.part.line.afterMiss = true →
      ∃ u : Machine.Part, exec (.lateAnswer chars) s = .next { s with part := u } ∧ u.line.lates = satInc 255 s.part.line.lates ∧
        u.line.strays = s.part.line.strays ∧ u.line.turn = s.part.line.turn ∧ u.line.tx = s.part.line.tx ∧
        u.slots = s.part.slots ∧ u.stores = s.part.stores ∧ u.book = s.part.book ∧ u.attn = s.part.attn) ∧
    (s.part.line.afterMiss = false →
      ∃ u : Machine.Part, exec (.strayFrame chars) s = .next { s with part := u } ∧ u.line.strays = satInc 255 s.part.line.strays ∧
        u.line.lates = s.part.line.lates ∧ u.line.turn = s.part.line.turn ∧ u.line.tx = s.part.line.tx ∧
        u.slots = s.part.slots ∧ u.stores = s.part.stores ∧ u.book = s.part.book ∧ u.attn = s.part.attn)

/-- R38, R39, R37: a valid CLAIM is decided by its serial: a slot that holds it is re-claimed, a BARRED one denied, else the lowest FREE slot is
given, or FULL; the window closes with the GRANT. A frame that is no valid CLAIM is counted, and the window stays open while REPLY runs.
That the GRANT is going out from the moment it falls due is the model's choice (assumption 7), and so is that in a window that follows a miss of the same round,
with no POLL sent since, R38 judges the frame and R34 does not make it a late answer (assumption 6). -/
def Obligations.ClaimIsDecided : Prop :=
  ∀ (s : State), s.part.inWindow → s.part.shaped → s.part.promotionDue = false →
    (∀ serial : List Byte, serial.length = 6 →
      ∃ (u : Machine.Part) (result : Byte), exec (.claim serial) s = .next { s with part := u } ∧ u.line.turn = .none ∧ u.line.reply = none ∧
        u.line.tx = some { kind := .grant, address := 0, body := serial ++ [result] } ∧ u.book = s.part.book ∧
        (∀ slot, 1 ≤ slot → slot ≤ 16 → (s.part.slot slot).serial = some serial →
          (∀ n, 1 ≤ n → n < slot → (s.part.slot n).serial ≠ some serial) →
          ((s.part.slot slot).state = .barred → result = 0x81#8 ∧ u.slots = s.part.slots ∧ u.stores = s.part.stores) ∧
          ((s.part.slot slot).state ≠ .barred → result = BitVec.ofNat 8 slot ∧ u.stores = s.part.stores ∧
            u.slot slot = { s.part.slot slot with
              misses := 0, state := if (s.part.slot slot).state = .silent then .active else (s.part.slot slot).state } ∧
            u.attn.pending.handset = (s.part.attn.pending.handset || (s.part.slot slot).state == .silent))) ∧
        ((∀ n, 1 ≤ n → n ≤ 16 → (s.part.slot n).serial ≠ some serial) →
          (∀ slot, 1 ≤ slot → slot ≤ 16 → (s.part.slot slot).state = .free →
            (∀ n, 1 ≤ n → n < slot → (s.part.slot n).state ≠ .free) →
            result = BitVec.ofNat 8 slot ∧ u.slot slot = { Slot.reset with state := .active, serial := some serial } ∧
            u.store slot = Store.empty ∧ u.attn.pending.handset = true) ∧
          ((∀ n, 1 ≤ n → n ≤ 16 → (s.part.slot n).state ≠ .free) →
            result = 0x80#8 ∧ u.slots = s.part.slots ∧ u.stores = s.part.stores))) ∧
    (∀ chars : List RxChar, 1 ≤ chars.length → chars.length ≤ 47 → validClaim (parseFrame chars) = none →
      s.part.line.reply.isSome = true →
      ∃ u : Machine.Part, exec (.badClaim chars) s = .next { s with part := u } ∧
        u.line = { s.part.line with rxClass := .byTurn, badClaims := satInc 255 s.part.line.badClaims } ∧
        u.slots = s.part.slots ∧ u.stores = s.part.stores ∧ u.attn = s.part.attn)

/-- R30, R31: a break puts the line into BROKEN with no turn and no frame, counts no miss, and raises LINE; its end puts the line into RUNNING,
raises LINE and starts a round. The stray-frame count does not rise for a frame the break discards: the model's choice (assumption 8), and so is
when a frame of the part is going out, during which no break reaches it (assumption 7). -/
def Obligations.BreakAndItsEnd : Prop :=
  ∀ s : State,
    (s.part.line.state = .running → s.part.sending = false →
      ∃ u : Machine.Part, exec .lineBreak s = .next { s with part := u } ∧
        u.line.state = .broken ∧ u.line.turn = .none ∧ u.line.reply = none ∧ u.line.rx = [] ∧ u.line.tx = none ∧
        u.line.breaks = satInc 255 s.part.line.breaks ∧ u.line.strays = s.part.line.strays ∧
        u.line.round = s.part.line.round ∧ u.slots = s.part.slots ∧ u.book = s.part.book ∧
        u.attn.pending = { s.part.attn.pending with line := true }) ∧
    (s.part.line.state = .broken →
      exec .breakEnd s = .next { s with part := Part.startRound { s.part with
        line := { s.part.line with state := .running }
        attn := { s.part.attn with pending := { s.part.attn.pending with line := true } } } })

/-! ## Chapters 4 and 5: catalog and library -/

/-- R70, R71, R94, R99: MOUNT from UNMOUNTED enters MOUNTING, begins the reset of both positions with their watches loaded with 20 ms (in ticks of
1/48 ms, assumption 2), and is answered ACCEPTED; else it is refused BUSY. A die that is ready after its reset has its identity read begun and its
watch loaded with 20 ms again; a report that cannot come now changes nothing (assumption 3). A die that returns the geometry of Table 5-1 is IDLE,
another ABSENT, also where the end of the reset had no event of its own, which is the model's choice (assumption 20). While the other position is still
being identified nothing else happens; once neither is, each present die begins its scan with page 0 of block 0 (assumption 19). A die 0 that is
ABSENT fails the mount. -/
def Obligations.MountAndIdentification : Prop :=
  (∀ (tag : Byte) (s : State), s.part.ready →
    (s.part.lib.state = .unmounted → exec (.mount tag []) s = .next (State.answered { s with part := { s.part with
      lib := { s.part.lib with
        state := .mounting
        die0 := { s.part.lib.die0 with identifying := some .reset, watch := some 960 }
        die1 := { s.part.lib.die1 with identifying := some .reset, watch := some 960 } } } } tag .accepted [])) ∧
    (s.part.lib.state ≠ .unmounted → exec (.mount tag []) s = .next (s.refused tag .busy))) ∧
  (∀ (d : Fin 2) (s : State),
    ((s.part.die d).identifying = some .reset → exec (.identification d .ready) s =
      .next { s with part := s.part.mapDie d (fun x => { x with identifying := some .identityRead, watch := some 960 }) }) ∧
    ((s.part.die d).identifying ≠ some .reset → exec (.identification d .ready) s = .next s) ∧
    ∀ g : Geometry, (s.part.die d).identifying = none → exec (.identification d (.geometry g)) s = .next s) ∧
  (∀ (g : Geometry) (s : State), s.part.lib.state = .mounting → s.part.lib.die0.identifying ≠ none →
    (g = ⟨2048, 64, 2048, 64⟩ → s.part.lib.die1.identifying ≠ none →
      exec (.identification 0 (.geometry g)) s = .next { s with part := { s.part with lib := { s.part.lib with
        die0 := { s.part.lib.die0 with identifying := none, watch := none, state := .idle } } } }) ∧
    (g = ⟨2048, 64, 2048, 64⟩ → s.part.lib.die1.identifying = none →
      ∃ u : Machine.Part, exec (.identification 0 (.geometry g)) s = .next { s with part := u } ∧ u.lib.die0.scanBegun ∧
        (s.part.lib.die1.state = .idle → u.lib.die1.scanBegun) ∧ (s.part.lib.die1.state = .absent → u.lib.die1 = s.part.lib.die1)) ∧
    (g ≠ ⟨2048, 64, 2048, 64⟩ →
      ∃ u : Machine.Part, exec (.identification 0 (.geometry g)) s = .next { s with part := u } ∧ u.lib.die0.state = .absent ∧
        u.lib.state = .failed ∧ u.attn.pending.library = true ∧
        u.lib.lastOperation = some { kind := .mount, song := none, ending := .failedDie })) ∧
  ∀ (g : Geometry) (s : State), s.part.lib.state = .mounting → s.part.lib.die1.identifying ≠ none →
    (s.part.lib.die0.identifying ≠ none →
      exec (.identification 1 (.geometry g)) s = .next { s with part := { s.part with lib := { s.part.lib with
        die1 := { s.part.lib.die1 with
          identifying := none, watch := none, state := if g = ⟨2048, 64, 2048, 64⟩ then .idle else .absent } } } }) ∧
    (s.part.lib.die0.identifying = none → s.part.lib.die0.state = .idle →
      ∃ u : Machine.Part, exec (.identification 1 (.geometry g)) s = .next { s with part := u } ∧ u.lib.state = .mounting ∧
        u.lib.die0.scanBegun ∧ (g = ⟨2048, 64, 2048, 64⟩ → u.lib.die1.scanBegun) ∧
        (g ≠ ⟨2048, 64, 2048, 64⟩ → u.lib.die1.state = .absent))

/-- R72, Table 4-3: a scan read that settles its block's judgement leads to page 0 of the next block; a valid header leads to the read of page n + 1, whose
end settles it. A factory marker is BAD, a page 0 that cannot be read or is no header FREE, and a header whose closing page does not match RECLAIM. R73, R74:
the read that settles the last block of the last die to be scanned completes the mount: the library is MOUNTED with the catalog, the block maps and the
reclaim list formed from the judgements, the outcome is DONE and LIBRARY is raised. -/
def Obligations.ScanReadJudgesBlock : Prop :=
  (∀ (d : Fin 2) (r : Request) (read : PageRead) (j : Judgement) (s : State), s.part.lib.state = .mounting →
    (s.part.die d).op = some r → r.requester = .scan → r.givenUp = false → (s.part.die d).waiting = [] →
    (s.part.die d).state = .busy →
    (∀ block, block + 1 < 2048 →
      ((s.part.die d).scan = .header block ∧ judgePage0 read = .inl j ∨
        ∃ h, (s.part.die d).scan = .closing block h ∧ judgeClosing h read = j) →
      ∃ u : Machine.Part, exec (.mountScanReadComplete d read) s = .next { s with part := u } ∧
        (u.die d).judged = (s.part.die d).judged ++ [j] ∧ (u.die d).scan = .header (block + 1) ∧
        (u.die d).op = some { requester := .scan, block := block + 1, page := 0, data := [], givenUp := false }) ∧
    (∀ block h, (s.part.die d).scan = .header block → judgePage0 read = .inr h →
      ∃ u : Machine.Part, exec (.mountScanReadComplete d read) s = .next { s with part := u } ∧
        (u.die d).judged = (s.part.die d).judged ∧ (u.die d).scan = .closing block h ∧
        (u.die d).op = some { requester := .scan, block := block, page := h.pages + 1, data := [], givenUp := false }) ∧
    (((s.part.die d).scan = .header 2047 ∧ judgePage0 read = .inl j ∨
        ∃ h, (s.part.die d).scan = .closing 2047 h ∧ judgeClosing h read = j) →
      (d = 0 → s.part.lib.die1.scan = .done ∨ s.part.lib.die1.state = .absent ∨ s.part.lib.die1.state = .faulted) →
      (d = 1 → s.part.lib.die0.scan = .done) →
      ∀ (judged : Fin 2 → List Judgement) (kept : List Candidate),
        (∀ e, judged e = if e = d then (s.part.die d).judged ++ [j]
          else if (s.part.die e).scan = .done then (s.part.die e).judged else []) →
        kept = keptCandidates (candidatesOf 0 (judged 0) ++ candidatesOf 1 (judged 1)) →
        ∃ u : Machine.Part, exec (.mountScanReadComplete d read) s = .next { s with part := u } ∧ u.lib.state = .mounted ∧
          u.catalog = catalogOf kept ∧
          (∀ e : Fin 2, e = d ∨ (s.part.die e).scan = .done → (u.die e).map = some (mapOf kept e (judged e))) ∧
          u.lib.reclaim = reclaimOf 0 ((u.die 0).map.getD []) ++ reclaimOf 1 ((u.die 1).map.getD []) ∧
          u.lib.lastOperation = some { kind := .mount, song := none, ending := .done } ∧ u.attn.pending.library = true)) ∧
  (∀ read : PageRead, (read.marker ≠ 0xFF#8 → judgePage0 read = .inl .bad) ∧
    (read.marker = 0xFF#8 → readData read = none → judgePage0 read = .inl .free) ∧
    (∀ page, read.marker = 0xFF#8 → readData read = some page → validHeader page = none → judgePage0 read = .inl .free) ∧
    (∀ page h, read.marker = 0xFF#8 → readData read = some page → validHeader page = some h → judgePage0 read = .inr h)) ∧
  (∀ (h : HeaderFields) (read : PageRead), (readData read = none → judgeClosing h read = .reclaim) ∧
    (∀ page, readData read = some page →
      judgeClosing h read = if closingMatches page h then .candidate h else .reclaim)) ∧
  ∀ (kept : List Candidate) (d : Nat) (judged : List Judgement),
    (mapOf kept d judged).length = judged.length ∧
    ∀ (block : Nat) (j : Judgement), judged[block]? = some j →
      (j = .bad → (mapOf kept d judged)[block]? = some .bad) ∧ (j = .free → (mapOf kept d judged)[block]? = some .free) ∧
      (j = .reclaim → (mapOf kept d judged)[block]? = some .reclaim ∧ (d, block) ∈ reclaimOf d (mapOf kept d judged)) ∧
      (∀ h, j = .candidate h →
        ((∃ c ∈ kept, c.die = d ∧ c.block = block) → (mapOf kept d judged)[block]? = some .song) ∧
        ((¬∃ c ∈ kept, c.die = d ∧ c.block = block) →
          (mapOf kept d judged)[block]? = some .reclaim ∧ (d, block) ∈ reclaimOf d (mapOf kept d judged)))

/-- R66, R73, R74: the catalog a mount forms from the judgements of both dies is in ascending order of song with one entry for each song of a candidate; each
entry is that of a kept candidate. A kept candidate has the highest edition found for its song, and among those of that edition the lower die, then the
lower block. -/
def Obligations.MountedCatalogIsSorted : Prop :=
  ∀ judged0 judged1 : List Judgement, ∀ all : List Candidate, all = candidatesOf 0 judged0 ++ candidatesOf 1 judged1 →
    (catalogOf (keptCandidates all)).Pairwise (fun a b => a.song < b.song) ∧
    (∀ c ∈ all, ∃ e ∈ catalogOf (keptCandidates all), e.song = c.header.song) ∧
    (∀ e ∈ catalogOf (keptCandidates all), ∃ c ∈ keptCandidates all, e = entryOf c) ∧
    ∀ c ∈ keptCandidates all, c ∈ all ∧ ∀ a ∈ all, a.header.song = c.header.song →
      a.header.edition < c.header.edition ∨
        a.header.edition = c.header.edition ∧ (c.die < a.die ∨ c.die = a.die ∧ c.block ≤ a.block)

/-- R77, R76, R176: LOOK UP SONG of a READY song leaves the port EXECUTING, and the end of its lookup read forms the answer from the entry as it then
stands, health included, with the tags of a page that could be read; of a song that is not READY it is answered at once. The layout of the answer is
assumption 23; that a page that can be read gives its tags whether or not it is a header is the model's choice, assumption 30. A song outside 1 to 999999
is refused BAD FORM. -/
def Obligations.LookUpSongWaitsForRead : Prop :=
  (∀ (tag b0 b1 b2 : Byte) (s : State), s.part.ready → songInRange (ofU24 b0 b1 b2) = false →
    exec (.lookUpSong tag [b0, b1, b2]) s = .next (s.refused tag .badForm)) ∧
  (∀ song : Nat, songInRange song = true ↔ 1 ≤ song ∧ song ≤ 999999) ∧
  (∀ (tag b0 b1 b2 : Byte) (s : State), s.part.ready → songInRange (ofU24 b0 b1 b2) = true →
    (s.part.lib.state ≠ .mounted → exec (.lookUpSong tag [b0, b1, b2]) s = .next (s.refused tag .notMounted)) ∧
    (s.part.lib.state = .mounted → s.part.catEntry (ofU24 b0 b1 b2) = none →
      exec (.lookUpSong tag [b0, b1, b2]) s = .next (s.refused tag .noSuchSong)) ∧
    (∀ e, s.part.lib.state = .mounted → s.part.catEntry (ofU24 b0 b1 b2) = some e →
      (e.state ≠ .ready → exec (.lookUpSong tag [b0, b1, b2]) s = .next (s.answered tag .ok (lookupBytes e none))) ∧
      (e.state = .ready → (s.part.die e.current.die).state = .idle ∨ (s.part.die e.current.die).state = .busy →
        ∃ u : Machine.Part, exec (.lookUpSong tag [b0, b1, b2]) s = .next { s with part := u } ∧
          u.port.state = .executing ∧ u.port.answer = none ∧
          u.port.lookup = some { tag := tag, song := ofU24 b0 b1 b2 } ∧ u.catalog = s.part.catalog ∧
          ∀ r : Request, r = { requester := .lookupPort, block := e.current.block, page := 0, data := [], givenUp := false } →
            (u.die e.current.die).op = some r ∨ r ∈ (u.die e.current.die).waiting))) ∧
  (∀ (d : Fin 2) (read : PageRead) (r : Request) (e : CatEntry) (s : State), (s.part.die d).op = some r → r.givenUp = false →
    e.current.die = d → e.current.block = r.block →
    (∀ c, r.requester = .lookupPort → s.part.port.lookup = some c → s.part.catEntry c.song = some e →
      ∃ t, exec (.lookupReadComplete d read) s = .next t ∧
        t.hasAnswer c.tag .ok (lookupBytes (markHealth (readOutcome read) e) (readData read)) ∧
        (readOutcome read = .uncorrectable → t.part.attn.pending.library = true)) ∧
    (∀ slot song, r.requester = .lookupSlot slot song → s.part.catEntry song = some e → s.part.shaped → 1 ≤ slot → slot ≤ 16 →
      ∃ t info, exec (.lookupReadComplete d read) s = .next t ∧ (t.part.store slot).reply = .held (.songInfo info) ∧
        info = (match readData read with
          | none => songInfoOf (markHealth (readOutcome read) e) [] []
          | some page => songInfoOf (markHealth (readOutcome read) e) (titleTagOf page) (artistTagOf page))))

/-- R78, R109: LIST SONGS answers OK with the catalog's entries from the starting song, up to the count, and changes nothing; LIBRARY STATUS answers OK
with the library as it stands and clears LIBRARY, and with CLEAR FAULTS the last fault and the fault count after it. The layouts are
assumption 23. -/
def Obligations.ListSongsAndLibraryStatus : Prop :=
  (∀ (tag b0 b1 b2 count : Byte) (s : State), s.part.ready →
    (songInRange (ofU24 b0 b1 b2) = true → 1 ≤ count.toNat → count.toNat ≤ 32 →
      (s.part.lib.state = .mounted → exec (.listSongs tag [b0, b1, b2, count]) s =
        .next (s.answered tag .ok (s.part.songList (ofU24 b0 b1 b2) count.toNat))) ∧
      (s.part.lib.state ≠ .mounted → exec (.listSongs tag [b0, b1, b2, count]) s = .next (s.refused tag .notMounted))) ∧
    (songInRange (ofU24 b0 b1 b2) = false ∨ count.toNat < 1 ∨ 32 < count.toNat →
      exec (.listSongs tag [b0, b1, b2, count]) s = .next (s.refused tag .badForm))) ∧
  ∀ (tag : Byte) (s : State), s.part.ready →
    exec (.libraryStatus tag []) s = .next (State.answered { s with part := { s.part with
      attn := { s.part.attn with pending := { s.part.attn.pending with library := false } } } } tag .ok
        s.part.libraryBytes) ∧
    exec (.libraryStatus tag [1#8]) s = .next (State.answered { s with part := { s.part with
      lib := { s.part.lib with lastFault := none, faultCount := 0 }
      attn := { s.part.attn with pending := { s.part.attn.pending with library := false } } } } tag .ok
        s.part.libraryBytes)

/-- R80, R81, R82: INSTALL BEGIN that passes its checks opens the record with the next edition on the die and block chosen, makes the block FILLING, has
the erase in flight and answers OK with edition, die and block; the first check that fails refuses it with nothing changed. R81: the die is the one
the held song does not lie on when it has a FREE block, else the one with more, die 0 when they are equal. Table 4-4: the checks in their order. The widths of the answer (edition and die a U8, block a U16) are the model's
choice (assumption 23). -/
def Obligations.InstallBeginOpensRecord : Prop :=
  (∀ (tag : Byte) (params : List Byte) (a : InstallParams) (s : State), s.part.ready → installParams params = some a →
    (∀ cause, s.part.installCheck a = some cause → exec (.installBegin tag params) s = .next (s.refused tag cause)) ∧
    (s.part.installCheck a = none → s.part.installDie = none →
      exec (.installBegin tag params) s = .next (s.refused tag .noSpace)) ∧
    (∀ d edition block, s.part.installCheck a = none → s.part.installDie = some d → block = s.part.lowestFree d →
      edition = (match s.part.catEntry a.song with | none => 1 | some e => e.current.edition + 1) →
      ∃ u : Machine.Part, exec (.installBegin tag params) s =
          .next (State.answered { s with part := u } tag .ok (u8 edition ++ u8 d ++ u16 block)) ∧
        u.install = some
          { closing := false, song := a.song,
            target := { edition := edition, die := d, block := block, pages := a.pages, duration := a.duration,
                        parts := a.parts },
            title := a.title, artist := a.artist, glyphs := a.glyphs, nextPage := 1, buffered := [],
            replacement := (s.part.catEntry a.song).isSome, inFlight := some .erase } ∧
        (u.die d).map = (s.part.die d).map.map (fun m => m.set block .filling) ∧ u.catalog = s.part.catalog ∧
        u.attn = s.part.attn ∧ u.book = s.part.book)) ∧
  (∀ (held : Option Nat) (free0 free1 : Nat),
    (free0 = 0 → free1 = 0 → chooseDie held free0 free1 = none) ∧
    (held = some 0 → 0 < free1 → chooseDie held free0 free1 = some 1) ∧
    (held = some 1 → 0 < free0 → chooseDie held free0 free1 = some 0) ∧
    (held = some 0 → free1 = 0 → 0 < free0 → chooseDie held free0 free1 = some 0) ∧
    (held = some 1 → free0 = 0 → 0 < free1 → chooseDie held free0 free1 = some 1) ∧
    (held = none → 0 < free0 + free1 → chooseDie held free0 free1 = if free0 < free1 then some 1 else some 0)) ∧
  ∀ (p : Part) (a : InstallParams),
    (installInRange a = true ↔
      1 ≤ a.song ∧ a.song ≤ 999999 ∧ 1 ≤ a.pages ∧ a.pages ≤ 62 ∧ 1000 ≤ a.duration ∧ a.duration ≤ 1200000 ∧ 1 ≤ a.parts ∧
        a.parts ≤ 4 ∧ a.glyphs.length ≤ 32 ∧ ∀ g ∈ a.glyphs, g ≤ 2047) ∧
    (installInRange a = false → p.installCheck a = some .badForm) ∧
    (installInRange a = true → (p.lib.state ≠ .mounted → p.installCheck a = some .notMounted) ∧
      (p.lib.state = .mounted → (p.install ≠ none → p.installCheck a = some .busy) ∧
        (p.install = none → (p.lib.libwp = false → p.installCheck a = some .protectedLow) ∧
          (p.lib.libwp = true → (p.catEntry a.song = none → p.installCheck a = none) ∧
            ∀ e, p.catEntry a.song = some e → (e.state = .offline → p.installCheck a = some .offline) ∧
              (e.state ≠ .offline →
                (e.successor ≠ none ∨ e.state = .withdrawing → p.installCheck a = some .pending) ∧
                (e.successor = none → e.state ≠ .withdrawing →
                  p.installCheck a = if 255 ≤ e.current.edition then some .limit else none))))))

/-- R83, R84, R87: INSTALL PAGE takes the next page in order into the install buffer, answers WAIT when two are buffered, and ORDER out of sequence;
INSTALL CLOSE moves a record with every page taken to CLOSING and is answered ACCEPTED; INSTALL ABANDON returns the record to NONE and its block to
RECLAIM, unless the closing program is in progress. With no install open each is refused NO INSTALL. Acceptances are stated for a die that is not FAULTED
(R107: an install on a FAULTED die has failed). A page index outside 1 to 62 is refused BAD FORM. -/
def Obligations.InstallPageCloseAbandon : Prop :=
  (∀ (tag index : Byte) (data : List Byte) (s : State), s.part.ready → data.length = 2048 →
    index.toNat < 1 ∨ 62 < index.toNat → exec (.installPage tag (index :: data)) s = .next (s.refused tag .badForm)) ∧
  ∀ (tag index : Byte) (data : List Byte) (s : State), s.part.ready → data.length = 2048 → 1 ≤ index.toNat → index.toNat ≤ 62 →
    (s.part.install = none →
      exec (.installPage tag (index :: data)) s = .next (s.refused tag .noInstall) ∧
      exec (.installClose tag []) s = .next (s.refused tag .noInstall) ∧
      exec (.installAbandon tag []) s = .next (s.refused tag .noInstall)) ∧
    (∀ r, s.part.install = some r →
      (r.closing = true ∨ index.toNat ≠ r.nextPage ∨ r.target.pages < index.toNat →
        exec (.installPage tag (index :: data)) s = .next (s.refused tag .order)) ∧
      (r.closing = false → index.toNat = r.nextPage → index.toNat ≤ r.target.pages →
        (s.part.die r.target.die).state ≠ .faulted →
        (2 ≤ r.buffered.length → exec (.installPage tag (index :: data)) s = .next (s.answered tag .wait [])) ∧
        (r.buffered.length < 2 →
          ∃ u : Machine.Part, exec (.installPage tag (index :: data)) s =
              .next (State.answered { s with part := u } tag .ok []) ∧
            u.install.map Install.nextPage = some (index.toNat + 1) ∧
            u.install.map Install.buffered = some (r.buffered ++ [data]) ∧ u.book = s.part.book ∧ u.attn = s.part.attn ∧
            (r.inFlight.isSome = true → u.lib = s.part.lib))) ∧
      (r.closing = true ∨ r.nextPage ≠ r.target.pages + 1 →
        exec (.installClose tag []) s = .next (s.refused tag .order)) ∧
      (r.closing = false → r.nextPage = r.target.pages + 1 → (s.part.die r.target.die).state ≠ .faulted →
        ∃ u : Machine.Part, exec (.installClose tag []) s = .next (State.answered { s with part := u } tag .accepted []) ∧
          u.install.map Install.closing = some true ∧ u.catalog = s.part.catalog ∧ u.attn = s.part.attn ∧
          (r.inFlight = none → s.part.lib.programMark = r.target.pages + 1 →
            u.install.map Install.inFlight = some (some (.program (r.target.pages + 1))))) ∧
      (s.part.closingInProgress r = true → exec (.installAbandon tag []) s = .next (s.refused tag .busy)) ∧
      (s.part.closingInProgress r = false →
        ∃ u : Machine.Part, exec (.installAbandon tag []) s = .next (State.answered { s with part := u } tag .ok []) ∧
          u.install = none ∧ u.lib.lastOperation = some { kind := .install, song := some r.song, ending := .abandoned } ∧
          (r.target.die, r.target.block) ∈ u.lib.reclaim ∧ u.catalog = s.part.catalog ∧ u.attn = s.part.attn))

/-- R82, R85, R86, R97, R98: the PASS of the install's erase has the header program in flight. The PASS of page k's program puts the mark at k + 1, takes
a stream page from the buffered pages, and has the next program in flight as soon as its data are there: the next stream page's, or the closing page's once
INSTALL CLOSE has been taken. The PASS of the closing program makes a new song's entry READY on its SONG block, switches an entry whose song is not in play,
and gives one whose song is in play a successor. A FAIL of any makes the block BAD, records the fault and ends the install FAILED. The end of the install
raises LIBRARY. R88: when the play context releases a song with a successor, the entry switches to it, and the old block goes to the reclaim list unless its
die is FAULTED. -/
def Obligations.InstallOperationEnds : Prop :=
  (∀ (d : Fin 2) (x : Request) (op : InstallOp) (r : Install) (s : State), (s.part.die d).op = some x →
    (s.part.die d).state = .busy →
    x.requester = .install op → x.givenUp = false → s.part.install = some r → r.target.die = d → x.block = r.target.block →
    (op = .erase →
      ∃ u : Machine.Part, exec (.installProgramComplete d true) s = .next { s with part := u } ∧ u.lib.programMark = 0 ∧
        u.install = some { r with inFlight := some (.program 0) }) ∧
    (∀ k buffered, op = .program k → k ≤ r.target.pages → s.part.lib.programMark = k →
      buffered = (if k = 0 then r.buffered else r.buffered.drop 1) →
      ∃ u : Machine.Part, exec (.installProgramComplete d true) s = .next { s with part := u } ∧
        u.lib.programMark = k + 1 ∧ u.catalog = s.part.catalog ∧
        u.install = some { r with
          buffered := buffered
          inFlight :=
            if (k < r.target.pages ∧ buffered ≠ []) ∨ (k = r.target.pages ∧ r.closing = true) then some (.program (k + 1))
            else none }) ∧
    (op = .program (r.target.pages + 1) →
      ∃ u : Machine.Part, exec (.installProgramComplete d true) s = .next { s with part := u } ∧ u.install = none ∧
        u.attn.pending.library = true ∧
        u.lib.lastOperation = some { kind := .install, song := some r.song, ending := .done } ∧
        (s.part.catEntry r.song = none →
          u.catEntry r.song = some { song := r.song, current := r.target, state := .ready, weak := false, damaged := false,
                                     pins := 0, successor := none } ∧
          (u.die d).map = (s.part.die d).map.map (fun m => m.set r.target.block .song)) ∧
        (∀ e, s.part.catEntry r.song = some e → (s.part.play.song.map HeldSong.song) = some r.song →
          u.catEntry r.song = some { e with successor := some r.target } ∧ u.lib.reclaim = s.part.lib.reclaim ∧
          (u.die d).map = (s.part.die d).map.map (fun m => m.set r.target.block .song)) ∧
        (∀ e, s.part.catEntry r.song = some e → (s.part.play.song.map HeldSong.song) ≠ some r.song →
          u.catEntry r.song = some { e with
            current := r.target, weak := false, damaged := false, successor := none
            state := if e.state = .offline then .ready else e.state } ∧
          ((s.part.die e.current.die).state ≠ .faulted → (e.current.die, e.current.block) ∈ u.lib.reclaim) ∧
          ((s.part.die e.current.die).state = .faulted → u.lib.reclaim = s.part.lib.reclaim))) ∧
    ∃ u : Machine.Part, exec (.installProgramComplete d false) s = .next { s with part := u } ∧ u.install = none ∧
      (u.die d).map = (s.part.die d).map.map (fun m => m.set r.target.block .bad) ∧ u.catalog = s.part.catalog ∧
      u.attn.pending.library = true ∧ u.lib.faultCount = satInc 255 s.part.lib.faultCount ∧
      u.lib.lastFault = some { kind := if op = .erase then .erase else .program, die := d, block := r.target.block } ∧
      u.lib.lastOperation =
        some { kind := .install, song := some r.song, ending := if op = .erase then .failedErase else .failedProgram }) ∧
  (∀ (p : Part) (song : Nat),
    ((p.catEntry song).bind CatEntry.successor = none → p.release song = p) ∧
    ∀ e blk, p.catEntry song = some e → e.successor = some blk →
      (p.release song).catEntry song = some { e with
        current := blk, weak := false, damaged := false, successor := none
        state := if e.state = .offline then .ready else e.state } ∧
      (p.release song).attn = p.attn ∧ (p.release song).lib.lastOperation = p.lib.lastOperation ∧
      ((p.die e.current.die).state ≠ .faulted → (e.current.die, e.current.block) ∈ (p.release song).lib.reclaim) ∧
      ((p.die e.current.die).state = .faulted → (p.release song).lib.reclaim = p.lib.reclaim)) ∧
  ∀ (tag : Byte) (ticket : Nat) (song : HeldSong) (e : CatEntry) (blk : SongBlock) (s : State), s.part.ready → s.part.cueWf →
    s.part.play.entry = some ticket → s.part.play.song = some song → s.part.catEntry song.song = some e →
    e.successor = some blk →
    ∃ t, exec (.skip tag []) s = .next t ∧
      (t.part.catEntry song.song).map (fun x => (x.current, x.successor, x.weak, x.damaged)) = some (blk, none, false, false)

/-- R89, R90, R106: WITHDRAW SONG that passes its checks, its die not FAULTED, strikes the song's WAITING entries, makes it WITHDRAWING, requests the erase of its
block and is answered ACCEPTED; its erase removes the entry and leaves the block FREE, or BAD with a fault; a reclaim erase takes its block off the reclaim list to
FREE, or to BAD with a fault. Checks 4 to 7 of R89 in their order. -/
def Obligations.WithdrawAndReclaim : Prop :=
  (∀ (tag b0 b1 b2 : Byte) (s : State), s.part.ready →
    (songInRange (ofU24 b0 b1 b2) = false → exec (.withdrawSong tag [b0, b1, b2]) s = .next (s.refused tag .badForm)) ∧
    (songInRange (ofU24 b0 b1 b2) = true → s.part.lib.state ≠ .mounted →
      exec (.withdrawSong tag [b0, b1, b2]) s = .next (s.refused tag .notMounted)) ∧
    (songInRange (ofU24 b0 b1 b2) = true → s.part.lib.state = .mounted → s.part.catEntry (ofU24 b0 b1 b2) = none →
      exec (.withdrawSong tag [b0, b1, b2]) s = .next (s.refused tag .noSuchSong))) ∧
  (∀ (tag b0 b1 b2 : Byte) (e : CatEntry) (s : State), s.part.ready → s.part.cueWf → songInRange (ofU24 b0 b1 b2) = true →
    s.part.lib.state = .mounted → s.part.catEntry (ofU24 b0 b1 b2) = some e →
    (∀ cause, s.part.withdrawCheck e = some cause →
      exec (.withdrawSong tag [b0, b1, b2]) s = .next (s.refused tag cause)) ∧
    (s.part.withdrawCheck e = none → (s.part.die e.current.die).state ≠ .faulted →
      ∃ u : Machine.Part, exec (.withdrawSong tag [b0, b1, b2]) s =
          .next (State.answered { s with part := u } tag .accepted []) ∧
        u.book.entries = s.part.book.entries.filter (fun x => !(x.state == .waiting && x.song == e.song)) ∧
        (u.catEntry e.song).map CatEntry.state = some .withdrawing ∧ u.play = s.part.play ∧
        ∀ r : Request,
          r = { requester := .withdraw e.song, block := e.current.block, page := 0, data := [], givenUp := false } →
          ((s.part.die e.current.die).state = .idle → (u.die e.current.die).op = some r) ∧
          ((s.part.die e.current.die).state = .busy →
            (u.die e.current.die).op = (s.part.die e.current.die).op ∧
            (u.die e.current.die).waiting = (s.part.die e.current.die).waiting ++ [r]))) ∧
  (∀ (p : Part) (e : CatEntry),
    (e.state = .offline → p.withdrawCheck e = some .offline) ∧
    (e.state ≠ .offline →
      ((p.play.song.map HeldSong.song) = some e.song ∨ e.successor ≠ none → p.withdrawCheck e = some .inUse) ∧
      ((p.play.song.map HeldSong.song) ≠ some e.song → e.successor = none →
        (e.state = .withdrawing ∨ (p.install.map Install.song) = some e.song → p.withdrawCheck e = some .pending) ∧
        (e.state ≠ .withdrawing → (p.install.map Install.song) ≠ some e.song →
          p.withdrawCheck e = if p.lib.libwp then none else some .protectedLow)))) ∧
  (∀ (d : Fin 2) (pass : Bool) (r : Request) (s : State), (s.part.die d).op = some r →
    (∀ song, r.requester = .withdraw song →
      ∃ u : Machine.Part, exec (.withdrawEraseComplete d pass) s = .next { s with part := u } ∧ u.catEntry song = none ∧
        (u.die d).map = (s.part.die d).map.map (fun m => m.set r.block (if pass then .free else .bad)) ∧
        u.attn.pending.library = true ∧
        u.lib.lastOperation =
          some { kind := .withdraw, song := some song, ending := if pass then .done else .failedErase } ∧
        u.lib.faultCount = (if pass then s.part.lib.faultCount else satInc 255 s.part.lib.faultCount)) ∧
    (r.requester = .reclaim →
      ∃ u : Machine.Part, exec (.reclaimEraseComplete d pass) s = .next { s with part := u } ∧
        u.lib.reclaim = s.part.lib.reclaim.filter (fun x => x != (d.val, r.block)) ∧
        (u.die d).map = (s.part.die d).map.map (fun m => m.set r.block (if pass then .free else .bad)) ∧
        u.lib.faultCount = (if pass then s.part.lib.faultCount else satInc 255 s.part.lib.faultCount) ∧
        (pass = false → u.attn.pending.library = true)))

/-- R99, R107, R91, R18: the expiry of a die watch in an operation while MOUNTED makes the die FAULTED with nothing in progress and nothing waiting, makes
the entries on it OFFLINE, ends DAMAGED or strikes DAMAGED the song in play that lies on it, strikes the WAITING entries that name a song on it, records the
fault and raises LIBRARY. R75: while MOUNTING, a fault of die 0 fails the mount; with die 1 FAULTED the mount goes on, and is complete when die 0 has been
scanned. With the library FAILED the fault is recorded alone. R71: in identification the expiry makes the position ABSENT, and ABSENT, die 0 fails the mount. That
nothing else happens at an ABSENT die 1 while die 0 is still being identified, and that an IDLE die 0 begins its scan only then, is the model's choice (assumption 19). R103, R101: LIBWP_N low changes its level alone; at its rise the arbiter of each IDLE die grants (Part.granted),
a die that is not IDLE goes on as it was, and no attention is raised. A request that arrives at an IDLE die starts at once if it may, a program or an erase only
while LIBWP_N is high, and else waits behind the others; that a request changes nothing at a die that is ABSENT or not yet identified is read from R94
(assumption 33). At a completion the arbiter grants, after the effects of the operation's end (assumption 21): the highest
class, the first to arrive within it, and while LIBWP_N is low a read alone. A watch expires on its last tick of 1/48 ms, and with more time remaining or while it is stopped the row changes nothing: the model's choices
(assumptions 2 and 3); it is loaded with 20 ms, 960 ticks (assumption 36). A last outcome written at a die fault stays through a promotion made at the same
event: the model's choice (assumption 49). -/
def Obligations.DieWatchAndProtect : Prop :=
  (∀ (d : Fin 2) (r : Request) (s : State), lastTick (s.part.die d).watch = true → (s.part.die d).identifying = none →
    (s.part.die d).op = some r →
    (s.part.lib.state = .mounted →
      ∃ u : Machine.Part, exec (.dieWatchExpiry d) s = .next { s with part := u } ∧ (u.die d).state = .faulted ∧
        (u.die d).op = none ∧ (u.die d).waiting = [] ∧ (u.die d).watch = none ∧
        (∀ e ∈ u.catalog, e.current.die = d → e.state = .offline) ∧ u.attn.pending.library = true ∧
        u.lib.lastFault = some { kind := .die, die := d, block := r.block } ∧
        u.lib.faultCount = satInc 255 s.part.lib.faultCount ∧
        (∀ x ∈ s.part.book.entries, x.state = .waiting → (∃ c, s.part.catEntry x.song = some c ∧ c.current.die = d) →
          ∀ y ∈ u.book.entries, y.ticket ≠ x.ticket) ∧
        (∀ ticket song, s.part.cueWf → s.part.play.entry = some ticket → s.part.play.song = some song → song.blk.die = d →
          u.play.lastOutcome = some { ticket := ticket, song := song.song
                                      ending := if s.part.playing then .ended .damaged else .struck .damaged })) ∧
    (s.part.lib.state = .mounting → d = 0 →
      ∃ u : Machine.Part, exec (.dieWatchExpiry d) s = .next { s with part := u } ∧ u.lib.state = .failed ∧
        u.lib.die0.state = .faulted ∧ u.lib.lastFault = some { kind := .die, die := 0, block := r.block } ∧
        u.lib.lastOperation = some { kind := .mount, song := none, ending := .failedDie } ∧ u.attn.pending.library = true) ∧
    (s.part.lib.state = .mounting → d = 1 →
      ∃ u : Machine.Part, exec (.dieWatchExpiry d) s = .next { s with part := u } ∧ u.lib.die1.state = .faulted ∧
        u.lib.lastFault = some { kind := .die, die := 1, block := r.block } ∧ u.attn.pending.library = true ∧
        u.lib.state = if s.part.lib.die0.scan = .done then .mounted else .mounting) ∧
    (s.part.lib.state = .failed →
      ∃ u : Machine.Part, exec (.dieWatchExpiry d) s = .next { s with part := u } ∧ (u.die d).state = .faulted ∧
        u.lib.state = .failed ∧ u.lib.lastFault = some { kind := .die, die := d, block := r.block } ∧
        u.attn.pending.library = true ∧ u.book = s.part.book ∧ u.catalog = s.part.catalog)) ∧
  (∀ (d : Fin 2) (s : State), lastTick (s.part.die d).watch = false → exec (.dieWatchExpiry d) s = .next s) ∧
  (∀ s : State, s.part.lib.state = .mounting → s.part.lib.die1.identifying ≠ none → lastTick s.part.lib.die1.watch = true →
    (s.part.lib.die0.identifying ≠ none →
      exec (.dieWatchExpiry 1) s = .next { s with part := { s.part with lib := { s.part.lib with
        die1 := { s.part.lib.die1 with identifying := none, watch := none, state := .absent } } } }) ∧
    (s.part.lib.die0.identifying = none → s.part.lib.die0.state = .idle →
      ∃ u : Machine.Part, exec (.dieWatchExpiry 1) s = .next { s with part := u } ∧ u.lib.die1.state = .absent ∧
        u.lib.die0.scanBegun)) ∧
  (∀ s : State, s.part.lib.state = .mounting → s.part.lib.die0.identifying ≠ none → lastTick s.part.lib.die0.watch = true →
    ∃ u : Machine.Part, exec (.dieWatchExpiry 0) s = .next { s with part := u } ∧ u.lib.die0.state = .absent ∧
      u.lib.state = .failed ∧ u.attn.pending.library = true ∧
      u.lib.lastOperation = some { kind := .mount, song := none, ending := .failedDie }) ∧
  (∀ s : State, exec (.libwpChange false) s =
    .next { s with part := { s.part with lib := { s.part.lib with libwp := false } } }) ∧
  (∀ (d : Fin 2) (s : State), s.part.lib.libwp = false →
    ∃ u : Machine.Part, exec (.libwpChange true) s = .next { s with part := u } ∧ u.lib.libwp = true ∧ u.attn = s.part.attn ∧
      u.book = s.part.book ∧ ((s.part.die d).state ≠ .idle → u.die d = s.part.die d) ∧
      ((s.part.die d).state = .idle →
        Part.granted { s.part with lib := { s.part.lib with libwp := true } } d.val (u.die d))) ∧
  (∀ (d : Fin 2) (r : Request) (p : Part),
    ((p.die d).state = .idle →
      (mayStart p.lib.libwp r →
        (p.request d r).die d = { p.die d with state := .busy, op := some r, watch := some 960 }) ∧
      (¬mayStart p.lib.libwp r → (p.request d r).die d = { p.die d with waiting := (p.die d).waiting ++ [r] })) ∧
    ((p.die d).state = .busy → (p.request d r).die d = { p.die d with waiting := (p.die d).waiting ++ [r] }) ∧
    ((p.die d).state ≠ .idle → (p.die d).state ≠ .busy → p.request d r = p)) ∧
  ∀ (d : Fin 2) (r : Request) (s : State), (s.part.die d).op = some r → s.part.promotionDue = false →
    (∀ read, r.requester = .stream → r.givenUp = true →
      ∃ u : Machine.Part, exec (.streamFetchComplete d read) s = .next { s with part := u } ∧
        (s.part.opEnds d).granted d.val (u.die d)) ∧
    (∀ pass song, r.requester = .withdraw song →
      ∃ u : Machine.Part, exec (.withdrawEraseComplete d pass) s = .next { s with part := u } ∧
        (Part.withdrawEnds d pass r (s.part.opEnds d)).granted d.val (u.die d)) ∧
    (∀ pass, r.requester = .reclaim →
      ∃ u : Machine.Part, exec (.reclaimEraseComplete d pass) s = .next { s with part := u } ∧
        (Part.reclaimEnds d pass r (s.part.opEnds d)).granted d.val (u.die d))

/-! ## Chapter 6: the play context -/

/-- R114, R115, R116, R51, R149, R152: when a promotion is due, the first WAITING entry becomes CUED, the play context enters STAGING with its song and every
count 0, its seats are ARMED with their parts and handsets, the seated slots take the cued notice, BOOK and PLAY are raised, the reader requests pages 0 and 1,
the score card goes down and the title card stands with no content; the last outcome stays, which is the model's choice (assumption 49). When none is due,
nothing changes. -/
def Obligations.PromotionCuesFirstWaiting : Prop :=
  (∀ p : Part, (p.promotionDue = true ↔ p.play.state = .idle ∧ p.book.hold = false ∧ p.lib.state = .mounted ∧
      ∃ e ∈ p.book.entries, e.state = .waiting) ∧
    (p.promotionDue = false → p.promoteIfDue = p)) ∧
  (∀ (p u : Part) (e : Entry) (rest : List Entry) (c : CatEntry), p.shaped → p.promotionDue = true →
    waitingEntries p.book.entries = e :: rest → p.catEntry e.song = some c → u = p.promoteIfDue →
    (u.book = { p.book with entries := p.book.entries.map fun x =>
        if x.ticket = e.ticket then { x with state := .cued } else x } ∧
      u.play = { p.play with
        state := .staging, entry := some e.ticket, song := some { song := e.song, blk := c.current }, time := 0,
        tempo := e.tempo, key := e.key, cueHold := p.settings.holdTime, startPending := false, lateLines := 0,
        unknownWindows := 0, damagedPages := 0, skippedRecords := 0, firstUnderrun := false }) ∧
    (u.attn.pending = { p.attn.pending with book := true, play := true } ∧ u.attn.unmasked = p.attn.unmasked) ∧
    (∀ i, i < 4 → (u.seat i).channel = (p.seat i).channel ∧
      (i < e.singers → (u.seat i).state = .armed ∧ (u.seat i).part = i % c.current.parts ∧
        (u.seat i).handset = e.seats.getD i none ∧ (u.seat i).micSeen = false ∧ (u.seat i).durations = 0 ∧
        (u.seat i).weighted.num = 0) ∧
      (e.singers ≤ i → (u.seat i).state = .idle)) ∧
    (∀ slot, 1 ≤ slot → slot ≤ 16 → some slot ∈ e.seats → (u.store slot).cued = some e.ticket) ∧
    (u.reader = { Reader.reset with state := .fetching, buf0 := .requested 0, buf1 := .requested 1, nextFetch := 2 } ∧
      ((p.die c.current.die).state = .idle →
        (u.die c.current.die).op = some ⟨.stream, c.current.block, 0, [], false⟩ ∧
        (u.die c.current.die).waiting = (p.die c.current.die).waiting ++ [⟨.stream, c.current.block, 1, [], false⟩])) ∧
    u.lyric = { p.lyric with
      row0 := Row.reset, row1 := Row.reset, card := { shown := false, groups := [] }, cardTimer := none,
      title := { shown := true, content := none } })

/-- R134, R129, R132: PLAY STATUS answers OK with the play context, the reader and the channels as they stand, clears the presence-changed flags and
PLAY, and changes nothing else. PAUSE in RUNNING and RESUME in PAUSED change the state and raise PLAY, and are refused NOT PLAYING elsewhere. NEXT NOW in GAP
and a GAP expiry return the play context to IDLE, and the promotion that is then due is made; NEXT NOW elsewhere is refused BUSY. The layout of the PLAY
STATUS answer is assumption 23. R113: the row expires GAP on its last tick of 1/48 ms, and with more time remaining or while GAP is stopped changes nothing; an
audio frame that brings the count to zero expires GAP too. These are the model's choices (assumptions 2 and 3). -/
def Obligations.PlayStatusPauseAndNext : Prop :=
  ∀ (tag : Byte) (s : State), (s.part.ready →
      exec (.playStatus tag []) s = .next (State.answered { s with part := { s.part with
        scorer := { s.part.scorer with channels := s.part.scorer.channels.map fun (c : Channel) => { c with changed := false } }
        attn := { s.part.attn with pending := { s.part.attn.pending with play := false } } } } tag .ok s.part.playBytes) ∧
      ((s.part.play.state = .running →
          exec (.pause tag []) s = .next (State.answered { s with part := { s.part with
            play := { s.part.play with state := .paused }
            attn := { s.part.attn with pending := { s.part.attn.pending with play := true } } } } tag .ok [])) ∧
        (s.part.play.state ≠ .running → exec (.pause tag []) s = .next (s.refused tag .notPlaying))) ∧
      ((s.part.play.state = .paused →
          exec (.resume tag []) s = .next (State.answered { s with part := { s.part with
            play := { s.part.play with state := .running }
            attn := { s.part.attn with pending := { s.part.attn.pending with play := true } } } } tag .ok [])) ∧
        (s.part.play.state ≠ .paused → exec (.resume tag []) s = .next (s.refused tag .notPlaying))) ∧
      ((s.part.play.state = .gap →
          exec (.nextNow tag []) s = .next (s.okThenPromote tag
            { s.part with play := { s.part.play with state := .idle, gap := none } } [])) ∧
        (s.part.play.state ≠ .gap → exec (.nextNow tag []) s = .next (s.refused tag .busy)))) ∧
    (s.part.play.state = .gap → lastTick s.part.play.gap = true →
      exec .gapExpiry s = .next { s with part := Part.promoteIfDue (
        { s.part with play := { s.part.play with state := .idle, gap := none } }) }) ∧
    (lastTick s.part.play.gap = false → exec .gapExpiry s = .next s) ∧
    (∀ f : AudioFrame, s.part.play.state = .gap → s.part.play.gap = some 1 → s.part.scorer.window.length + 1 < 480 →
      Part.quiet { s.part with play := { s.part.play with gap := none } } = true →
      ∃ u : Machine.Part, exec (.audioFrame f) s = .next { s with part := u } ∧ u.play.gap = none ∧
        (u.play.state = .idle ∨ u.play.state = .staging))

/-- R124, R125, R126, R127, R121: START in STAGING sets start-pending, and in HOLDING enters RUNNING: the entry is PLAYING, ARMED seats SING, HOLD stops, PLAY is
raised. SKIP strikes the CUED entry SKIPPED, with the effects of the strike, or ends the song of a PLAYING one SKIPPED. EXTEND HOLD loads HOLD in HOLDING; 0
acts as the expiry does, by the hold action. Elsewhere they are refused NOT CUED. R113: the row expires HOLD on its last tick of 1/48 ms, and with more time
remaining or while HOLD is stopped changes nothing; an audio frame that brings the count to zero expires HOLD too, and song time does not move at that frame (R127). These are the model's choices
(assumptions 2 and 3). -/
def Obligations.CueIsStartedOrStruck : Prop :=
  ∀ (tag : Byte) (s : State), s.part.cueWf →
    (s.part.ready →
      (s.part.play.state = .staging →
        exec (.start tag []) s = .next (State.answered { s with part := { s.part with
          play := { s.part.play with startPending := true } } } tag .ok [])) ∧
      (s.part.play.state ≠ .staging → s.part.play.state ≠ .holding →
        exec (.start tag []) s = .next (s.refused tag .notCued)) ∧
      (s.part.play.state = .idle ∨ s.part.play.state = .gap → exec (.skip tag []) s = .next (s.refused tag .notCued)) ∧
      (∀ b : Byte, (120 < b.toNat → exec (.extendHold tag [b]) s = .next (s.refused tag .badForm)) ∧
        (b.toNat ≤ 120 → s.part.play.state ≠ .holding →
          exec (.extendHold tag [b]) s = .next (s.refused tag .notCued)) ∧
        (1 ≤ b.toNat → b.toNat ≤ 120 → s.part.play.state = .holding →
          exec (.extendHold tag [b]) s = .next (State.answered { s with part := { s.part with
            play := { s.part.play with hold := some (b.toNat * 1000 * 48) } } } tag .ok []))) ∧
      (s.part.play.state = .holding → exec (.extendHold tag [0#8]) s =
        exec (if s.part.settings.holdAction = .start then .start tag [] else .skip tag []) s)) ∧
    (∀ (ticket : Nat) (song : HeldSong), s.part.play.entry = some ticket → s.part.play.song = some song →
      (s.part.play.state = .holding →
        ∀ u : Machine.Part, u = { s.part with
            play := { s.part.play with state := .running, hold := none, startPending := false }
            book := { s.part.book with entries := s.part.book.entries.map fun x =>
              if x.ticket = ticket then { x with state := .playing } else x }
            scorer := { s.part.scorer with seats := s.part.scorer.seats.map fun (x : Seat) =>
              if x.state = .armed then { x with state := .singing } else x }
            attn := { s.part.attn with pending := { s.part.attn.pending with play := true } } } →
          (s.part.ready → exec (.start tag []) s = .next (State.answered { s with part := u } tag .ok [])) ∧
          (s.part.settings.holdAction = .start → lastTick s.part.play.hold = true →
            exec .holdExpiry s = .next { s with part := u })) ∧
      (s.part.play.state = .staging ∨ s.part.play.state = .holding →
        ∃ u : Machine.Part, (s.part.ready → exec (.skip tag []) s = .next (s.okThenPromote tag u [])) ∧
          (s.part.play.state = .holding → s.part.settings.holdAction = .skip → lastTick s.part.play.hold = true →
            exec .holdExpiry s = .next { s with part := u.promoteIfDue }) ∧
          u.book.entries = withoutTicket s.part.book.entries ticket ∧
          (u.book.lastStrike.map fun x => (x.ticket, x.reason)) = some (ticket, .skipped) ∧
          u.book.strikeCount = satInc 255 s.part.book.strikeCount ∧
          (u.play.state = (if s.part.settings.gapTime = 0 then .idle else .gap) ∧ u.play.entry = none ∧
            u.play.song = none ∧ u.play.hold = none ∧ u.play.startPending = false ∧
            u.play.gap = (if s.part.settings.gapTime = 0 then none else some (1000 * s.part.settings.gapTime * 48)) ∧
            u.play.lastOutcome = some { ticket := ticket, song := song.song, ending := .struck .skipped }) ∧
          u.reader = Reader.reset ∧ (∀ x ∈ u.scorer.seats, x.state = .idle) ∧ u.scorer.result = s.part.scorer.result ∧
          u.lyric.title.shown = false ∧ u.attn.pending = { s.part.attn.pending with play := true, book := true }) ∧
      (s.part.play.state = .running ∨ s.part.play.state = .paused → s.part.ready →
        ∃ u : Machine.Part, exec (.skip tag []) s = .next (s.okThenPromote tag u []) ∧
          u.book.entries = withoutTicket s.part.book.entries ticket ∧ u.book.lastStrike = s.part.book.lastStrike ∧
          u.play.state = (if s.part.settings.gapTime = 0 then .idle else .gap) ∧ u.play.entry = none ∧
          u.play.lastOutcome = some { ticket := ticket, song := song.song, ending := .ended .skipped } ∧
          (u.scorer.result.map fun r => (r.ticket, r.song, r.edition, r.kind, r.unread)) =
            some (ticket, song.song, song.blk.edition, .skipped, true) ∧
          u.reader = Reader.reset ∧
          u.attn.pending = { s.part.attn.pending with play := true, score := true, book := true })) ∧
    (lastTick s.part.play.hold = false → exec .holdExpiry s = .next s) ∧
    (∀ f : AudioFrame, s.part.play.state = .holding → s.part.play.hold = some 1 → s.part.scorer.window.length + 1 < 480 →
      Part.quiet { s.part with play := { s.part.play with hold := none } } = true →
      ∃ u : Machine.Part, exec (.audioFrame f) s = .next { s with part := u } ∧ u.play.hold = none ∧
        u.play.state ≠ .holding ∧
        (s.part.settings.holdAction = .start → u.play.state = .running ∧ u.play.time = s.part.play.time))

/-- R128, R130, R131, R152, R167 to R170, R52: at an audio frame in RUNNING song time rises by 25 + tempo steps; NOTEs it reaches are scored and leave, BEATs leave, and
at the duration the song ends ENDED. NUDGE moves song time at once and answers with it in milliseconds; forward it excludes the NOTEs it passes from scoring, and
at the duration the song ends. A NUDGE below -500 or above 2000 is refused BAD FORM, and outside RUNNING and PAUSED NOT PLAYING. In
every other state an audio frame moves no song time: it joins the window and each running timer has one tick less. The end of a song writes the result record
from the seats as they then stand, each with its status and score, and sets the score notice of every slot with a claim. It shows the score card with the groups of that
record's seats and loads CARD with the card time; with a card time of 0 no card is shown and CARD is stopped. Song time in an answer is in whole
milliseconds (assumption 23), and an audio frame of a part that is quiet expires no timer (assumption 2). Every seat
becomes DONE, one that did not sing too (assumption 38). -/
def Obligations.SongClockAdvances : Prop :=
  (∀ (f : AudioFrame) (s : State) (time : Nat), s.part.play.state = .running → s.part.scorer.window.length + 1 < 480 →
    s.part.quiet = true → time = s.part.play.time + (25 + s.part.play.tempo).toNat →
    (time < s.part.durationSteps →
      ∃ u : Machine.Part, exec (.audioFrame f) s = .next { s with part := u } ∧ u.play.time = time ∧
        u.play.state = .running ∧ u.scorer.window = f :: s.part.scorer.window ∧ u.book = s.part.book ∧
        (s.part.reader.state ≠ .stalled → u.reader = { s.part.reader with
          notes := s.part.reader.notes.filter fun n => time < n.stop * 1200
          beats := s.part.reader.beats.filter fun b => time < b * 1200 }) ∧
        (∀ n i, s.part.reader.notes = [n] → n.stop * 1200 ≤ time → i < 4 → s.part.shaped →
          (u.seat i).notes = (scoreSeat n i (s.part.seat i)).notes ∧
          (u.seat i).weighted = (scoreSeat n i (s.part.seat i)).weighted ∧
          (u.seat i).durations = (scoreSeat n i (s.part.seat i)).durations)) ∧
    (s.part.cueWf → ∀ (ticket : Nat) (song : HeldSong), s.part.play.entry = some ticket →
      s.part.play.song = some song → song.blk.duration * 1200 ≤ time →
      ∃ u : Machine.Part, exec (.audioFrame f) s = .next { s with part := u.promoteIfDue } ∧ u.play.entry = none ∧
        u.play.time = song.blk.duration * 1200 ∧
        u.play.lastOutcome = some { ticket := ticket, song := song.song, ending := .ended .ended } ∧
        (u.scorer.result.map fun r => (r.ticket, r.kind)) = some (ticket, .ended) ∧
        u.book.entries = withoutTicket s.part.book.entries ticket ∧ u.attn.pending.score = true)) ∧
  (∀ (f : AudioFrame) (s : State), s.part.play.state ≠ .running → s.part.scorer.window.length + 1 < 480 → s.part.quiet = true →
    s.part.promotionDue = false →
    exec (.audioFrame f) s =
      .next { s with part := { s.part.tick with scorer := { s.part.scorer with window := f :: s.part.scorer.window } } }) ∧
  (∀ (tag b0 b1 : Byte) (ms : Int) (s : State), s.part.ready → ofS16 b0 b1 = ms →
    (ms < -500 ∨ 2000 < ms → exec (.nudge tag [b0, b1]) s = .next (s.refused tag .badForm)) ∧
    (-500 ≤ ms → ms ≤ 2000 → s.part.playing = false →
      exec (.nudge tag [b0, b1]) s = .next (s.refused tag .notPlaying)) ∧
    (s.part.playing = true → s.part.play.time ≤ s.part.durationSteps →
      (-500 ≤ ms → ms ≤ 0 → ∀ time : Nat, time = s.part.play.time - ms.natAbs * 1200 →
        exec (.nudge tag [b0, b1]) s = .next (State.answered { s with part := { s.part with
          play := { s.part.play with time := time } } } tag .ok (u24 (time / 1200)))) ∧
      (0 < ms → ms ≤ 2000 → ∀ time : Nat, time = s.part.play.time + ms.natAbs * 1200 →
        (time < s.part.durationSteps →
          ∃ u : Machine.Part, exec (.nudge tag [b0, b1]) s =
              .next (State.answered { s with part := u } tag .ok (u24 (time / 1200))) ∧
            u.play.time = time ∧ u.play.state = s.part.play.state ∧ u.scorer = s.part.scorer ∧ u.book = s.part.book ∧
            (s.part.reader.state ≠ .stalled →
              u.reader.notes = s.part.reader.notes.filter (fun n => time < n.stop * 1200) ∧
              u.reader.beats = s.part.reader.beats.filter (fun b => time < b * 1200))) ∧
        (s.part.cueWf → ∀ (ticket : Nat) (song : HeldSong), s.part.play.entry = some ticket →
          s.part.play.song = some song → song.blk.duration * 1200 ≤ time →
          ∃ u : Machine.Part, exec (.nudge tag [b0, b1]) s =
              .next (s.okThenPromote tag u (u24 song.blk.duration)) ∧ u.play.entry = none ∧
            u.play.lastOutcome = some { ticket := ticket, song := song.song, ending := .ended .ended } ∧
            (u.scorer.result.map fun r => (r.ticket, r.kind)) = some (ticket, .ended))))) ∧
  (∀ (t : Tally) (d : Nat), 0 < t.windows →
    ((noteScore t d).num : Rat) / ((noteScore t d).den : Rat) =
      (d : Rat) * (7 / 10 * (((t.hit : Rat) + (t.near : Rat) / 2) / (t.windows : Rat)) +
        2 / 10 * (if t.onset = .early then 1 else 0) +
        1 / 10 * (((t.hit + t.near + t.miss : Nat) : Rat) / (t.windows : Rat)))) ∧
  (∀ (p : Part) (e : Entry) (song : HeldSong) (kind : EndKind), p.heldBookEntry = some e → p.play.song = some song →
    ((p.endSong kind).scorer.result = some
      { ticket := e.ticket, song := song.song, edition := song.blk.edition, kind := kind,
        seats := p.readHandsets.scorer.seats.map seatResult, unread := true,
        previousUnread := (p.scorer.result.map ResultRecord.unread).getD false }) ∧
    (∀ i, i < p.scorer.seats.length → p.readHandsets.seat i =
      { p.seat i with handset := if i < e.singers then e.seats.getD i none else (p.seat i).handset }) ∧
    (∀ x ∈ (p.endSong kind).scorer.seats, x.state = .done) ∧
    (p.display.cardTime ≠ 0 →
      (p.endSong kind).lyric.card = { shown := true, groups := groupsOf (p.readHandsets.scorer.seats.map seatResult) } ∧
      (p.endSong kind).lyric.cardTimer = some (1000 * p.display.cardTime * 48)) ∧
    (p.display.cardTime = 0 →
      (p.endSong kind).lyric.card = { shown := false, groups := [] } ∧ (p.endSong kind).lyric.cardTimer = none) ∧
    ∀ slot seat, p.shaped → slot ≤ 16 → (∀ n, some n ∈ e.seats → 1 ≤ n) → e.seats[seat]? = some (some slot) →
      (∀ n, e.seats[n]? = some (some slot) → n = seat) → seat < 4 →
      ((p.endSong kind).store slot).score =
        some { ticket := e.ticket, seat := seat, score := (seatResult (p.readHandsets.seat seat)).score }) ∧
  ∀ x : Seat,
    (seatResult x).status = (if x.state ≠ .singing then .notUsed else if x.micSeen = false then .noMic
      else if x.durations = 0 then .noNotes else .scored) ∧
    (seatResult x).score =
      (if x.state = .singing ∧ x.micSeen = true ∧ x.durations ≠ 0 then 10000 * x.weighted.num / (x.weighted.den * x.durations)
      else 0)

/-- R119, R120, R122, R123, R127, R125, R102, R96, R117, R118, R192: the completion of a stream fetch. A usable header gives the title card its content; an unusable one strikes the CUED entry
DAMAGED and sets DAMAGED on the catalog entry; an UNCORRECTABLE stream page is counted and recorded as a READ fault; a readable page of a STALLED reader stands
FULL; a fetch given up reaches the reader no more. In STAGING a usable header or a stream page lets the reader examine all it can, and then staging ready, if it
holds, is acted on (the model's choice, assumption 48): with start-pending set the play context enters RUNNING; else it enters HOLDING with HOLD loaded
with the cue hold time, and with a cue hold time of 0 the hold action is taken, which enters RUNNING or strikes the CUED entry SKIPPED. That the arbiter grants before the promotion that is due is made is the model's choice (assumption 21).
The bytes of a LINE, a NOTE or a BEAT that is in range are read as that record, and a NOTE out of range is skipped. In STAGING and HOLDING a record of a lower key than
the last accepted is skipped and counted, as is a NOTE that starts where the last of its part does; another is accepted: it joins its queue, of 16 LINEs, 96
NOTEs or 8 BEATs, or is held with the reader STALLED when the queue is full. An accepted NOTE ends the last of its part that overlaps it. -/
def Obligations.StreamFetchIsJudged : Prop :=
  (∀ (d : Fin 2) (read : PageRead) (r : Request) (song : HeldSong) (s : State), (s.part.die d).op = some r →
    r.requester = .stream → s.part.play.song = some song →
    (r.givenUp = true → s.part.promotionDue = false →
      ∃ u : Machine.Part, exec (.streamFetchComplete d read) s = .next { s with part := u } ∧ u.reader = s.part.reader ∧
        u.play = s.part.play ∧ u.book = s.part.book ∧ u.lyric = s.part.lyric) ∧
    (r.givenUp = false →
      (∀ page, r.page = 0 → s.part.play.state = .staging → s.part.play.cueHold ≠ 0 → readData read = some page →
        headerUsable song page = true →
        ∃ u : Machine.Part, exec (.streamFetchComplete d read) s = .next { s with part := u } ∧
          u.lyric.title = { s.part.lyric.title with content := some (titleContentOf page) } ∧
          u.play.entry = s.part.play.entry ∧ u.play.song = some song ∧ u.book.lastStrike = s.part.book.lastStrike) ∧
      (∀ ticket, r.page = 0 → s.part.play.state = .staging → s.part.cueWf → s.part.play.entry = some ticket →
        (∀ page, readData read = some page → headerUsable song page = false) →
        ∃ u : Machine.Part, exec (.streamFetchComplete d read) s = .next { s with part := (u.grant d).promoteIfDue } ∧
          u.book.entries = withoutTicket s.part.book.entries ticket ∧
          (u.book.lastStrike.map fun x => (x.ticket, x.reason)) = some (ticket, .damaged) ∧
          u.play.state = .idle ∧ u.play.entry = none ∧ u.reader = Reader.reset ∧
          u.play.lastOutcome = some { ticket := ticket, song := song.song, ending := .struck .damaged } ∧
          u.attn.pending.play = true ∧ u.attn.pending.book = true ∧
          (∀ c, s.part.catEntry song.song = some c → c.successor = none →
            (u.catEntry song.song).map CatEntry.damaged = some true)) ∧
      (1 ≤ r.page → s.part.play.state = .running → readOutcome read = .uncorrectable →
        ∃ u : Machine.Part, exec (.streamFetchComplete d read) s = .next { s with part := u } ∧
          u.play.damagedPages = satInc 62 s.part.play.damagedPages ∧ u.attn.pending.library = true ∧
          u.lib.faultCount = satInc 255 s.part.lib.faultCount ∧
          u.lib.lastFault = some { kind := .read, die := d, block := r.block } ∧ u.book = s.part.book ∧
          u.play.state = .running) ∧
      (∀ page, 1 ≤ r.page → s.part.play.state = .running → s.part.reader.state = .stalled → readData read = some page →
        ∃ u : Machine.Part, exec (.streamFetchComplete d read) s = .next { s with part := u } ∧
          u.reader = s.part.reader.setBuffer (s.part.reader.awaits r.page) (.full r.page page) ∧
          u.play = s.part.play) ∧
      (∀ (ticket : Nat) (q v : Machine.Part) (stagingReady : Prop), s.part.play.state = .staging → s.part.cueWf →
        s.part.play.entry = some ticket → q = (s.part.opEnds d).pageReadEffects d r.block (readOutcome read) →
        ((r.page = 0 ∧ ∃ page, readData read = some page ∧ headerUsable song page = true ∧
            v = (q.headerTaken song page).readerRun) ∨
          (1 ≤ r.page ∧ v = (q.pageTaken song r.page (readData read)).readerRun)) →
        (stagingReady ↔ v.reader.state ≠ .idle ∧ (v.reader.keyReached = true ∨ v.reader.lines.length = 16 ∨
          v.reader.notes.length = 96 ∨ v.reader.beats.length = 8 ∨ v.reader.state = .finished)) →
        (¬stagingReady →
          ∃ u : Machine.Part, exec (.streamFetchComplete d read) s = .next { s with part := u } ∧ u.play = v.play ∧
            u.play.state = .staging ∧ u.reader = v.reader ∧ u.book = s.part.book ∧ u.scorer = s.part.scorer) ∧
        (stagingReady → s.part.play.startPending = false → s.part.play.cueHold ≠ 0 →
          ∃ u : Machine.Part, exec (.streamFetchComplete d read) s = .next { s with part := u } ∧
            u.play = { v.play with state := .holding, hold := some (1000 * s.part.play.cueHold * 48) } ∧
            u.reader = v.reader ∧ u.book = s.part.book ∧ u.scorer = s.part.scorer) ∧
        (stagingReady → s.part.play.startPending = true ∨ s.part.play.cueHold = 0 ∧ s.part.settings.holdAction = .start →
          ∃ u : Machine.Part, exec (.streamFetchComplete d read) s = .next { s with part := u } ∧
            u.play = { v.play with state := .running, hold := none, startPending := false } ∧ u.reader = v.reader ∧
            u.book = { s.part.book with entries := s.part.book.entries.map fun x =>
              if x.ticket = ticket then { x with state := .playing } else x } ∧
            u.scorer = { s.part.scorer with seats := s.part.scorer.seats.map fun (x : Seat) =>
              if x.state = .armed then { x with state := .singing } else x } ∧
            u.attn.pending.play = true) ∧
        (stagingReady → s.part.play.startPending = false → s.part.play.cueHold = 0 → s.part.settings.holdAction = .skip →
          ∃ u : Machine.Part, exec (.streamFetchComplete d read) s = .next { s with part := (u.grant d).promoteIfDue } ∧
            u.book.entries = withoutTicket s.part.book.entries ticket ∧
            (u.book.lastStrike.map fun x => (x.ticket, x.reason)) = some (ticket, .skipped) ∧
            u.play.state = (if s.part.settings.gapTime = 0 then .idle else .gap) ∧ u.play.entry = none ∧
            u.play.song = none ∧ u.play.hold = none ∧
            u.play.gap = (if s.part.settings.gapTime = 0 then none else some (1000 * s.part.settings.gapTime * 48)) ∧
            u.play.lastOutcome = some { ticket := ticket, song := song.song, ending := .struck .skipped } ∧
            u.reader = Reader.reset ∧ (∀ x ∈ u.scorer.seats, x.state = .idle) ∧
            u.attn.pending.play = true ∧ u.attn.pending.book = true)))) ∧
  (∀ (blk : SongBlock) (before after : List Byte) (r : Record), blk.parts ≤ 4 → blk.duration < 2 ^ 24 →
    recordInRange blk r = true →
    examine blk (before ++ r.bytes ++ after) before.length = .record r (before.length + r.bytes.length)) ∧
  (∀ (blk : SongBlock) (before after : List Byte) (part number start stop : Nat), part < 255 → number < 256 → start < 2 ^ 24 →
    stop < 2 ^ 24 → ¬(part < blk.parts ∧ 36 ≤ number ∧ number ≤ 96 ∧ start < stop ∧ stop ≤ blk.duration) →
    examine blk (before ++ (Record.note part number start stop).bytes ++ after) before.length =
      .skipRecord (before.length + 9)) ∧
  ∀ (p : Part) (keyed : Nat → Reader), (p.play.state = .staging ∨ p.play.state = .holding) →
    (∀ t, keyed t = { p.reader with lastKey := some t, keyReached := p.reader.keyReached || decide (8000 ≤ t) }) →
    (∀ r k, p.reader.lastKey = some k → r.key < k →
      p.takeRecord r = { p with play := { p.play with skippedRecords := satInc 65535 p.play.skippedRecords } }) ∧
    (∀ t, (∀ k, p.reader.lastKey = some k → k ≤ t) →
      (p.reader.beats.length < 8 → p.takeRecord (.beat t) = { p with reader := { keyed t with beats := p.reader.beats ++ [t] } }) ∧
      (8 ≤ p.reader.beats.length →
        p.takeRecord (.beat t) = { p with reader := { keyed t with held := some (.beat t), state := .stalled } })) ∧
    (∀ l, (∀ k, p.reader.lastKey = some k → k ≤ l.firstStart) →
      (p.reader.lines.length < 16 → p.takeRecord (.line l) = { p with reader := { keyed l.firstStart with
        lines := p.reader.lines ++ [{ line := l, ordinal := p.reader.ordinals, given := false }]
        ordinals := p.reader.ordinals + 1 } }) ∧
      (16 ≤ p.reader.lines.length → p.takeRecord (.line l) = { p with reader := { keyed l.firstStart with
        held := some (.line l), state := .stalled } })) ∧
    ∀ part number start stop : Nat, (∀ k, p.reader.lastKey = some k → k ≤ start) →
      (p.reader.lastStart part = some start → p.takeRecord (.note part number start stop) =
        { p with play := { p.play with skippedRecords := satInc 65535 p.play.skippedRecords } }) ∧
      (p.reader.lastStart part ≠ some start → ∀ notes : List QueuedNote,
        notes = p.reader.notes.map (fun n =>
          if n.part = part ∧ p.reader.lastStart part = some n.start ∧ start < n.stop then { n with stop := start } else n) →
        (notes.length < 96 → p.takeRecord (.note part number start stop) = { p with reader := { keyed start with
          lastStarts := p.reader.lastStarts.set part (some start)
          notes := notes ++ [{ part := part, number := number, start := start, stop := stop, key := none,
                               tallies := List.replicate 4 newTally }] } }) ∧
        (96 ≤ notes.length → p.takeRecord (.note part number start stop) = { p with reader := { keyed start with
          lastStarts := p.reader.lastStarts.set part (some start), notes := notes
          held := some (.note part number start stop), state := .stalled } }))

/-! ## Chapters 7 and 8: lyric display and scoring -/

/-- R147, R148, R153, R162, R171: LOAD GLYPHS writes its codes and no other, DISPLAY SETTINGS its fields and with CLEAR COUNTS both counts, BIND MIC the seat
named, taking the channel from the seat that held it; SCORE REPORT clears the unread flag and SCORE. Each answers OK with the data of its rule and changes
nothing else; parameters out of form or range are refused BAD FORM with nothing changed. The layouts of the answers are assumption 23. -/
def Obligations.DisplayAndScoringCommands : Prop :=
  (∀ (tag : Byte) (params : List Byte) (s : State), s.part.ready →
    ((glyphParams params = none → exec (.loadGlyphs tag params) s = .next (s.refused tag .badForm)) ∧
      (∀ first glyphs, glyphParams params = some (first, glyphs) →
        exec (.loadGlyphs tag params) s = .next (State.answered { s with part := { s.part with
          glyphs := writeGlyphs first glyphs s.part.glyphs } } tag .ok (u16 glyphs.length)))) ∧
    ((displayParams s.part.display params = none →
        exec (.displaySettings tag params) s = .next (s.refused tag .badForm)) ∧
      (∀ d clear, displayParams s.part.display params = some (d, clear) → d.upperBaseline + 32 ≤ d.lowerBaseline ∧
        exec (.displaySettings tag params) s = .next (State.answered { s with part := { s.part with
          display := d
          lyric := if clear then { s.part.lyric with missing := 0, truncated := 0 } else s.part.lyric } } tag .ok
            (Part.displayBytes { s.part with display := d })))) ∧
    ((bindParams params = none → exec (.bindMic tag params) s = .next (s.refused tag .badForm)) ∧
      (∀ seat channel, bindParams params = some (seat, channel) → s.part.shaped →
        ∃ u : Machine.Part, exec (.bindMic tag params) s =
            .next (State.answered { s with part := u } tag .ok u.bindingBytes) ∧
          u = { s.part with scorer := { s.part.scorer with seats := u.scorer.seats } } ∧
          u.seat seat = { s.part.seat seat with channel := channel } ∧
          (∀ i, i < 4 → i ≠ seat → u.seat i = { s.part.seat i with
            channel := if channel.isSome = true ∧ (s.part.seat i).channel = channel then none
              else (s.part.seat i).channel }))) ∧
    exec (.scoreReport tag []) s = .next (State.answered { s with part := { s.part with
      scorer := { s.part.scorer with result := s.part.scorer.result.map fun (r : ResultRecord) => { r with unread := false } }
      attn := { s.part.attn with pending := { s.part.attn.pending with score := false } } } } tag .ok
        s.part.scoreBytes)) ∧
  (∀ (m : List (Nat × Glyph)) (first code : Nat) (glyphs : List Glyph), glyphsWf m = true → 1 ≤ first →
    first + glyphs.length ≤ 2048 → glyphsWf (writeGlyphs first glyphs m) = true ∧
    glyphAt (writeGlyphs first glyphs m) code =
      (if first ≤ code ∧ code < first + glyphs.length then glyphs[code - first]? else glyphAt m code))

/-- R156, R157, R124, R133, R164 to R166: at the audio frame with the window's 480th sample every channel takes its level and presence, and the next window is empty. A
presence rise on the channel of seat 0 starts a HOLDING cue and sets start-pending in STAGING. A channel rises at its third window at or above the threshold
and falls at its 50th below: the rise run and the fall run count up by one, return to 0 at a window on the other side of the threshold, and are both 0 after a
change of presence. A distance folds into -599 to 600; with no estimate a window is SILENT. In RUNNING a window with no queued NOTE, the reader not
FINISHED, is counted unknown; otherwise a NOTE that becomes active captures the entry's key, and a SINGING seat bound to a channel counts the window, classified by
that channel's estimate, in its own counts and in its tally on the active NOTE of its part. The first HIT or NEAR window of a tally judges its onset. A part that
is quiet expires no timer at the audio frame (assumption 2). The pitch estimate is a free value (assumption 14); the samples kept and the full scale of a level are
assumptions 35 and 24, and a rational estimate in whole cents is assumption 25. -/
def Obligations.WindowEndMeasures : Prop :=
  (∀ (f : AudioFrame) (s : State), s.part.scorer.window.length = 479 → s.part.quiet = true →
    ∃ u : Machine.Part, exec (.windowEnd f) s = .next { s with part := u } ∧ u.scorer.window = [] ∧
      (∀ i c, i < 4 → s.part.scorer.channels[i]? = some c → u.scorer.channels[i]? =
        some (presenceStep s.part.settings.voiceThreshold (levelOf (channelSamples (f :: s.part.scorer.window) i)) c).1) ∧
      (∀ i c, i < 4 → s.part.shaped → (s.part.seat 0).channel = some i → s.part.scorer.channels[i]? = some c →
        (presenceStep s.part.settings.voiceThreshold (levelOf (channelSamples (f :: s.part.scorer.window) i)) c).2 = true →
        s.part.settings.autoStart = true → s.part.cueWf →
        (s.part.play.state = .staging → u.play.state = .staging ∧ u.play.startPending = true) ∧
        (s.part.play.state = .holding → u.play.state = .running ∧ u.play.hold = none ∧ u.attn.pending.play = true))) ∧
  (∀ (f : AudioFrame) (s : State) (time : Nat), s.part.scorer.window.length = 479 → s.part.quiet = true →
    s.part.play.state = .running → s.part.reader.state ≠ .stalled → s.part.shaped →
    time = s.part.play.time + (25 + s.part.play.tempo).toNat → time < s.part.durationSteps →
    (s.part.reader.notes = [] → s.part.reader.state ≠ .finished →
      ∃ u : Machine.Part, exec (.windowEnd f) s = .next { s with part := u } ∧
        u.play.unknownWindows = satInc 65535 s.part.play.unknownWindows ∧ u.play.firstUnderrun = true ∧
        u.attn.pending.play = (s.part.attn.pending.play || !s.part.play.firstUnderrun) ∧ u.scorer.seats = s.part.scorer.seats) ∧
    (∀ n key i c w, s.part.reader.notes = [n] → n.key = some key → n.start * 1200 ≤ time → time < n.stop * 1200 → i < 4 →
      (s.part.seat i).state = .singing → (s.part.seat i).part = n.part → (s.part.seat i).channel = some c → c < 4 →
      w = classify s.part.settings.octaveTolerance n.number key
        (pitchEstimate s.part.settings.voiceThreshold (levelOf (channelSamples (f :: s.part.scorer.window) c))
          (channelSamples (f :: s.part.scorer.window) c)) →
      ∃ u m, exec (.windowEnd f) s = .next { s with part := u } ∧
        u.seat i = seatCount w { s.part.seat i with micSeen := true } ∧ u.reader.notes = [m] ∧
        m.tallies[i]? = n.tallies[i]?.map (tallyAdd time n.start n.stop w) ∧
        u.play.unknownWindows = s.part.play.unknownWindows)) ∧
  (∀ (p : Part) (e : Entry) (n : QueuedNote), p.heldBookEntry = some e → p.reader.notes = [n] → p.noteActive n = true →
    n.key = none → p.activate.reader.notes = [{ n with key := some e.key }] ∧
      ∀ i, i < p.scorer.seats.length → p.activate.seat i =
        { p.seat i with handset := if i < e.singers then e.seats.getD i none else (p.seat i).handset }) ∧
  (∀ (time start stop : Nat) (t : Tally) (x : Seat),
    (onsetAt time start stop = .early ↔ time ≤ start * 1200 + 120000 ∧ time ≤ start * 1200 + (stop - start) * 600) ∧
    (onsetAt time start stop = .late ↔ onsetAt time start stop ≠ .early) ∧
    (∀ onset, onset = (if t.onset = .notJudged then onsetAt time start stop else t.onset) →
      tallyAdd time start stop .hit t = { t with hit := t.hit + 1, onset := onset } ∧
      tallyAdd time start stop .near t = { t with near := t.near + 1, onset := onset }) ∧
    tallyAdd time start stop .miss t = { t with miss := t.miss + 1 } ∧
    tallyAdd time start stop .silent t = { t with silent := t.silent + 1 } ∧
    ∀ total voiced, total = satInc 65535 x.total → voiced = satInc 65535 x.voiced →
      seatCount .hit x = { x with total := total, hit := satInc 65535 x.hit, voiced := voiced } ∧
      seatCount .near x = { x with total := total, near := satInc 65535 x.near, voiced := voiced } ∧
      seatCount .miss x = { x with total := total, voiced := voiced } ∧ seatCount .silent x = { x with total := total }) ∧
  (∀ (threshold level : Int) (c d : Channel) (rise : Bool), presenceStep threshold level c = (d, rise) →
    (rise = true ↔ c.present = false ∧ threshold ≤ level ∧ c.riseRun = 2) ∧
    (d.present = (if c.present then !(decide (level < threshold) && c.fallRun == 49)
      else decide (threshold ≤ level) && c.riseRun == 2)) ∧
    (d.riseRun = (if c.present then (if level < threshold ∧ c.fallRun = 49 then 0 else c.riseRun)
      else if threshold ≤ level ∧ c.riseRun ≠ 2 then c.riseRun + 1 else 0)) ∧
    (d.fallRun = (if c.present then (if level < threshold ∧ c.fallRun ≠ 49 then c.fallRun + 1 else 0)
      else if threshold ≤ level ∧ c.riseRun = 2 then 0 else c.fallRun)) ∧
    (d.changed = (c.changed || c.present != d.present)) ∧ d.level = level) ∧
  (∀ (cents : Int), -599 ≤ foldCents cents ∧ foldCents cents ≤ 600 ∧ ∃ k : Int, foldCents cents = cents + 1200 * k) ∧
  (∀ (tolerance : Bool) (number : Nat) (key : Int),
    classify tolerance number key none = .silent ∧
    ∀ x, classify tolerance number key (some x) ≠ .silent ∧
      (classify tolerance number key (some x) = .hit ↔
        (if tolerance then foldCents (centsFrom x number key) else centsFrom x number key).natAbs ≤ 50) ∧
      (classify tolerance number key (some x) = .miss ↔
        100 < (if tolerance then foldCents (centsFrom x number key) else centsFrom x number key).natAbs))

/-- R136 to R144, R146, R150 to R152: in PASS an input frame start loads the watch when the frame it ends is judged well-formed; its expiry enters LOST and raises
VIDEO. In LOST the second well-formed frame in a row enters PASS, loads the watch and raises VIDEO, another returns the run count to 0; an internal frame draws
the lost-video background beneath all else. CARD expiry takes the score card down. A frame under way is judged from its own start (assumption 26), by the format as
it stands at its end, a length of exactly 2 % off being within (the model's choices, assumptions 51 and 27). A watch and
CARD expire on their last tick of 1/48 ms, and with more time remaining or while stopped the row changes nothing: the model's choices (assumptions 2 and 3).
While a song plays, a frame start brings each row up to song time: a row takes its next line once that line's start less the lead and the row's free time are reached,
holds it SHOWN, WIPING or HELD by its times, and clears it at its clear time, which becomes its free time. The line of ordinal 0, and 5,000 ms, end the title card.
The plane is drawn from the state so reached. A syllable is wiped in proportion to its time, and one to four BEATs before the first line give as many dots.
A pixel that lies wholly within a disc 16 px across is drawn in the dots' colour, one that lies wholly outside every disc keeps what is beneath, and left edges of
discs are 24 px apart (the model's choice, assumption 17, as is that nothing is stated of a pixel the edge of a disc crosses). A forward
NUDGE clears a line whose clear time it passes, shown or not. Rows are stated here of one queued line; of two, the upper row goes first (assumption 42). -/
def Obligations.FrameStartsAndVideoWatch : Prop :=
  (∀ (f : InputFrame) (s : State),
    (s.part.lyric.path = .lost →
      (s.part.lyric.frameOpen = false → exec (.inputFrameStart f) s =
        .next { s with part := { s.part with lyric := { s.part.lyric with frameOpen := true } } }) ∧
      (s.part.lyric.frameOpen = true → frameWellFormed s.part.settings.videoFormat f = false →
        exec (.inputFrameStart f) s = .next { s with part := { s.part with lyric := { s.part.lyric with runCount := 0 } } }) ∧
      (s.part.lyric.frameOpen = true → frameWellFormed s.part.settings.videoFormat f = true → s.part.lyric.runCount = 0 →
        exec (.inputFrameStart f) s = .next { s with part := { s.part with lyric := { s.part.lyric with runCount := 1 } } }) ∧
      (s.part.lyric.frameOpen = true → frameWellFormed s.part.settings.videoFormat f = true →
        1 ≤ s.part.lyric.runCount →
        ∃ u : Machine.Part, exec (.inputFrameStart f) s = .next { s with part := u } ∧ u.lyric.path = .pass ∧
          u.lyric.watch = some (watchMs s.part.settings.videoFormat * 48) ∧ u.attn.pending.video = true ∧
          u.book = s.part.book ∧ u.play.state = s.part.play.state ∧ u.play.time = s.part.play.time) ∧
      (∃ u : Machine.Part, exec .internalFrameStart s = .next { s with part := u } ∧
        u.lyric.plane.head? = some (.fill s.part.display.lostBackground) ∧ u.play.state = s.part.play.state ∧
        u.play.time = s.part.play.time ∧ u.book = s.part.book) ∧
      exec .videoWatchExpiry s = .next s) ∧
    (s.part.lyric.path = .pass →
      (∃ u : Machine.Part, exec (.inputFrameStart f) s = .next { s with part := u } ∧ u.lyric.path = .pass ∧
        u.lyric.frameOpen = true ∧
        u.lyric.watch = (if s.part.lyric.frameOpen = true ∧ frameWellFormed s.part.settings.videoFormat f = true then
          some (watchMs s.part.settings.videoFormat * 48) else s.part.lyric.watch) ∧
        u.attn.pending.video = s.part.attn.pending.video ∧ u.play.state = s.part.play.state ∧ u.book = s.part.book ∧
        u.lyric.plane = u.pictureItems ++ u.titleItems ++ u.rowItems true ++ u.rowItems false ++ u.dotItems ++ u.cardItems ∧
        (s.part.playing = false → u.lyric.row0 = s.part.lyric.row0 ∧ u.lyric.row1 = s.part.lyric.row1 ∧
          u.lyric.title = s.part.lyric.title ∧ u.reader = s.part.reader)) ∧
      exec .internalFrameStart s = .next s ∧
      (lastTick s.part.lyric.watch = false → exec .videoWatchExpiry s = .next s) ∧
      (lastTick s.part.lyric.watch = true → exec .videoWatchExpiry s = .next { s with part := { s.part with
        lyric := { s.part.lyric with path := .lost, watch := none, runCount := 0 }
        attn := { s.part.attn with pending := { s.part.attn.pending with video := true } } } })) ∧
    (lastTick s.part.lyric.cardTimer = true → exec .cardExpiry s = .next { s with part := { s.part with
      lyric := { s.part.lyric with card := { shown := false, groups := [] }, cardTimer := none } } }) ∧
    (lastTick s.part.lyric.cardTimer = false → exec .cardExpiry s = .next s)) ∧
  (∀ (f : InputFrame) (q : QueuedLine) (upper : Bool) (clear : Nat) (s : State), s.part.lyric.path = .pass → s.part.playing = true →
    s.part.reader.state ≠ .stalled → s.part.reader.lines = [q] → upper = (q.ordinal % 2 == 0) →
    clear = q.line.lastEnd + s.part.display.clearDelay → (s.part.row (!upper)).line = none →
    ∃ u : Machine.Part, exec (.inputFrameStart f) s = .next { s with part := u } ∧ u.row (!upper) = s.part.row (!upper) ∧
      (5000 * 1200 ≤ s.part.play.time → u.lyric.title = { shown := false, content := none }) ∧
      (s.part.play.time < 5000 * 1200 → q.ordinal ≠ 0 → u.lyric.title = s.part.lyric.title) ∧
      (q.given = false → (s.part.row upper).line = none →
        (s.part.showReached (s.part.row upper).free q = false →
          u.row upper = s.part.row upper ∧ u.reader.lines = [q] ∧
            (s.part.play.time < 5000 * 1200 → u.lyric.title = s.part.lyric.title)) ∧
        (s.part.showReached (s.part.row upper).free q = true →
          (q.ordinal = 0 → u.lyric.title = { shown := false, content := none }) ∧
          (s.part.play.time < clear * 1200 → u.reader.lines = [{ q with given := true }] ∧
            u.row upper = { s.part.row upper with state := s.part.rowStateOf q.line, line := some q.ordinal }) ∧
          (clear * 1200 ≤ s.part.play.time →
            u.reader.lines = [] ∧ u.row upper = { state := .empty, line := none, free := clear }))) ∧
      (q.given = true → (s.part.row upper).line = some q.ordinal →
        (s.part.play.time < clear * 1200 → u.reader.lines = [q] ∧
          u.row upper = { s.part.row upper with state := s.part.rowStateOf q.line }) ∧
        (clear * 1200 ≤ s.part.play.time →
          u.reader.lines = [] ∧ u.row upper = { state := .empty, line := none, free := clear }))) ∧
  (∀ (tag b0 b1 : Byte) (ms : Int) (q : QueuedLine) (upper : Bool) (clear time : Nat) (s : State), s.part.ready →
    s.part.playing = true → ofS16 b0 b1 = ms → 0 < ms → ms ≤ 2000 → time = s.part.play.time + ms.natAbs * 1200 →
    time < s.part.durationSteps → s.part.reader.state ≠ .stalled → s.part.reader.lines = [q] →
    upper = (q.ordinal % 2 == 0) → clear = q.line.lastEnd + s.part.display.clearDelay → (s.part.row (!upper)).line = none →
    (q.given = true ∧ (s.part.row upper).line = some q.ordinal ∨ q.given = false ∧ (s.part.row upper).line = none) →
    ∃ u : Machine.Part, exec (.nudge tag [b0, b1]) s = .next (State.answered { s with part := u } tag .ok (u24 (time / 1200))) ∧
      u.row (!upper) = s.part.row (!upper) ∧
      (time < clear * 1200 → u.reader.lines = [q] ∧ u.row upper = s.part.row upper) ∧
      (clear * 1200 ≤ time → u.reader.lines = [] ∧ u.row upper = { state := .empty, line := none, free := clear })) ∧
  (∀ (p : Part) (l : LineRecord) (q next : QueuedLine) (free : Nat),
    (p.showReached free q = true ↔
      q.line.firstStart * 1200 ≤ p.play.time + p.display.lead * 1200 ∧ free * 1200 ≤ p.play.time) ∧
    (p.play.time < l.firstStart * 1200 → p.rowStateOf l = .shown) ∧
    (l.firstStart * 1200 ≤ p.play.time → p.play.time < l.lastEnd * 1200 → p.rowStateOf l = .wiping) ∧
    (l.firstStart * 1200 ≤ p.play.time → l.lastEnd * 1200 ≤ p.play.time → p.rowStateOf l = .held) ∧
    (p.reader.lineOf (q.ordinal + 2) = none → p.clearTime q = q.line.lastEnd + p.display.clearDelay) ∧
    (p.reader.lineOf (q.ordinal + 2) = some next → p.clearTime q =
      max q.line.lastEnd (min (q.line.lastEnd + p.display.clearDelay) (next.line.firstStart - 200)))) ∧
  (∀ (time w : Nat) (y : Syllable), y.start < y.stop →
    (time < y.start * 1200 → wipedColumns time w y = 0) ∧ (y.stop * 1200 ≤ time → wipedColumns time w y = w) ∧
    (y.start * 1200 ≤ time → time < y.stop * 1200 → ∀ columns, columns = wipedColumns time w y →
      columns * ((y.stop - y.start) * 1200) ≤ (time - y.start * 1200) * w ∧
      (time - y.start * 1200) * w < (columns + 1) * ((y.stop - y.start) * 1200))) ∧
  (∀ (p : Part) (q : QueuedLine) (k : Nat), p.reader.lineOf 0 = some q →
    k = p.reader.beats.countP (fun b => decide (p.play.time < b * 1200) && decide (b < q.line.firstStart)) →
    (p.playing = false ∨ q.line.firstStart * 1200 ≤ p.play.time ∨ k = 0 ∨ 4 < k → p.dotItems = []) ∧
    (p.playing = true → p.play.time < q.line.firstStart * 1200 → 1 ≤ k → k ≤ 4 →
      p.dotItems = [.dots k p.safeLeft (p.display.upperBaseline - 40) p.display.togetherUnwiped])) ∧
  ∀ (count left bottom x y : Nat) (colour under : Colour),
    (∀ i, i < count →
      (∀ u v : Int, (u = x ∨ u = x + 1) → (v = y ∨ v = y + 1) → (u - (left + 24 * i + 8)) ^ 2 + (v - (bottom - 7)) ^ 2 ≤ 8 ^ 2) →
      itemPixel x y under (.dots count left bottom colour) = colour) ∧
    ((∀ i, i < count →
      ∀ u v : Int, (u = x ∨ u = x + 1) → (v = y ∨ v = y + 1) → 8 ^ 2 ≤ (u - (left + 24 * i + 8)) ^ 2 + (v - (bottom - 7)) ^ 2) →
      itemPixel x y under (.dots count left bottom colour) = under)

/-! ## Invariants -/

/-- R40, R48, R155, R159, R147: every step keeps 16 slots, 16 stores, four seats and four channels, and keeps glyph memory in its canonical form. -/
def Obligations.StepKeepsShapeAndGlyphs : Prop :=
  ∀ s t : State, s.part.shaped → glyphsWf s.part.glyphs = true → step s = .next t →
    t.part.shaped ∧ glyphsWf t.part.glyphs = true

/-- R1, R3, R4, R111, R113: every step keeps the book and the play context together: tickets distinct and in range, at most 64 live entries, the play
context's entry first in the book, CUED or PLAYING as its state says and every other entry WAITING, HOLD running in HOLDING alone and GAP in GAP
alone. -/
def Obligations.StepKeepsCue : Prop :=
  ∀ s t : State, s.part.cueWf → s.part.book.wf → step s = .next t → t.part.cueWf ∧ t.part.book.wf

/-- The state right after reset meets every invariant the statements keep. -/
def Obligations.ResetMeetsInvariants : Prop :=
  State.reset.part.port.wf ∧ State.reset.part.shaped ∧ glyphsWf State.reset.part.glyphs = true ∧
    State.reset.part.cueWf ∧ State.reset.part.book.wf

end
end

