-- ==== Sys2Proof/Laws/Arbiter.lean ====
section
/-! SUPPORT. Laws/Arbiter.lean: what the arbiter of a die grants when programs and erases may start. -/

namespace Sys2Proof.Machine

theorem eligible_iff (libwp : Bool) (r : Request) : eligible libwp r = true ↔ mayStart libwp r := by
  simp [eligible, isRead, mayStart]

/-- No request of a class is found where none of that class may start. -/
theorem find_class_none (libwp : Bool) (waiting : List Request) (c : Nat)
    (h : ∀ x ∈ waiting, mayStart libwp x → requestClass x.requester ≠ c) :
    (waiting.find? fun r => eligible libwp r && requestClass r.requester == c) = none := by
  rw [List.find?_eq_none]
  intro x hx hc
  simp only [Bool.and_eq_true, beq_iff_eq, eligible_iff] at hc
  exact h x hx hc.1 hc.2

/-- R101 step 1: the request of the highest class that may start, the first to arrive within it, is chosen. -/
theorem chooseWaiting_first (libwp : Bool) (first rest : List Request) (r : Request) (hr : requestClass r.requester ≤ 5)
    (hmay : mayStart libwp r)
    (hfirst : ∀ y ∈ first, mayStart libwp y → requestClass r.requester < requestClass y.requester)
    (hrest : ∀ y ∈ rest, mayStart libwp y → requestClass r.requester ≤ requestClass y.requester) :
    chooseWaiting libwp (first ++ r :: rest) = some r ∧ (first ++ r :: rest).erase r = first ++ rest := by
  have hlow : ∀ c, c < requestClass r.requester →
      ((first ++ r :: rest).find? fun x => eligible libwp x && requestClass x.requester == c) = none := by
    intro c hc
    refine find_class_none libwp _ c fun x hx hx' => ?_
    simp only [List.mem_append, List.mem_cons] at hx
    rcases hx with hx | hx | hx
    · have := hfirst x hx hx'; omega
    · subst hx; omega
    · have := hrest x hx hx'; omega
  have hat : ((first ++ r :: rest).find? fun x => eligible libwp x && requestClass x.requester == requestClass r.requester) =
      some r := by
    rw [List.find?_append, find_class_none libwp first _ fun x hx hx' => by have := hfirst x hx hx'; omega]
    simp [(eligible_iff libwp r).mpr hmay]
  have hpos : 1 ≤ requestClass r.requester := by cases r.requester <;> simp [requestClass]
  constructor
  · simp only [chooseWaiting, List.findSome?]
    generalize requestClass r.requester = k at *
    have hk : k = 1 ∨ k = 2 ∨ k = 3 ∨ k = 4 ∨ k = 5 := by omega
    rcases hk with rfl | rfl | rfl | rfl | rfl
    · rw [hat]
    · rw [hlow 1 (by omega), hat]
    · rw [hlow 1 (by omega), hlow 2 (by omega), hat]
    · rw [hlow 1 (by omega), hlow 2 (by omega), hlow 3 (by omega), hat]
    · rw [hlow 1 (by omega), hlow 2 (by omega), hlow 3 (by omega), hlow 4 (by omega), hat]
  · rw [List.erase_append_right _ fun hm => by have := hfirst r hm hmay; omega]
    simp

/-- R101 step 2: nothing is chosen where nothing may start. -/
theorem chooseWaiting_none (libwp : Bool) (waiting : List Request) (h : ∀ y ∈ waiting, ¬mayStart libwp y) :
    chooseWaiting libwp waiting = none := by
  unfold chooseWaiting
  rw [List.findSome?_eq_none_iff]
  intro c _
  exact find_class_none libwp waiting c fun x hx hx' => absurd hx' (h x hx)

/-- R106: the oldest block of a die stands behind blocks of the other die alone. -/
theorem oldestReclaim_first (first rest : List (Nat × Nat)) (d block : Nat) (h : ∀ x ∈ first, x.1 ≠ d) :
    oldestReclaim (first ++ (d, block) :: rest) d = some block := by
  have hnone : (first.find? fun x => x.1 == d) = none := by
    rw [List.find?_eq_none]
    intro x hx
    simp [h x hx]
  simp [oldestReclaim, List.find?_append, hnone]

@[simp] theorem Part.mapDie_die (p : Part) (d : Nat) (f : Die → Die) : (p.mapDie d f).die d = f (p.die d) := by
  unfold Part.mapDie Part.die
  split <;> rfl

/-- R106: no block of a die in the reclaim list. -/
theorem oldestReclaim_none (reclaim : List (Nat × Nat)) (d : Nat) (h : ∀ x ∈ reclaim, x.1 ≠ d) : oldestReclaim reclaim d = none := by
  have hnone : (reclaim.find? fun x => x.1 == d) = none := by
    rw [List.find?_eq_none]
    intro x hx
    simp [h x hx]
  simp [oldestReclaim, hnone]

/-- R101, R103: the arbiter's choice. -/
theorem Part.grant_granted (p : Part) (d : Nat) : p.granted d ((p.grant d).die d) := by
  constructor
  · intro r first rest hw hr hmay hfirst hrest
    obtain ⟨hc, he⟩ := chooseWaiting_first p.lib.libwp first rest r hr hmay hfirst hrest
    rw [← hw] at hc
    simp only [Part.grant, hc, Part.startOp, Part.mapDie_die]
    rw [hw, he]
    rfl
  · intro hnone
    have hc := chooseWaiting_none p.lib.libwp _ hnone
    refine ⟨fun first rest block hhigh hm hr hfirst => ?_, fun h => ?_⟩
    · simp only [Part.grant, hc, hr, oldestReclaim_first first rest d block hfirst]
      simp [hhigh, hm, Part.startOp, loadMs, Config.dieTimeoutMs, Config.ticksPerMs]
    · simp only [Part.grant, hc]
      cases ho : oldestReclaim p.lib.reclaim d with
      | none => simp
      | some b =>
        rcases h with h | h | h
        · simp [h]
        · simp [h]
        · rw [oldestReclaim_none _ _ h] at ho
          simp at ho

/-- R101: the arbiter of one die leaves the other die, the reclaim list, LIBWP_N, the sources and the book alone. -/
theorem Part.grantIfIdle_others (p : Part) (d e : Nat) (hd : d < 2) (he : e < 2) (h : e ≠ d) :
    (p.grantIfIdle d).die e = p.die e ∧ (p.grantIfIdle d).lib.reclaim = p.lib.reclaim ∧
      (p.grantIfIdle d).lib.state = p.lib.state ∧ (p.grantIfIdle d).lib.libwp = p.lib.libwp ∧
      (p.grantIfIdle d).attn = p.attn ∧ (p.grantIfIdle d).book = p.book := by
  unfold Part.grantIfIdle Part.grant Part.startOp Part.mapDie
  have : (d = 0 ∧ e = 1) ∨ (d = 1 ∧ e = 0) := by omega
  rcases this with ⟨rfl, rfl⟩ | ⟨rfl, rfl⟩ <;> (repeat' split) <;> simp_all [Part.die]

end Sys2Proof.Machine
end

