-- ==== Sys2Proof/Laws/State.lean ====
section
/-! SUPPORT. Laws/State.lean: the fields of the updates of the part, one lemma for each field, so that no later proof unfolds a record
update. -/

namespace Sys2Proof.Machine

@[simp] theorem State.mapPart_part (s : State) (f : Part → Part) : (s.mapPart f).part = f s.part := rfl
@[simp] theorem State.mapPart_pending (s : State) (f : Part → Part) : (s.mapPart f).pending = s.pending := rfl

section
variable (p : Part)

@[simp] theorem Part.mapSlot_settings (n : Nat) (f : Slot → Slot) : (p.mapSlot n f).settings = p.settings := rfl
@[simp] theorem Part.mapSlot_display (n : Nat) (f : Slot → Slot) : (p.mapSlot n f).display = p.display := rfl
@[simp] theorem Part.mapSlot_port (n : Nat) (f : Slot → Slot) : (p.mapSlot n f).port = p.port := rfl
@[simp] theorem Part.mapSlot_attn (n : Nat) (f : Slot → Slot) : (p.mapSlot n f).attn = p.attn := rfl
@[simp] theorem Part.mapSlot_book (n : Nat) (f : Slot → Slot) : (p.mapSlot n f).book = p.book := rfl
@[simp] theorem Part.mapSlot_stores (n : Nat) (f : Slot → Slot) : (p.mapSlot n f).stores = p.stores := rfl
@[simp] theorem Part.mapSlot_line (n : Nat) (f : Slot → Slot) : (p.mapSlot n f).line = p.line := rfl
@[simp] theorem Part.mapSlot_catalog (n : Nat) (f : Slot → Slot) : (p.mapSlot n f).catalog = p.catalog := rfl
@[simp] theorem Part.mapSlot_install (n : Nat) (f : Slot → Slot) : (p.mapSlot n f).install = p.install := rfl
@[simp] theorem Part.mapSlot_lib (n : Nat) (f : Slot → Slot) : (p.mapSlot n f).lib = p.lib := rfl
@[simp] theorem Part.mapSlot_play (n : Nat) (f : Slot → Slot) : (p.mapSlot n f).play = p.play := rfl
@[simp] theorem Part.mapSlot_reader (n : Nat) (f : Slot → Slot) : (p.mapSlot n f).reader = p.reader := rfl
@[simp] theorem Part.mapSlot_lyric (n : Nat) (f : Slot → Slot) : (p.mapSlot n f).lyric = p.lyric := rfl
@[simp] theorem Part.mapSlot_glyphs (n : Nat) (f : Slot → Slot) : (p.mapSlot n f).glyphs = p.glyphs := rfl
@[simp] theorem Part.mapSlot_scorer (n : Nat) (f : Slot → Slot) : (p.mapSlot n f).scorer = p.scorer := rfl

@[simp] theorem Part.mapStore_settings (n : Nat) (f : Store → Store) : (p.mapStore n f).settings = p.settings := rfl
@[simp] theorem Part.mapStore_display (n : Nat) (f : Store → Store) : (p.mapStore n f).display = p.display := rfl
@[simp] theorem Part.mapStore_port (n : Nat) (f : Store → Store) : (p.mapStore n f).port = p.port := rfl
@[simp] theorem Part.mapStore_attn (n : Nat) (f : Store → Store) : (p.mapStore n f).attn = p.attn := rfl
@[simp] theorem Part.mapStore_book (n : Nat) (f : Store → Store) : (p.mapStore n f).book = p.book := rfl
@[simp] theorem Part.mapStore_slots (n : Nat) (f : Store → Store) : (p.mapStore n f).slots = p.slots := rfl
@[simp] theorem Part.mapStore_line (n : Nat) (f : Store → Store) : (p.mapStore n f).line = p.line := rfl
@[simp] theorem Part.mapStore_catalog (n : Nat) (f : Store → Store) : (p.mapStore n f).catalog = p.catalog := rfl
@[simp] theorem Part.mapStore_install (n : Nat) (f : Store → Store) : (p.mapStore n f).install = p.install := rfl
@[simp] theorem Part.mapStore_lib (n : Nat) (f : Store → Store) : (p.mapStore n f).lib = p.lib := rfl
@[simp] theorem Part.mapStore_play (n : Nat) (f : Store → Store) : (p.mapStore n f).play = p.play := rfl
@[simp] theorem Part.mapStore_reader (n : Nat) (f : Store → Store) : (p.mapStore n f).reader = p.reader := rfl
@[simp] theorem Part.mapStore_lyric (n : Nat) (f : Store → Store) : (p.mapStore n f).lyric = p.lyric := rfl
@[simp] theorem Part.mapStore_glyphs (n : Nat) (f : Store → Store) : (p.mapStore n f).glyphs = p.glyphs := rfl
@[simp] theorem Part.mapStore_scorer (n : Nat) (f : Store → Store) : (p.mapStore n f).scorer = p.scorer := rfl

@[simp] theorem Part.mapCatEntry_settings (song : Nat) (f : CatEntry → CatEntry) : (p.mapCatEntry song f).settings = p.settings := rfl
@[simp] theorem Part.mapCatEntry_display (song : Nat) (f : CatEntry → CatEntry) : (p.mapCatEntry song f).display = p.display := rfl
@[simp] theorem Part.mapCatEntry_port (song : Nat) (f : CatEntry → CatEntry) : (p.mapCatEntry song f).port = p.port := rfl
@[simp] theorem Part.mapCatEntry_attn (song : Nat) (f : CatEntry → CatEntry) : (p.mapCatEntry song f).attn = p.attn := rfl
@[simp] theorem Part.mapCatEntry_book (song : Nat) (f : CatEntry → CatEntry) : (p.mapCatEntry song f).book = p.book := rfl
@[simp] theorem Part.mapCatEntry_slots (song : Nat) (f : CatEntry → CatEntry) : (p.mapCatEntry song f).slots = p.slots := rfl
@[simp] theorem Part.mapCatEntry_stores (song : Nat) (f : CatEntry → CatEntry) : (p.mapCatEntry song f).stores = p.stores := rfl
@[simp] theorem Part.mapCatEntry_line (song : Nat) (f : CatEntry → CatEntry) : (p.mapCatEntry song f).line = p.line := rfl
@[simp] theorem Part.mapCatEntry_install (song : Nat) (f : CatEntry → CatEntry) : (p.mapCatEntry song f).install = p.install := rfl
@[simp] theorem Part.mapCatEntry_lib (song : Nat) (f : CatEntry → CatEntry) : (p.mapCatEntry song f).lib = p.lib := rfl
@[simp] theorem Part.mapCatEntry_play (song : Nat) (f : CatEntry → CatEntry) : (p.mapCatEntry song f).play = p.play := rfl
@[simp] theorem Part.mapCatEntry_reader (song : Nat) (f : CatEntry → CatEntry) : (p.mapCatEntry song f).reader = p.reader := rfl
@[simp] theorem Part.mapCatEntry_lyric (song : Nat) (f : CatEntry → CatEntry) : (p.mapCatEntry song f).lyric = p.lyric := rfl
@[simp] theorem Part.mapCatEntry_glyphs (song : Nat) (f : CatEntry → CatEntry) : (p.mapCatEntry song f).glyphs = p.glyphs := rfl
@[simp] theorem Part.mapCatEntry_scorer (song : Nat) (f : CatEntry → CatEntry) : (p.mapCatEntry song f).scorer = p.scorer := rfl

@[simp] theorem Part.mapDie_settings (d : Nat) (f : Die → Die) : (p.mapDie d f).settings = p.settings := by unfold Part.mapDie; split <;> rfl
@[simp] theorem Part.mapDie_display (d : Nat) (f : Die → Die) : (p.mapDie d f).display = p.display := by unfold Part.mapDie; split <;> rfl
@[simp] theorem Part.mapDie_port (d : Nat) (f : Die → Die) : (p.mapDie d f).port = p.port := by unfold Part.mapDie; split <;> rfl
@[simp] theorem Part.mapDie_attn (d : Nat) (f : Die → Die) : (p.mapDie d f).attn = p.attn := by unfold Part.mapDie; split <;> rfl
@[simp] theorem Part.mapDie_book (d : Nat) (f : Die → Die) : (p.mapDie d f).book = p.book := by unfold Part.mapDie; split <;> rfl
@[simp] theorem Part.mapDie_slots (d : Nat) (f : Die → Die) : (p.mapDie d f).slots = p.slots := by unfold Part.mapDie; split <;> rfl
@[simp] theorem Part.mapDie_stores (d : Nat) (f : Die → Die) : (p.mapDie d f).stores = p.stores := by unfold Part.mapDie; split <;> rfl
@[simp] theorem Part.mapDie_line (d : Nat) (f : Die → Die) : (p.mapDie d f).line = p.line := by unfold Part.mapDie; split <;> rfl
@[simp] theorem Part.mapDie_catalog (d : Nat) (f : Die → Die) : (p.mapDie d f).catalog = p.catalog := by unfold Part.mapDie; split <;> rfl
@[simp] theorem Part.mapDie_install (d : Nat) (f : Die → Die) : (p.mapDie d f).install = p.install := by unfold Part.mapDie; split <;> rfl
@[simp] theorem Part.mapDie_play (d : Nat) (f : Die → Die) : (p.mapDie d f).play = p.play := by unfold Part.mapDie; split <;> rfl
@[simp] theorem Part.mapDie_reader (d : Nat) (f : Die → Die) : (p.mapDie d f).reader = p.reader := by unfold Part.mapDie; split <;> rfl
@[simp] theorem Part.mapDie_lyric (d : Nat) (f : Die → Die) : (p.mapDie d f).lyric = p.lyric := by unfold Part.mapDie; split <;> rfl
@[simp] theorem Part.mapDie_glyphs (d : Nat) (f : Die → Die) : (p.mapDie d f).glyphs = p.glyphs := by unfold Part.mapDie; split <;> rfl
@[simp] theorem Part.mapDie_scorer (d : Nat) (f : Die → Die) : (p.mapDie d f).scorer = p.scorer := by unfold Part.mapDie; split <;> rfl

@[simp] theorem Part.raise_settings (src : Source) : (p.raise src).settings = p.settings := rfl
@[simp] theorem Part.raise_display (src : Source) : (p.raise src).display = p.display := rfl
@[simp] theorem Part.raise_port (src : Source) : (p.raise src).port = p.port := rfl
@[simp] theorem Part.raise_book (src : Source) : (p.raise src).book = p.book := rfl
@[simp] theorem Part.raise_slots (src : Source) : (p.raise src).slots = p.slots := rfl
@[simp] theorem Part.raise_stores (src : Source) : (p.raise src).stores = p.stores := rfl
@[simp] theorem Part.raise_line (src : Source) : (p.raise src).line = p.line := rfl
@[simp] theorem Part.raise_catalog (src : Source) : (p.raise src).catalog = p.catalog := rfl
@[simp] theorem Part.raise_install (src : Source) : (p.raise src).install = p.install := rfl
@[simp] theorem Part.raise_lib (src : Source) : (p.raise src).lib = p.lib := rfl
@[simp] theorem Part.raise_play (src : Source) : (p.raise src).play = p.play := rfl
@[simp] theorem Part.raise_reader (src : Source) : (p.raise src).reader = p.reader := rfl
@[simp] theorem Part.raise_lyric (src : Source) : (p.raise src).lyric = p.lyric := rfl
@[simp] theorem Part.raise_glyphs (src : Source) : (p.raise src).glyphs = p.glyphs := rfl
@[simp] theorem Part.raise_scorer (src : Source) : (p.raise src).scorer = p.scorer := rfl

@[simp] theorem Part.clearSource_settings (src : Source) : (p.clearSource src).settings = p.settings := rfl
@[simp] theorem Part.clearSource_display (src : Source) : (p.clearSource src).display = p.display := rfl
@[simp] theorem Part.clearSource_port (src : Source) : (p.clearSource src).port = p.port := rfl
@[simp] theorem Part.clearSource_book (src : Source) : (p.clearSource src).book = p.book := rfl
@[simp] theorem Part.clearSource_slots (src : Source) : (p.clearSource src).slots = p.slots := rfl
@[simp] theorem Part.clearSource_stores (src : Source) : (p.clearSource src).stores = p.stores := rfl
@[simp] theorem Part.clearSource_line (src : Source) : (p.clearSource src).line = p.line := rfl
@[simp] theorem Part.clearSource_catalog (src : Source) : (p.clearSource src).catalog = p.catalog := rfl
@[simp] theorem Part.clearSource_install (src : Source) : (p.clearSource src).install = p.install := rfl
@[simp] theorem Part.clearSource_lib (src : Source) : (p.clearSource src).lib = p.lib := rfl
@[simp] theorem Part.clearSource_play (src : Source) : (p.clearSource src).play = p.play := rfl
@[simp] theorem Part.clearSource_reader (src : Source) : (p.clearSource src).reader = p.reader := rfl
@[simp] theorem Part.clearSource_lyric (src : Source) : (p.clearSource src).lyric = p.lyric := rfl
@[simp] theorem Part.clearSource_glyphs (src : Source) : (p.clearSource src).glyphs = p.glyphs := rfl
@[simp] theorem Part.clearSource_scorer (src : Source) : (p.clearSource src).scorer = p.scorer := rfl

@[simp] theorem Part.answer_settings (tag : Byte) (o : Outcome) (data : List Byte) : (p.answer tag o data).settings = p.settings := rfl
@[simp] theorem Part.answer_display (tag : Byte) (o : Outcome) (data : List Byte) : (p.answer tag o data).display = p.display := rfl
@[simp] theorem Part.answer_attn (tag : Byte) (o : Outcome) (data : List Byte) : (p.answer tag o data).attn = p.attn := rfl
@[simp] theorem Part.answer_book (tag : Byte) (o : Outcome) (data : List Byte) : (p.answer tag o data).book = p.book := rfl
@[simp] theorem Part.answer_slots (tag : Byte) (o : Outcome) (data : List Byte) : (p.answer tag o data).slots = p.slots := rfl
@[simp] theorem Part.answer_stores (tag : Byte) (o : Outcome) (data : List Byte) : (p.answer tag o data).stores = p.stores := rfl
@[simp] theorem Part.answer_line (tag : Byte) (o : Outcome) (data : List Byte) : (p.answer tag o data).line = p.line := rfl
@[simp] theorem Part.answer_catalog (tag : Byte) (o : Outcome) (data : List Byte) : (p.answer tag o data).catalog = p.catalog := rfl
@[simp] theorem Part.answer_install (tag : Byte) (o : Outcome) (data : List Byte) : (p.answer tag o data).install = p.install := rfl
@[simp] theorem Part.answer_lib (tag : Byte) (o : Outcome) (data : List Byte) : (p.answer tag o data).lib = p.lib := rfl
@[simp] theorem Part.answer_play (tag : Byte) (o : Outcome) (data : List Byte) : (p.answer tag o data).play = p.play := rfl
@[simp] theorem Part.answer_reader (tag : Byte) (o : Outcome) (data : List Byte) : (p.answer tag o data).reader = p.reader := rfl
@[simp] theorem Part.answer_lyric (tag : Byte) (o : Outcome) (data : List Byte) : (p.answer tag o data).lyric = p.lyric := rfl
@[simp] theorem Part.answer_glyphs (tag : Byte) (o : Outcome) (data : List Byte) : (p.answer tag o data).glyphs = p.glyphs := rfl
@[simp] theorem Part.answer_scorer (tag : Byte) (o : Outcome) (data : List Byte) : (p.answer tag o data).scorer = p.scorer := rfl

@[simp] theorem Part.mapEntry_settings (ticket : Nat) (f : Entry → Entry) : (p.mapEntry ticket f).settings = p.settings := rfl
@[simp] theorem Part.mapEntry_display (ticket : Nat) (f : Entry → Entry) : (p.mapEntry ticket f).display = p.display := rfl
@[simp] theorem Part.mapEntry_port (ticket : Nat) (f : Entry → Entry) : (p.mapEntry ticket f).port = p.port := rfl
@[simp] theorem Part.mapEntry_attn (ticket : Nat) (f : Entry → Entry) : (p.mapEntry ticket f).attn = p.attn := rfl
@[simp] theorem Part.mapEntry_slots (ticket : Nat) (f : Entry → Entry) : (p.mapEntry ticket f).slots = p.slots := rfl
@[simp] theorem Part.mapEntry_stores (ticket : Nat) (f : Entry → Entry) : (p.mapEntry ticket f).stores = p.stores := rfl
@[simp] theorem Part.mapEntry_line (ticket : Nat) (f : Entry → Entry) : (p.mapEntry ticket f).line = p.line := rfl
@[simp] theorem Part.mapEntry_catalog (ticket : Nat) (f : Entry → Entry) : (p.mapEntry ticket f).catalog = p.catalog := rfl
@[simp] theorem Part.mapEntry_install (ticket : Nat) (f : Entry → Entry) : (p.mapEntry ticket f).install = p.install := rfl
@[simp] theorem Part.mapEntry_lib (ticket : Nat) (f : Entry → Entry) : (p.mapEntry ticket f).lib = p.lib := rfl
@[simp] theorem Part.mapEntry_play (ticket : Nat) (f : Entry → Entry) : (p.mapEntry ticket f).play = p.play := rfl
@[simp] theorem Part.mapEntry_reader (ticket : Nat) (f : Entry → Entry) : (p.mapEntry ticket f).reader = p.reader := rfl
@[simp] theorem Part.mapEntry_lyric (ticket : Nat) (f : Entry → Entry) : (p.mapEntry ticket f).lyric = p.lyric := rfl
@[simp] theorem Part.mapEntry_glyphs (ticket : Nat) (f : Entry → Entry) : (p.mapEntry ticket f).glyphs = p.glyphs := rfl
@[simp] theorem Part.mapEntry_scorer (ticket : Nat) (f : Entry → Entry) : (p.mapEntry ticket f).scorer = p.scorer := rfl

@[simp] theorem Part.mapSeats_settings (f : Nat → Seat → Seat) : (p.mapSeats f).settings = p.settings := rfl
@[simp] theorem Part.mapSeats_display (f : Nat → Seat → Seat) : (p.mapSeats f).display = p.display := rfl
@[simp] theorem Part.mapSeats_port (f : Nat → Seat → Seat) : (p.mapSeats f).port = p.port := rfl
@[simp] theorem Part.mapSeats_attn (f : Nat → Seat → Seat) : (p.mapSeats f).attn = p.attn := rfl
@[simp] theorem Part.mapSeats_book (f : Nat → Seat → Seat) : (p.mapSeats f).book = p.book := rfl
@[simp] theorem Part.mapSeats_slots (f : Nat → Seat → Seat) : (p.mapSeats f).slots = p.slots := rfl
@[simp] theorem Part.mapSeats_stores (f : Nat → Seat → Seat) : (p.mapSeats f).stores = p.stores := rfl
@[simp] theorem Part.mapSeats_line (f : Nat → Seat → Seat) : (p.mapSeats f).line = p.line := rfl
@[simp] theorem Part.mapSeats_catalog (f : Nat → Seat → Seat) : (p.mapSeats f).catalog = p.catalog := rfl
@[simp] theorem Part.mapSeats_install (f : Nat → Seat → Seat) : (p.mapSeats f).install = p.install := rfl
@[simp] theorem Part.mapSeats_lib (f : Nat → Seat → Seat) : (p.mapSeats f).lib = p.lib := rfl
@[simp] theorem Part.mapSeats_play (f : Nat → Seat → Seat) : (p.mapSeats f).play = p.play := rfl
@[simp] theorem Part.mapSeats_reader (f : Nat → Seat → Seat) : (p.mapSeats f).reader = p.reader := rfl
@[simp] theorem Part.mapSeats_lyric (f : Nat → Seat → Seat) : (p.mapSeats f).lyric = p.lyric := rfl
@[simp] theorem Part.mapSeats_glyphs (f : Nat → Seat → Seat) : (p.mapSeats f).glyphs = p.glyphs := rfl

@[simp] theorem Part.setBuffer_settings (first : Bool) (b : Buffer) : (p.setBuffer first b).settings = p.settings := rfl
@[simp] theorem Part.setBuffer_display (first : Bool) (b : Buffer) : (p.setBuffer first b).display = p.display := rfl
@[simp] theorem Part.setBuffer_port (first : Bool) (b : Buffer) : (p.setBuffer first b).port = p.port := rfl
@[simp] theorem Part.setBuffer_attn (first : Bool) (b : Buffer) : (p.setBuffer first b).attn = p.attn := rfl
@[simp] theorem Part.setBuffer_book (first : Bool) (b : Buffer) : (p.setBuffer first b).book = p.book := rfl
@[simp] theorem Part.setBuffer_slots (first : Bool) (b : Buffer) : (p.setBuffer first b).slots = p.slots := rfl
@[simp] theorem Part.setBuffer_stores (first : Bool) (b : Buffer) : (p.setBuffer first b).stores = p.stores := rfl
@[simp] theorem Part.setBuffer_line (first : Bool) (b : Buffer) : (p.setBuffer first b).line = p.line := rfl
@[simp] theorem Part.setBuffer_catalog (first : Bool) (b : Buffer) : (p.setBuffer first b).catalog = p.catalog := rfl
@[simp] theorem Part.setBuffer_install (first : Bool) (b : Buffer) : (p.setBuffer first b).install = p.install := rfl
@[simp] theorem Part.setBuffer_lib (first : Bool) (b : Buffer) : (p.setBuffer first b).lib = p.lib := rfl
@[simp] theorem Part.setBuffer_play (first : Bool) (b : Buffer) : (p.setBuffer first b).play = p.play := rfl
@[simp] theorem Part.setBuffer_lyric (first : Bool) (b : Buffer) : (p.setBuffer first b).lyric = p.lyric := rfl
@[simp] theorem Part.setBuffer_glyphs (first : Bool) (b : Buffer) : (p.setBuffer first b).glyphs = p.glyphs := rfl
@[simp] theorem Part.setBuffer_scorer (first : Bool) (b : Buffer) : (p.setBuffer first b).scorer = p.scorer := rfl

@[simp] theorem Part.setRow_settings (upper : Bool) (r : Row) : (p.setRow upper r).settings = p.settings := rfl
@[simp] theorem Part.setRow_display (upper : Bool) (r : Row) : (p.setRow upper r).display = p.display := rfl
@[simp] theorem Part.setRow_port (upper : Bool) (r : Row) : (p.setRow upper r).port = p.port := rfl
@[simp] theorem Part.setRow_attn (upper : Bool) (r : Row) : (p.setRow upper r).attn = p.attn := rfl
@[simp] theorem Part.setRow_book (upper : Bool) (r : Row) : (p.setRow upper r).book = p.book := rfl
@[simp] theorem Part.setRow_slots (upper : Bool) (r : Row) : (p.setRow upper r).slots = p.slots := rfl
@[simp] theorem Part.setRow_stores (upper : Bool) (r : Row) : (p.setRow upper r).stores = p.stores := rfl
@[simp] theorem Part.setRow_line (upper : Bool) (r : Row) : (p.setRow upper r).line = p.line := rfl
@[simp] theorem Part.setRow_catalog (upper : Bool) (r : Row) : (p.setRow upper r).catalog = p.catalog := rfl
@[simp] theorem Part.setRow_install (upper : Bool) (r : Row) : (p.setRow upper r).install = p.install := rfl
@[simp] theorem Part.setRow_lib (upper : Bool) (r : Row) : (p.setRow upper r).lib = p.lib := rfl
@[simp] theorem Part.setRow_play (upper : Bool) (r : Row) : (p.setRow upper r).play = p.play := rfl
@[simp] theorem Part.setRow_reader (upper : Bool) (r : Row) : (p.setRow upper r).reader = p.reader := rfl
@[simp] theorem Part.setRow_glyphs (upper : Bool) (r : Row) : (p.setRow upper r).glyphs = p.glyphs := rfl
@[simp] theorem Part.setRow_scorer (upper : Bool) (r : Row) : (p.setRow upper r).scorer = p.scorer := rfl

/-- What the answer of a command writes. -/
@[simp] theorem Part.answer_port (tag : Byte) (o : Outcome) (data : List Byte) :
    (p.answer tag o data).port =
      { p.port with state := .answerReady, answer := some { tag, outcome := o, data }, lookup := none } := rfl

/-- R179: a raise writes the flag of its source and the mask stays. -/
@[simp] theorem Part.raise_attn (src : Source) :
    (p.raise src).attn = { p.attn with pending := p.attn.pending.put src true } := rfl

@[simp] theorem Part.clearSource_attn (src : Source) :
    (p.clearSource src).attn = { p.attn with pending := p.attn.pending.put src false } := rfl

@[simp] theorem Part.mapSlot_slots (n : Nat) (f : Slot → Slot) : (p.mapSlot n f).slots = p.slots.modify (n - 1) f := rfl

@[simp] theorem Part.mapStore_stores (n : Nat) (f : Store → Store) :
    (p.mapStore n f).stores = p.stores.modify (n - 1) f := rfl

end

/-! ## The attention flags -/

/-- R179: the flag of a source after a write of that flag. -/
@[simp] theorem SourceSet.get_put_self (f : SourceSet) (src : Source) (b : Bool) : (f.put src b).get src = b := by
  cases src <;> rfl

/-- R179: the flag of a source after a write of another. -/
theorem SourceSet.get_put_of_ne (f : SourceSet) (a b : Source) (x : Bool) (h : a ≠ b) : (f.put b x).get a = f.get a := by
  cases a <;> cases b <;> first | rfl | exact absurd rfl h

end Sys2Proof.Machine
end

