-- ==== Sys2Proof/Laws/Frame.lean ====
section
/-! SUPPORT. Laws/Frame.lean: what each shared operation leaves alone. The view `Part.frame` holds what the desk alone writes, the
port, the shape of the numbered records and the heart of the play context; each operation has one lemma that says what of the view it keeps, and no
later proof unfolds it. -/

namespace Sys2Proof.Machine

/-- What only commands of the desk and a pin reset write, and the number of the numbered records. -/
structure Fixed where
  settings : Settings
  display : Display
  glyphs : List (Nat × Glyph)
  slots : Nat
  stores : Nat
  seats : Nat
  channels : Nat

/-- The heart of the play context record: its state, what it holds and its two timers. -/
structure Cue where
  state : PlayState
  entry : Option Nat
  song : Option HeldSong
  hold : Timer
  gap : Timer

/-- The view of the part the frame lemmas speak of. -/
structure Frame where
  fixed : Fixed
  port : Port
  cue : Cue

/-- The heart of a play context record. -/
def Play.cue (x : Play) : Cue := ⟨x.state, x.entry, x.song, x.hold, x.gap⟩

/-- The view of a part. -/
def Part.frame (p : Part) : Frame :=
  { fixed := ⟨p.settings, p.display, p.glyphs, p.slots.length, p.stores.length, p.scorer.seats.length,
      p.scorer.channels.length⟩
    port := p.port
    cue := p.play.cue }

/-- A play context record changed outside its heart. -/
@[simp] theorem Play.cue_update (x : Play) (time : Nat) (tempo key : Int) (cueHold : Nat) (startPending : Bool)
    (lateLines unknownWindows damagedPages skippedRecords : Nat) (firstUnderrun : Bool)
    (lastOutcome : Option PlayOutcome) :
    Play.cue ⟨x.state, x.entry, x.song, time, tempo, key, cueHold, startPending, x.hold, x.gap, lateLines,
      unknownWindows, damagedPages, skippedRecords, firstUnderrun, lastOutcome⟩ = x.cue := by
  cases x; rfl

section
variable (p : Part) (attn : Attention) (book : Book) (slots : List Slot) (stores : List Store) (line : Line)
  (catalog : List CatEntry) (install : Option Install) (lib : Library) (play : Play) (reader : Reader) (lyric : Lyric)
  (scorer : Scorer)

/-- A part changed outside the view. -/
@[simp] theorem Part.frame_update (hs : slots.length = p.slots.length) (ht : stores.length = p.stores.length)
    (hc : play.cue = p.play.cue) (he : scorer.seats.length = p.scorer.seats.length)
    (hh : scorer.channels.length = p.scorer.channels.length) :
    Part.frame ⟨p.settings, p.display, p.port, attn, book, slots, stores, line, catalog, install, lib, play, reader,
      lyric, p.glyphs, scorer⟩ = p.frame := by
  simp [Part.frame, hs, ht, hc, he, hh]

/-- A part changed outside the view but for the play context. -/
@[simp] theorem Part.fixed_update (port : Port) (hs : slots.length = p.slots.length)
    (ht : stores.length = p.stores.length) (he : scorer.seats.length = p.scorer.seats.length)
    (hh : scorer.channels.length = p.scorer.channels.length) :
    (Part.frame ⟨p.settings, p.display, port, attn, book, slots, stores, line, catalog, install, lib, play, reader,
      lyric, p.glyphs, scorer⟩).fixed = p.frame.fixed := by
  simp [Part.frame, hs, ht, he, hh]

/-- A part whose port is written as it stands. -/
@[simp] theorem Part.port_update (settings : Settings) (display : Display) (glyphs : List (Nat × Glyph)) :
    (Part.frame ⟨settings, display, p.port, attn, book, slots, stores, line, catalog, install, lib, play, reader,
      lyric, glyphs, scorer⟩).port = p.frame.port := rfl

end

/-- A fold of an operation that keeps the view keeps it. -/
theorem foldl_keeps {α β γ : Type} (view : α → γ) (f : α → β → α) (h : ∀ a b, view (f a b) = view a) (l : List β)
    (a : α) : view (l.foldl f a) = view a := by
  induction l generalizing a with
  | nil => rfl
  | cons b l ih => rw [List.foldl_cons, ih, h]

/-- R113: an expiry keeps what its operation keeps of a view. -/
theorem Part.expireAt_keeps {γ : Type} (view : Part → γ) (n : Nat) (timer : Part → Timer) (expiry : Part → Part)
    (h : ∀ q, view (expiry q) = view q) (p : Part) : view (p.expireAt n timer expiry) = view p := by
  unfold Part.expireAt
  split
  · exact h p
  · rfl

/-- R113: an expiry keeps what holds of a part when its operation does. -/
theorem Part.expireAt_holds {inv : Part → Prop} (n : Nat) (timer : Part → Timer) (expiry : Part → Part)
    (h : ∀ q, inv q → inv (expiry q)) (p : Part) (hp : inv p) : inv (p.expireAt n timer expiry) := by
  unfold Part.expireAt
  split
  · exact h p hp
  · exact hp

/-- R113: a timer whose count is above `n`, or that is stopped, does not expire. -/
theorem Part.expireAt_quiet (n : Nat) (timer : Part → Timer) (expiry : Part → Part) (p : Part)
    (h : (timer p).any (fun k => k ≤ n) = false) : p.expireAt n timer expiry = p := by
  simp [Part.expireAt, h]

/-- R113: a timer whose count is at most `n` expires. -/
theorem Part.expireAt_due (n : Nat) (timer : Part → Timer) (expiry : Part → Part) (p : Part)
    (h : (timer p).any (fun k => k ≤ n) = true) : p.expireAt n timer expiry = expiry p := by
  simp [Part.expireAt, h]

/-- The fields of the view are those of the part. -/
theorem Part.frame_settings (p : Part) : p.frame.fixed.settings = p.settings := rfl
theorem Part.frame_display (p : Part) : p.frame.fixed.display = p.display := rfl
theorem Part.frame_glyphs (p : Part) : p.frame.fixed.glyphs = p.glyphs := rfl
theorem Part.frame_port (p : Part) : p.frame.port = p.port := rfl
theorem Part.frame_cue (p : Part) : p.frame.cue = p.play.cue := rfl
theorem Part.frame_slots (p : Part) : p.frame.fixed.slots = p.slots.length := rfl
theorem Part.frame_stores (p : Part) : p.frame.fixed.stores = p.stores.length := rfl
theorem Part.frame_seats (p : Part) : p.frame.fixed.seats = p.scorer.seats.length := rfl
theorem Part.frame_channels (p : Part) : p.frame.fixed.channels = p.scorer.channels.length := rfl

end Sys2Proof.Machine
end

