-- ==== Sys2Proof/Laws/FrameStore.lean ====
section
/-! SUPPORT. Laws/FrameStore.lean: what the operations of the numbered records and the attention flags, the Library Store, the Song Catalog, the Request Book and the Notice Store leave alone of the
view of Laws/Frame.lean: one lemma for each operation. -/

namespace Sys2Proof.Machine

/-! ## Machine/Ops.lean -/

@[simp] theorem Part.mapSlot_frame (p : Part) (n : Nat) (f : Slot → Slot) : (p.mapSlot n f).frame = p.frame := by
  simp [Part.mapSlot]

@[simp] theorem Part.mapStore_frame (p : Part) (n : Nat) (f : Store → Store) :
    (p.mapStore n f).frame = p.frame := by simp [Part.mapStore]

@[simp] theorem Part.mapDie_frame (p : Part) (d : Nat) (f : Die → Die) : (p.mapDie d f).frame = p.frame := by
  unfold Part.mapDie
  split <;> simp

@[simp] theorem Part.mapCatEntry_frame (p : Part) (song : Nat) (f : CatEntry → CatEntry) :
    (p.mapCatEntry song f).frame = p.frame := rfl

@[simp] theorem Part.raise_frame (p : Part) (src : Source) : (p.raise src).frame = p.frame := rfl

@[simp] theorem Part.clearSource_frame (p : Part) (src : Source) : (p.clearSource src).frame = p.frame := rfl

/-! ## Machine/Library.lean -/

@[simp] theorem Part.startOp_frame (p : Part) (d : Nat) (r : Request) : (p.startOp d r).frame = p.frame := by
  simp [Part.startOp]

@[simp] theorem Part.request_frame (p : Part) (d : Nat) (r : Request) : (p.request d r).frame = p.frame := by
  unfold Part.request
  split <;> (try split) <;> simp

@[simp] theorem Part.grant_frame (p : Part) (d : Nat) : (p.grant d).frame = p.frame := by
  unfold Part.grant
  (repeat' split) <;> simp

@[simp] theorem Part.grantIfIdle_frame (p : Part) (d : Nat) : (p.grantIfIdle d).frame = p.frame := by
  unfold Part.grantIfIdle
  split <;> simp

@[simp] theorem Part.opEnds_frame (p : Part) (d : Nat) : (p.opEnds d).frame = p.frame := by simp [Part.opEnds]

@[simp] theorem Part.giveUp_frame (p : Part) (d : Nat) (mine : Requester → Bool) :
    (p.giveUp d mine).frame = p.frame := by simp [Part.giveUp]

@[simp] theorem Part.setBlock_frame (p : Part) (d b : Nat) (st : BlockState) :
    (p.setBlock d b st).frame = p.frame := by simp [Part.setBlock]

@[simp] theorem Part.reclaimJoin_frame (p : Part) (d b : Nat) : (p.reclaimJoin d b).frame = p.frame := by
  unfold Part.reclaimJoin
  dsimp only
  split <;> simp

@[simp] theorem Part.reclaimPush_frame (p : Part) (d b : Nat) : (p.reclaimPush d b).frame = p.frame := by
  simp [Part.reclaimPush]

@[simp] theorem Part.reclaimLeave_frame (p : Part) (d b : Nat) : (p.reclaimLeave d b).frame = p.frame := rfl

@[simp] theorem Part.recordFault_frame (p : Part) (kind : FaultKind) (d b : Nat) :
    (p.recordFault kind d b).frame = p.frame := rfl

@[simp] theorem Part.pageReadEffects_frame (p : Part) (d b : Nat) (outcome : ReadOutcome) :
    (p.pageReadEffects d b outcome).frame = p.frame := by
  unfold Part.pageReadEffects
  split <;> simp

@[simp] theorem Part.operationEnds_frame (p : Part) (kind : OperationKind) (song : Option Nat) (ending : OperationEnd) :
    (p.operationEnds kind song ending).frame = p.frame := rfl

/-! ## Machine/Catalog.lean -/

@[simp] theorem Part.addPin_frame (p : Part) (song : Nat) : (p.addPin song).frame = p.frame := rfl

@[simp] theorem Part.dropPin_frame (p : Part) (song : Nat) : (p.dropPin song).frame = p.frame := rfl

@[simp] theorem Part.switchTo_frame (p : Part) (song : Nat) (blk : SongBlock) :
    (p.switchTo song blk).frame = p.frame := by
  unfold Part.switchTo
  dsimp only
  (repeat' split) <;> simp

@[simp] theorem Part.release_frame (p : Part) (song : Nat) : (p.release song).frame = p.frame := by
  unfold Part.release
  split <;> simp

@[simp] theorem Part.installFails_frame (p : Part) (ending : OperationEnd) :
    (p.installFails ending).frame = p.frame := by
  unfold Part.installFails
  split <;> simp

@[simp] theorem Part.installRequest_frame (p : Part) (r : Install) (op : InstallOp) (page : Nat) (data : List Byte) :
    (p.installRequest r op page data).frame = p.frame := by
  unfold Part.installRequest
  dsimp only
  split <;> simp

@[simp] theorem Part.installProceed_frame (p : Part) : (p.installProceed).frame = p.frame := by
  unfold Part.installProceed
  dsimp only
  (repeat' split) <;> simp

@[simp] theorem Part.installCompletes_frame (p : Part) (r : Install) :
    (p.installCompletes r).frame = p.frame := by
  unfold Part.installCompletes
  dsimp only
  (repeat' split) <;> simp

@[simp] theorem Part.completeMount_frame (p : Part) : (p.completeMount).frame = p.frame := by
  simp [Part.completeMount]

@[simp] theorem Part.failMount_frame (p : Part) : (p.failMount).frame = p.frame := rfl

@[simp] theorem Part.requestScan_frame (p : Part) (d block page : Nat) :
    (p.requestScan d block page).frame = p.frame := by simp [Part.requestScan]

@[simp] theorem Part.beginScan_frame (p : Part) (d : Nat) : (p.beginScan d).frame = p.frame := by
  unfold Part.beginScan
  split <;> simp

@[simp] theorem Part.beginScans_frame (p : Part) : (p.beginScans).frame = p.frame := by
  unfold Part.beginScans
  split <;> simp

@[simp] theorem Part.mountIfScanned_frame (p : Part) : (p.mountIfScanned).frame = p.frame := by
  unfold Part.mountIfScanned
  dsimp only
  split <;> simp

@[simp] theorem Part.judgeBlock_frame (p : Part) (d block : Nat) (j : Judgement) :
    (p.judgeBlock d block j).frame = p.frame := by
  unfold Part.judgeBlock
  split <;> simp

/-! ## Machine/Book.lean -/

@[simp] theorem Part.setPosition_frame (p : Part) (slot : Nat) : (p.setPosition slot).frame = p.frame := by
  simp [Part.setPosition]

@[simp] theorem Part.pushStruck_frame (p : Part) (slot : Nat) (item : StruckItem) :
    (p.pushStruck slot item).frame = p.frame := by
  unfold Part.pushStruck
  split <;> simp

@[simp] theorem Part.setCued_frame (p : Part) (slot ticket : Nat) : (p.setCued slot ticket).frame = p.frame := by
  simp [Part.setCued]

@[simp] theorem Part.setScore_frame (p : Part) (slot : Nat) (notice : ScoreNotice) :
    (p.setScore slot notice).frame = p.frame := by simp [Part.setScore]

@[simp] theorem Part.placeReply_frame (p : Part) (slot : Nat) (reply : Reply) :
    (p.placeReply slot reply).frame = p.frame := by simp [Part.placeReply]

@[simp] theorem Part.emptyStore_frame (p : Part) (slot : Nat) : (p.emptyStore slot).frame = p.frame := by
  simp [Part.emptyStore]

@[simp] theorem Part.withEntries_frame (p : Part) (entries : List Entry) :
    (p.withEntries entries).frame = p.frame := by
  unfold Part.withEntries
  exact (foldl_keeps Part.frame _ Part.setPosition_frame _ _).trans rfl

@[simp] theorem Part.mapEntry_frame (p : Part) (ticket : Nat) (f : Entry → Entry) :
    (p.mapEntry ticket f).frame = p.frame := rfl

@[simp] theorem Part.mapLive_frame (p : Part) (o : Origin) (f : Nat → Nat) : (p.mapLive o f).frame = p.frame := by
  unfold Part.mapLive
  split <;> simp

@[simp] theorem Part.insertNew_frame (p : Part) (a : AddInput) : (p.insertNew a).frame = p.frame := by
  unfold Part.insertNew
  split <;> simp

@[simp] theorem Part.noticeStrike_frame (p : Part) (e : Entry) (reason : StrikeReason) :
    (p.noticeStrike e reason).frame = p.frame := by
  unfold Part.noticeStrike
  split <;> (try split) <;> simp

@[simp] theorem Part.strikeEntry_frame (p : Part) (e : Entry) (reason : StrikeReason) (quiet : Bool) :
    (p.strikeEntry e reason quiet).frame = p.frame := by
  unfold Part.strikeEntry
  split <;> (try split) <;> simp

@[simp] theorem Part.strike_frame (p : Part) (ticket : Nat) (reason : StrikeReason) (quiet : Bool) :
    (p.strike ticket reason quiet).frame = p.frame := by
  unfold Part.strike
  split <;> simp

@[simp] theorem Part.strikeWaiting_frame (p : Part) (which : Entry → Bool) (reason : StrikeReason) (quiet : Bool) :
    (p.strikeWaiting which reason quiet).frame = p.frame := by
  unfold Part.strikeWaiting
  exact foldl_keeps Part.frame _ (fun (a : Part) (e : Entry) => a.strike_frame e.ticket reason quiet) _ _

@[simp] theorem Part.removeEntry_frame (p : Part) (e : Entry) : (p.removeEntry e).frame = p.frame := by
  simp [Part.removeEntry]

@[simp] theorem Part.retire_frame (p : Part) (e : Entry) : (p.retire e).frame = p.frame := by simp [Part.retire]

@[simp] theorem Part.bookDeparture_frame (p : Part) (slot : Nat) (reason : StrikeReason) :
    (p.bookDeparture slot reason).frame = p.frame := by simp [Part.bookDeparture]

@[simp] theorem Part.depart_frame (p : Part) (slot : Nat) (barred : Bool) :
    (p.depart slot barred).frame = p.frame := by simp [Part.depart]

@[simp] theorem Part.join_frame (p : Part) (slot : Nat) (e : Entry) (seat : Nat) :
    (p.join slot e seat).frame = p.frame := by
  unfold Part.join
  split <;> simp

@[simp] theorem Part.writeKey_frame (p : Part) (ticket : Nat) (key : Int) :
    (p.writeKey ticket key).frame = p.frame := by
  unfold Part.writeKey
  dsimp only
  split <;> simp

end Sys2Proof.Machine
end

