-- ==== Sys2Proof/Laws/FrameSong.lean ====
section
/-! SUPPORT. Laws/FrameSong.lean: what the operations of the Stream Reader, the Lyric Compositor, the Voice Scorer, the Play Controller leave alone of the
view of Laws/Frame.lean: one lemma for each operation. -/

namespace Sys2Proof.Machine

/-! ## Machine/Reader.lean -/

@[simp] theorem Part.underrun_frame (p : Part) : (p.underrun).frame = p.frame := by
  unfold Part.underrun
  split <;> simp

@[simp] theorem Part.countLateLine_frame (p : Part) : (p.countLateLine).frame = p.frame := by
  simp [Part.countLateLine]

@[simp] theorem Part.countUnknownWindow_frame (p : Part) : (p.countUnknownWindow).frame = p.frame := by
  simp [Part.countUnknownWindow]

@[simp] theorem Part.placeLine_frame (p : Part) (l : LineRecord) : (p.placeLine l).frame = p.frame := by
  unfold Part.placeLine
  dsimp only
  split <;> simp

/-- R118: placing a record keeps the view. -/
theorem Part.place_frame (p : Part) (r : Record) (q : Part) (h : p.place r = some q) : q.frame = p.frame := by
  cases r <;> simp only [Part.place] at h <;> (repeat' split at h) <;> simp at h <;> subst h <;> simp

@[simp] theorem Part.placeOrHold_frame (p : Part) (r : Record) : (p.placeOrHold r).frame = p.frame := by
  unfold Part.placeOrHold
  split
  next q hq => exact p.place_frame r q hq
  · rfl

@[simp] theorem Part.countSkipped_frame (p : Part) : (p.countSkipped).frame = p.frame := rfl

@[simp] theorem Part.takeRecord_frame (p : Part) (r : Record) : (p.takeRecord r).frame = p.frame := by
  unfold Part.takeRecord
  split <;> simp

@[simp] theorem Part.setBuffer_frame (p : Part) (first : Bool) (b : Buffer) :
    (p.setBuffer first b).frame = p.frame := rfl

@[simp] theorem Part.requestStream_frame (p : Part) (blk : SongBlock) (page : Nat) :
    (p.requestStream blk page).frame = p.frame := by simp [Part.requestStream]

@[simp] theorem Part.refill_frame (p : Part) (blk : SongBlock) (first : Bool) :
    (p.refill blk first).frame = p.frame := by
  unfold Part.refill
  split <;> simp

@[simp] theorem Part.decodeOne_frame (p : Part) (blk : SongBlock) (first : Bool) (k : Nat) (data : List Byte) (offset : Nat) :
    (p.decodeOne blk first k data offset).frame = p.frame := by
  unfold Part.decodeOne
  split <;> simp

/-- R116: one step of the reader keeps the view. -/
theorem Part.readerStep_frame (p : Part) (blk : SongBlock) (q : Part) (h : p.readerStep blk = some q) :
    q.frame = p.frame := by
  unfold Part.readerStep at h
  repeat' split at h
  all_goals first | (simp at h; done) | (simp only [Option.some.injEq] at h; subst h; simp)

@[simp] theorem Part.readerLoop_frame (blk : SongBlock) (fuel : Nat) (p : Part) :
    (Part.readerLoop blk fuel p).frame = p.frame := by
  induction fuel generalizing p with
  | zero => rfl
  | succ fuel ih =>
    unfold Part.readerLoop
    split
    · split
      next q hq => rw [ih, p.readerStep_frame blk q hq]
      · rfl
    · rfl

@[simp] theorem Part.readerRun_frame (p : Part) : (p.readerRun).frame = p.frame := by
  unfold Part.readerRun
  split <;> simp

@[simp] theorem Part.readerResume_frame (p : Part) : (p.readerResume).frame = p.frame := by
  unfold Part.readerResume
  split
  · split
    · rfl
    next q hq => simp [p.place_frame _ q hq]
  · rfl

@[simp] theorem Part.readerEmpty_frame (p : Part) : (p.readerEmpty).frame = p.frame := rfl

@[simp] theorem Part.readerStart_frame (p : Part) (blk : SongBlock) : (p.readerStart blk).frame = p.frame := by
  simp [Part.readerStart]

/-! ## Machine/Compositor.lean -/

@[simp] theorem Part.countLayout_frame (p : Part) (codes : List Nat) : (p.countLayout codes).frame = p.frame := rfl

@[simp] theorem Part.setRow_frame (p : Part) (upper : Bool) (r : Row) : (p.setRow upper r).frame = p.frame := rfl

@[simp] theorem Part.titleDown_frame (p : Part) : (p.titleDown).frame = p.frame := rfl

@[simp] theorem Part.retireLine_frame (p : Part) (ordinal : Nat) : (p.retireLine ordinal).frame = p.frame := by
  simp [Part.retireLine]

@[simp] theorem Part.clearRow_frame (p : Part) (upper : Bool) (q : QueuedLine) :
    (p.clearRow upper q).frame = p.frame := by simp [Part.clearRow]

@[simp] theorem Part.takeLine_frame (p : Part) (upper : Bool) (q : QueuedLine) :
    (p.takeLine upper q).frame = p.frame := by
  unfold Part.takeLine
  split <;> simp

@[simp] theorem Part.rowStep_frame (p : Part) (upper : Bool) : (p.rowStep upper).1.frame = p.frame := by
  unfold Part.rowStep
  (repeat' split) <;> simp

@[simp] theorem Part.rowLoop_frame (upper : Bool) (fuel : Nat) (p : Part) :
    (Part.rowLoop upper fuel p).frame = p.frame := by
  induction fuel generalizing p with
  | zero => rfl
  | succ fuel ih =>
    have h := p.rowStep_frame upper
    unfold Part.rowLoop
    split <;> rename_i heq <;> simp [heq] at h <;> simp [ih, h]

@[simp] theorem Part.rowsUp_frame (p : Part) : (p.rowsUp).frame = p.frame := by simp [Part.rowsUp]

@[simp] theorem Part.nudgeRowStep_frame (p : Part) (upper : Bool) : (p.nudgeRowStep upper).1.frame = p.frame := by
  unfold Part.nudgeRowStep
  (repeat' split) <;> simp

@[simp] theorem Part.nudgeRowLoop_frame (upper : Bool) (fuel : Nat) (p : Part) :
    (Part.nudgeRowLoop upper fuel p).frame = p.frame := by
  induction fuel generalizing p with
  | zero => rfl
  | succ fuel ih =>
    have h := p.nudgeRowStep_frame upper
    unfold Part.nudgeRowLoop
    split <;> rename_i heq <;> simp [heq] at h <;> simp [ih, h]

@[simp] theorem Part.nudgeRows_frame (p : Part) : (p.nudgeRows).frame = p.frame := by simp [Part.nudgeRows]

@[simp] theorem Part.clearRows_frame (p : Part) : (p.clearRows).frame = p.frame := rfl

@[simp] theorem Part.resetRows_frame (p : Part) : (p.resetRows).frame = p.frame := rfl

@[simp] theorem Part.promotionCards_frame (p : Part) : (p.promotionCards).frame = p.frame := rfl

@[simp] theorem Part.titleArrives_frame (p : Part) (page : List Byte) :
    (p.titleArrives page).frame = p.frame := rfl

@[simp] theorem Part.cardDown_frame (p : Part) : (p.cardDown).frame = p.frame := rfl

@[simp] theorem Part.showCard_frame (p : Part) (seats : List SeatResult) :
    (p.showCard seats).frame = p.frame := by
  unfold Part.showCard
  dsimp only
  split <;> simp

@[simp] theorem Part.draw_frame (p : Part) : (p.draw).frame = p.frame := rfl

@[simp] theorem Part.frameStart_frame (p : Part) : (p.frameStart).frame = p.frame := by
  unfold Part.frameStart
  dsimp only
  (repeat' split) <;> simp

/-! ## Machine/Scorer.lean -/

@[simp] theorem Part.mapSeats_frame (p : Part) (f : Nat → Seat → Seat) : (p.mapSeats f).frame = p.frame := by
  simp [Part.mapSeats]

@[simp] theorem Part.armSeats_frame (p : Part) (singers parts : Nat) (claims : List (Option Nat)) :
    (p.armSeats singers parts claims).frame = p.frame := by simp [Part.armSeats]

@[simp] theorem Part.startSeats_frame (p : Part) : (p.startSeats).frame = p.frame := by simp [Part.startSeats]

@[simp] theorem Part.doneSeats_frame (p : Part) : (p.doneSeats).frame = p.frame := by simp [Part.doneSeats]

@[simp] theorem Part.idleSeats_frame (p : Part) : (p.idleSeats).frame = p.frame := by simp [Part.idleSeats]

@[simp] theorem Part.clearSeats_frame (p : Part) : (p.clearSeats).frame = p.frame := by simp [Part.clearSeats]

@[simp] theorem Part.readHandsets_frame (p : Part) : (p.readHandsets).frame = p.frame := by
  unfold Part.readHandsets
  split <;> simp

@[simp] theorem Part.bindSeat_frame (p : Part) (seat : Nat) (channel : Option Nat) :
    (p.bindSeat seat channel).frame = p.frame := by simp [Part.bindSeat]

@[simp] theorem Part.activate_frame (p : Part) : (p.activate).frame = p.frame := by
  unfold Part.activate
  dsimp only
  (repeat' split) <;> simp

@[simp] theorem Part.addWindow_frame (p : Part) (seat : Nat) (n : QueuedNote) (w : WindowClass) :
    (p.addWindow seat n w).frame = p.frame := by simp [Part.addWindow]

@[simp] theorem Part.evaluateSeat_frame (estimates : List (Option Config.Pitch)) (p : Part) (seat : Nat) :
    (Part.evaluateSeat estimates p seat).frame = p.frame := by
  unfold Part.evaluateSeat
  dsimp only
  (repeat' split) <;> simp

@[simp] theorem Part.evaluateWindow_frame (p : Part) (estimates : List (Option Config.Pitch)) :
    (p.evaluateWindow estimates).frame = p.frame := by
  unfold Part.evaluateWindow
  split <;> (try split) <;> simp

@[simp] theorem Part.retireNotes_frame (p : Part) : (p.retireNotes).frame = p.frame := by
  unfold Part.retireNotes
  refine Eq.trans (Part.frame_update (List.foldl _ p _) _ _ _ _ _ _ _ _ _ _ _ _ rfl rfl rfl rfl rfl) ?_
  exact foldl_keeps Part.frame _ (fun a n => a.mapSeats_frame (scoreSeat n)) _ _

@[simp] theorem Part.excludeNotes_frame (p : Part) : (p.excludeNotes).frame = p.frame := rfl

@[simp] theorem Part.dropBeats_frame (p : Part) : (p.dropBeats).frame = p.frame := rfl

@[simp] theorem Part.writeResult_frame (p : Part) (ticket song edition : Nat) (kind : EndKind) :
    (p.writeResult ticket song edition kind).frame = p.frame := by simp [Part.writeResult]

@[simp] theorem Part.scoreNotices_frame (p : Part) (e : Entry) : (p.scoreNotices e).frame = p.frame := by
  unfold Part.scoreNotices
  refine foldl_keeps Part.frame _ (fun a c => ?_) _ _
  split <;> simp

/-! ## Machine/Play.lean -/

@[simp] theorem Part.loadGap_fixed (p : Part) : (p.loadGap).frame.fixed = p.frame.fixed := by
  unfold Part.loadGap
  split <;> simp

@[simp] theorem Part.loadGap_port (p : Part) : (p.loadGap).frame.port = p.frame.port := by
  unfold Part.loadGap
  split <;> simp

@[simp] theorem Part.gapExpire_fixed (p : Part) : (p.gapExpire).frame.fixed = p.frame.fixed := by
  unfold Part.gapExpire
  split <;> simp

@[simp] theorem Part.gapExpire_port (p : Part) : (p.gapExpire).frame.port = p.frame.port := by
  unfold Part.gapExpire
  split <;> simp

@[simp] theorem Part.takeCue_fixed (p : Part) (e : Entry) (blk : SongBlock) :
    (p.takeCue e blk).frame.fixed = p.frame.fixed := rfl

@[simp] theorem Part.takeCue_port (p : Part) (e : Entry) (blk : SongBlock) :
    (p.takeCue e blk).frame.port = p.frame.port := rfl

@[simp] theorem Part.cueNotices_frame (p : Part) (e : Entry) : (p.cueNotices e).frame = p.frame := by
  unfold Part.cueNotices
  exact foldl_keeps Part.frame _ (fun a slot => a.setCued_frame slot e.ticket) _ _

@[simp] theorem Part.promote_fixed (p : Part) (e : Entry) (blk : SongBlock) :
    (p.promote e blk).frame.fixed = p.frame.fixed := by simp [Part.promote]

@[simp] theorem Part.promote_port (p : Part) (e : Entry) (blk : SongBlock) :
    (p.promote e blk).frame.port = p.frame.port := by simp [Part.promote]

@[simp] theorem Part.promoteIfDue_fixed (p : Part) : (p.promoteIfDue).frame.fixed = p.frame.fixed := by
  unfold Part.promoteIfDue
  (repeat' split) <;> simp

@[simp] theorem Part.promoteIfDue_port (p : Part) : (p.promoteIfDue).frame.port = p.frame.port := by
  unfold Part.promoteIfDue
  (repeat' split) <;> simp

@[simp] theorem Part.letGo_fixed (p : Part) (ticket song : Nat) (ending : PlayEnd) :
    (p.letGo ticket song ending).frame.fixed = p.frame.fixed := rfl

@[simp] theorem Part.letGo_port (p : Part) (ticket song : Nat) (ending : PlayEnd) :
    (p.letGo ticket song ending).frame.port = p.frame.port := rfl

@[simp] theorem Part.afterCueStrike_fixed (p : Part) (reason : StrikeReason) :
    (p.afterCueStrike reason).frame.fixed = p.frame.fixed := by
  unfold Part.afterCueStrike
  split <;> simp

@[simp] theorem Part.afterCueStrike_port (p : Part) (reason : StrikeReason) :
    (p.afterCueStrike reason).frame.port = p.frame.port := by
  unfold Part.afterCueStrike
  split <;> simp

@[simp] theorem Part.cueStrike_fixed (p : Part) (reason : StrikeReason) (quiet : Bool) :
    (p.cueStrike reason quiet).frame.fixed = p.frame.fixed := by
  unfold Part.cueStrike
  split <;> simp

@[simp] theorem Part.cueStrike_port (p : Part) (reason : StrikeReason) (quiet : Bool) :
    (p.cueStrike reason quiet).frame.port = p.frame.port := by
  unfold Part.cueStrike
  split <;> simp

@[simp] theorem Part.enterRunning_fixed (p : Part) : (p.enterRunning).frame.fixed = p.frame.fixed := by
  unfold Part.enterRunning
  split <;> simp

@[simp] theorem Part.enterRunning_port (p : Part) : (p.enterRunning).frame.port = p.frame.port := by
  unfold Part.enterRunning
  split <;> simp

@[simp] theorem Part.holdExpire_fixed (p : Part) : (p.holdExpire).frame.fixed = p.frame.fixed := by
  unfold Part.holdExpire
  split <;> (try split) <;> simp

@[simp] theorem Part.holdExpire_port (p : Part) : (p.holdExpire).frame.port = p.frame.port := by
  unfold Part.holdExpire
  split <;> (try split) <;> simp

@[simp] theorem Part.loadHold_fixed (p : Part) (seconds : Nat) :
    (p.loadHold seconds).frame.fixed = p.frame.fixed := by
  unfold Part.loadHold
  split <;> simp

@[simp] theorem Part.loadHold_port (p : Part) (seconds : Nat) :
    (p.loadHold seconds).frame.port = p.frame.port := by
  unfold Part.loadHold
  split <;> simp

@[simp] theorem Part.stagingCheck_fixed (p : Part) : (p.stagingCheck).frame.fixed = p.frame.fixed := by
  unfold Part.stagingCheck
  split <;> (try split) <;> simp

@[simp] theorem Part.stagingCheck_port (p : Part) : (p.stagingCheck).frame.port = p.frame.port := by
  unfold Part.stagingCheck
  split <;> (try split) <;> simp

@[simp] theorem Part.presenceRise_fixed (p : Part) : (p.presenceRise).frame.fixed = p.frame.fixed := by
  unfold Part.presenceRise
  split <;> (try split) <;> simp

@[simp] theorem Part.presenceRise_port (p : Part) : (p.presenceRise).frame.port = p.frame.port := by
  unfold Part.presenceRise
  split <;> (try split) <;> simp

@[simp] theorem Part.endDisplay_frame (p : Part) : (p.endDisplay).frame = p.frame := by
  unfold Part.endDisplay
  dsimp only
  split <;> simp

@[simp] theorem Part.endSong_fixed (p : Part) (kind : EndKind) :
    (p.endSong kind).frame.fixed = p.frame.fixed := by
  unfold Part.endSong
  split <;> simp

@[simp] theorem Part.endSong_port (p : Part) (kind : EndKind) : (p.endSong kind).frame.port = p.frame.port := by
  unfold Part.endSong
  split <;> simp

@[simp] theorem Part.endIfReached_fixed (p : Part) : (p.endIfReached).frame.fixed = p.frame.fixed := by
  unfold Part.endIfReached
  split <;> simp

@[simp] theorem Part.endIfReached_port (p : Part) : (p.endIfReached).frame.port = p.frame.port := by
  unfold Part.endIfReached
  split <;> simp

@[simp] theorem Part.advance_fixed (p : Part) : (p.advance).frame.fixed = p.frame.fixed := by
  unfold Part.advance
  split <;> simp

@[simp] theorem Part.advance_port (p : Part) : (p.advance).frame.port = p.frame.port := by
  unfold Part.advance
  split <;> simp

@[simp] theorem Part.measure_frame (p : Part) : p.measure.1.frame = p.frame := by
  simp [Part.measure]

@[simp] theorem Part.windowEnds_fixed (p : Part) : (p.windowEnds).frame.fixed = p.frame.fixed := by
  have h := p.measure_frame
  unfold Part.windowEnds
  split
  rename_i q rise estimates heq
  simp only [heq] at h
  cases rise <;> simp [h]

@[simp] theorem Part.windowEnds_port (p : Part) : (p.windowEnds).frame.port = p.frame.port := by
  have h := p.measure_frame
  unfold Part.windowEnds
  split
  rename_i q rise estimates heq
  simp only [heq] at h
  cases rise <;> simp [h]

end Sys2Proof.Machine
end

