-- ==== Sys2Proof/Laws/FrameLine.lean ====
section
/-! SUPPORT. Laws/FrameLine.lean: what the operations of the Handset Line Controller, the handset messages, the line events leave alone of the
view of Laws/Frame.lean: one lemma for each operation. -/

namespace Sys2Proof.Machine

/-! ## Machine/Line.lean -/

@[simp] theorem Part.sendFrame_frame (p : Part) (f : TxFrame) : (p.sendFrame f).frame = p.frame := by
  unfold Part.sendFrame
  split <;> simp

@[simp] theorem Part.dropDue_frame (p : Part) : (p.dropDue).frame = p.frame := by
  unfold Part.dropDue
  split <;> simp

@[simp] theorem Part.dropStaleCued_frame (p : Part) (slot : Nat) : (p.dropStaleCued slot).frame = p.frame := by
  unfold Part.dropStaleCued
  split <;> (try split) <;> simp

@[simp] theorem Part.offerNotice_frame (p : Part) (slot : Nat) : (p.offerNotice slot).1.frame = p.frame := by
  unfold Part.offerNotice
  dsimp only
  split <;> simp

@[simp] theorem Part.offer_frame (p : Part) (slot : Nat) : (p.offer slot).1.frame = p.frame := by
  unfold Part.offer
  split <;> simp

@[simp] theorem Part.pollTurn_frame (p : Part) (slot : Nat) : (p.pollTurn slot).frame = p.frame := by
  unfold Part.pollTurn
  simp

@[simp] theorem Part.openWindow_frame (p : Part) : (p.openWindow).frame = p.frame := by simp [Part.openWindow]

@[simp] theorem Part.idleInterval_frame (p : Part) : (p.idleInterval).frame = p.frame := rfl

@[simp] theorem Part.startRound_frame (p : Part) : (p.startRound).frame = p.frame := by
  unfold Part.startRound
  dsimp only
  (repeat' split) <;> simp

@[simp] theorem Part.nextTurn_frame (p : Part) : (p.nextTurn).frame = p.frame := by
  unfold Part.nextTurn
  dsimp only
  (repeat' split) <;> simp

@[simp] theorem Part.miss_frame (p : Part) (slot : Nat) : (p.miss slot).frame = p.frame := by
  unfold Part.miss
  dsimp only
  split <;> simp

@[simp] theorem Part.strayRest_frame (p : Part) : (p.strayRest).frame = p.frame := rfl

@[simp] theorem Part.abandonTurn_frame (p : Part) : (p.abandonTurn).frame = p.frame := by
  unfold Part.abandonTurn
  split <;> simp

@[simp] theorem Part.abandonIfServing_frame (p : Part) (slot : Nat) :
    (p.abandonIfServing slot).frame = p.frame := by
  unfold Part.abandonIfServing
  split <;> (try split) <;> simp

@[simp] theorem Part.closeWindow_frame (p : Part) : (p.closeWindow).frame = p.frame := by
  unfold Part.closeWindow
  split <;> simp

@[simp] theorem Part.silence_frame (p : Part) : (p.silence).frame = p.frame := rfl

@[simp] theorem Part.enableLine_frame (p : Part) (on : Bool) : (p.enableLine on).frame = p.frame := by
  unfold Part.enableLine
  split <;> simp

@[simp] theorem Part.breakLine_frame (p : Part) : (p.breakLine).frame = p.frame := by simp [Part.breakLine]

@[simp] theorem Part.endBreak_frame (p : Part) : (p.endBreak).frame = p.frame := by simp [Part.endBreak]

@[simp] theorem Part.reclaimSlot_frame (p : Part) (n : Nat) : (p.reclaimSlot n).frame = p.frame := by
  unfold Part.reclaimSlot
  split <;> simp

@[simp] theorem Part.giveSlot_frame (p : Part) (n : Nat) (serial : List Byte) :
    (p.giveSlot n serial).frame = p.frame := by simp [Part.giveSlot]

@[simp] theorem Part.decideClaim_frame (p : Part) (serial : List Byte) : (p.decideClaim serial).1.frame = p.frame := by
  unfold Part.decideClaim
  (repeat' split) <;> simp

@[simp] theorem Part.takeClaim_frame (p : Part) (serial : List Byte) : (p.takeClaim serial).frame = p.frame := by
  unfold Part.takeClaim
  simp

/-! ## Machine/Messages.lean -/

@[simp] theorem Part.add_frame (p : Part) (a : AddInput) : (p.add a).1.frame = p.frame := by
  unfold Part.add
  split <;> simp

@[simp] theorem Part.takeAsk_frame (p : Part) (slot song singers : Nat) (key : Int) :
    (p.takeAsk slot song singers key).frame = p.frame := by
  unfold Part.takeAsk
  have h := p.add_frame { origin := .slot slot, song, singers, key, tempo := 0, front := false }
  split <;> rename_i heq <;> simp [heq] at h <;> simp [h]

@[simp] theorem Part.findRead_frame (p : Part) (slot : Nat) (e : CatEntry) :
    (p.findRead slot e).frame = p.frame := by
  unfold Part.findRead
  split <;> simp

@[simp] theorem Part.takeFind_frame (p : Part) (slot song : Nat) : (p.takeFind slot song).frame = p.frame := by
  unfold Part.takeFind
  (repeat' split) <;> simp

@[simp] theorem Part.takeMine_frame (p : Part) (slot : Nat) : (p.takeMine slot).frame = p.frame := by
  simp [Part.takeMine]

@[simp] theorem Part.dropEntry_fixed (p : Part) (e : Entry) : (p.dropEntry e).frame.fixed = p.frame.fixed := by
  unfold Part.dropEntry
  split <;> simp

@[simp] theorem Part.dropEntry_port (p : Part) (e : Entry) : (p.dropEntry e).frame.port = p.frame.port := by
  unfold Part.dropEntry
  split <;> simp

@[simp] theorem Part.takeDrop_fixed (p : Part) (slot ticket : Nat) :
    (p.takeDrop slot ticket).frame.fixed = p.frame.fixed := by
  unfold Part.takeDrop
  split <;> simp

@[simp] theorem Part.takeDrop_port (p : Part) (slot ticket : Nat) :
    (p.takeDrop slot ticket).frame.port = p.frame.port := by
  unfold Part.takeDrop
  split <;> simp

@[simp] theorem Part.takeKey_frame (p : Part) (slot ticket : Nat) (key : Int) :
    (p.takeKey slot ticket key).frame = p.frame := by
  unfold Part.takeKey
  split <;> simp

@[simp] theorem Part.takeJoin_frame (p : Part) (slot ticket : Nat) :
    (p.takeJoin slot ticket).frame = p.frame := by
  unfold Part.takeJoin
  split <;> simp

@[simp] theorem Part.act_fixed (p : Part) (slot : Nat) (m : Message) :
    (p.act slot m).frame.fixed = p.frame.fixed := by
  unfold Part.act
  split <;> simp

@[simp] theorem Part.act_port (p : Part) (slot : Nat) (m : Message) :
    (p.act slot m).frame.port = p.frame.port := by
  unfold Part.act
  split <;> simp

@[simp] theorem Part.takeMessage_fixed (p : Part) (slot : Nat) (kind : Byte) (fields : List Byte) :
    (p.takeMessage slot kind fields).frame.fixed = p.frame.fixed := by
  unfold Part.takeMessage
  split <;> (try split) <;> simp

@[simp] theorem Part.takeMessage_port (p : Part) (slot : Nat) (kind : Byte) (fields : List Byte) :
    (p.takeMessage slot kind fields).frame.port = p.frame.port := by
  unfold Part.takeMessage
  split <;> (try split) <;> simp

@[simp] theorem Part.hearAnswer_frame (p : Part) (slot : Nat) (carried : Option Carried) :
    (p.hearAnswer slot carried).frame = p.frame := by
  unfold Part.hearAnswer
  dsimp only
  (repeat' split) <;> simp

@[simp] theorem Part.takeAnswer_fixed (p : Part) (slot : Nat) (carried : Option Carried) (body : List Byte) :
    (p.takeAnswer slot carried body).frame.fixed = p.frame.fixed := by
  unfold Part.takeAnswer
  split <;> simp

@[simp] theorem Part.takeAnswer_port (p : Part) (slot : Nat) (carried : Option Carried) (body : List Byte) :
    (p.takeAnswer slot carried body).frame.port = p.frame.port := by
  unfold Part.takeAnswer
  split <;> simp

@[simp] theorem Part.badAnswer_frame (p : Part) (slot : Nat) (chars : List RxChar) :
    (p.badAnswer slot chars).frame = p.frame := by
  unfold Part.badAnswer
  split <;> simp

@[simp] theorem Part.judgeAnswer_fixed (p : Part) (slot : Nat) (carried : Option Carried) (chars : List RxChar) :
    (p.judgeAnswer slot carried chars).frame.fixed = p.frame.fixed := by
  unfold Part.judgeAnswer
  split <;> (try split) <;> simp

@[simp] theorem Part.judgeAnswer_port (p : Part) (slot : Nat) (carried : Option Carried) (chars : List RxChar) :
    (p.judgeAnswer slot carried chars).frame.port = p.frame.port := by
  unfold Part.judgeAnswer
  split <;> (try split) <;> simp

@[simp] theorem Part.judgeClaim_frame (p : Part) (chars : List RxChar) :
    (p.judgeClaim chars).frame = p.frame := by
  unfold Part.judgeClaim
  dsimp only
  (repeat' split) <;> simp

@[simp] theorem Part.countLate_frame (p : Part) : (p.countLate).frame = p.frame := rfl

@[simp] theorem Part.countStray_frame (p : Part) : (p.countStray).frame = p.frame := rfl

@[simp] theorem Part.judgeByTurn_fixed (p : Part) (chars : List RxChar) :
    (p.judgeByTurn chars).frame.fixed = p.frame.fixed := by
  unfold Part.judgeByTurn
  split <;> simp

@[simp] theorem Part.judgeByTurn_port (p : Part) (chars : List RxChar) :
    (p.judgeByTurn chars).frame.port = p.frame.port := by
  unfold Part.judgeByTurn
  split <;> simp

@[simp] theorem Part.frameEnds_fixed (p : Part) : (p.frameEnds).frame.fixed = p.frame.fixed := by
  unfold Part.frameEnds
  dsimp only
  split <;> simp

@[simp] theorem Part.frameEnds_port (p : Part) : (p.frameEnds).frame.port = p.frame.port := by
  unfold Part.frameEnds
  dsimp only
  split <;> simp

@[simp] theorem Part.countSpoiled_frame (p : Part) (c : RxChar) : (p.countSpoiled c).frame = p.frame := by
  unfold Part.countSpoiled
  (repeat' split) <;> simp

@[simp] theorem Part.firstChar_frame (p : Part) : (p.firstChar).frame = p.frame := rfl

@[simp] theorem Part.joinFrame_fixed (p : Part) (c : RxChar) : (p.joinFrame c).frame.fixed = p.frame.fixed := by
  unfold Part.joinFrame
  dsimp only
  split <;> simp

@[simp] theorem Part.joinFrame_port (p : Part) (c : RxChar) : (p.joinFrame c).frame.port = p.frame.port := by
  unfold Part.joinFrame
  dsimp only
  split <;> simp

@[simp] theorem Part.receiveChar_fixed (p : Part) (c : RxChar) :
    (p.receiveChar c).frame.fixed = p.frame.fixed := by
  unfold Part.receiveChar
  split <;> (try split) <;> simp

@[simp] theorem Part.receiveChar_port (p : Part) (c : RxChar) : (p.receiveChar c).frame.port = p.frame.port := by
  unfold Part.receiveChar
  split <;> (try split) <;> simp

@[simp] theorem Part.receiveGap_fixed (p : Part) : (p.receiveGap).frame.fixed = p.frame.fixed := by
  unfold Part.receiveGap
  split <;> simp

@[simp] theorem Part.receiveGap_port (p : Part) : (p.receiveGap).frame.port = p.frame.port := by
  unfold Part.receiveGap
  split <;> simp

@[simp] theorem Part.receiveFrame_fixed (p : Part) (chars : List RxChar) :
    (p.receiveFrame chars).frame.fixed = p.frame.fixed := by
  unfold Part.receiveFrame
  rw [Part.receiveGap_fixed]
  exact foldl_keeps (fun (x : Part) => x.frame.fixed) _ (fun (a : Part) c => a.receiveChar_fixed c) _ _

@[simp] theorem Part.receiveFrame_port (p : Part) (chars : List RxChar) :
    (p.receiveFrame chars).frame.port = p.frame.port := by
  unfold Part.receiveFrame
  rw [Part.receiveGap_port]
  exact foldl_keeps (fun (x : Part) => x.frame.port) _ (fun (a : Part) c => a.receiveChar_port c) _ _

@[simp] theorem Part.messageFrame_fixed (p : Part) (address : Byte) (kind : Nat) (fields : List Byte) :
    (p.messageFrame address kind fields).frame.fixed = p.frame.fixed := by simp [Part.messageFrame]

@[simp] theorem Part.messageFrame_port (p : Part) (address : Byte) (kind : Nat) (fields : List Byte) :
    (p.messageFrame address kind fields).frame.port = p.frame.port := by simp [Part.messageFrame]

/-! ## Machine/LineEvents.lean -/

@[simp] theorem Part.txLeaves_frame (p : Part) : (p.txLeaves).frame = p.frame := rfl

@[simp] theorem Part.loadReply_frame (p : Part) (ms : Nat) : (p.loadReply ms).frame = p.frame := rfl

@[simp] theorem Part.pollSent_frame (p : Part) : (p.pollSent).frame = p.frame := by
  unfold Part.pollSent
  split <;> (try split) <;> simp

@[simp] theorem Part.openSent_frame (p : Part) : (p.openSent).frame = p.frame := by
  unfold Part.openSent
  split <;> (try split) <;> simp

@[simp] theorem Part.grantSent_frame (p : Part) : (p.grantSent).frame = p.frame := by
  unfold Part.grantSent
  split <;> (try split) <;> simp

@[simp] theorem Part.replyExpires_frame (p : Part) : (p.replyExpires).frame = p.frame := by
  unfold Part.replyExpires
  split <;> (try split) <;> simp

@[simp] theorem Part.replyExpiry_frame (p : Part) : (p.replyExpiry).frame = p.frame :=
  Part.expireAt_keeps Part.frame 1 _ _ Part.replyExpires_frame p

@[simp] theorem Part.breakBegins_frame (p : Part) : (p.breakBegins).frame = p.frame := by
  unfold Part.breakBegins
  split <;> simp

@[simp] theorem Part.breakEnds_frame (p : Part) : (p.breakEnds).frame = p.frame := by
  unfold Part.breakEnds
  split <;> simp

@[simp] theorem Part.wholeFrame_fixed (p : Part) (chars : List RxChar) :
    (p.wholeFrame chars).frame.fixed = p.frame.fixed := by simp [Part.wholeFrame]

@[simp] theorem Part.wholeFrame_port (p : Part) (chars : List RxChar) :
    (p.wholeFrame chars).frame.port = p.frame.port := by simp [Part.wholeFrame]

@[simp] theorem Part.frameBetween_frame (p : Part) (chars : List RxChar) : (p.frameBetween chars).frame = p.frame := by
  have h := foldl_keeps Part.frame Part.countSpoiled (fun (a : Part) c => a.countSpoiled_frame c) chars p
  unfold Part.frameBetween
  dsimp only
  split <;> simpa using h

@[simp] theorem Part.outsideFrame_fixed (p : Part) (chars : List RxChar) :
    (p.outsideFrame chars).frame.fixed = p.frame.fixed := by
  unfold Part.outsideFrame
  split <;> simp

@[simp] theorem Part.outsideFrame_port (p : Part) (chars : List RxChar) :
    (p.outsideFrame chars).frame.port = p.frame.port := by
  unfold Part.outsideFrame
  split <;> simp

end Sys2Proof.Machine
end

