-- ==== Sys2Proof/Laws/FrameCommands.lean ====
section
/-! SUPPORT. Laws/FrameCommands.lean: what the operations of the book commands, the line commands, the catalog commands, the play commands, the display and scoring commands, the port commands, the play events, the die events, the video events leave alone of the
view of Laws/Frame.lean: one lemma for each operation. -/

namespace Sys2Proof.Machine

/-! ## Machine/BookCommands.lean -/

@[simp] theorem Part.cancelEntry_fixed (p : Part) (e : Entry) :
    (p.cancelEntry e).frame.fixed = p.frame.fixed := by
  unfold Part.cancelEntry
  split <;> simp

@[simp] theorem Part.cancelEntry_port (p : Part) (e : Entry) : (p.cancelEntry e).frame.port = p.frame.port := by
  unfold Part.cancelEntry
  split <;> simp

@[simp] theorem Part.applyEdit_frame (p : Part) (a : EditParams) : (p.applyEdit a).frame = p.frame := by
  unfold Part.applyEdit
  split <;> simp

@[simp] theorem Part.placeEntry_frame (p : Part) (e : Entry) (position : Nat) :
    (p.placeEntry e position).frame = p.frame := by simp [Part.placeEntry]

/-! ## Machine/LineCommands.lean -/

@[simp] theorem Part.clearErrorCounts_frame (p : Part) : (p.clearErrorCounts).frame = p.frame := by
  simp [Part.clearErrorCounts]

@[simp] theorem Part.departDesk_frame (p : Part) (slot : Nat) (barred : Bool) :
    (p.departDesk slot barred).frame = p.frame := by simp [Part.departDesk]

/-! ## Machine/CatalogCommands.lean -/

@[simp] theorem Part.installOpen_frame (p : Part) (a : InstallParams) (d : Nat) :
    (p.installOpen a d).frame = p.frame := by simp [Part.installOpen]

@[simp] theorem Part.abandonInstall_frame (p : Part) (r : Install) : (p.abandonInstall r).frame = p.frame := by
  simp [Part.abandonInstall]

@[simp] theorem Part.withdraw_frame (p : Part) (e : CatEntry) : (p.withdraw e).frame = p.frame := by
  unfold Part.withdraw
  dsimp only
  split <;> simp

/-! ## Machine/PlayCommands.lean -/

@[simp] theorem Part.clearPresenceChanged_frame (p : Part) : (p.clearPresenceChanged).frame = p.frame := by
  simp [Part.clearPresenceChanged]

@[simp] theorem Part.setTime_frame (p : Part) (steps : Nat) : (p.setTime steps).frame = p.frame := rfl

@[simp] theorem Part.nudgeForward_fixed (p : Part) : (p.nudgeForward).frame.fixed = p.frame.fixed := by
  simp [Part.nudgeForward]

@[simp] theorem Part.nudgeForward_port (p : Part) : (p.nudgeForward).frame.port = p.frame.port := by
  simp [Part.nudgeForward]

@[simp] theorem Part.nudge_fixed (p : Part) (ms : Int) : (p.nudge ms).frame.fixed = p.frame.fixed := by
  unfold Part.nudge
  split <;> (try split) <;> simp

@[simp] theorem Part.nudge_port (p : Part) (ms : Int) : (p.nudge ms).frame.port = p.frame.port := by
  unfold Part.nudge
  split <;> (try split) <;> simp

/-! ## Machine/DisplayCommands.lean -/

@[simp] theorem Part.clearDisplayCounts_frame (p : Part) : (p.clearDisplayCounts).frame = p.frame := rfl

@[simp] theorem Part.markRead_frame (p : Part) : (p.markRead).frame = p.frame := rfl

/-! ## Machine/PortCommands.lean -/

@[simp] theorem Part.clearReported_frame (p : Part) : (p.clearReported).frame = p.frame := by
  unfold Part.clearReported
  split <;> (try split) <;> simp

@[simp] theorem Part.formatActs_frame (p : Part) : (p.formatActs).frame = p.frame := by
  unfold Part.formatActs
  split <;> simp

@[simp] theorem Part.removePlaying_fixed (p : Part) : (p.removePlaying).frame.fixed = p.frame.fixed := by
  unfold Part.removePlaying
  split <;> simp

@[simp] theorem Part.removePlaying_port (p : Part) : (p.removePlaying).frame.port = p.frame.port := by
  unfold Part.removePlaying
  split <;> simp

@[simp] theorem Part.clearPlay_fixed (p : Part) : (p.clearPlay).frame.fixed = p.frame.fixed := by
  unfold Part.clearPlay
  split <;> simp

@[simp] theorem Part.clearPlay_port (p : Part) : (p.clearPlay).frame.port = p.frame.port := by
  unfold Part.clearPlay
  split <;> simp

@[simp] theorem Part.clearBook_frame (p : Part) : (p.clearBook).frame = p.frame := by simp [Part.clearBook]

@[simp] theorem Part.clearDisplay_frame (p : Part) : (p.clearDisplay).frame = p.frame := rfl

@[simp] theorem Part.clearScorer_frame (p : Part) : (p.clearScorer).frame = p.frame := by simp [Part.clearScorer]

@[simp] theorem Part.clearRoomSources_frame (p : Part) : (p.clearRoomSources).frame = p.frame := rfl

/-! ## Machine/DieEvents.lean -/

@[simp] theorem Part.opDone_fixed (p : Part) (d : Nat) : (p.opDone d).frame.fixed = p.frame.fixed := by
  simp [Part.opDone]

@[simp] theorem Part.opDone_port (p : Part) (d : Nat) : (p.opDone d).frame.port = p.frame.port := by
  simp [Part.opDone]

@[simp] theorem Part.readerGoesOn_fixed (p : Part) : (p.readerGoesOn).frame.fixed = p.frame.fixed := by
  simp [Part.readerGoesOn]

@[simp] theorem Part.readerGoesOn_port (p : Part) : (p.readerGoesOn).frame.port = p.frame.port := by
  simp [Part.readerGoesOn]

@[simp] theorem Part.headerTaken_frame (p : Part) (song : HeldSong) (page : List Byte) :
    (p.headerTaken song page).frame = p.frame := by simp [Part.headerTaken]

@[simp] theorem Part.pageTaken_frame (p : Part) (song : HeldSong) (page : Nat) (data : Option (List Byte)) :
    (p.pageTaken song page data).frame = p.frame := by
  unfold Part.pageTaken
  split <;> simp

@[simp] theorem Part.headerArrives_fixed (p : Part) (song : HeldSong) (data : Option (List Byte)) :
    (p.headerArrives song data).frame.fixed = p.frame.fixed := by
  unfold Part.headerArrives
  split <;> simp

@[simp] theorem Part.headerArrives_port (p : Part) (song : HeldSong) (data : Option (List Byte)) :
    (p.headerArrives song data).frame.port = p.frame.port := by
  unfold Part.headerArrives
  split <;> simp

@[simp] theorem Part.pageArrives_fixed (p : Part) (song : HeldSong) (page : Nat) (data : Option (List Byte)) :
    (p.pageArrives song page data).frame.fixed = p.frame.fixed := by
  simp [Part.pageArrives]

@[simp] theorem Part.pageArrives_port (p : Part) (song : HeldSong) (page : Nat) (data : Option (List Byte)) :
    (p.pageArrives song page data).frame.port = p.frame.port := by
  simp [Part.pageArrives]

@[simp] theorem Part.streamArrives_fixed (read : PageRead) (r : Request) (p : Part) :
    (Part.streamArrives read r p).frame.fixed = p.frame.fixed := by
  unfold Part.streamArrives
  split <;> (try split) <;> simp

@[simp] theorem Part.streamArrives_port (read : PageRead) (r : Request) (p : Part) :
    (Part.streamArrives read r p).frame.port = p.frame.port := by
  unfold Part.streamArrives
  split <;> (try split) <;> simp

@[simp] theorem Part.findAnswered_frame (p : Part) (slot song : Nat) (page : Option (List Byte)) :
    (p.findAnswered slot song page).frame = p.frame := by
  unfold Part.findAnswered
  split <;> simp

@[simp] theorem Part.scanArrives_frame (d : Nat) (read : PageRead) (x : Request) (p : Part) :
    (Part.scanArrives d read x p).frame = p.frame := by
  unfold Part.scanArrives
  split <;> (try split) <;> simp

@[simp] theorem Part.identified_frame (p : Part) (d : Nat) (present : Bool) :
    (p.identified d present).frame = p.frame := by
  unfold Part.identified
  dsimp only
  (repeat' split) <;> simp

@[simp] theorem Part.identifies_frame (p : Part) (d : Nat) (report : IdentReport) :
    (p.identifies d report).frame = p.frame := by
  unfold Part.identifies
  split <;> simp

@[simp] theorem Part.setMark_frame (p : Part) (n : Nat) : (p.setMark n).frame = p.frame := rfl

@[simp] theorem Part.installNext_frame (p : Part) (r : Install) : (p.installNext r).frame = p.frame := by
  simp [Part.installNext]

@[simp] theorem Part.installPassed_frame (p : Part) (r : Install) (op : InstallOp) :
    (p.installPassed r op).frame = p.frame := by
  unfold Part.installPassed
  split <;> (try split) <;> simp

@[simp] theorem Part.installOpFails_frame (p : Part) (d : Nat) (x : Request) (op : InstallOp) :
    (p.installOpFails d x op).frame = p.frame := by
  unfold Part.installOpFails
  split <;> simp

@[simp] theorem Part.installOpEnds_frame (p : Part) (d : Nat) (pass : Bool) (x : Request) :
    (p.installOpEnds d pass x).frame = p.frame := by
  unfold Part.installOpEnds
  (repeat' split) <;> simp

@[simp] theorem Part.removeCatEntry_frame (p : Part) (song : Nat) : (p.removeCatEntry song).frame = p.frame := rfl

@[simp] theorem Part.withdrawEnds_frame (d : Nat) (pass : Bool) (r : Request) (p : Part) :
    (Part.withdrawEnds d pass r p).frame = p.frame := by
  unfold Part.withdrawEnds
  split <;> (try split) <;> simp

@[simp] theorem Part.reclaimEnds_frame (d : Nat) (pass : Bool) (r : Request) (p : Part) :
    (Part.reclaimEnds d pass r p).frame = p.frame := by
  unfold Part.reclaimEnds
  split <;> simp

@[simp] theorem Part.dieStops_frame (p : Part) (d : Nat) : (p.dieStops d).frame = p.frame := by simp [Part.dieStops]

@[simp] theorem Part.catalogFaults_frame (p : Part) (d : Nat) : (p.catalogFaults d).frame = p.frame := by
  unfold Part.catalogFaults
  exact (foldl_keeps Part.frame _ (fun a b => a.reclaimJoin_frame d b) _ _).trans rfl

@[simp] theorem Part.installOnDieFails_frame (p : Part) (d : Nat) : (p.installOnDieFails d).frame = p.frame := by
  unfold Part.installOnDieFails
  split <;> simp

@[simp] theorem Part.playFaults_fixed (p : Part) (d : Nat) : (p.playFaults d).frame.fixed = p.frame.fixed := by
  unfold Part.playFaults
  split <;> (try split) <;> simp

@[simp] theorem Part.playFaults_port (p : Part) (d : Nat) : (p.playFaults d).frame.port = p.frame.port := by
  unfold Part.playFaults
  split <;> (try split) <;> simp

@[simp] theorem Part.mountingFault_frame (p : Part) (d block : Nat) :
    (p.mountingFault d block).frame = p.frame := by
  unfold Part.mountingFault
  split <;> simp

@[simp] theorem Part.protectChanges_frame (p : Part) (high : Bool) : (p.protectChanges high).frame = p.frame := by
  unfold Part.protectChanges
  dsimp only
  split <;> simp

/-! ## Machine/VideoEvents.lean -/

@[simp] theorem Part.loadWatch_frame (p : Part) : (p.loadWatch).frame = p.frame := rfl

@[simp] theorem Part.openFrame_frame (p : Part) (b : Bool) : (p.openFrame b).frame = p.frame := rfl

@[simp] theorem Part.setRun_frame (p : Part) (n : Nat) : (p.setRun n).frame = p.frame := rfl

@[simp] theorem Part.regainVideo_frame (p : Part) : (p.regainVideo).frame = p.frame := by simp [Part.regainVideo]

@[simp] theorem Part.inputLost_frame (p : Part) (ended : InputFrame) : (p.inputLost ended).frame = p.frame := by
  unfold Part.inputLost
  (repeat' split) <;> simp

@[simp] theorem Part.inputPass_frame (p : Part) (ended : InputFrame) : (p.inputPass ended).frame = p.frame := by
  unfold Part.inputPass
  split <;> simp

@[simp] theorem Part.inputFrame_frame (p : Part) (ended : InputFrame) : (p.inputFrame ended).frame = p.frame := by
  unfold Part.inputFrame
  split <;> simp

@[simp] theorem Part.internalFrame_frame (p : Part) : (p.internalFrame).frame = p.frame := by
  unfold Part.internalFrame
  split <;> simp

@[simp] theorem Part.videoLost_frame (p : Part) : (p.videoLost).frame = p.frame := by
  unfold Part.videoLost
  split <;> simp

@[simp] theorem Part.videoWatchExpiry_frame (p : Part) : (p.videoWatchExpiry).frame = p.frame :=
  Part.expireAt_keeps Part.frame 1 _ _ Part.videoLost_frame p

@[simp] theorem Part.cardExpiry_frame (p : Part) : (p.cardExpiry).frame = p.frame :=
  Part.expireAt_keeps Part.frame 1 _ _ Part.cardDown_frame p

/-! ## Machine/PlayEvents.lean -/

@[simp] theorem Part.holdExpires_fixed (p : Part) : (p.holdExpires).frame.fixed = p.frame.fixed := by
  simp [Part.holdExpires]

@[simp] theorem Part.holdExpires_port (p : Part) : (p.holdExpires).frame.port = p.frame.port := by
  simp [Part.holdExpires]

@[simp] theorem Part.gapExpires_fixed (p : Part) : (p.gapExpires).frame.fixed = p.frame.fixed := by
  simp [Part.gapExpires]

@[simp] theorem Part.gapExpires_port (p : Part) : (p.gapExpires).frame.port = p.frame.port := by
  simp [Part.gapExpires]

@[simp] theorem Part.holdExpiry_fixed (p : Part) : (p.holdExpiry).frame.fixed = p.frame.fixed :=
  Part.expireAt_keeps (fun q => q.frame.fixed) 1 _ _ Part.holdExpires_fixed p

@[simp] theorem Part.holdExpiry_port (p : Part) : (p.holdExpiry).frame.port = p.frame.port :=
  Part.expireAt_keeps (fun q => q.frame.port) 1 _ _ Part.holdExpires_port p

@[simp] theorem Part.gapExpiry_fixed (p : Part) : (p.gapExpiry).frame.fixed = p.frame.fixed :=
  Part.expireAt_keeps (fun q => q.frame.fixed) 1 _ _ Part.gapExpires_fixed p

@[simp] theorem Part.gapExpiry_port (p : Part) : (p.gapExpiry).frame.port = p.frame.port :=
  Part.expireAt_keeps (fun q => q.frame.port) 1 _ _ Part.gapExpires_port p

@[simp] theorem Part.tick_fixed (p : Part) : (p.tick).frame.fixed = p.frame.fixed := rfl

@[simp] theorem Part.tick_port (p : Part) : (p.tick).frame.port = p.frame.port := rfl

end Sys2Proof.Machine
end

