-- ==== Sys2Proof/Laws/Commands.lean ====
section
/-! SUPPORT. Laws/Commands.lean: what a host command does to the port: the owning blocks leave it alone, and the port forms the
answer. -/

namespace Sys2Proof.Machine

@[simp] theorem Part.clearHandsets_port (p : Part) : p.clearHandsets.frame.port = p.frame.port := by
  unfold Part.clearHandsets
  have h := foldl_keeps (fun (x : Part) => x.frame.port) Part.emptyStore
    (fun (a : Part) n => congrArg Frame.port (a.emptyStore_frame n)) slotNumbers p
  dsimp only
  split <;> simpa using h

@[simp] theorem Part.clearRoom_port (p : Part) : p.clearRoom.frame.port = p.frame.port := by
  simp [Part.clearRoom]

@[simp] theorem Part.configure_port (p : Part) (c : Settings) : (p.configure c).frame.port = p.frame.port := by
  unfold Part.configure
  dsimp only
  (repeat' split) <;> simp

@[simp] theorem thenPromote_port (r : Part × CmdResult) : (thenPromote r).1.frame.port = r.1.frame.port := by
  simp [thenPromote]

@[simp] theorem thenPromote_fixed (r : Part × CmdResult) : (thenPromote r).1.frame.fixed = r.1.frame.fixed := by
  simp [thenPromote]

@[simp] theorem thenPromote_result (r : Part × CmdResult) : (thenPromote r).2 = r.2 := rfl

@[simp] theorem cmdAddRequest_port (params : List Byte) (p : Part) :
    (cmdAddRequest params p).1.frame.port = p.frame.port := by
  unfold cmdAddRequest withForm
  split
  · rfl
  next a _ =>
    have h := p.add_frame { origin := .desk, song := a.song, singers := a.singers, key := a.key, tempo := a.tempo,
                            front := a.front }
    dsimp only
    split <;> rename_i heq <;> simp [heq] at h <;> simp [h]

@[simp] theorem cmdCancelRequest_port (params : List Byte) (p : Part) :
    (cmdCancelRequest params p).1.frame.port = p.frame.port := by
  unfold cmdCancelRequest withForm
  dsimp only
  (repeat' split) <;> simp

@[simp] theorem cmdEditRequest_port (params : List Byte) (p : Part) :
    (cmdEditRequest params p).1.frame.port = p.frame.port := by
  unfold cmdEditRequest withForm
  dsimp only
  (repeat' split) <;> simp

@[simp] theorem cmdPlaceRequest_port (params : List Byte) (p : Part) :
    (cmdPlaceRequest params p).1.frame.port = p.frame.port := by
  unfold cmdPlaceRequest withForm
  dsimp only
  (repeat' split) <;> simp

@[simp] theorem cmdReadBook_port (params : List Byte) (p : Part) :
    (cmdReadBook params p).1.frame.port = p.frame.port := by
  unfold cmdReadBook withForm
  split <;> simp

@[simp] theorem cmdHoldBook_port (params : List Byte) (p : Part) :
    (cmdHoldBook params p).1.frame.port = p.frame.port := by
  unfold cmdHoldBook withForm
  dsimp only
  (repeat' split) <;> simp

@[simp] theorem cmdLineStatus_port (params : List Byte) (p : Part) :
    (cmdLineStatus params p).1.frame.port = p.frame.port := by
  unfold cmdLineStatus withForm
  split <;> simp

@[simp] theorem cmdHandsetTable_port (params : List Byte) (p : Part) :
    (cmdHandsetTable params p).1.frame.port = p.frame.port := by
  unfold cmdHandsetTable withForm
  dsimp only
  (repeat' split) <;> simp

@[simp] theorem cmdOpenClaims_port (params : List Byte) (p : Part) :
    (cmdOpenClaims params p).1.frame.port = p.frame.port := by
  unfold cmdOpenClaims withForm
  dsimp only
  (repeat' split) <;> simp

@[simp] theorem cmdBarHandset_port (params : List Byte) (p : Part) :
    (cmdBarHandset params p).1.frame.port = p.frame.port := by
  unfold cmdBarHandset withForm
  dsimp only
  (repeat' split) <;> simp

@[simp] theorem cmdReleaseHandset_port (params : List Byte) (p : Part) :
    (cmdReleaseHandset params p).1.frame.port = p.frame.port := by
  unfold cmdReleaseHandset withForm
  dsimp only
  (repeat' split) <;> simp

@[simp] theorem cmdMount_port (params : List Byte) (p : Part) :
    (cmdMount params p).1.frame.port = p.frame.port := by
  unfold cmdMount withForm
  (repeat' split) <;> simp

@[simp] theorem cmdLookUpSong_port (params : List Byte) (p : Part) :
    (cmdLookUpSong params p).1.frame.port = p.frame.port := by
  unfold cmdLookUpSong withForm
  dsimp only
  (repeat' split) <;> simp

@[simp] theorem cmdListSongs_port (params : List Byte) (p : Part) :
    (cmdListSongs params p).1.frame.port = p.frame.port := by
  unfold cmdListSongs withForm
  dsimp only
  (repeat' split) <;> simp

@[simp] theorem cmdInstallBegin_port (params : List Byte) (p : Part) :
    (cmdInstallBegin params p).1.frame.port = p.frame.port := by
  unfold cmdInstallBegin withForm
  dsimp only
  (repeat' split) <;> simp

@[simp] theorem cmdInstallPage_port (params : List Byte) (p : Part) :
    (cmdInstallPage params p).1.frame.port = p.frame.port := by
  unfold cmdInstallPage withForm
  dsimp only
  (repeat' split) <;> simp

@[simp] theorem cmdInstallClose_port (params : List Byte) (p : Part) :
    (cmdInstallClose params p).1.frame.port = p.frame.port := by
  unfold cmdInstallClose withForm
  (repeat' split) <;> simp

@[simp] theorem cmdInstallAbandon_port (params : List Byte) (p : Part) :
    (cmdInstallAbandon params p).1.frame.port = p.frame.port := by
  unfold cmdInstallAbandon withForm
  (repeat' split) <;> simp

@[simp] theorem cmdWithdrawSong_port (params : List Byte) (p : Part) :
    (cmdWithdrawSong params p).1.frame.port = p.frame.port := by
  unfold cmdWithdrawSong withForm
  dsimp only
  (repeat' split) <;> simp

@[simp] theorem cmdLibraryStatus_port (params : List Byte) (p : Part) :
    (cmdLibraryStatus params p).1.frame.port = p.frame.port := by
  unfold cmdLibraryStatus withForm
  dsimp only
  (repeat' split) <;> simp

@[simp] theorem cmdPlayStatus_port (params : List Byte) (p : Part) :
    (cmdPlayStatus params p).1.frame.port = p.frame.port := by
  unfold cmdPlayStatus withForm
  split <;> simp

@[simp] theorem cmdStart_port (params : List Byte) (p : Part) :
    (cmdStart params p).1.frame.port = p.frame.port := by
  unfold cmdStart withForm
  (repeat' split) <;> simp

@[simp] theorem cmdSkip_port (params : List Byte) (p : Part) :
    (cmdSkip params p).1.frame.port = p.frame.port := by
  unfold cmdSkip withForm
  (repeat' split) <;> simp

@[simp] theorem cmdExtendHold_port (params : List Byte) (p : Part) :
    (cmdExtendHold params p).1.frame.port = p.frame.port := by
  unfold cmdExtendHold withForm
  dsimp only
  (repeat' split) <;> simp

@[simp] theorem cmdPause_port (params : List Byte) (p : Part) :
    (cmdPause params p).1.frame.port = p.frame.port := by
  unfold cmdPause withForm
  (repeat' split) <;> simp

@[simp] theorem cmdResume_port (params : List Byte) (p : Part) :
    (cmdResume params p).1.frame.port = p.frame.port := by
  unfold cmdResume withForm
  (repeat' split) <;> simp

@[simp] theorem cmdNudge_port (params : List Byte) (p : Part) :
    (cmdNudge params p).1.frame.port = p.frame.port := by
  unfold cmdNudge withForm
  dsimp only
  (repeat' split) <;> simp

@[simp] theorem cmdNextNow_port (params : List Byte) (p : Part) :
    (cmdNextNow params p).1.frame.port = p.frame.port := by
  unfold cmdNextNow withForm
  (repeat' split) <;> simp

@[simp] theorem cmdLoadGlyphs_port (params : List Byte) (p : Part) :
    (cmdLoadGlyphs params p).1.frame.port = p.frame.port := by
  unfold cmdLoadGlyphs withForm
  split <;> simp

@[simp] theorem cmdDisplaySettings_port (params : List Byte) (p : Part) :
    (cmdDisplaySettings params p).1.frame.port = p.frame.port := by
  unfold cmdDisplaySettings withForm
  dsimp only
  (repeat' split) <;> simp

@[simp] theorem cmdBindMic_port (params : List Byte) (p : Part) :
    (cmdBindMic params p).1.frame.port = p.frame.port := by
  unfold cmdBindMic withForm
  split <;> simp

@[simp] theorem cmdScoreReport_port (params : List Byte) (p : Part) :
    (cmdScoreReport params p).1.frame.port = p.frame.port := by
  unfold cmdScoreReport withForm
  split <;> simp

@[simp] theorem cmdIdentify_port (params : List Byte) (p : Part) :
    (cmdIdentify params p).1.frame.port = p.frame.port := by
  unfold cmdIdentify withForm
  split <;> simp

@[simp] theorem cmdReadAttention_port (params : List Byte) (p : Part) :
    (cmdReadAttention params p).1.frame.port = p.frame.port := by
  unfold cmdReadAttention withForm
  split <;> simp

@[simp] theorem cmdSetAttentionMask_port (params : List Byte) (p : Part) :
    (cmdSetAttentionMask params p).1.frame.port = p.frame.port := by
  unfold cmdSetAttentionMask withForm
  split <;> simp

@[simp] theorem cmdConfigure_port (params : List Byte) (p : Part) :
    (cmdConfigure params p).1.frame.port = p.frame.port := by
  unfold cmdConfigure withForm
  dsimp only
  (repeat' split) <;> simp

@[simp] theorem cmdClearRoom_port (params : List Byte) (p : Part) :
    (cmdClearRoom params p).1.frame.port = p.frame.port := by
  unfold cmdClearRoom withForm
  split <;> simp

@[simp] theorem cmdAddRequest_fixed (params : List Byte) (p : Part) :
    (cmdAddRequest params p).1.frame.fixed = p.frame.fixed := by
  unfold cmdAddRequest withForm
  split
  · rfl
  next a _ =>
    have h := p.add_frame { origin := .desk, song := a.song, singers := a.singers, key := a.key, tempo := a.tempo,
                            front := a.front }
    dsimp only
    split <;> rename_i heq <;> simp [heq] at h <;> simp [h]

@[simp] theorem cmdCancelRequest_fixed (params : List Byte) (p : Part) :
    (cmdCancelRequest params p).1.frame.fixed = p.frame.fixed := by
  unfold cmdCancelRequest withForm
  dsimp only
  (repeat' split) <;> simp

@[simp] theorem cmdEditRequest_fixed (params : List Byte) (p : Part) :
    (cmdEditRequest params p).1.frame.fixed = p.frame.fixed := by
  unfold cmdEditRequest withForm
  dsimp only
  (repeat' split) <;> simp

@[simp] theorem cmdPlaceRequest_fixed (params : List Byte) (p : Part) :
    (cmdPlaceRequest params p).1.frame.fixed = p.frame.fixed := by
  unfold cmdPlaceRequest withForm
  dsimp only
  (repeat' split) <;> simp

@[simp] theorem cmdReadBook_fixed (params : List Byte) (p : Part) :
    (cmdReadBook params p).1.frame.fixed = p.frame.fixed := by
  unfold cmdReadBook withForm
  split <;> simp

@[simp] theorem cmdHoldBook_fixed (params : List Byte) (p : Part) :
    (cmdHoldBook params p).1.frame.fixed = p.frame.fixed := by
  unfold cmdHoldBook withForm
  dsimp only
  (repeat' split) <;> simp

@[simp] theorem cmdLineStatus_fixed (params : List Byte) (p : Part) :
    (cmdLineStatus params p).1.frame.fixed = p.frame.fixed := by
  unfold cmdLineStatus withForm
  split <;> simp

@[simp] theorem cmdHandsetTable_fixed (params : List Byte) (p : Part) :
    (cmdHandsetTable params p).1.frame.fixed = p.frame.fixed := by
  unfold cmdHandsetTable withForm
  dsimp only
  (repeat' split) <;> simp

@[simp] theorem cmdBarHandset_fixed (params : List Byte) (p : Part) :
    (cmdBarHandset params p).1.frame.fixed = p.frame.fixed := by
  unfold cmdBarHandset withForm
  dsimp only
  (repeat' split) <;> simp

@[simp] theorem cmdReleaseHandset_fixed (params : List Byte) (p : Part) :
    (cmdReleaseHandset params p).1.frame.fixed = p.frame.fixed := by
  unfold cmdReleaseHandset withForm
  dsimp only
  (repeat' split) <;> simp

@[simp] theorem cmdMount_fixed (params : List Byte) (p : Part) :
    (cmdMount params p).1.frame.fixed = p.frame.fixed := by
  unfold cmdMount withForm
  (repeat' split) <;> simp

@[simp] theorem cmdLookUpSong_fixed (params : List Byte) (p : Part) :
    (cmdLookUpSong params p).1.frame.fixed = p.frame.fixed := by
  unfold cmdLookUpSong withForm
  dsimp only
  (repeat' split) <;> simp

@[simp] theorem cmdListSongs_fixed (params : List Byte) (p : Part) :
    (cmdListSongs params p).1.frame.fixed = p.frame.fixed := by
  unfold cmdListSongs withForm
  dsimp only
  (repeat' split) <;> simp

@[simp] theorem cmdInstallBegin_fixed (params : List Byte) (p : Part) :
    (cmdInstallBegin params p).1.frame.fixed = p.frame.fixed := by
  unfold cmdInstallBegin withForm
  dsimp only
  (repeat' split) <;> simp

@[simp] theorem cmdInstallPage_fixed (params : List Byte) (p : Part) :
    (cmdInstallPage params p).1.frame.fixed = p.frame.fixed := by
  unfold cmdInstallPage withForm
  dsimp only
  (repeat' split) <;> simp

@[simp] theorem cmdInstallClose_fixed (params : List Byte) (p : Part) :
    (cmdInstallClose params p).1.frame.fixed = p.frame.fixed := by
  unfold cmdInstallClose withForm
  (repeat' split) <;> simp

@[simp] theorem cmdInstallAbandon_fixed (params : List Byte) (p : Part) :
    (cmdInstallAbandon params p).1.frame.fixed = p.frame.fixed := by
  unfold cmdInstallAbandon withForm
  (repeat' split) <;> simp

@[simp] theorem cmdWithdrawSong_fixed (params : List Byte) (p : Part) :
    (cmdWithdrawSong params p).1.frame.fixed = p.frame.fixed := by
  unfold cmdWithdrawSong withForm
  dsimp only
  (repeat' split) <;> simp

@[simp] theorem cmdLibraryStatus_fixed (params : List Byte) (p : Part) :
    (cmdLibraryStatus params p).1.frame.fixed = p.frame.fixed := by
  unfold cmdLibraryStatus withForm
  dsimp only
  (repeat' split) <;> simp

@[simp] theorem cmdPlayStatus_fixed (params : List Byte) (p : Part) :
    (cmdPlayStatus params p).1.frame.fixed = p.frame.fixed := by
  unfold cmdPlayStatus withForm
  split <;> simp

@[simp] theorem cmdStart_fixed (params : List Byte) (p : Part) :
    (cmdStart params p).1.frame.fixed = p.frame.fixed := by
  unfold cmdStart withForm
  (repeat' split) <;> simp

@[simp] theorem cmdSkip_fixed (params : List Byte) (p : Part) :
    (cmdSkip params p).1.frame.fixed = p.frame.fixed := by
  unfold cmdSkip withForm
  (repeat' split) <;> simp

@[simp] theorem cmdExtendHold_fixed (params : List Byte) (p : Part) :
    (cmdExtendHold params p).1.frame.fixed = p.frame.fixed := by
  unfold cmdExtendHold withForm
  dsimp only
  (repeat' split) <;> simp

@[simp] theorem cmdPause_fixed (params : List Byte) (p : Part) :
    (cmdPause params p).1.frame.fixed = p.frame.fixed := by
  unfold cmdPause withForm
  (repeat' split) <;> simp

@[simp] theorem cmdResume_fixed (params : List Byte) (p : Part) :
    (cmdResume params p).1.frame.fixed = p.frame.fixed := by
  unfold cmdResume withForm
  (repeat' split) <;> simp

@[simp] theorem cmdNudge_fixed (params : List Byte) (p : Part) :
    (cmdNudge params p).1.frame.fixed = p.frame.fixed := by
  unfold cmdNudge withForm
  dsimp only
  (repeat' split) <;> simp

@[simp] theorem cmdNextNow_fixed (params : List Byte) (p : Part) :
    (cmdNextNow params p).1.frame.fixed = p.frame.fixed := by
  unfold cmdNextNow withForm
  (repeat' split) <;> simp

@[simp] theorem cmdBindMic_fixed (params : List Byte) (p : Part) :
    (cmdBindMic params p).1.frame.fixed = p.frame.fixed := by
  unfold cmdBindMic withForm
  split <;> simp

@[simp] theorem cmdScoreReport_fixed (params : List Byte) (p : Part) :
    (cmdScoreReport params p).1.frame.fixed = p.frame.fixed := by
  unfold cmdScoreReport withForm
  split <;> simp

@[simp] theorem cmdIdentify_fixed (params : List Byte) (p : Part) :
    (cmdIdentify params p).1.frame.fixed = p.frame.fixed := by
  unfold cmdIdentify withForm
  split <;> simp

@[simp] theorem cmdReadAttention_fixed (params : List Byte) (p : Part) :
    (cmdReadAttention params p).1.frame.fixed = p.frame.fixed := by
  unfold cmdReadAttention withForm
  split <;> simp

@[simp] theorem cmdSetAttentionMask_fixed (params : List Byte) (p : Part) :
    (cmdSetAttentionMask params p).1.frame.fixed = p.frame.fixed := by
  unfold cmdSetAttentionMask withForm
  split <;> simp

/-! ## Forming the answer -/

@[simp] theorem Part.finish_fixed (p : Part) (tag : Byte) (r : CmdResult) :
    (p.finish tag r).frame.fixed = p.frame.fixed := by
  cases r <;> rfl

@[simp] theorem Part.finish_cue (p : Part) (tag : Byte) (r : CmdResult) : (p.finish tag r).frame.cue = p.frame.cue := by
  cases r <;> rfl

@[simp] theorem Part.quietSdo_fixed (p : Part) : (p.quietSdo).frame.fixed = p.frame.fixed := rfl

@[simp] theorem Part.quietSdo_cue (p : Part) : (p.quietSdo).frame.cue = p.frame.cue := rfl

/-- R174: the port takes a command when it is ready. -/
theorem Part.takeCommand_ready (p : Part) (h : p.ready) (tag : Byte) (body : Part → Part × CmdResult) :
    p.takeCommand tag body = ((body p).1.finish tag (body p).2).quietSdo := by
  simp [Part.takeCommand, h.1, h.2]

/-- R177: in EXECUTING and ANSWER READY a WRITE select sets COLLISION and does nothing else. -/
theorem Part.takeCommand_busy (p : Part) (h : p.port.ignoreSelect = false) (hs : p.port.state ≠ .idle) (tag : Byte)
    (body : Part → Part × CmdResult) : p.takeCommand tag body = p.collide := by
  unfold Part.takeCommand
  simp only [h, Bool.false_eq_true, if_false]
  cases hp : p.port.state
  · exact absurd hp hs
  · rfl
  · rfl

/-- R173: a select in progress when a pin reset ended is ignored. -/
theorem Part.takeCommand_ignored (p : Part) (h : p.port.ignoreSelect = true) (tag : Byte)
    (body : Part → Part × CmdResult) : p.takeCommand tag body = p.passSelect := by
  simp [Part.takeCommand, h]

/-- A command taken keeps what its body keeps of the view beside the port. -/
theorem Part.takeCommand_fixed (p : Part) (tag : Byte) (body : Part → Part × CmdResult)
    (h : (body p).1.frame.fixed = p.frame.fixed) : (p.takeCommand tag body).frame.fixed = p.frame.fixed := by
  unfold Part.takeCommand
  split
  · rfl
  · split
    · simpa using h
    · rfl
    · rfl

/-- R176: a command taken leaves a port that is as Table 9-1 says. -/
theorem Part.takeCommand_port_wf (p : Part) (tag : Byte) (body : Part → Part × CmdResult)
    (hb : (body p).1.frame.port = p.frame.port) (h : p.port.wf) : (p.takeCommand tag body).port.wf := by
  unfold Part.takeCommand
  split
  · exact h
  · split
    · have hp : (body p).1.port = p.port := hb
      generalize hr : (body p).2 = r
      cases r <;> simp [Part.finish, Part.refuse, Part.quietSdo, Port.wf]
    · next hs => simpa [Part.collide, Part.quietSdo, Port.wf, hs] using h
    · next hs => simpa [Part.collide, Part.quietSdo, Port.wf, hs] using h

end Sys2Proof.Machine
end

