-- ==== Sys2Proof/Laws/Dies.lean ====
section
/-! SUPPORT. Laws/Dies.lean: what the completions of the die operations and a die fault leave alone, and the port after a lookup read has
ended. -/

namespace Sys2Proof.Machine

/-! ## Lookup reads -/

@[simp] theorem Part.lookupAnswered_fixed (p : Part) (page : Option (List Byte)) :
    (p.lookupAnswered page).frame.fixed = p.frame.fixed := by
  unfold Part.lookupAnswered
  (repeat' split) <;> rfl

@[simp] theorem Part.lookupAnswered_cue (p : Part) (page : Option (List Byte)) :
    (p.lookupAnswered page).frame.cue = p.frame.cue := by
  unfold Part.lookupAnswered
  (repeat' split) <;> rfl

/-- R176, R77: the answer of LOOK UP SONG leaves a port that is as Table 9-1 says. -/
theorem Part.lookupAnswered_port_wf (p : Part) (page : Option (List Byte)) (h : p.port.wf) :
    (p.lookupAnswered page).port.wf := by
  unfold Part.lookupAnswered
  split
  · exact h
  · split <;> simp [Part.refuse, Port.wf]

@[simp] theorem Part.lookupEnds_fixed (page : Option (List Byte)) (r : Request) (p : Part) :
    (Part.lookupEnds page r p).frame.fixed = p.frame.fixed := by
  unfold Part.lookupEnds
  split <;> simp

@[simp] theorem Part.lookupEnds_cue (page : Option (List Byte)) (r : Request) (p : Part) :
    (Part.lookupEnds page r p).frame.cue = p.frame.cue := by
  unfold Part.lookupEnds
  split <;> simp

theorem Part.lookupEnds_port_wf (page : Option (List Byte)) (r : Request) (p : Part) (h : p.port.wf) :
    (Part.lookupEnds page r p).port.wf := by
  unfold Part.lookupEnds
  split
  · next slot song _ =>
    have hf : (p.findAnswered slot song page).port = p.port := congrArg Frame.port (p.findAnswered_frame slot song page)
    rw [hf]; exact h
  · exact p.lookupAnswered_port_wf page h
  all_goals exact h

/-! ## The end of an operation -/

/-- A read keeps what its requester's act keeps of the view beside the port. -/
theorem Part.readCompletes_fixed (p : Part) (d : Nat) (kind : Requester → Bool) (read : PageRead)
    (act : Request → Part → Part) (h : ∀ r q, (act r q).frame.fixed = q.frame.fixed) :
    (p.readCompletes d kind read act).frame.fixed = p.frame.fixed := by
  unfold Part.readCompletes
  split
  · rfl
  · dsimp only
    split <;> simp [h]

/-- A read leaves a port that is as Table 9-1 says when its requester's act does. -/
theorem Part.readCompletes_port_wf (p : Part) (d : Nat) (kind : Requester → Bool) (read : PageRead)
    (act : Request → Part → Part) (h : ∀ r q, q.port.wf → (act r q).port.wf) (hp : p.port.wf) :
    (p.readCompletes d kind read act).port.wf := by
  unfold Part.readCompletes
  split
  · exact hp
  · next r _ =>
    have h1 : ((p.opEnds d).pageReadEffects d r.block (readOutcome read)).port = p.port :=
      congrArg Frame.port (((p.opEnds d).pageReadEffects_frame d r.block (readOutcome read)).trans (p.opEnds_frame d))
    dsimp only
    have h2 : ∀ q : Part, (q.opDone d).port = q.port := fun q => q.opDone_port d
    rw [h2]
    split
    · rw [h1]; exact hp
    · exact h _ _ (by rw [h1]; exact hp)

/-- An erase or program keeps what its requester's act keeps of the view. -/
theorem Part.eraseCompletes_fixed (p : Part) (d : Nat) (kind : Requester → Bool) (act : Request → Part → Part)
    (h : ∀ r q, (act r q).frame = q.frame) : (p.eraseCompletes d kind act).frame.fixed = p.frame.fixed := by
  unfold Part.eraseCompletes
  split <;> simp [h]

theorem Part.eraseCompletes_port (p : Part) (d : Nat) (kind : Requester → Bool) (act : Request → Part → Part)
    (h : ∀ r q, (act r q).frame = q.frame) : (p.eraseCompletes d kind act).frame.port = p.frame.port := by
  unfold Part.eraseCompletes
  split <;> simp [h]

/-! ## Die fault -/

@[simp] theorem Part.endedByFault_fixed (p : Part) (r : Request) : (p.endedByFault r).frame.fixed = p.frame.fixed := by
  unfold Part.endedByFault
  (repeat' split) <;> simp

@[simp] theorem Part.endedByFault_cue (p : Part) (r : Request) : (p.endedByFault r).frame.cue = p.frame.cue := by
  unfold Part.endedByFault
  (repeat' split) <;> simp

theorem Part.endedByFault_port_wf (p : Part) (r : Request) (h : p.port.wf) : (p.endedByFault r).port.wf := by
  have keep : ∀ q : Part, q.frame.port = p.frame.port → q.port.wf := fun q hq => by
    rw [Part.frame_port, Part.frame_port] at hq
    rw [hq]; exact h
  unfold Part.endedByFault
  split
  · exact h
  · split
    · exact keep _ (by simp)
    · exact p.lookupAnswered_port_wf none h
    · exact keep _ (by simp)
    · exact keep _ (by simp)
    all_goals exact h

/-- R107: the requests of a faulted die end one after another. -/
@[simp] theorem endedByFaults_fixed (ended : List Request) (p : Part) :
    (ended.foldl Part.endedByFault p).frame.fixed = p.frame.fixed :=
  foldl_keeps (fun (x : Part) => x.frame.fixed) Part.endedByFault (fun (a : Part) r => a.endedByFault_fixed r) ended p

@[simp] theorem endedByFaults_cue (ended : List Request) (p : Part) :
    (ended.foldl Part.endedByFault p).frame.cue = p.frame.cue :=
  foldl_keeps (fun (x : Part) => x.frame.cue) Part.endedByFault (fun (a : Part) r => a.endedByFault_cue r) ended p

theorem endedByFaults_port_wf (ended : List Request) (p : Part) (h : p.port.wf) :
    (ended.foldl Part.endedByFault p).port.wf := by
  induction ended generalizing p with
  | nil => exact h
  | cons r rest ih => exact ih _ (p.endedByFault_port_wf r h)

@[simp] theorem Part.mountedFault_fixed (p : Part) (d block : Nat) (ended : List Request) :
    (p.mountedFault d block ended).frame.fixed = p.frame.fixed := by
  simp [Part.mountedFault]

theorem Part.mountedFault_port_wf (p : Part) (d block : Nat) (ended : List Request) (h : p.port.wf) :
    (p.mountedFault d block ended).port.wf := by
  have h0 : ((p.dieStops d).catalogFaults d).port.wf := by
    have : ((p.dieStops d).catalogFaults d).frame.port = p.frame.port := by simp
    rw [Part.frame_port, Part.frame_port] at this
    rw [this]; exact h
  have h1 := endedByFaults_port_wf ended _ h0
  have h2 : (p.mountedFault d block ended).frame.port =
      (ended.foldl Part.endedByFault ((p.dieStops d).catalogFaults d)).frame.port := by
    simp [Part.mountedFault]
  rw [Part.frame_port, Part.frame_port] at h2
  rw [h2]; exact h1

@[simp] theorem Part.dieFaults_fixed (p : Part) (d : Nat) (r : Request) : (p.dieFaults d r).frame.fixed = p.frame.fixed := by
  unfold Part.dieFaults
  split <;> simp

theorem Part.dieFaults_port_wf (p : Part) (d : Nat) (r : Request) (h : p.port.wf) : (p.dieFaults d r).port.wf := by
  have keep : ∀ q : Part, q.frame.port = p.frame.port → q.port.wf := fun q hq => by
    rw [Part.frame_port, Part.frame_port] at hq
    rw [hq]; exact h
  unfold Part.dieFaults
  split
  · exact p.mountedFault_port_wf d r.block _ h
  · exact keep _ (by simp)
  · exact keep _ (by simp)
  · exact h

@[simp] theorem Part.watchExpires_fixed (p : Part) (d : Nat) : (p.watchExpires d).frame.fixed = p.frame.fixed := by
  unfold Part.watchExpires
  (repeat' split) <;> simp

theorem Part.watchExpires_port_wf (p : Part) (d : Nat) (h : p.port.wf) : (p.watchExpires d).port.wf := by
  unfold Part.watchExpires
  split
  · have : (p.identified d false).frame.port = p.frame.port := by simp
    rw [Part.frame_port, Part.frame_port] at this
    rw [this]; exact h
  · split
    · exact h
    · exact p.dieFaults_port_wf d _ h

@[simp] theorem Part.watchExpiry_fixed (p : Part) (d : Nat) : (p.watchExpiry d).frame.fixed = p.frame.fixed :=
  Part.expireAt_keeps (fun q => q.frame.fixed) 1 _ _ (fun q => q.watchExpires_fixed d) p

theorem Part.watchExpiry_port_wf (p : Part) (d : Nat) (h : p.port.wf) : (p.watchExpiry d).port.wf :=
  Part.expireAt_holds (inv := fun q => q.port.wf) 1 _ _ (fun q => q.watchExpires_port_wf d) p h

/-! ## The passing of time (R113) -/

/-- What holds of a part and is kept by the tick and by every expiry holds after time has passed. -/
theorem Part.timePasses_holds {inv : Part → Prop} (ht : ∀ q, inv q → inv q.tick)
    (hx : ∀ x ∈ expiries, ∀ q, inv q → inv (x.2 q)) (p : Part) (hp : inv p) : inv p.timePasses := by
  have fold : ∀ (l : List ((Part → Timer) × (Part → Part))), (∀ x ∈ l, ∀ q, inv q → inv (x.2 q)) → ∀ q, inv q →
      inv (l.foldl (fun q x => q.expireAt 0 x.1 x.2) q) := by
    intro l
    induction l with
    | nil => intro _ q hq; exact hq
    | cons x rest ih =>
      intro h q hq
      exact ih (fun y hy => h y (List.mem_cons_of_mem _ hy)) _
        (Part.expireAt_holds 0 x.1 x.2 (h x List.mem_cons_self) q hq)
  exact fold expiries hx p.tick (ht p hp)

/-- A timer that is not on its last tick does not reach zero at the audio frame. -/
theorem tickTimer_quiet (t : Timer) (h : t.any (fun n => n ≤ 1) = false) :
    (tickTimer t).any (fun n => n ≤ 0) = false := by
  cases t with
  | none => rfl
  | some n => simp only [Option.any_some, decide_eq_false_iff_not] at h; simp [tickTimer]; omega

/-- R113: of a quiet part no timer expires at the audio frame; each that runs has one tick less. -/
theorem Part.timePasses_quiet (p : Part) (h : expiries.all (fun x => !(x.1 p).any (fun n => n ≤ 1)) = true) :
    p.timePasses = p.tick := by
  simp only [expiries, List.all_cons, List.all_nil, Bool.and_true, Bool.and_eq_true, Bool.not_eq_true'] at h
  obtain ⟨h1, h2, h3, h4, h5, h6, h7⟩ := h
  have keep (timer : Part → Timer) (expiry : Part → Part) (hz : (timer p.tick).any (fun k => k ≤ 0) = false) :
      p.tick.expireAt 0 timer expiry = p.tick := Part.expireAt_quiet 0 timer expiry p.tick hz
  simp only [Part.timePasses, expiries, List.foldl_cons, List.foldl_nil]
  rw [keep _ _ (tickTimer_quiet _ h1), keep _ _ (tickTimer_quiet _ h2), keep _ _ (tickTimer_quiet _ h3),
    keep _ _ (tickTimer_quiet _ h4), keep _ _ (tickTimer_quiet _ h5), keep _ _ (tickTimer_quiet _ h6),
    keep _ _ (tickTimer_quiet _ h7)]

@[simp] theorem Part.timePasses_fixed (p : Part) : (p.timePasses).frame.fixed = p.frame.fixed :=
  Part.timePasses_holds (inv := fun q => q.frame.fixed = p.frame.fixed) (fun q hq => (q.tick_fixed).trans hq)
    (by
      intro x hx q hq
      simp only [expiries, List.mem_cons, List.not_mem_nil, or_false] at hx
      rcases hx with rfl | rfl | rfl | rfl | rfl | rfl | rfl <;> simp [hq]) p rfl

theorem Part.timePasses_port_wf (p : Part) (h : p.port.wf) : (p.timePasses).port.wf :=
  Part.timePasses_holds (inv := fun q => q.port.wf) (fun _ hq => hq)
    (by
      intro x hx q hq
      have keep : ∀ u : Part, u.frame.port = q.frame.port → u.port.wf := fun u hu => by
        rw [Part.frame_port, Part.frame_port] at hu
        rw [hu]; exact hq
      simp only [expiries, List.mem_cons, List.not_mem_nil, or_false] at hx
      rcases hx with rfl | rfl | rfl | rfl | rfl | rfl | rfl
      · exact q.watchExpires_port_wf 0 hq
      · exact q.watchExpires_port_wf 1 hq
      all_goals exact keep _ (by simp)) p h

@[simp] theorem Part.audioFrame_fixed (p : Part) (f : AudioFrame) :
    (p.audioFrame f).frame.fixed = p.frame.fixed := by
  unfold Part.audioFrame
  dsimp only
  (repeat' split) <;> simp

theorem Part.audioFrame_port_wf (p : Part) (f : AudioFrame) (h : p.port.wf) : (p.audioFrame f).port.wf := by
  have keep : (p.audioFrame f).frame.port = p.timePasses.frame.port := by
    unfold Part.audioFrame
    dsimp only
    (repeat' split) <;> simp
  rw [Part.frame_port, Part.frame_port] at keep
  rw [keep]; exact p.timePasses_port_wf h

end Sys2Proof.Machine
end

