-- ==== Sys2Proof/Laws/Dots.lean ====
section
/-! SUPPORT. Laws/Dots.lean: the pixels of the intro dots (R151): which pixels of its square a disc settles, and where the squares stand. -/

namespace Sys2Proof.Machine

theorem discCovers_inside {c r : Nat} (h : dotFar c ^ 2 + dotFar r ^ 2 ≤ 64) : discCovers c r = true := by
  simp [discCovers, h]

theorem discCovers_outside {c r : Nat} (h : 64 ≤ dotNear c ^ 2 + dotNear r ^ 2) : discCovers c r = false := by
  have hc : dotNear c ^ 2 < dotFar c ^ 2 := Nat.pow_lt_pow_left (Nat.lt_succ_self _) (by decide)
  have hr : dotNear r ^ 2 < dotFar r ^ 2 := Nat.pow_lt_pow_left (Nat.lt_succ_self _) (by decide)
  have : ¬ dotFar c ^ 2 + dotFar r ^ 2 ≤ 64 := by omega
  simp [discCovers, h, this]

/-- R151: at column c and line r of the square of dot i, a dot covers what its disc covers. -/
theorem dotAt_in_square {count left bottom i c r x y : Nat} (hi : i < count) (hc : c < 16) (hr : r < 16)
    (hx : x = left + 24 * i + c) (hy : y + 15 = bottom + r) : dotAt count left bottom x y = discCovers c r := by
  have hd : (x - left) / 24 = i := by omega
  have hm : (x - left) % 24 = c := by omega
  have hv : y + 15 - bottom = r := by omega
  have h1 : left ≤ x := by omega
  have h2 : bottom ≤ y + 15 := by omega
  have h3 : y ≤ bottom := by omega
  simp [dotAt, hd, hm, hv, h1, h2, h3, hi, hc]

/-- R151: a dot covers only pixels that the disc of a dot i covers in its square. -/
theorem dotAt_cases {count left bottom x y : Nat} (h : dotAt count left bottom x y = true) :
    ∃ i c r, i < count ∧ c < 16 ∧ r < 16 ∧ x = left + 24 * i + c ∧ y + 15 = bottom + r ∧ discCovers c r = true := by
  simp only [dotAt, Bool.and_eq_true, decide_eq_true_eq] at h
  obtain ⟨⟨⟨⟨⟨hl, hi⟩, hc⟩, hb⟩, hy⟩, hd⟩ := h
  exact ⟨_, _, _, hi, hc, by omega, by omega, by omega, hd⟩

end Sys2Proof.Machine
end

