-- ==== Sys2Proof/Laws/Glyphs.lean ====
section
/-! SUPPORT. Laws/Glyphs.lean: glyph memory (R147, R148): every write keeps the canonical form, and a read after a write. -/

namespace Sys2Proof.Machine

/-- R148: a glyph written in rising order keeps the order. -/
theorem writeGlyph_ordered (m : List (Nat × Glyph)) (last code : Nat) (g : Glyph) (hl : last < code) (hc : code ≤ 2047)
    (h : glyphsOrdered last m = true) : glyphsOrdered last (writeGlyph code g m) = true := by
  induction m generalizing last with
  | nil => simp [writeGlyph, glyphsOrdered, hl, hc]
  | cons x rest ih =>
    simp only [glyphsOrdered, Bool.and_eq_true, decide_eq_true_eq] at h
    unfold writeGlyph
    split
    · simp only [glyphsOrdered, Bool.and_eq_true, decide_eq_true_eq]
      exact ⟨⟨hl, hc⟩, ⟨by omega, h.1.2⟩, h.2⟩
    · split
      next heq => subst heq; simp only [glyphsOrdered, Bool.and_eq_true, decide_eq_true_eq]; exact ⟨⟨hl, hc⟩, h.2⟩
      next hne hlt =>
        simp only [glyphsOrdered, Bool.and_eq_true, decide_eq_true_eq]
        exact ⟨h.1, ih x.1 (by omega) h.2⟩

/-- R147, R148: glyphs written from a code on, none past 2047, keep the canonical form. -/
theorem writeGlyphs_wf (glyphs : List Glyph) (first : Nat) (m : List (Nat × Glyph)) (hf : 1 ≤ first)
    (hl : first + glyphs.length ≤ 2048) (h : glyphsWf m = true) : glyphsWf (writeGlyphs first glyphs m) = true := by
  induction glyphs generalizing first m with
  | nil => simpa [writeGlyphs] using h
  | cons g rest ih =>
    simp only [List.length_cons] at hl
    exact ih (first + 1) _ (by omega) (by omega) (writeGlyph_ordered m 0 first g (by omega) (by omega) h)

/-- R148: what the form of LOAD GLYPHS says of its first code and its count. -/
theorem takeGlyphs_length (n : Nat) (bytes : List Byte) (glyphs : List Glyph) (h : takeGlyphs n bytes = some glyphs) :
    glyphs.length = n := by
  induction n generalizing bytes glyphs with
  | zero => cases bytes <;> simp [takeGlyphs] at h; simp [← h]
  | succ n ih =>
    cases bytes with
    | nil => simp [takeGlyphs] at h
    | cons w rest =>
      simp only [takeGlyphs] at h
      split at h
      · simp only [Option.map_eq_some_iff] at h
        obtain ⟨more, hm, rfl⟩ := h
        simp [ih _ _ hm]
      · simp at h

/-- R148: glyphs in the form of LOAD GLYPHS stand between 1 and 2047. -/
theorem glyphParams_bounds (params : List Byte) (first : Nat) (glyphs : List Glyph)
    (h : glyphParams params = some (first, glyphs)) : 1 ≤ first ∧ first + glyphs.length ≤ 2048 := by
  unfold glyphParams at h
  split at h
  · split at h
    next hc =>
      simp only [Option.map_eq_some_iff, Prod.mk.injEq] at h
      obtain ⟨gs, hg, rfl, rfl⟩ := h
      have := takeGlyphs_length _ _ _ hg
      omega
    · simp at h
  · simp at h

/-- R147: reading a code after a write of it gives the glyph written. -/
theorem glyphAt_writeGlyph_self (m : List (Nat × Glyph)) (code : Nat) (g : Glyph) :
    glyphAt (writeGlyph code g m) code = some g := by
  induction m with
  | nil => simp [writeGlyph, glyphAt]
  | cons x rest ih =>
    unfold writeGlyph
    split
    · simp [glyphAt]
    · split
      · simp [glyphAt]
      next _ hne =>
        have hx : (x.1 == code) = false := by simpa using fun h => hne h.symm
        simpa [glyphAt, List.find?_cons, hx] using ih

/-- R147: a write of a code leaves every other code as it was. -/
theorem glyphAt_writeGlyph_of_ne (m : List (Nat × Glyph)) (code other : Nat) (g : Glyph) (h : other ≠ code) :
    glyphAt (writeGlyph code g m) other = glyphAt m other := by
  have hc : (code == other) = false := by simpa using fun e => h e.symm
  induction m with
  | nil => simp [writeGlyph, glyphAt, hc]
  | cons x rest ih =>
    unfold writeGlyph
    split
    · simp [glyphAt, List.find?_cons, hc]
    · split
      next _ heq => simp [glyphAt, hc, ← heq]
      · simp only [glyphAt, List.find?_cons] at ih ⊢
        split
        · rfl
        · exact ih

end Sys2Proof.Machine
end

