-- ==== Sys2Proof/Laws/Line.lean ====
section
/-! SUPPORT. Laws/Line.lean: what the operations that begin and abandon a turn of the handset line do to the line, and what a departing slot's turn
leaves. -/

namespace Sys2Proof.Machine

/-- What the line keeps when only a frame of the part falls due or is dropped. -/
def Part.turnView (p : Part) : Turn × Nat × Nat × Timer × List RxChar × RxClass :=
  (p.line.turn, p.line.round, p.line.lastServed, p.line.reply, p.line.rx, p.line.rxClass)

@[simp] theorem Part.sendFrame_turnView (p : Part) (f : TxFrame) : (p.sendFrame f).turnView = p.turnView := by
  unfold Part.sendFrame
  split <;> rfl

@[simp] theorem Part.offer_line (p : Part) (slot : Nat) : (p.offer slot).1.line = p.line := by
  unfold Part.offer Part.offerNotice Part.dropStaleCued
  dsimp only
  (repeat' split) <;> rfl

/-- R34: a poll turn begins: the turn and the slot last served are written, and nothing else but the frame due. -/
theorem Part.pollTurn_turnView (p : Part) (slot : Nat) :
    (p.pollTurn slot).turnView =
      (.poll slot (p.offer slot).2.1, p.line.round, slot, p.line.reply, p.line.rx, p.line.rxClass) := by
  unfold Part.pollTurn
  rw [Part.sendFrame_turnView]
  simp [Part.turnView]

/-- R37: a claim window opens: the turn is written, and nothing else but the frame due. -/
theorem Part.openWindow_turnView (p : Part) :
    p.openWindow.turnView =
      (.claimWindow, p.line.round, p.line.lastServed, p.line.reply, p.line.rx, p.line.rxClass) := by
  unfold Part.openWindow
  rw [Part.sendFrame_turnView]
  rfl

/-- R33: the slot a round serves next is one it serves in its present state. -/
theorem Part.served_of_nextSlot {p : Part} {n : Nat} (h : p.nextSlot = some n) : p.served n = true := by
  have := List.find?_some h
  simp only [Bool.and_eq_true] at this
  exact this.2

/-- R33: a new round advances the round number, keeps the frame being received, and serves no slot that is FREE or BARRED. -/
theorem Part.startRound_line (p : Part) :
    p.startRound.line.round = (p.line.round + 1) % 8 ∧ p.startRound.line.rx = p.line.rx ∧
      p.startRound.line.rxClass = p.line.rxClass ∧
      ∀ slot item, (p.slot slot).state = .free ∨ (p.slot slot).state = .barred → p.startRound.line.turn ≠ .poll slot item := by
  obtain ⟨q, hq⟩ : ∃ q : Part, ({ p with line := { p.line with
    round := (p.line.round + 1) % 8, divisorNow := p.settings.divisor, lastServed := 0, turn := .none, reply := none } } : Part) = q :=
    ⟨_, rfl⟩
  rw [show p.startRound = match q.nextSlot with
    | some n => q.pollTurn n
    | none => if q.settings.openClaims then q.openWindow else q.idleInterval by rw [← hq]; rfl]
  have hround : q.line.round = (p.line.round + 1) % 8 := by rw [← hq]
  have hrx : q.line.rx = p.line.rx := by rw [← hq]
  have hclass : q.line.rxClass = p.line.rxClass := by rw [← hq]
  have hslot : ∀ n, q.slot n = p.slot n := fun n => by rw [← hq]; rfl
  split
  · next n h =>
    have hv := q.pollTurn_turnView n
    simp only [Part.turnView, Prod.mk.injEq] at hv
    obtain ⟨turn, round, -, -, rx, rxClass⟩ := hv
    refine ⟨round.trans hround, rx.trans hrx, rxClass.trans hclass, fun slot item hs hc => ?_⟩
    rw [turn] at hc
    injection hc with hn
    have hserved := Part.served_of_nextSlot h
    rw [hn] at hserved
    rcases hs with hs | hs <;> simp [Part.served, hslot, hs] at hserved
  · split
    · have hv := q.openWindow_turnView
      simp only [Part.turnView, Prod.mk.injEq] at hv
      obtain ⟨turn, round, -, -, rx, rxClass⟩ := hv
      exact ⟨round.trans hround, rx.trans hrx, rxClass.trans hclass, fun slot item _ => by simp [turn]⟩
    · exact ⟨hround, hrx, hclass, fun slot item _ => by simp [Part.idleInterval]⟩

/-- R32: an abandoned turn: no turn, REPLY stopped, the frame being received a stray frame, the round as it was. -/
theorem Part.abandonTurn_line (p : Part) :
    p.abandonTurn.turnView = (.none, p.line.round, p.line.lastServed, none, p.line.rx, .stray) ∧
      p.abandonTurn.slots = p.slots ∧ p.abandonTurn.settings = p.settings := by
  unfold Part.abandonTurn Part.dropDue Part.strayRest
  dsimp only
  repeat' split
  all_goals exact ⟨rfl, rfl, rfl⟩

/-- The slot numbers a round runs through. -/
theorem mem_slotNumbers {n : Nat} : n ∈ slotNumbers ↔ 1 ≤ n ∧ n ≤ 16 := by
  rw [show slotNumbers = [1, 2, 3, 4, 5, 6, 7, 8, 9, 10, 11, 12, 13, 14, 15, 16] by decide]
  simp
  omega

/-- R33: the next slot is the lowest-numbered above the last one served that the round serves. -/
theorem Part.nextSlot_lowest {p : Part} {n : Nat} (h : p.nextSlot = some n) :
    p.line.lastServed < n ∧ n ≤ 16 ∧ p.served n = true ∧ ∀ m, p.line.lastServed < m → m < n → p.served m = false := by
  have hserved := Part.served_of_nextSlot h
  unfold Part.nextSlot at h
  rw [List.find?_eq_some_iff_append] at h
  obtain ⟨hn, before, rest, heq, hbefore⟩ := h
  simp only [Bool.and_eq_true, decide_eq_true_eq] at hn
  have hmem : n ∈ slotNumbers := by rw [heq]; simp
  have hrange := mem_slotNumbers.mp hmem
  refine ⟨hn.1, hrange.2, hserved, fun m hlast hlt => ?_⟩
  have hm : m ∈ slotNumbers := mem_slotNumbers.mpr (by omega)
  have hsorted : slotNumbers.Pairwise (· < ·) := by decide
  rw [heq] at hm hsorted
  simp only [List.pairwise_append, List.pairwise_cons, List.mem_append, List.mem_cons] at hm hsorted
  rcases hm with hm | hm | hm
  · simpa [hlast] using hbefore m hm
  · omega
  · have := hsorted.2.1.1 m hm
    omega

/-- R33: no slot is next when none above the last one served is served. -/
theorem Part.nextSlot_none {p : Part} (h : p.nextSlot = none) (m : Nat) (hlast : p.line.lastServed < m) (hm : m ≤ 16) :
    p.served m = false := by
  unfold Part.nextSlot at h
  rw [List.find?_eq_none] at h
  simpa [hlast] using h m (mem_slotNumbers.mpr (by omega))

/-- R36: a slot that has become FREE or BARRED leaves its turn, if it is the one being served. -/
theorem Part.abandonIfServing_turnLeaves (p q : Part) (slot : Nat) (hl : q.line = p.line) (hset : q.settings = p.settings)
    (hq : (q.slot slot).state = .free ∨ (q.slot slot).state = .barred)
    (ho : ∀ n, n ≠ slot → (q.slot n).state = (p.slot n).state) : p.turnLeaves (q.abandonIfServing slot) slot := by
  have hothers : ∀ n, n ≠ slot → q.served n = p.served n := fun n h => by simp [Part.served, hl, ho n h]
  have hgone : q.served slot = false := by rcases hq with h | h <;> simp [Part.served, h]
  constructor
  · intro h
    unfold Part.abandonIfServing
    rw [hl]
    split
    · next s c hc =>
      split
      · next e => subst e; exact absurd hc (h c)
      · exact hl
    all_goals exact hl
  intro c hc
  have heq : q.abandonIfServing slot = q.abandonTurn.nextTurn := by
    unfold Part.abandonIfServing
    rw [hl, hc]
    simp
  obtain ⟨hv, hslots, hsettings⟩ := q.abandonTurn_line
  obtain ⟨r, hr⟩ : ∃ r : Part,
    ({ q.abandonTurn with line := { q.abandonTurn.line with turn := .none, reply := none } } : Part) = r := ⟨_, rfl⟩
  rw [heq, show q.abandonTurn.nextTurn = match r.nextSlot with
    | some n => r.pollTurn n
    | none => if r.settings.openClaims then r.openWindow else if r.line.lastServed = 0 then r.idleInterval else r.startRound by
      rw [← hr]; rfl]
  simp only [Part.turnView, Prod.mk.injEq] at hv
  have hround : r.line.round = p.line.round := by rw [← hr, ← hl]; exact hv.2.1
  have hlast : r.line.lastServed = p.line.lastServed := by rw [← hr, ← hl]; exact hv.2.2.1
  have hrx : r.line.rx = p.line.rx := by rw [← hr, ← hl]; exact hv.2.2.2.2.1
  have hclass : r.line.rxClass = .stray := by rw [← hr]; exact hv.2.2.2.2.2
  have hreply : r.line.reply = none := by rw [← hr]
  have hrset : r.settings = p.settings := by rw [← hr, ← hset]; exact hsettings
  have hslot : ∀ n, r.slot n = q.slot n := fun n => by rw [← hr]; simp [Part.slot, hslots]
  have hserved : ∀ n, r.served n = q.served n := fun n => by simp [Part.served, hslot, hround, hl]
  split
  · next n h =>
    obtain ⟨hln, hn16, hns, hlow⟩ := Part.nextSlot_lowest h
    rw [hlast] at hln hlow
    rw [hserved] at hns
    have hne : n ≠ slot := fun e => by rw [e, hgone] at hns; simp at hns
    rw [hothers n hne] at hns
    have hpv := r.pollTurn_turnView n
    simp only [Part.turnView, Prod.mk.injEq] at hpv
    obtain ⟨turn, round, last, reply, rx, rxClass⟩ := hpv
    refine ⟨fun item hp => ?_, rx.trans hrx, rxClass.trans hclass, fun k hk _ hks hkserved hklow => ?_, fun hnone => ?_⟩
    · rw [turn] at hp
      injection hp with hp
      exact hne hp
    · have hkn : k = n := by
        rcases Nat.lt_trichotomy k n with hlt | he | hgt
        · have := hlow k hk hlt
          rw [hserved, hothers k hks, hkserved] at this
          simp at this
        · exact he
        · have := hklow n hln hgt hne
          rw [hns] at this
          simp at this
      subst hkn
      exact ⟨⟨_, turn⟩, last, reply.trans hreply, round.trans hround⟩
    · have := hnone n hln hn16 hne
      rw [hns] at this
      simp at this
  · next h =>
    have hnone : ∀ n, p.line.lastServed < n → n ≤ 16 → n ≠ slot → p.served n = false := fun n h1 h2 h3 => by
      rw [← hothers n h3, ← hserved]
      exact Part.nextSlot_none h n (by omega) h2
    have hno : ∀ {P : Prop} (n : Nat), p.line.lastServed < n → n ≤ 16 → n ≠ slot → p.served n = true → P :=
      fun n h1 h2 h3 h4 => by rw [hnone n h1 h2 h3] at h4; simp at h4
    split
    · next hopen =>
      rw [hrset] at hopen
      have hwv := r.openWindow_turnView
      simp only [Part.turnView, Prod.mk.injEq] at hwv
      obtain ⟨turn, round, -, reply, rx, rxClass⟩ := hwv
      exact ⟨fun item => by simp [turn], rx.trans hrx, rxClass.trans hclass, fun n h1 h2 h3 h4 => hno n h1 h2 h3 h4,
        fun _ => ⟨fun _ => ⟨turn, reply.trans hreply, round.trans hround⟩, fun hclosed => by simp [hclosed] at hopen⟩⟩
    · next hclosed =>
      rw [hrset] at hclosed
      split
      · next hzero =>
        exact ⟨fun item => by simp [Part.idleInterval], hrx, hclass, fun n h1 h2 h3 h4 => hno n h1 h2 h3 h4,
          fun _ => ⟨fun hopen => absurd hopen hclosed, fun _ hpos => absurd (hlast ▸ hzero) hpos⟩⟩
      · obtain ⟨round, rx, rxClass, hturn⟩ := r.startRound_line
        exact ⟨fun item => hturn slot item (by rw [hslot]; exact hq), rx.trans hrx, rxClass.trans hclass,
          fun n h1 h2 h3 h4 => hno n h1 h2 h3 h4,
          fun _ => ⟨fun hopen => absurd hopen hclosed, fun _ _ => by rw [round, hround]⟩⟩

end Sys2Proof.Machine
end

