-- ==== Sys2Proof/Laws/PerInstr.lean ====
section
/-! SUPPORT. Laws/PerInstr.lean: the law HostFrame of every command, one lemma for each constructor: a host command in its form travels in a
frame that fits the link, under a code of Table 9-3 that names a command; an event is no host command (R174, R189). -/

namespace Sys2Proof.Laws.HostFrame

open Sys2Proof.Machine

/-- R174, R189: the frame of a host command carries a code from 01h to 25h, which names a command, and at most 2106 parameter bytes. -/
def Statement (i : Instr) : Prop :=
  ∀ f : CommandFrame, i.commandFrame = some f → i.wellFormed = true →
    1 ≤ f.code ∧ f.code ≤ 0x25 ∧ f.params.length ≤ 2106 ∧ (commandOf f.code f.params).isSome = true

/-- An event that is no host command has no frame. -/
theorem of_no_frame (i : Instr) (h : i.commandFrame = none) : Statement i := by
  intro f hf
  rw [h] at hf
  cases hf

/-- A host command whose frame is given, with its code and its form. -/
theorem of_frame (i : Instr) (code : Nat) (tag : Byte) (params : List Byte) (h : i.commandFrame = some ⟨code, tag, params⟩)
    (hw : i.wellFormed = paramsFit params) (hc : 1 ≤ code ∧ code ≤ 0x25) (hk : (commandOf code params).isSome = true) :
    Statement i := by
  intro f hf hi
  rw [h, Option.some.injEq] at hf
  rw [hw] at hi
  subst hf
  exact ⟨hc.1, hc.2, of_decide_eq_true hi, hk⟩

theorem pinReset (selLow : Bool) : Statement (.pinReset selLow) :=
  of_no_frame _ rfl

theorem ignoredSelect (direction : Option Byte) : Statement (.ignoredSelect direction) :=
  of_no_frame _ rfl

theorem badFrame (frame : List Byte) : Statement (.badFrame frame) :=
  of_no_frame _ rfl

theorem unknownCommand (frame : List Byte) : Statement (.unknownCommand frame) :=
  of_no_frame _ rfl

theorem collision (frame : List Byte) : Statement (.collision frame) :=
  of_no_frame _ rfl

theorem readSelect (bytesOut : Nat) : Statement (.readSelect bytesOut) :=
  of_no_frame _ rfl

theorem addRequest (tag : Byte) (params : List Byte) : Statement (.addRequest tag params) :=
  of_frame _ 1 tag params rfl rfl (by decide) rfl

theorem cancelRequest (tag : Byte) (params : List Byte) : Statement (.cancelRequest tag params) :=
  of_frame _ 2 tag params rfl rfl (by decide) rfl

theorem editRequest (tag : Byte) (params : List Byte) : Statement (.editRequest tag params) :=
  of_frame _ 3 tag params rfl rfl (by decide) rfl

theorem placeRequest (tag : Byte) (params : List Byte) : Statement (.placeRequest tag params) :=
  of_frame _ 4 tag params rfl rfl (by decide) rfl

theorem readBook (tag : Byte) (params : List Byte) : Statement (.readBook tag params) :=
  of_frame _ 5 tag params rfl rfl (by decide) rfl

theorem holdBook (tag : Byte) (params : List Byte) : Statement (.holdBook tag params) :=
  of_frame _ 6 tag params rfl rfl (by decide) rfl

theorem lineStatus (tag : Byte) (params : List Byte) : Statement (.lineStatus tag params) :=
  of_frame _ 7 tag params rfl rfl (by decide) rfl

theorem handsetTable (tag : Byte) (params : List Byte) : Statement (.handsetTable tag params) :=
  of_frame _ 8 tag params rfl rfl (by decide) rfl

theorem openClaims (tag : Byte) (params : List Byte) : Statement (.openClaims tag params) :=
  of_frame _ 9 tag params rfl rfl (by decide) rfl

theorem barHandset (tag : Byte) (params : List Byte) : Statement (.barHandset tag params) :=
  of_frame _ 10 tag params rfl rfl (by decide) rfl

theorem releaseHandset (tag : Byte) (params : List Byte) : Statement (.releaseHandset tag params) :=
  of_frame _ 11 tag params rfl rfl (by decide) rfl

theorem mount (tag : Byte) (params : List Byte) : Statement (.mount tag params) :=
  of_frame _ 12 tag params rfl rfl (by decide) rfl

theorem lookUpSong (tag : Byte) (params : List Byte) : Statement (.lookUpSong tag params) :=
  of_frame _ 13 tag params rfl rfl (by decide) rfl

theorem listSongs (tag : Byte) (params : List Byte) : Statement (.listSongs tag params) :=
  of_frame _ 14 tag params rfl rfl (by decide) rfl

theorem installBegin (tag : Byte) (params : List Byte) : Statement (.installBegin tag params) :=
  of_frame _ 15 tag params rfl rfl (by decide) rfl

theorem installPage (tag : Byte) (params : List Byte) : Statement (.installPage tag params) :=
  of_frame _ 16 tag params rfl rfl (by decide) rfl

theorem installClose (tag : Byte) (params : List Byte) : Statement (.installClose tag params) :=
  of_frame _ 17 tag params rfl rfl (by decide) rfl

theorem installAbandon (tag : Byte) (params : List Byte) : Statement (.installAbandon tag params) :=
  of_frame _ 18 tag params rfl rfl (by decide) rfl

theorem withdrawSong (tag : Byte) (params : List Byte) : Statement (.withdrawSong tag params) :=
  of_frame _ 19 tag params rfl rfl (by decide) rfl

theorem libraryStatus (tag : Byte) (params : List Byte) : Statement (.libraryStatus tag params) :=
  of_frame _ 20 tag params rfl rfl (by decide) rfl

theorem playStatus (tag : Byte) (params : List Byte) : Statement (.playStatus tag params) :=
  of_frame _ 21 tag params rfl rfl (by decide) rfl

theorem start (tag : Byte) (params : List Byte) : Statement (.start tag params) :=
  of_frame _ 22 tag params rfl rfl (by decide) rfl

theorem skip (tag : Byte) (params : List Byte) : Statement (.skip tag params) :=
  of_frame _ 23 tag params rfl rfl (by decide) rfl

theorem extendHold (tag : Byte) (params : List Byte) : Statement (.extendHold tag params) :=
  of_frame _ 24 tag params rfl rfl (by decide) rfl

theorem pause (tag : Byte) (params : List Byte) : Statement (.pause tag params) :=
  of_frame _ 25 tag params rfl rfl (by decide) rfl

theorem resume (tag : Byte) (params : List Byte) : Statement (.resume tag params) :=
  of_frame _ 26 tag params rfl rfl (by decide) rfl

theorem nudge (tag : Byte) (params : List Byte) : Statement (.nudge tag params) :=
  of_frame _ 27 tag params rfl rfl (by decide) rfl

theorem nextNow (tag : Byte) (params : List Byte) : Statement (.nextNow tag params) :=
  of_frame _ 28 tag params rfl rfl (by decide) rfl

theorem loadGlyphs (tag : Byte) (params : List Byte) : Statement (.loadGlyphs tag params) :=
  of_frame _ 29 tag params rfl rfl (by decide) rfl

theorem displaySettings (tag : Byte) (params : List Byte) : Statement (.displaySettings tag params) :=
  of_frame _ 30 tag params rfl rfl (by decide) rfl

theorem bindMic (tag : Byte) (params : List Byte) : Statement (.bindMic tag params) :=
  of_frame _ 31 tag params rfl rfl (by decide) rfl

theorem scoreReport (tag : Byte) (params : List Byte) : Statement (.scoreReport tag params) :=
  of_frame _ 32 tag params rfl rfl (by decide) rfl

theorem identify (tag : Byte) (params : List Byte) : Statement (.identify tag params) :=
  of_frame _ 33 tag params rfl rfl (by decide) rfl

theorem readAttention (tag : Byte) (params : List Byte) : Statement (.readAttention tag params) :=
  of_frame _ 34 tag params rfl rfl (by decide) rfl

theorem setAttentionMask (tag : Byte) (params : List Byte) : Statement (.setAttentionMask tag params) :=
  of_frame _ 35 tag params rfl rfl (by decide) rfl

theorem configure (tag : Byte) (params : List Byte) : Statement (.configure tag params) :=
  of_frame _ 36 tag params rfl rfl (by decide) rfl

theorem clearRoom (tag : Byte) (params : List Byte) : Statement (.clearRoom tag params) :=
  of_frame _ 37 tag params rfl rfl (by decide) rfl

theorem pollSent : Statement .pollSent :=
  of_no_frame _ rfl

theorem receivedCharacter (c : RxChar) : Statement (.receivedCharacter c) :=
  of_no_frame _ rfl

theorem replyExpiry : Statement .replyExpiry :=
  of_no_frame _ rfl

theorem invalidAnswer (chars : List RxChar) : Statement (.invalidAnswer chars) :=
  of_no_frame _ rfl

theorem answer (address : Byte) (body : List Byte) : Statement (.answer address body) :=
  of_no_frame _ rfl

theorem ask (address : Byte) (fields : List Byte) : Statement (.ask address fields) :=
  of_no_frame _ rfl

theorem find (address : Byte) (fields : List Byte) : Statement (.find address fields) :=
  of_no_frame _ rfl

theorem mine (address : Byte) (fields : List Byte) : Statement (.mine address fields) :=
  of_no_frame _ rfl

theorem drop (address : Byte) (fields : List Byte) : Statement (.drop address fields) :=
  of_no_frame _ rfl

theorem key (address : Byte) (fields : List Byte) : Statement (.key address fields) :=
  of_no_frame _ rfl

theorem join (address : Byte) (fields : List Byte) : Statement (.join address fields) :=
  of_no_frame _ rfl

theorem leave (address : Byte) (fields : List Byte) : Statement (.leave address fields) :=
  of_no_frame _ rfl

theorem lateAnswer (chars : List RxChar) : Statement (.lateAnswer chars) :=
  of_no_frame _ rfl

theorem strayFrame (chars : List RxChar) : Statement (.strayFrame chars) :=
  of_no_frame _ rfl

theorem openSent : Statement .openSent :=
  of_no_frame _ rfl

theorem claim (serial : List Byte) : Statement (.claim serial) :=
  of_no_frame _ rfl

theorem badClaim (chars : List RxChar) : Statement (.badClaim chars) :=
  of_no_frame _ rfl

theorem grantSent : Statement .grantSent :=
  of_no_frame _ rfl

theorem lineBreak : Statement .lineBreak :=
  of_no_frame _ rfl

theorem breakEnd : Statement .breakEnd :=
  of_no_frame _ rfl

theorem holdExpiry : Statement .holdExpiry :=
  of_no_frame _ rfl

theorem gapExpiry : Statement .gapExpiry :=
  of_no_frame _ rfl

theorem audioFrame (frame : AudioFrame) : Statement (.audioFrame frame) :=
  of_no_frame _ rfl

theorem windowEnd (frame : AudioFrame) : Statement (.windowEnd frame) :=
  of_no_frame _ rfl

theorem streamFetchComplete (die : Fin 2) (read : PageRead) : Statement (.streamFetchComplete die read) :=
  of_no_frame _ rfl

theorem lookupReadComplete (die : Fin 2) (read : PageRead) : Statement (.lookupReadComplete die read) :=
  of_no_frame _ rfl

theorem mountScanReadComplete (die : Fin 2) (read : PageRead) : Statement (.mountScanReadComplete die read) :=
  of_no_frame _ rfl

theorem identification (die : Fin 2) (report : IdentReport) : Statement (.identification die report) :=
  of_no_frame _ rfl

theorem installProgramComplete (die : Fin 2) (pass : Bool) : Statement (.installProgramComplete die pass) :=
  of_no_frame _ rfl

theorem withdrawEraseComplete (die : Fin 2) (pass : Bool) : Statement (.withdrawEraseComplete die pass) :=
  of_no_frame _ rfl

theorem reclaimEraseComplete (die : Fin 2) (pass : Bool) : Statement (.reclaimEraseComplete die pass) :=
  of_no_frame _ rfl

theorem dieWatchExpiry (die : Fin 2) : Statement (.dieWatchExpiry die) :=
  of_no_frame _ rfl

theorem libwpChange (high : Bool) : Statement (.libwpChange high) :=
  of_no_frame _ rfl

theorem inputFrameStart (ended : InputFrame) : Statement (.inputFrameStart ended) :=
  of_no_frame _ rfl

theorem internalFrameStart : Statement .internalFrameStart :=
  of_no_frame _ rfl

theorem videoWatchExpiry : Statement .videoWatchExpiry :=
  of_no_frame _ rfl

theorem cardExpiry : Statement .cardExpiry :=
  of_no_frame _ rfl

end Sys2Proof.Laws.HostFrame
end

