-- ==== Sys2Proof/Laws/Song.lean ====
section
/-! SUPPORT. Laws/Song.lean: what the strike of an entry, the end of a song and a promotion write and what they leave: one lemma for each
shared operation, which later proofs cite instead of unfolding it. -/

namespace Sys2Proof.Machine

/-- What the book's and the Notice Store's operations leave alone: everything but the book, the attention flags, the slots, the stores, the line and the
catalog. -/
structure Song where
  settings : Settings
  display : Display
  port : Port
  unmasked : SourceSet
  lib : Library
  install : Option Install
  play : Play
  reader : Reader
  lyric : Lyric
  glyphs : List (Nat × Glyph)
  scorer : Scorer

/-- That view of a part. -/
def Part.songView (p : Part) : Song :=
  ⟨p.settings, p.display, p.port, p.attn.unmasked, p.lib, p.install, p.play, p.reader, p.lyric, p.glyphs, p.scorer⟩

@[simp] theorem Part.setPosition_songView (p : Part) (slot : Nat) : (p.setPosition slot).songView = p.songView := rfl

@[simp] theorem Part.withEntries_songView (p : Part) (entries : List Entry) :
    (p.withEntries entries).songView = p.songView := by
  unfold Part.withEntries
  rw [foldl_keeps Part.songView Part.setPosition (fun a b => a.setPosition_songView b)]
  rfl

@[simp] theorem Part.withEntries_book (p : Part) (entries : List Entry) :
    (p.withEntries entries).book = { p.book with entries := entries } := by
  unfold Part.withEntries
  rw [foldl_keeps Part.book Part.setPosition (fun _ _ => rfl)]

@[simp] theorem Part.withEntries_attn (p : Part) (entries : List Entry) : (p.withEntries entries).attn = p.attn := by
  unfold Part.withEntries
  rw [foldl_keeps Part.attn Part.setPosition (fun _ _ => rfl)]

@[simp] theorem Part.withEntries_slots (p : Part) (entries : List Entry) : (p.withEntries entries).slots = p.slots := by
  unfold Part.withEntries
  rw [foldl_keeps Part.slots Part.setPosition (fun _ _ => rfl)]

@[simp] theorem Part.withEntries_catalog (p : Part) (entries : List Entry) :
    (p.withEntries entries).catalog = p.catalog := by
  unfold Part.withEntries
  rw [foldl_keeps Part.catalog Part.setPosition (fun _ _ => rfl)]

@[simp] theorem Part.mapLive_songView (p : Part) (o : Origin) (f : Nat → Nat) : (p.mapLive o f).songView = p.songView := by
  cases o <;> rfl

@[simp] theorem Part.mapLive_book (p : Part) (o : Origin) (f : Nat → Nat) : (p.mapLive o f).book = p.book := by
  cases o <;> rfl

@[simp] theorem Part.mapLive_attn (p : Part) (o : Origin) (f : Nat → Nat) : (p.mapLive o f).attn = p.attn := by
  cases o <;> rfl

@[simp] theorem Part.mapLive_catalog (p : Part) (o : Origin) (f : Nat → Nat) : (p.mapLive o f).catalog = p.catalog := by
  cases o <;> rfl

@[simp] theorem Part.noticeStrike_songView (p : Part) (e : Entry) (reason : StrikeReason) :
    (p.noticeStrike e reason).songView = p.songView := by
  unfold Part.noticeStrike Part.pushStruck
  split <;> (try split) <;> (try split) <;> rfl

@[simp] theorem Part.noticeStrike_book (p : Part) (e : Entry) (reason : StrikeReason) :
    (p.noticeStrike e reason).book = p.book := by
  unfold Part.noticeStrike Part.pushStruck
  split <;> (try split) <;> (try split) <;> rfl

@[simp] theorem Part.noticeStrike_attn (p : Part) (e : Entry) (reason : StrikeReason) :
    (p.noticeStrike e reason).attn = p.attn := by
  unfold Part.noticeStrike Part.pushStruck
  split <;> (try split) <;> (try split) <;> rfl

@[simp] theorem Part.noticeStrike_catalog (p : Part) (e : Entry) (reason : StrikeReason) :
    (p.noticeStrike e reason).catalog = p.catalog := by
  unfold Part.noticeStrike Part.pushStruck
  split <;> (try split) <;> (try split) <;> rfl

@[simp] theorem Part.dropPin_songView (p : Part) (song : Nat) : (p.dropPin song).songView = p.songView := rfl
@[simp] theorem Part.dropPin_book (p : Part) (song : Nat) : (p.dropPin song).book = p.book := rfl
@[simp] theorem Part.dropPin_attn (p : Part) (song : Nat) : (p.dropPin song).attn = p.attn := rfl

/-! ## The strike of an entry (R17) -/

/-- R17: a strike takes the entry out of the book, writes the last-strike record and counts it. -/
theorem Part.strikeEntry_book (p : Part) (e : Entry) (reason : StrikeReason) (quiet : Bool) :
    (p.strikeEntry e reason quiet).book =
      { p.book with
        entries := withoutTicket p.book.entries e.ticket
        lastStrike := some { ticket := e.ticket, song := e.song, origin := e.origin, reason }
        strikeCount := satInc 255 p.book.strikeCount } := by
  unfold Part.strikeEntry
  by_cases h : reason = .cleared <;> cases quiet <;> simp [h]

/-- R17: a strike raises BOOK unless it is made by CANCEL REQUEST or room clear. -/
theorem Part.strikeEntry_pending (p : Part) (e : Entry) (reason : StrikeReason) (quiet : Bool) :
    (p.strikeEntry e reason quiet).attn.pending =
      if quiet then p.attn.pending else { p.attn.pending with book := true } := by
  unfold Part.strikeEntry
  by_cases h : reason = .cleared <;> cases quiet <;> simp [h, SourceSet.put]

@[simp] theorem Part.strikeEntry_songView (p : Part) (e : Entry) (reason : StrikeReason) (quiet : Bool) :
    (p.strikeEntry e reason quiet).songView = p.songView := by
  have raise (q : Part) (src : Source) : (q.raise src).songView = q.songView := rfl
  have book (q : Part) (b : Book) : Part.songView { q with book := b } = q.songView := rfl
  unfold Part.strikeEntry
  by_cases h : reason = .cleared <;> cases quiet <;>
    simp only [h, if_true, if_false, Bool.false_eq_true, raise, book, Part.noticeStrike_songView, Part.mapLive_songView,
      Part.dropPin_songView, Part.withEntries_songView]

@[simp] theorem Part.strike_songView (p : Part) (ticket : Nat) (reason : StrikeReason) (quiet : Bool) :
    (p.strike ticket reason quiet).songView = p.songView := by
  unfold Part.strike; split <;> simp

/-! ## The library's operations leave the room alone -/

/-- What the dies, the block map and the catalog's switch leave alone: everything but the library and the catalog. -/
structure Room where
  song : Settings × Display × Port × Attention × Option Install × Play × Reader × Lyric × List (Nat × Glyph) × Scorer
  book : Book
  slots : List Slot
  stores : List Store
  line : Line

/-- That view of a part. -/
def Part.roomView (p : Part) : Room :=
  ⟨(p.settings, p.display, p.port, p.attn, p.install, p.play, p.reader, p.lyric, p.glyphs, p.scorer), p.book, p.slots,
    p.stores, p.line⟩

@[simp] theorem Part.mapDie_roomView (p : Part) (d : Nat) (f : Die → Die) : (p.mapDie d f).roomView = p.roomView := by
  unfold Part.mapDie; split <;> rfl

@[simp] theorem Part.mapCatEntry_roomView (p : Part) (song : Nat) (f : CatEntry → CatEntry) :
    (p.mapCatEntry song f).roomView = p.roomView := rfl

@[simp] theorem Part.startOp_roomView (p : Part) (d : Nat) (r : Request) : (p.startOp d r).roomView = p.roomView := by
  simp [Part.startOp]

@[simp] theorem Part.request_roomView (p : Part) (d : Nat) (r : Request) : (p.request d r).roomView = p.roomView := by
  unfold Part.request; split <;> (try split) <;> simp

@[simp] theorem Part.grant_roomView (p : Part) (d : Nat) : (p.grant d).roomView = p.roomView := by
  unfold Part.grant; split <;> (try split) <;> (try split) <;> simp

@[simp] theorem Part.grantIfIdle_roomView (p : Part) (d : Nat) : (p.grantIfIdle d).roomView = p.roomView := by
  unfold Part.grantIfIdle; split <;> simp

@[simp] theorem Part.giveUp_roomView (p : Part) (d : Nat) (mine : Requester → Bool) :
    (p.giveUp d mine).roomView = p.roomView := by
  simp [Part.giveUp]

@[simp] theorem Part.setBlock_roomView (p : Part) (d b : Nat) (st : BlockState) :
    (p.setBlock d b st).roomView = p.roomView := by
  simp [Part.setBlock]

@[simp] theorem Part.reclaimJoin_roomView (p : Part) (d b : Nat) : (p.reclaimJoin d b).roomView = p.roomView := by
  unfold Part.reclaimJoin
  by_cases h : (p.setBlock d b .reclaim).lib.reclaim.contains (d, b) = true
  · simp only [h, if_true, Part.setBlock_roomView]
  · simp only [h]; exact p.setBlock_roomView d b .reclaim

@[simp] theorem Part.reclaimPush_roomView (p : Part) (d b : Nat) : (p.reclaimPush d b).roomView = p.roomView := by
  simp [Part.reclaimPush]

@[simp] theorem Part.switchTo_roomView (p : Part) (song : Nat) (blk : SongBlock) :
    (p.switchTo song blk).roomView = p.roomView := by
  unfold Part.switchTo
  split
  · rfl
  · dsimp only; split <;> simp

@[simp] theorem Part.release_roomView (p : Part) (song : Nat) : (p.release song).roomView = p.roomView := by
  unfold Part.release; split <;> simp

/-! ## The strike of the CUED entry (R121) -/

@[simp] theorem Part.strike_book (p : Part) (e : Entry) (ticket : Nat) (reason : StrikeReason) (quiet : Bool)
    (h : p.entry ticket = some e) : (p.strike ticket reason quiet).book = (p.strikeEntry e reason quiet).book := by
  simp [Part.strike, h]

/-- R116: emptying the reader leaves everything but the library and the reader. -/
theorem Part.readerEmpty_roomView (p : Part) :
    p.readerEmpty.roomView = ({ p with reader := Reader.reset } : Part).roomView := by
  have h : ((p.giveUp 0 (· == .stream)).giveUp 1 (· == .stream)).roomView = p.roomView := by simp
  generalize hq : (p.giveUp 0 (· == .stream)).giveUp 1 (· == .stream) = q at h
  simp only [Part.readerEmpty, hq]
  simp only [Part.roomView, Room.mk.injEq, Prod.mk.injEq] at h ⊢
  simp [h]

/-- Two parts that agree but for the library and the catalog. -/
theorem Part.roomView_fields {p q : Part} (h : p.roomView = q.roomView) :
    p.settings = q.settings ∧ p.display = q.display ∧ p.port = q.port ∧ p.attn = q.attn ∧ p.install = q.install ∧
      p.play = q.play ∧ p.reader = q.reader ∧ p.lyric = q.lyric ∧ p.glyphs = q.glyphs ∧ p.scorer = q.scorer ∧
      p.book = q.book ∧ p.slots = q.slots ∧ p.stores = q.stores ∧ p.line = q.line := by
  simp only [Part.roomView, Room.mk.injEq, Prod.mk.injEq] at h
  obtain ⟨⟨h1, h2, h3, h4, h5, h6, h7, h8, h9, h10⟩, h11, h12, h13, h14⟩ := h
  exact ⟨h1, h2, h3, h4, h5, h6, h7, h8, h9, h10, h11, h12, h13, h14⟩

/-- R121: the part after the strike of the CUED entry, but for the library, the catalog and the state the reason gives. -/
def Part.uncued (p : Part) (e : Entry) (song : Nat) (reason : StrikeReason) (quiet : Bool) : Part :=
  let q := (p.strikeEntry e reason quiet).letGo e.ticket song (.struck reason)
  ({ q with reader := Reader.reset } : Part).idleSeats.titleDown

theorem Part.loadGap_roomView {p q : Part} (h : p.roomView = q.roomView) : p.loadGap.roomView = q.loadGap.roomView := by
  obtain ⟨h1, h2, h3, h4, h5, h6, h7, h8, h9, h10, h11, h12, h13, h14⟩ := Part.roomView_fields h
  simp only [Part.loadGap, h1]
  split <;> simp only [Part.roomView, h2, h3, h4, h5, h6, h7, h8, h9, h10, h11, h12, h13, h14]

theorem Part.raise_roomView {p q : Part} (h : p.roomView = q.roomView) (src : Source) :
    (p.raise src).roomView = (q.raise src).roomView := by
  obtain ⟨h1, h2, h3, h4, h5, h6, h7, h8, h9, h10, h11, h12, h13, h14⟩ := Part.roomView_fields h
  simp only [Part.roomView, Part.raise, h1, h2, h3, h4, h5, h6, h7, h8, h9, h10, h11, h12, h13, h14]

theorem Part.afterCueStrike_roomView {p q : Part} (h : p.roomView = q.roomView) (reason : StrikeReason) :
    (p.afterCueStrike reason).roomView = (q.afterCueStrike reason).roomView := by
  have idle : Part.roomView { p with play := { p.play with state := .idle } } =
      Part.roomView { q with play := { q.play with state := .idle } } := by
    obtain ⟨h1, h2, h3, h4, h5, h6, h7, h8, h9, h10, h11, h12, h13, h14⟩ := Part.roomView_fields h
    simp only [Part.roomView, h1, h2, h3, h4, h5, h6, h7, h8, h9, h10, h11, h12, h13, h14]
  cases reason
  · exact Part.raise_roomView (Part.loadGap_roomView h) .play
  · exact h
  · exact Part.raise_roomView idle .play
  · exact Part.raise_roomView (Part.loadGap_roomView h) .play
  · exact h
  · exact h
  · exact idle

/-- R121: the strike of the CUED entry. -/
theorem Part.cueStrike_roomView (p : Part) (e : Entry) (song : HeldSong) (reason : StrikeReason) (quiet : Bool)
    (hp : p.play.entry = some e.ticket) (hs : p.play.song = some song) (he : p.entry e.ticket = some e) :
    (p.cueStrike reason quiet).roomView = ((p.uncued e song.song reason quiet).afterCueStrike reason).roomView := by
  simp only [Part.cueStrike, hp, hs, Part.strike, he]
  refine Part.afterCueStrike_roomView ?_ reason
  rw [Part.release_roomView]
  have h := Part.readerEmpty_roomView ((p.strikeEntry e reason quiet).letGo e.ticket song.song (.struck reason))
  obtain ⟨h1, h2, h3, h4, h5, h6, h7, h8, h9, h10, h11, h12, h13, h14⟩ := Part.roomView_fields h
  simp only [Part.uncued, Part.roomView, Part.idleSeats, Part.mapSeats, Part.titleDown, h1, h2, h3, h4, h5, h6, h7, h8,
    h9, h10, h11, h12, h13, h14]

/-! ## The end of a song (R131) -/

@[simp] theorem Part.mapStore_roomSong (p : Part) (n : Nat) (f : Store → Store) :
    (p.mapStore n f).roomView.song = p.roomView.song := rfl

/-- R131 stage 7: the displays alone change. -/
theorem Part.endDisplay_eq (p : Part) : p.endDisplay = { p with lyric := p.endDisplay.lyric } := by
  unfold Part.endDisplay Part.showCard
  dsimp only
  split
  · split <;> rfl
  · rfl

/-- R52: the score notices change the stores alone. -/
theorem Part.scoreNotices_eq (p : Part) (e : Entry) : p.scoreNotices e = { p with stores := (p.scoreNotices e).stores } := by
  unfold Part.scoreNotices
  generalize e.seats.zipIdx = l
  induction l generalizing p with
  | nil => rfl
  | cons x l ih =>
    rw [List.foldl_cons]
    cases h : x.1 with
    | none => exact ih p
    | some slot =>
      dsimp only
      rw [ih]
      rfl

/-- R131: the part after stages 1 to 7 of the end of a song, but for the library, the catalog and the displays. -/
def Part.unplayed (p : Part) (e : Entry) (song : HeldSong) (kind : EndKind) : Part :=
  let q := (((p.writeResult e.ticket song.song song.blk.edition kind).scoreNotices e).retire e).doneSeats
  ({ q with reader := Reader.reset } : Part).letGo e.ticket song.song (.ended kind)

/-- R131: the end of a PLAYING song. -/
theorem Part.endSong_roomView (p : Part) (e : Entry) (song : HeldSong) (kind : EndKind)
    (he : p.heldBookEntry = some e) (hs : p.play.song = some song) :
    ∃ lyric, (p.endSong kind).roomView =
      ((({ p.unplayed e song kind with lyric := lyric } : Part).loadGap).raise .play).roomView := by
  simp only [Part.endSong, he, hs]
  generalize hq : (((p.writeResult e.ticket song.song song.blk.edition kind).scoreNotices e).retire e).doneSeats = q
  refine ⟨((q.release song.song).readerEmpty.endDisplay).lyric, ?_⟩
  refine Part.raise_roomView (Part.loadGap_roomView ?_) .play
  rw [Part.endDisplay_eq]
  have h := Part.readerEmpty_roomView (q.release song.song)
  obtain ⟨g1, g2, g3, g4, g5, g6, g7, g8, g9, g10, g11, g12, g13, g14⟩ := Part.roomView_fields (q.release_roomView song.song)
  obtain ⟨h1, h2, h3, h4, h5, h6, h7, h8, h9, h10, h11, h12, h13, h14⟩ := Part.roomView_fields h
  simp only [Part.unplayed, hq, Part.roomView, Part.letGo, h1, h2, h3, h4, h5, h6, h7, h9, h10, h11, h12, h13, h14, g1,
    g2, g3, g4, g5, g6, g9, g10, g11, g12, g13, g14]

@[simp] theorem Part.mapSeats_result (p : Part) (f : Nat → Seat → Seat) :
    (p.mapSeats f).scorer.result = p.scorer.result := rfl

@[simp] theorem Part.readHandsets_book (p : Part) : p.readHandsets.book = p.book := by
  unfold Part.readHandsets; split <;> rfl

@[simp] theorem Part.readHandsets_play (p : Part) : p.readHandsets.play = p.play := by
  unfold Part.readHandsets; split <;> rfl

@[simp] theorem Part.readHandsets_attn (p : Part) : p.readHandsets.attn = p.attn := by
  unfold Part.readHandsets; split <;> rfl

@[simp] theorem Part.readHandsets_settings (p : Part) : p.readHandsets.settings = p.settings := by
  unfold Part.readHandsets; split <;> rfl

@[simp] theorem Part.readHandsets_result (p : Part) : p.readHandsets.scorer.result = p.scorer.result := by
  unfold Part.readHandsets; split <;> rfl

/-- R131 stages 1 to 4, R20: what the end of a song writes in the book. -/
theorem Part.unplayed_book (p : Part) (e : Entry) (song : HeldSong) (kind : EndKind) :
    (p.unplayed e song kind).book = { p.book with entries := withoutTicket p.book.entries e.ticket } := by
  simp only [Part.unplayed, Part.letGo, Part.doneSeats, Part.mapSeats_book, Part.retire, Part.raise_book, Part.removeEntry,
    Part.mapLive_book, Part.dropPin_book]
  rw [Part.scoreNotices_eq]
  simp [Part.writeResult]

/-- R131: what the end of a song leaves in the play context before GAP is loaded. -/
theorem Part.unplayed_play (p : Part) (e : Entry) (song : HeldSong) (kind : EndKind) :
    (p.unplayed e song kind).play = { p.play with
      entry := none, song := none, hold := none, startPending := false,
      lastOutcome := some { ticket := e.ticket, song := song.song, ending := .ended kind } } := by
  have h : ((((p.writeResult e.ticket song.song song.blk.edition kind).scoreNotices e).retire e).doneSeats).play =
      p.play := by
    rw [Part.scoreNotices_eq]
    cases h : e.origin <;> simp [Part.doneSeats, Part.retire, Part.removeEntry, Part.mapLive, Part.dropPin, Part.writeResult, h]
  simp only [Part.unplayed, Part.letGo, h]

/-- R131, R170, R20: the end of a song raises SCORE and BOOK. -/
theorem Part.unplayed_pending (p : Part) (e : Entry) (song : HeldSong) (kind : EndKind) :
    (p.unplayed e song kind).attn.pending = { p.attn.pending with score := true, book := true } := by
  simp only [Part.unplayed, Part.letGo, Part.doneSeats, Part.mapSeats_attn, Part.retire, Part.raise_attn, Part.removeEntry,
    Part.mapLive_attn, Part.dropPin_attn]
  rw [Part.scoreNotices_eq]
  simp [Part.writeResult, SourceSet.put]

@[simp] theorem Part.unplayed_settings (p : Part) (e : Entry) (song : HeldSong) (kind : EndKind) :
    (p.unplayed e song kind).settings = p.settings := by
  have h : ((((p.writeResult e.ticket song.song song.blk.edition kind).scoreNotices e).retire e).doneSeats).settings =
      p.settings := by
    rw [Part.scoreNotices_eq]
    cases h : e.origin <;>
      simp [Part.doneSeats, Part.retire, Part.removeEntry, Part.mapLive, Part.dropPin, Part.writeResult, h]
  simp only [Part.unplayed, Part.letGo, h]

/-- R170: the record the end of a song writes. -/
theorem Part.unplayed_result (p : Part) (e : Entry) (song : HeldSong) (kind : EndKind) :
    (p.unplayed e song kind).scorer.result = (p.writeResult e.ticket song.song song.blk.edition kind).scorer.result := by
  have h : ((((p.writeResult e.ticket song.song song.blk.edition kind).scoreNotices e).retire e).doneSeats).scorer.result =
      (p.writeResult e.ticket song.song song.blk.edition kind).scorer.result := by
    rw [Part.scoreNotices_eq]
    cases h : e.origin <;> simp [Part.doneSeats, Part.retire, Part.removeEntry, Part.mapLive, Part.dropPin, h]
  simp only [Part.unplayed, Part.letGo, h]

end Sys2Proof.Machine
end

