-- ==== Sys2Proof/Laws/Staging.lean ====
section
/-! SUPPORT. Laws/Staging.lean: what the Stream Reader leaves alone while it examines a page, what acting on staging ready does (R120, R123), and the
score card that is shown at the end of a song (R152). -/

namespace Sys2Proof.Machine

/-! ## The reader leaves the book, the seats and the room alone -/

/-- What no examination of a page touches: everything but the library, the catalog, the attention flags, the play context, the reader and the lyric
record. -/
structure Bystander where
  settings : Settings
  display : Display
  port : Port
  unmasked : SourceSet
  book : Book
  slots : List Slot
  stores : List Store
  line : Line
  install : Option Install
  glyphs : List (Nat × Glyph)
  scorer : Scorer

/-- That view of a part. -/
def Part.bystander (p : Part) : Bystander :=
  ⟨p.settings, p.display, p.port, p.attn.unmasked, p.book, p.slots, p.stores, p.line, p.install, p.glyphs, p.scorer⟩

/-- What the library's operations leave alone holds the view. -/
theorem Part.bystander_of_roomView {p q : Part} (h : p.roomView = q.roomView) : p.bystander = q.bystander := by
  obtain ⟨h1, h2, h3, h4, h5, -, -, -, h9, h10, h11, h12, h13, h14⟩ := Part.roomView_fields h
  simp [Part.bystander, h1, h2, h3, h4, h5, h9, h10, h11, h12, h13, h14]

@[simp] theorem Part.raise_bystander (p : Part) (src : Source) : (p.raise src).bystander = p.bystander := rfl
@[simp] theorem Part.countSkipped_bystander (p : Part) : p.countSkipped.bystander = p.bystander := rfl
@[simp] theorem Part.setBuffer_bystander (p : Part) (first : Bool) (b : Buffer) :
    (p.setBuffer first b).bystander = p.bystander := rfl
@[simp] theorem Part.titleArrives_bystander (p : Part) (page : List Byte) : (p.titleArrives page).bystander = p.bystander := rfl

@[simp] theorem Part.countLateLine_bystander (p : Part) : p.countLateLine.bystander = p.bystander := by
  unfold Part.countLateLine Part.underrun
  split <;> rfl

@[simp] theorem Part.placeLine_bystander (p : Part) (l : LineRecord) : (p.placeLine l).bystander = p.bystander := by
  unfold Part.placeLine
  dsimp only
  split
  · rw [Part.countLateLine_bystander]; rfl
  · rfl

theorem Part.place_bystander {p q : Part} {r : Record} (h : p.place r = some q) : q.bystander = p.bystander := by
  cases r <;> simp only [Part.place] at h <;> split at h <;> (try split at h) <;> simp only [reduceCtorEq, Option.some.injEq] at h <;>
    subst h <;> first | rfl | simp

@[simp] theorem Part.takeRecord_bystander (p : Part) (r : Record) : (p.takeRecord r).bystander = p.bystander := by
  unfold Part.takeRecord Part.placeOrHold
  split
  · rfl
  · split
    next q h => rw [Part.place_bystander h]; rfl
    · rfl

@[simp] theorem Part.refill_bystander (p : Part) (blk : SongBlock) (first : Bool) : (p.refill blk first).bystander = p.bystander := by
  unfold Part.refill Part.requestStream
  split
  · rw [Part.bystander_of_roomView (Part.request_roomView _ _ _)]; rfl
  · rfl

@[simp] theorem Part.decodeOne_bystander (p : Part) (blk : SongBlock) (first : Bool) (k : Nat) (data : List Byte) (offset : Nat) :
    (p.decodeOne blk first k data offset).bystander = p.bystander := by
  unfold Part.decodeOne
  split <;> simp

theorem Part.readerStep_bystander (p : Part) (blk : SongBlock) (q : Part) (h : p.readerStep blk = some q) :
    q.bystander = p.bystander := by
  unfold Part.readerStep at h
  repeat' split at h
  all_goals first | (simp at h; done) | (simp only [Option.some.injEq] at h; subst h; first | rfl | simp)

/-- R116, R117: an examination of the pages leaves the view alone. -/
@[simp] theorem Part.readerRun_bystander (p : Part) : p.readerRun.bystander = p.bystander := by
  have loop (blk : SongBlock) (fuel : Nat) (p : Part) : (Part.readerLoop blk fuel p).bystander = p.bystander := by
    induction fuel generalizing p with
    | zero => rfl
    | succ fuel ih =>
      unfold Part.readerLoop
      split
      · split
        next q hq => rw [ih, p.readerStep_bystander blk q hq]
        · rfl
      · rfl
  unfold Part.readerRun
  split
  · rfl
  · exact loop _ _ _

@[simp] theorem Part.pageReadEffects_bystander (p : Part) (d b : Nat) (outcome : ReadOutcome) :
    (p.pageReadEffects d b outcome).bystander = p.bystander := by
  unfold Part.pageReadEffects
  split <;> rfl

@[simp] theorem Part.opEnds_bystander (p : Part) (d : Nat) : (p.opEnds d).bystander = p.bystander :=
  Part.bystander_of_roomView (Part.mapDie_roomView _ _ _)

@[simp] theorem Part.headerTaken_bystander (p : Part) (song : HeldSong) (page : List Byte) :
    (p.headerTaken song page).bystander = p.bystander := by simp [Part.headerTaken]

@[simp] theorem Part.pageTaken_bystander (p : Part) (song : HeldSong) (page : Nat) (data : Option (List Byte)) :
    (p.pageTaken song page data).bystander = p.bystander := by
  unfold Part.pageTaken
  split
  · rfl
  · rw [Part.refill_bystander]; rfl

/-! ## Staging ready -/

/-- R120: staging ready of a reader that is not IDLE, with the capacities of R118. -/
theorem Reader.stagingReady_iff (x : Reader) : x.stagingReady = true ↔ x.state ≠ .idle ∧
    (x.keyReached = true ∨ x.lines.length = 16 ∨ x.notes.length = 96 ∨ x.beats.length = 8 ∨ x.state = .finished) := by
  simp [Reader.stagingReady, or_assoc]

theorem Part.stagingCheck_of_not_ready {p : Part} (h : p.reader.stagingReady = false) : p.stagingCheck = p := by
  simp [Part.stagingCheck, h]

/-- R123: with start-pending clear HOLD is loaded with a cue hold time other than 0. -/
theorem Part.stagingCheck_holds {p : Part} (hs : p.play.state = .staging) (h : p.reader.stagingReady = true)
    (hp : p.play.startPending = false) (hc : p.play.cueHold ≠ 0) :
    p.stagingCheck = { p with play := { p.play with state := .holding, hold := loadMs (1000 * p.play.cueHold) } } := by
  simp [Part.stagingCheck, Part.loadHold, hs, h, hp, hc]

/-- R123, R127: with start-pending set the play context enters RUNNING. -/
theorem Part.stagingCheck_starts {p : Part} (hs : p.play.state = .staging) (h : p.reader.stagingReady = true)
    (hp : p.play.startPending = true) : p.stagingCheck = p.enterRunning := by
  simp [Part.stagingCheck, hs, h, hp]

/-- R123, R113, R125: a cue hold time of 0 expires HOLD at its load. -/
theorem Part.stagingCheck_expires {p : Part} (hs : p.play.state = .staging) (h : p.reader.stagingReady = true)
    (hp : p.play.startPending = false) (hc : p.play.cueHold = 0) :
    p.stagingCheck = ({ p with play := { p.play with state := .holding, hold := loadMs 0 } } : Part).holdExpire := by
  simp [Part.stagingCheck, Part.loadHold, hs, h, hp, hc]

/-! ## The score card -/

/-- R152: a card time other than 0 shows the card and loads CARD. -/
theorem Part.showCard_shown (p : Part) (seats : List SeatResult) (h : p.display.cardTime ≠ 0) :
    (p.showCard seats).lyric.card = { shown := true, groups := groupsOf seats } ∧
      (p.showCard seats).lyric.cardTimer = loadMs (1000 * p.display.cardTime) := by
  simp [Part.showCard, Part.countLayout, h]

/-- R152: a card time of 0 shows no card. -/
theorem Part.showCard_none (p : Part) (seats : List SeatResult) (h : p.display.cardTime = 0) :
    (p.showCard seats).lyric.card = { shown := false, groups := [] } ∧ (p.showCard seats).lyric.cardTimer = none := by
  simp [Part.showCard, Part.countLayout, Part.cardDown, h]

end Sys2Proof.Machine
end

