-- ==== Sys2Proof/Tests/Slice0.lean ====
section
/-! SUPPORT. Tests/Slice0.lean: tests of the model on small states, each with its expected result from the data book (the section is named)
or from a hand calculation, and a witness for the hypotheses of every obligation. -/

namespace Sys2Proof.Machine.Tests

set_option Elab.async false

/-! ## Helpers -/

/-- The reset state with its part changed. -/
def at' (f : Part → Part) : State := { part := f Part.reset, pending := [] }

/-- The part after a command; the reset part if the command stops. -/
def after (c : Instr) (s : State) : Part :=
  match exec c s with
  | .next t => t.part
  | .fault _ => Part.reset
  | .refused _ => Part.reset

/-- The outcome and data of the answer that waits after a command. -/
def answerTo (c : Instr) (s : State) : Option (Outcome × List Byte) :=
  (after c s).port.answer.map fun a => (a.outcome, a.data)

/-- The REFUSED answer of a cause number of Table 9-2. -/
def refusal (n : Nat) : Option (Outcome × List Byte) := some (.refused, [BitVec.ofNat 8 n])

/-- A song of edition 2 with 14 stream pages, 201,000 ms and two parts (6.9). -/
def songAt (song block : Nat) : CatEntry := newEntry song ⟨2, 0, block, 14, 201000, 2⟩

/-- The songs of 1.10 that the tests name, and those of 3.4 and 6.9. -/
def songs : List CatEntry :=
  [songAt 10101 1, songAt 10102 2, songAt 10103 3, songAt 20201 4, songAt 20202 5, songAt 30301 6, songAt 30302 7,
    songAt 40401 8, songAt 58200 22, songAt 61000 23]

/-- A library MOUNTED on die 0 alone, its block map cut to six blocks. -/
def mounted (p : Part) : Part :=
  { p with
    catalog := songs
    lib := { p.lib with
      state := .mounted
      die0 := { Die.reset with state := .idle, map := some [.bad, .song, .reclaim, .free, .free, .song] }
      die1 := { Die.reset with state := .absent } } }

/-- The serial of a test handset. -/
def serialOf (n : Nat) : List Byte := List.replicate 6 (BitVec.ofNat 8 n)

/-- Slots made ACTIVE, each with its test serial and this many live entries. -/
def active (slots : List (Nat × Nat)) (p : Part) : Part :=
  slots.foldl (fun p x => p.mapSlot x.1 fun r => { r with state := .active, serial := some (serialOf x.1), live := x.2 }) p

/-- The book held, with these live entries and this counter. -/
def booked (entries : List Entry) (counter : Nat) (p : Part) : Part :=
  { p with book := { p.book with entries := entries, counter := counter, hold := true } }

/-- A WAITING entry with one singer. -/
def waiting (ticket song : Nat) (o : Origin) (round : Nat) : Entry :=
  { ticket := ticket, song := song, origin := o, round := round, singers := 1, seats := seatsFor o 1, key := 0, tempo := 0,
    state := .waiting }

/-- A poll turn to a slot whose POLL has left. -/
def turnTo (slot : Nat) (carried : Option Carried) (p : Part) : Part :=
  { p with line := { p.line with turn := .poll slot carried, tx := none, lastServed := slot, reply := some 192 } }

/-- A claim window whose OPEN has left. -/
def window (p : Part) : Part :=
  { p with line := { p.line with turn := .claimWindow, tx := none, reply := some 768 } }

/-- Every running timer stands on its last tick. -/
def soon (p : Part) : Part :=
  let last : Timer → Timer := Option.map fun _ => 1
  { p with
    line := { p.line with reply := last p.line.reply }
    lib := { p.lib with
      die0 := { p.lib.die0 with watch := last p.lib.die0.watch }
      die1 := { p.lib.die1 with watch := last p.lib.die1.watch } }
    play := { p.play with hold := last p.play.hold, gap := last p.play.gap }
    lyric := { p.lyric with watch := last p.lyric.watch, cardTimer := last p.lyric.cardTimer } }

/-- The tickets in book order with their rounds. -/
def order (p : Part) : List (Nat × Nat) := p.book.entries.map fun e => (e.ticket, e.round)

/-! ## The commands' forms: an ill-formed term for each check of WellFormed -/

theorem test_wellFormed_refuses_write_and_read_as_ignored :
    Instr.wellFormed (.ignoredSelect (some 0x3C#8)) = false ∧ Instr.wellFormed (.ignoredSelect (some 0xC3#8)) = false := by
  decide

theorem test_wellFormed_refuses_short_and_long_unknown_frames :
    Instr.wellFormed (.unknownCommand [6#8, 0#8, 0x26#8, 7#8, 0#8]) = false ∧
      Instr.wellFormed (.unknownCommand (List.replicate 2113 0#8)) = false := by
  decide +kernel

theorem test_wellFormed_refuses_parameters_past_the_frame_limit :
    Instr.wellFormed (.identify 0#8 (List.replicate 2107 0#8)) = false ∧
      Instr.wellFormed (.identify 0#8 (List.replicate 2106 0#8)) = true := by
  decide +kernel

theorem test_wellFormed_refuses_empty_and_long_frames_of_the_line :
    Instr.wellFormed (.strayFrame []) = false ∧ Instr.wellFormed (.badClaim (List.replicate 48 (charOf 0#8))) = false := by
  decide

theorem test_wellFormed_refuses_addresses_of_no_slot :
    Instr.wellFormed (.mine 0#8 []) = false ∧ Instr.wellFormed (.mine 17#8 []) = false := by
  decide

theorem test_wellFormed_refuses_long_fields :
    Instr.wellFormed (.ask 1#8 (List.replicate 40 0#8)) = false := by
  decide

theorem test_wellFormed_refuses_a_message_as_an_answer :
    Instr.wellFormed (.answer 1#8 [7#8]) = false ∧ Instr.wellFormed (.answer 1#8 (List.replicate 41 9#8)) = false ∧
      Instr.wellFormed (.answer 1#8 [8#8]) = true := by
  decide

theorem test_wellFormed_refuses_a_short_serial : Instr.wellFormed (.claim (List.replicate 5 0#8)) = false := by
  decide

theorem test_wellFormed_refuses_bad_sectors :
    SectorRead.wellFormed (.erased 9) = false ∧ SectorRead.wellFormed (.coded 0 []) = false := by
  decide

/-! ## Field encodings and the CRC-16 (10.1) -/

/-- R188 gives the polynomial 1021h, the start value FFFFh, no reflection and no inversion; the CRC of the nine digits so computed is
29B1h by hand. -/
theorem test_crc16_of_nine_digits :
    crc16 [0x31#8, 0x32#8, 0x33#8, 0x34#8, 0x35#8, 0x36#8, 0x37#8, 0x38#8, 0x39#8] = 0x29B1#16 := by
  decide +kernel

/-! ## Selects (9.1 to 9.3) -/

/-- R173, R110: SEL_N low when the reset ends: the select in progress is ignored. -/
theorem test_pinReset_ignores_the_select_in_progress :
    (after (.pinReset true) (at' id)).port.ignoreSelect = true ∧
      (after (.readSelect 7) { part := after (.pinReset true) (at' id), pending := [] }).port.sdo = [] := by
  decide

/-- R25, R135: the reset during a session. -/
theorem test_pinReset_empties_the_book :
    (after (.pinReset false) (at' (booked [waiting 7 10101 .desk 0] 8))).book = Book.reset := by
  decide

/-- R173. -/
theorem test_ignoredSelect_changes_nothing : after (.ignoredSelect (some 0x3D#8)) (at' id) = Part.reset := by
  decide

/-- R174: a frame with no byte; BAD FRAME is cause 23. -/
theorem test_badFrame_of_no_byte :
    (after (.badFrame []) (at' id)).port.answer = some { tag := 0#8, outcome := .refused, data := [23#8] } := by
  decide

/-- R174, R189: code 26h with tag 7; its CRC-16 is 7FFEh by hand. UNKNOWN COMMAND is cause 24. -/
theorem test_unknownCommand_26h :
    (after (.unknownCommand [6#8, 0#8, 0x26#8, 7#8, 0xFE#8, 0x7F#8]) (at' id)).port.answer =
      some { tag := 7#8, outcome := .refused, data := [24#8] } := by
  decide +kernel

/-- R177 and step 5 of 9.8: LIBRARY STATUS written in ANSWER READY is ignored, and the waiting answer shows COLLISION. -/
theorem test_collision_in_answer_ready :
    (after (.libraryStatus 2#8 []) (at' fun p => p.answer 1#8 .ok [])).port.collision = true ∧
      (after (.libraryStatus 2#8 []) (at' fun p => p.answer 1#8 .ok [])).port.answer =
        some { tag := 1#8, outcome := .ok, data := [] } := by
  decide

/-- R174, R189: an IDENTIFY frame with tag 9, its CRC-16 07A7h by hand, is taken. -/
theorem test_collision_row_takes_a_good_frame_in_idle :
    ((after (.collision [6#8, 0#8, 0x21#8, 9#8, 0xA7#8, 0x07#8]) (at' id)).port.answer.map Answer.tag) = some 9#8 := by
  decide +kernel

/-- R175, R189: the empty frame is 7 bytes; its CRC-16 is 110Ch by hand. -/
theorem test_readSelect_sends_the_empty_frame :
    (after (.readSelect 7) (at' id)).port.sdo = [0#8, 0#8, 0#8, 0#8, 0#8, 0x0C#8, 0x11#8] := by
  decide +kernel

/-- R175: an answer of no data is 7 bytes; clocking out 6 does not consume it, 7 do. -/
theorem test_readSelect_consumes_a_whole_answer :
    (after (.readSelect 6) (at' fun p => p.answer 1#8 .ok [])).port.state = .answerReady ∧
      (after (.readSelect 7) (at' fun p => p.answer 1#8 .ok [])).port.state = .idle := by
  decide

/-! ## Attention and identify (9.4, 9.5, 9.8) -/

/-- R184: the part number 7260 is 1C5Ch and the frame limit 2112 is 0840h. -/
theorem test_identify :
    answerTo (.identify 0#8 []) (at' id) =
      some (.ok, [0x50#8, 0x5C#8, 0x1C#8, 2#8, 0x40#8, 8#8, 16#8, 0#8, 64#8, 0#8, 0#8, 16#8, 2#8, 0#8, 4#8, 0#8, 4#8,
        0#8, 0#8, 8#8]) := by
  decide

/-- The mask of 9.8: every source UNMASKED except VIDEO. -/
def allButVideo : SourceSet :=
  { library := true, line := true, play := true, score := true, book := true, handset := true, video := false }

/-- Step 5 of 9.8: LIBRARY is reported and stays; step 7: HANDSET is reported and cleared, and ATTN falls with VIDEO masked. -/
theorem test_readAttention_by_priority :
    answerTo (.readAttention 0#8 [])
        (at' fun p => { p with attn := ⟨{ SourceSet.none with library := true, handset := true, video := true }, allButVideo⟩ }) =
      some (.ok, [1#8, 1#8, 0#8, 0#8, 0#8, 0#8, 1#8, 1#8]) ∧
    (after (.readAttention 0#8 [])
        (at' fun p => { p with attn := ⟨{ SourceSet.none with handset := true, video := true }, allButVideo⟩ })).attn =
      ⟨{ SourceSet.none with video := true }, allButVideo⟩ ∧
    (after (.readAttention 0#8 [])
        (at' fun p => { p with attn := ⟨{ SourceSet.none with handset := true, video := true }, allButVideo⟩ })).attnPin =
      false := by
  decide

/-- Step 1 of 9.8. -/
theorem test_setAttentionMask_writes_the_mask :
    (after (.setAttentionMask 0#8 [2#8, 2#8, 2#8, 2#8, 2#8, 2#8, 1#8]) (at' id)).attn = ⟨SourceSet.none, allButVideo⟩ ∧
      answerTo (.setAttentionMask 0#8 [2#8, 2#8, 2#8, 2#8, 2#8, 2#8, 3#8]) (at' id) = refusal 1 := by
  decide

/-! ## Room settings and room clear (9.6, 9.7) -/

/-- R185: quota 8 and gap time 60 are written; a quota of 9 is refused. -/
theorem test_configure_writes_fields :
    (after (.configure 0#8 [2#8, 8#8, 10#8, 60#8]) (at' id)).settings = { Settings.reset with quota := 8, gapTime := 60 } ∧
      answerTo (.configure 0#8 [2#8, 9#8]) (at' id) = refusal 1 := by
  decide

/-- R29: line-enable off. -/
theorem test_configure_turns_the_line_off :
    (after (.configure 0#8 [6#8, 0#8]) (at' id)).line.state = .off ∧
      (after (.configure 0#8 [6#8, 0#8]) (at' id)).line.tx = none := by
  decide

/-- R25, R47: room clear strikes the WAITING entries CLEARED, keeps the counter, clears the hold flag and frees the slots. -/
theorem test_clearRoom :
    (after (.clearRoom 0#8 []) (at' fun p => booked [waiting 7 10101 (.slot 2) 0] 8 (active [(2, 1)] (mounted p)))).book =
      { entries := [], counter := 8, hold := false, strikeCount := 1
        lastStrike := some { ticket := 7, song := 10101, origin := .slot 2, reason := .cleared } } ∧
      (after (.clearRoom 0#8 []) (at' fun p => active [(2, 1)] p)).slots = List.replicate 16 Slot.reset := by
  decide

/-! ## The Request Book (Chapter 1) -/

/-- 1.10: the book of slot 2's three songs, with slots 2, 5 and 9 ACTIVE. -/
def threeSongs (p : Part) : Part :=
  booked [waiting 1 10101 (.slot 2) 0, waiting 2 10102 (.slot 2) 1, waiting 3 10103 (.slot 2) 2] 4
    (active [(2, 3), (5, 0), (9, 0)] (mounted p))

/-- 1.10: the book before the desk's two adds. -/
def sixSongs (p : Part) : Part :=
  booked [waiting 1 10101 (.slot 2) 0, waiting 4 20201 (.slot 5) 0, waiting 5 30301 (.slot 9) 0, waiting 2 10102 (.slot 2) 1,
    waiting 6 20202 (.slot 5) 1, waiting 3 10103 (.slot 2) 2] 7 (active [(2, 3), (5, 2), (9, 1)] (mounted p))

/-- 1.10: song 40401 with no FRONT takes round 0 behind the last entry of round 0, as ticket 7 at position 4; slots 2 and 5 have
moved entries and slot 9 none. -/
theorem test_addRequest_rotates_in :
    order (after (.addRequest 0#8 [0xD1#8, 0x9D#8, 0#8, 1#8, 0#8, 0#8]) (at' sixSongs)) =
      [(1, 0), (4, 0), (5, 0), (7, 0), (2, 1), (6, 1), (3, 2)] ∧
    answerTo (.addRequest 0#8 [0xD1#8, 0x9D#8, 0#8, 1#8, 0#8, 0#8]) (at' sixSongs) = some (.ok, [7#8, 0#8, 4#8]) ∧
    ([2, 5, 9].map fun n =>
        ((after (.addRequest 0#8 [0xD1#8, 0x9D#8, 0#8, 1#8, 0#8, 0#8]) (at' sixSongs)).store n).position) =
      [.set, .set, .clear] := by
  decide

/-- 1.10: an entry with FRONT takes position 1 and round 0. The key -8 is out of range. -/
theorem test_addRequest_front :
    order (after (.addRequest 0#8 [0xD1#8, 0x9D#8, 0#8, 1#8, 0#8, 0#8, 1#8]) (at' threeSongs)) =
      [(4, 0), (1, 0), (2, 1), (3, 2)] ∧
    answerTo (.addRequest 0#8 [0xD1#8, 0x9D#8, 0#8, 1#8, 0xF8#8, 0#8]) (at' threeSongs) = refusal 1 := by
  decide

/-- R14, R17: ticket 2 is struck CANCELLED with no BOOK attention; NO SUCH TICKET is cause 9. -/
theorem test_cancelRequest_of_a_waiting_entry :
    order (after (.cancelRequest 0#8 [2#8, 0#8]) (at' threeSongs)) = [(1, 0), (3, 2)] ∧
      (after (.cancelRequest 0#8 [2#8, 0#8]) (at' threeSongs)).attn = Attention.reset ∧
      ((after (.cancelRequest 0#8 [2#8, 0#8]) (at' threeSongs)).store 2).struck = [⟨2, .cancelled⟩] ∧
      answerTo (.cancelRequest 0#8 [9#8, 0#8]) (at' threeSongs) = refusal 9 := by
  decide

/-- R15: singers from 1 to 2 appends a seat with no claim. -/
theorem test_editRequest_adds_a_seat :
    ((after (.editRequest 0#8 [2#8, 0#8, 3#8, 2#8]) (at' threeSongs)).entry 2).map Entry.seats = some [some 2, none] ∧
      answerTo (.editRequest 0#8 [2#8, 0#8, 1#8, 8#8]) (at' threeSongs) = refusal 1 := by
  decide

/-- R16: ticket 3 moved to position 1 takes the round of its new neighbour, ticket 1. -/
theorem test_placeRequest_to_the_head :
    order (after (.placeRequest 0#8 [3#8, 0#8, 1#8]) (at' threeSongs)) = [(3, 0), (1, 0), (2, 1)] ∧
      answerTo (.placeRequest 0#8 [3#8, 0#8, 4#8]) (at' threeSongs) = refusal 1 := by
  decide

/-- R23: the strike count returns to 0 and BOOK is cleared. -/
theorem test_readBook_clears :
    (after (.readBook 0#8 []) (at' fun p => { p with book := { p.book with strikeCount := 9 } }.raise .book)).book.strikeCount = 0 ∧
      (after (.readBook 0#8 []) (at' fun p => p.raise .book)).attn.pending.book = false := by
  decide

/-- 1.10: HOLD BOOK off promotes ticket 1 at the command, which then waits in no place of the waiting list. -/
theorem test_holdBook_off_promotes :
    (after (.holdBook 0#8 [0#8]) (at' threeSongs)).play.entry = some 1 ∧
      (after (.holdBook 0#8 [0#8]) (at' threeSongs)).play.state = .staging ∧
      answerTo (.holdBook 0#8 [2#8]) (at' threeSongs) = refusal 1 := by
  decide

/-- Table 1-8: with ticket 2 PLAYING in round 1, slot 12, which has no entry, takes round 1 behind ticket 9, and slot 5 then takes round 2
behind ticket 3. -/
theorem test_placement_late_in_the_evening :
    let book := [{ waiting 2 10102 (.slot 2) 1 with state := .playing }, waiting 6 20202 (.slot 5) 1, waiting 9 30302 (.slot 9) 1,
      waiting 3 10103 (.slot 2) 2]
    placement .rotation book (.slot 12) false = (1, 2) ∧
      placement .rotation (insertWaiting book 2 (waiting 10 50501 (.slot 12) 1)) (.slot 5) false = (2, 4) := by
  decide

/-! ## The handset line (Chapter 2) -/

/-- 2.8: the four counts of the line return to 0. -/
theorem test_lineStatus_clears_the_counts :
    (after (.lineStatus 0#8 []) (at' fun p => { p with line := { p.line with badClaims := 1, lates := 2 } }.raise .line)).line =
      Part.reset.line ∧
    (after (.lineStatus 0#8 []) (at' fun p => p.raise .line)).attn.pending.line = false := by
  decide

/-- R43. -/
theorem test_handsetTable_clears_error_counts :
    ((after (.handsetTable 0#8 [1#8]) (at' fun p => p.mapSlot 3 fun x => { x with check := 4, misses := 2 })).slot 3) =
      { Slot.reset with misses := 2 } := by
  decide

/-- R46, R37: OPEN CLAIMS off closes the window; round 2 follows, with no slot to serve and claims closed. -/
theorem test_openClaims_off_closes_the_window :
    (after (.openClaims 0#8 [0#8]) (at' window)).line.turn = .idleInterval ∧
      (after (.openClaims 0#8 [0#8]) (at' window)).line.round = 2 := by
  decide

/-- 2.8: BAR HANDSET 3 keeps the serial and strikes the slot's WAITING entry BARRED; its live entries become 0. -/
theorem test_barHandset :
    ((after (.barHandset 0#8 [3#8]) (at' fun p => booked [waiting 41 10101 (.slot 3) 0] 42 (active [(3, 1)] (mounted p)))).slot 3) =
      { Slot.reset with state := .barred, serial := some (serialOf 3) } ∧
    (after (.barHandset 0#8 [3#8]) (at' fun p => booked [waiting 41 10101 (.slot 3) 0] 42 (active [(3, 1)] (mounted p)))).book.lastStrike =
      some { ticket := 41, song := 10101, origin := .slot 3, reason := .barred } := by
  decide

/-- 2.8: RELEASE HANDSET 3 forgets the serial; slot 17 does not exist. -/
theorem test_releaseHandset :
    ((after (.releaseHandset 0#8 [3#8]) (at' (active [(3, 0)]))).slot 3) = Slot.reset ∧
      answerTo (.releaseHandset 0#8 [17#8]) (at' id) = refusal 1 := by
  decide

/-- R34: REPLY is loaded with the reply window of 4 ms, 192 ticks of 1/48 ms. -/
theorem test_pollSent_loads_reply :
    (after .pollSent (at' fun p => (turnTo 3 none p).sendFrame { kind := .poll, address := 3, body := [] })).line.reply =
      some 192 := by
  decide

/-- R37: four reply windows, 16 ms. -/
theorem test_openSent_loads_four_windows : (after .openSent (at' id)).line.reply = some 768 := by
  decide

/-- R37: round 2 follows the GRANT. -/
theorem test_grantSent_starts_the_round :
    (after .grantSent (at' fun p => { p with line := { p.line with turn := .none, tx := some ⟨.grant, 0, []⟩ } })).line.round = 2 := by
  decide

/-- R27: a character with the stop bit at space and a wrong parity bit counts as a framing error, once. 01h has one 1 bit. -/
theorem test_receivedCharacter_spoiled :
    ((after (.receivedCharacter ⟨1#8, false, false⟩) (at' fun p => turnTo 3 none (active [(3, 0)] p))).slot 3).framing = 1 ∧
      ((after (.receivedCharacter ⟨1#8, false, true⟩) (at' fun p => turnTo 3 none (active [(3, 0)] p))).slot 3).parity = 1 ∧
      (after (.receivedCharacter ⟨1#8, true, true⟩) (at' fun p => turnTo 3 none (active [(3, 0)] p))).line.reply = none := by
  decide

/-- Table 2-3: the fifth miss leaves slot 3 ACTIVE and the sixth makes it SILENT with HANDSET raised; the STRUCK item stays. -/
theorem test_replyExpiry_sixth_miss :
    let s (n : Nat) := at' fun p =>
      soon (((turnTo 3 (some (.struck true)) (active [(3, 0)] p)).mapSlot 3 fun x => { x with misses := n }).pushStruck 3 ⟨41, .cancelled⟩)
    ((after .replyExpiry (s 4)).slot 3).state = .active ∧ ((after .replyExpiry (s 5)).slot 3).state = .silent ∧
      (after .replyExpiry (s 5)).attn.pending.handset = true ∧ ((after .replyExpiry (s 5)).store 3).struck = [⟨41, .cancelled⟩] := by
  decide

/-- 2.8: a SILENT slot is passed over in a round that is not full, and served in round 0. -/
theorem test_round_serves_a_silent_slot_in_round_0 :
    let silent (round : Nat) : Part :=
      { (active [(3, 0)] Part.reset).mapSlot 3 fun x => { x with state := .silent } with
        line := { Line.reset with round := round } }
    (silent 6).startRound.line.turn = .claimWindow ∧ (silent 7).startRound.line.turn = .poll 3 none := by
  decide

/-- Step 5 of 3.4: a bad CRC-16 is a miss and a check error, and the reply stays HELD. The five characters hold no frame. -/
theorem test_invalidAnswer_is_a_miss :
    let t := after (.invalidAnswer ([0xC5#8, 6#8, 0x11#8, 0#8, 0#8].map charOf)) (at' fun p =>
      turnTo 6 (some .reply) (active [(6, 1)] p) |>.mapStore 6 fun x => { x with reply := .held (.dropped 1) })
    (t.slot 6).misses = 1 ∧ (t.slot 6).check = 1 ∧ (t.store 6).reply = .held (.dropped 1) := by
  decide

/-- Step 7 of 3.4: a valid ANSWER that is EMPTY removes the reply carried. -/
theorem test_answer_empties_the_reply :
    ((after (.answer 6#8 []) (at' fun p =>
      turnTo 6 (some .reply) (active [(6, 1)] p) |>.mapStore 6 fun x => { x with reply := .held (.taken 24 3) })).store 6).reply =
      .empty := by
  decide +kernel

/-- R57: a kind the table does not name is refused BAD FORM, with the kind it had. -/
theorem test_answer_of_an_unknown_kind :
    ((after (.answer 6#8 [8#8]) (at' fun p => turnTo 6 none (active [(6, 1)] p))).store 6).reply =
      .held (.refused 8#8 .badForm) := by
  decide +kernel

/-- Table 1-5: slot 5's ASK for 20201 takes ticket 4 at position 2 in round 0, and slot 2's POSITION flag is set. -/
theorem test_ask_rotates_in :
    let t := after (.ask 5#8 [0xE9#8, 0x4E#8, 0#8, 1#8, 0#8]) (at' fun p => turnTo 5 none (threeSongs p))
    order t = [(1, 0), (4, 0), (2, 1), (3, 2)] ∧ (t.store 5).reply = .held (.taken 4 2) ∧ (t.store 2).position = .set ∧
      (t.slot 5).live = 1 ∧ t.attn.pending.book = true := by
  decide +kernel

/-- 1.10: slot 2's fourth song is refused QUOTA; step 3 of 3.4: an ASK that finds a reply waiting is an overlap. -/
theorem test_ask_refused_quota_and_overlap :
    ((after (.ask 2#8 [0xE9#8, 0x4E#8, 0#8, 1#8, 0#8]) (at' fun p => turnTo 2 none (threeSongs p))).store 2).reply =
      .held (.refused 1#8 .quota) ∧
    ((after (.ask 5#8 [0xE9#8, 0x4E#8, 0#8, 1#8, 0#8]) (at' fun p =>
      turnTo 5 none (threeSongs p) |>.mapStore 5 fun x => { x with reply := .waiting })).slot 5).overlaps = 1 := by
  decide +kernel

/-- Step 1 of 3.4: with the die busy the lookup read of FIND 30301 waits, and the reply slot is PENDING. The POSITION item that was carried
is removed. -/
theorem test_find_of_a_ready_song :
    let t := after (.find 6#8 [0x5D#8, 0x76#8, 0#8]) (at' fun p =>
      turnTo 6 (some .position) (active [(6, 1)] ((mounted p).startOp 0 ⟨.reclaim, 2, 0, [], false⟩)) |>.mapStore 6 fun x =>
        { x with position := .sent })
    (t.store 6).reply = .waiting ∧ (t.store 6).position = .clear ∧
      (t.die 0).waiting = [⟨.lookupSlot 6 30301, 6, 0, [], false⟩] := by
  decide +kernel

/-- R61: the slot's own entries with their positions. -/
theorem test_mine_lists_own_entries :
    ((after (.mine 2#8 []) (at' fun p => turnTo 2 none (sixSongs p))).store 2).reply =
      .held (.tickets [⟨1, 1, .waiting⟩, ⟨2, 4, .waiting⟩, ⟨3, 6, .waiting⟩]) := by
  decide +kernel

/-- R62: DROP of an own WAITING entry, and of another slot's. -/
theorem test_drop :
    let t := after (.drop 2#8 [2#8, 0#8]) (at' fun p => turnTo 2 none (threeSongs p))
    order t = [(1, 0), (3, 2)] ∧ (t.store 2).reply = .held (.dropped 2) ∧ (t.store 2).struck = [⟨2, .cancelled⟩] ∧
      ((after (.drop 5#8 [2#8, 0#8]) (at' fun p => turnTo 5 none (threeSongs p))).store 5).reply =
        .held (.refused 4#8 .notYours) := by
  decide +kernel

/-- R63: KEY +2. -/
theorem test_key :
    let t := after (.key 2#8 [2#8, 0#8, 2#8]) (at' fun p => turnTo 2 none (threeSongs p))
    ((t.entry 2).map Entry.key) = some 2 ∧ (t.store 2).reply = .held (.keyed 2 2) := by
  decide +kernel

/-- R64, R12: an entry with one singer has no seat but seat 0; with two, seat 1 is free. Step 11 of 9.8: the origin's own JOIN is refused
DUPLICATE. -/
theorem test_join :
    let pair (p : Part) := (threeSongs p).mapEntry 2 fun e => { e with singers := 2, seats := [some 2, none] }
    ((after (.join 5#8 [2#8, 0#8]) (at' fun p => turnTo 5 none (pair p))).store 5).reply = .held (.seated 2 1) ∧
      ((after (.join 5#8 [1#8, 0#8]) (at' fun p => turnTo 5 none (pair p))).store 5).reply = .held (.refused 6#8 .seatsFull) ∧
      ((after (.join 2#8 [2#8, 0#8]) (at' fun p => turnTo 2 none (pair p))).store 2).reply = .held (.refused 6#8 .duplicate) := by
  decide +kernel

/-- R65, R19: the slot becomes FREE, its WAITING entries are struck LEFT and no reply is placed. -/
theorem test_leave :
    let t := after (.leave 2#8 []) (at' fun p => turnTo 2 none (threeSongs p))
    t.slot 2 = Slot.reset ∧ t.book.entries = [] ∧ t.book.strikeCount = 3 ∧ t.store 2 = Store.empty := by
  decide +kernel

/-- R34: a frame after REPLY expiry and before the next POLL is late. -/
theorem test_lateAnswer :
    (after (.lateAnswer [charOf 0#8]) (at' fun p => { p with line := { p.line with afterMiss := true } })).line.lates = 1 := by
  decide

/-- R32: a frame in an idle interval is stray. -/
theorem test_strayFrame :
    (after (.strayFrame [charOf 0#8]) (at' fun p => { p with line := { p.line with turn := .idleInterval, tx := none } })).line.strays =
      1 := by
  decide

/-- 2.8: a new serial receives slot 3, the lowest FREE slot. -/
theorem test_claim_takes_the_lowest_free_slot :
    let t := after (.claim (serialOf 0x33)) (at' fun p => window (active [(1, 0), (2, 0)] p))
    (t.slot 3).state = .active ∧ (t.slot 3).serial = some (serialOf 0x33) ∧
      t.line.tx = some ⟨.grant, 0, serialOf 0x33 ++ [3#8]⟩ ∧ t.attn.pending.handset = true := by
  decide +kernel

/-- 2.8: the serial of a BARRED slot is denied with the table unchanged; R190 encodes the denial 81h. -/
theorem test_claim_of_a_barred_slot :
    let p0 := (window (active [(3, 0)] Part.reset)).mapSlot 3 fun x => { x with state := .barred }
    let t := after (.claim (serialOf 3)) { part := p0, pending := [] }
    t.slots = p0.slots ∧ t.line.tx = some ⟨.grant, 0, serialOf 3 ++ [0x81#8]⟩ := by
  decide +kernel

/-- 2.8, round 5: a frame of spoiled characters is discarded, the bad-claim count becomes 1 and the window stays open. -/
theorem test_badClaim :
    let t := after (.badClaim [⟨0#8, true, true⟩]) (at' window)
    t.line.badClaims = 1 ∧ t.line.turn = .claimWindow ∧ t.line.reply = some 768 := by
  decide

/-- R30, R31. -/
theorem test_break_and_end :
    (after .lineBreak (at' fun p => turnTo 3 none (active [(3, 0)] p))).line.state = .broken ∧
      ((after .lineBreak (at' fun p => turnTo 3 none (active [(3, 0)] p))).slot 3).misses = 0 ∧
      (after .breakEnd (at' fun p => (active [(3, 0)] p).breakLine)).line.turn = .poll 3 none := by
  decide

/-! ## The song catalog and the library store (Chapters 4 and 5) -/

/-- R70, R71: ACCEPTED from UNMOUNTED, with both identifications begun; BUSY, cause 20, while MOUNTED. -/
theorem test_mount :
    answerTo (.mount 0#8 []) (at' id) = some (.accepted, []) ∧ (after (.mount 0#8 []) (at' id)).lib.state = .mounting ∧
      (after (.mount 0#8 []) (at' id)).lib.die1.identifying = some .reset ∧ answerTo (.mount 0#8 []) (at' mounted) = refusal 20 := by
  decide

/-- R77: the port stays EXECUTING while the lookup read runs; NO SUCH SONG is cause 3. -/
theorem test_lookUpSong :
    (after (.lookUpSong 7#8 [0x5D#8, 0x76#8, 0#8]) (at' mounted)).port.state = .executing ∧
      (after (.lookUpSong 7#8 [0x5D#8, 0x76#8, 0#8]) (at' mounted)).lib.die0.state = .busy ∧
      answerTo (.lookUpSong 7#8 [0x5E#8, 0x76#8, 1#8]) (at' mounted) = refusal 3 := by
  decide

/-- R78: ten songs in the catalog; from song 20202 on, one asked for, song 20202 (4EEAh). -/
theorem test_listSongs :
    (answerTo (.listSongs 0#8 [0xEA#8, 0x4E#8, 0#8, 1#8]) (at' mounted)).map (fun x => x.2.take 6) =
      some [10#8, 0#8, 1#8, 0xEA#8, 0x4E#8, 0#8] := by
  decide

/-- The parameters of an install of song 66100 (010234h): 14 pages, 201,000 ms (031128h), two parts, a title of one byte, no artist and no
glyph codes. -/
def installOf66100 : List Byte :=
  [0x34#8, 2#8, 1#8, 14#8, 0x28#8, 0x11#8, 3#8, 2#8, 1#8, 0x41#8, 0#8, 0#8]

/-- R81: a new song is edition 1, on the lowest FREE block of die 0, block 3; PROTECTED is cause 15. -/
theorem test_installBegin :
    answerTo (.installBegin 0#8 installOf66100) (at' mounted) = some (.ok, [1#8, 0#8, 3#8, 0#8]) ∧
      (after (.installBegin 0#8 installOf66100) (at' mounted)).lib.die0.map =
        some [.bad, .song, .reclaim, .filling, .free, .song] ∧
      answerTo (.installBegin 0#8 installOf66100)
        (at' fun p => { mounted p with lib := { (mounted p).lib with libwp := false } }) = refusal 15 := by
  decide

/-- 5.4: the install of song 66100 in block 3 with this next page, this many buffered pages and this operation in flight. -/
def installing (next : Nat) (buffered : List (List Byte)) (inFlight : Option InstallOp) (p : Part) : Part :=
  { mounted p with
    install := some
      { closing := false, song := 66100, target := ⟨1, 0, 3, 14, 201000, 2⟩, title := [], artist := [], glyphs := [], nextPage := next,
        buffered := buffered, replacement := false, inFlight := inFlight } }

/-- 5.4 at 0.300 and at 2.500: page 5 is taken and buffered; with two buffered, page 7 is answered WAIT. -/
theorem test_installPage :
    ((after (.installPage 0#8 (5#8 :: List.replicate 2048 0#8)) (at' (installing 5 [] (some (.program 4))))).install.map fun r =>
      (r.nextPage, r.buffered.length)) = some (6, 1) ∧
    answerTo (.installPage 0#8 (7#8 :: List.replicate 2048 0#8)) (at' (installing 7 [[], []] (some (.program 5)))) =
      some (.wait, []) := by
  decide +kernel

/-- R84: with 14 pages taken the record enters CLOSING; with 13 the answer is ORDER, cause 17; with none open NO INSTALL, cause 18. -/
theorem test_installClose :
    answerTo (.installClose 0#8 []) (at' (installing 15 [] none)) = some (.accepted, []) ∧
      answerTo (.installClose 0#8 []) (at' (installing 14 [] none)) = refusal 17 ∧
      answerTo (.installClose 0#8 []) (at' mounted) = refusal 18 := by
  decide

/-- R87: the block goes to the reclaim list, and the IDLE die begins its erase. -/
theorem test_installAbandon :
    (after (.installAbandon 0#8 []) (at' (installing 5 [] none))).install = none ∧
      (after (.installAbandon 0#8 []) (at' (installing 5 [] none))).lib.reclaim = [(0, 3)] ∧
      ((after (.installAbandon 0#8 []) (at' (installing 5 [] none))).lib.die0.op.map Request.requester) = some .reclaim := by
  decide

/-- R89: the song's WAITING entries are struck WITHDRAWN and it becomes WITHDRAWING. -/
theorem test_withdrawSong :
    let t := after (.withdrawSong 0#8 [0x76#8, 0x27#8, 0#8]) (at' threeSongs)
    order t = [(1, 0), (3, 2)] ∧ ((t.catEntry 10102).map CatEntry.state) = some .withdrawing ∧
      (t.book.lastStrike.map LastStrike.reason) = some .withdrawn := by
  decide

/-- R109: CLEAR FAULTS. -/
theorem test_libraryStatus_clears_faults :
    (after (.libraryStatus 0#8 [1#8]) (at' fun p => p.recordFault .read 1 30)).lib.lastFault = none ∧
      (after (.libraryStatus 0#8 []) (at' fun p => p.recordFault .read 1 30)).lib.faultCount = 1 ∧
      (after (.libraryStatus 0#8 []) (at' fun p => p.recordFault .read 1 30)).attn.pending.library = false := by
  decide

/-- Table 5-5: of the five waiting requests the stream fetch of page 7 is granted first. -/
theorem test_arbiter_at_4_800 :
    chooseWaiting true
      [⟨.install (.program 5), 41, 5, [], false⟩, ⟨.lookupSlot 3 40401, 17, 0, [], false⟩, ⟨.stream, 22, 7, [], false⟩,
        ⟨.stream, 22, 8, [], false⟩, ⟨.withdraw 72500, 30, 0, [], false⟩] = some ⟨.stream, 22, 7, [], false⟩ := by
  decide

/-- 5.4: with LIBWP_N low the program and the erase wait and the read is granted all the same. -/
theorem test_arbiter_protected :
    chooseWaiting false
      [⟨.withdraw 72500, 30, 0, [], false⟩, ⟨.install (.program 6), 41, 6, [], false⟩, ⟨.lookupPort, 17, 0, [], false⟩] =
        some ⟨.lookupPort, 17, 0, [], false⟩ ∧
      chooseWaiting false [⟨.withdraw 72500, 30, 0, [], false⟩] = none := by
  decide

/-- 4.9: edition 4 of 40401 is kept, and of the two candidates of 51000 the one on die 0. -/
theorem test_mount_resolves_duplicates :
    (catalogOf (keptCandidates
      [⟨⟨40401, 3, 11, 200000, 1⟩, 0, 4⟩, ⟨⟨51000, 2, 7, 200000, 1⟩, 0, 8⟩, ⟨⟨40401, 4, 12, 200000, 1⟩, 1, 5⟩,
        ⟨⟨51000, 2, 7, 200000, 1⟩, 1, 9⟩])).map (fun e => (e.song, e.current.edition, e.current.die, e.current.block)) =
      [(40401, 4, 1, 5), (51000, 2, 0, 8)] := by
  decide

/-- A read of one sector with nine bit errors: UNCORRECTABLE (R95). -/
def badRead : PageRead := { sector0 := .coded 9 [], sector1 := .erased 0, sector2 := .erased 0, sector3 := .erased 0, marker := 0xFF#8 }

/-- R95: an erased page. -/
def erasedRead : PageRead := { badRead with sector0 := .erased 0 }

/-- R95: a count of 8 is CORRECTED and 9 UNCORRECTABLE; an erased page is CLEAN. -/
theorem test_readOutcome :
    readOutcome { erasedRead with sector2 := .coded 8 [] } = .corrected 8 ∧ readOutcome badRead = .uncorrectable ∧
      readOutcome erasedRead = .clean := by
  decide

/-- A die with an operation in progress. -/
def running (r : Request) (p : Part) : Part := (mounted p).startOp 0 r

/-- R60, R96: the read of FIND 30301 is UNCORRECTABLE: SONG INFO without tags, with DAMAGED, and a READ fault. -/
theorem test_lookupReadComplete_uncorrectable :
    let t := after (.lookupReadComplete 0 badRead) (at' (running ⟨.lookupSlot 6 30301, 6, 0, [], false⟩))
    (t.store 6).reply = .held (.songInfo ⟨30301, 2, .ready, 201000, 2, false, true, [], []⟩) ∧
      t.lib.lastFault = some ⟨.read, 0, 6⟩ ∧ t.lib.die0.state = .idle := by
  decide

/-- R102: a lookup read that was given up changes no store (3.4, the variant). -/
theorem test_lookupReadComplete_given_up :
    ((after (.lookupReadComplete 0 erasedRead) (at' (running ⟨.lookupSlot 6 30301, 6, 0, [], true⟩))).store 6).reply = .empty := by
  decide

/-- A mount that waits for page 0 of block 0 on die 0 alone. -/
def scanning (p : Part) : Part :=
  { p with lib := { p.lib with
      state := .mounting
      die0 := { Die.reset with state := .busy, scan := .header 0, op := some ⟨.scan, 0, 0, [], false⟩, watch := some 960 }
      die1 := { Die.reset with state := .absent } } }

/-- Table 4-6, block 0: a factory bad marker is BAD; the scan goes on with block 1. An erased block is FREE. -/
theorem test_mountScanReadComplete :
    (after (.mountScanReadComplete 0 { erasedRead with marker := 0#8 }) (at' scanning)).lib.die0.judged = [.bad] ∧
      (after (.mountScanReadComplete 0 erasedRead) (at' scanning)).lib.die0.judged = [.free] ∧
      (after (.mountScanReadComplete 0 erasedRead) (at' scanning)).lib.die0.op = some ⟨.scan, 1, 0, [], false⟩ := by
  decide

/-- R71: a die 0 of another geometry fails the mount with LIBRARY raised. -/
theorem test_identification_of_another_geometry :
    let mounting := { part := after (.mount 0#8 []) (at' id), pending := [] }
    (after (.identification 0 (.geometry ⟨1024, 64, 2048, 64⟩)) mounting).lib.state = .failed ∧
      (after (.identification 0 (.geometry ⟨1024, 64, 2048, 64⟩)) mounting).attn.pending.library = true ∧
      (after (.identification 0 (.geometry ⟨2048, 64, 2048, 64⟩)) mounting).lib.die0.state = .idle := by
  decide

/-- 5.4 at 5.520: page 5 completes PASS, buffered pages fall to 1 and the program of page 6 is requested. -/
theorem test_installProgramComplete_pass :
    let t := after (.installProgramComplete 0 true) (at' fun p =>
      let q := (installing 7 [[5#8], [6#8]] (some (.program 5)) p).startOp 0 ⟨.install (.program 5), 3, 5, [5#8], false⟩
      { q with lib := { q.lib with programMark := 5 } })
    (t.install.map fun r => (r.buffered, r.inFlight)) = some ([[6#8]], some (.program 6)) ∧
      t.lib.die0.op = some ⟨.install (.program 6), 3, 6, [6#8], false⟩ := by
  decide

/-- R86, R98: a program that ends FAIL makes the block BAD and ends the install. -/
theorem test_installProgramComplete_fail :
    let t := after (.installProgramComplete 0 false) (at' fun p =>
      (installing 7 [[5#8]] (some (.program 5)) p).startOp 0 ⟨.install (.program 5), 3, 5, [5#8], false⟩)
    t.install = none ∧ t.lib.die0.map = some [.bad, .song, .reclaim, .bad, .free, .song] ∧
      t.lib.lastOperation = some ⟨.install, some 66100, .failedProgram⟩ := by
  decide

/-- 5.4 at 11.560: the song leaves the catalog, its block joins the free pool, and a reclaim erase starts. -/
theorem test_withdrawEraseComplete :
    let t := after (.withdrawEraseComplete 0 true) (at' fun p =>
      let q := running ⟨.withdraw 20202, 5, 0, [], false⟩ p
      { q with lib := { q.lib with reclaim := [(0, 2)] } })
    t.catEntry 20202 = none ∧ t.lib.lastOperation = some ⟨.withdraw, some 20202, .done⟩ ∧ t.attn.pending.library = true ∧
      (t.lib.die0.op.map fun r => (r.requester, r.block)) = some (.reclaim, 2) := by
  decide

/-- 5.4 at 4.800: the block leaves the reclaim list and joins the free pool. -/
theorem test_reclaimEraseComplete :
    let t := after (.reclaimEraseComplete 0 true) (at' fun p =>
      let q := running ⟨.reclaim, 2, 0, [], false⟩ p
      { q with lib := { q.lib with reclaim := [(0, 2)] } })
    t.lib.reclaim = [] ∧ t.lib.die0.map = some [.bad, .song, .free, .free, .free, .song] ∧ t.lib.die0.state = .idle := by
  decide

/-- R99, R107, R91: the die is FAULTED, its songs are OFFLINE, and a DIE fault is recorded. -/
theorem test_dieWatchExpiry :
    let t := after (.dieWatchExpiry 0) (at' fun p => soon (running ⟨.reclaim, 2, 0, [], false⟩ p))
    t.lib.die0.state = .faulted ∧ (t.catalog.all fun e => e.state == .offline) = true ∧
      t.lib.lastFault = some ⟨.die, 0, 2⟩ := by
  decide

/-- R191: the spare of a page program has 64 bytes, with FFh in byte 0 and in the last. -/
theorem test_programSpare :
    (programSpare []).length = 64 ∧ (programSpare [])[0]? = some 0xFF#8 ∧ (programSpare [])[63]? = some 0xFF#8 := by
  refine ⟨?_, ?_, ?_⟩ <;> rfl

/-- R100: a read and an erase requested of a FAULTED die end at once as ended by die fault. -/
theorem test_requestOfFaultedDie :
    let faulted := at' fun p => (mounted p).mapDie 0 fun x => { x with state := .faulted }
    (after (.lookUpSong 1#8 [0x76#8, 0x27#8, 0#8]) faulted).port.state = .answerReady ∧
      (after (.withdrawSong 1#8 [0x76#8, 0x27#8, 0#8]) faulted).lib.lastOperation = some ⟨.withdraw, some 10102, .failedDie⟩ ∧
      (after (.withdrawSong 1#8 [0x76#8, 0x27#8, 0#8]) faulted).lib.die0.waiting = [] := by
  decide

/-- R103: the rise of LIBWP_N starts the erase that waits. -/
theorem test_libwpChange :
    let low := at' fun p => { mounted p with lib := { (mounted p).lib with libwp := false, reclaim := [(0, 2)] } }
    ((after (.libwpChange true) low).lib.die0.op.map Request.requester) = some .reclaim ∧
      (after (.libwpChange false) low).lib.die0.op = none := by
  decide

/-! ## The play context (Chapter 6) -/

/-- 6.9: the play context in GAP, with tickets 52 and 53 WAITING and slots 4, 7 and 9 ACTIVE. -/
def gap (p : Part) : Part :=
  let q := active [(4, 1), (7, 0), (9, 1)] (mounted p)
  { q with
    book := { q.book with
      counter := 54
      entries := [{ waiting 52 58200 (.slot 4) 0 with singers := 2, seats := [some 4, some 7] }, waiting 53 61000 (.slot 9) 0] }
    play := { q.play with state := .gap, gap := some 1 } }

/-- 6.9 at 0.000: the promotion at the expiry of GAP. -/
def staged : State := { part := after .gapExpiry (at' gap), pending := [] }

theorem test_gapExpiry_promotes_ticket_52 :
    staged.part.play.entry = some 52 ∧ staged.part.play.state = .staging ∧ staged.part.play.cueHold = 20 ∧
      (staged.part.scorer.seats.map fun x => (x.state, x.part, x.handset)).take 2 =
        [(.armed, 0, some 4), (.armed, 1, some 7)] ∧
      (staged.part.store 4).cued = some 52 ∧ (staged.part.store 7).cued = some 52 ∧
      (staged.part.store 9).position = .set := by
  decide

/-- 6.9 at 0.000: page 0 is granted at once and page 1 waits. -/
theorem test_gapExpiry_requests_two_pages :
    staged.part.lib.die0.op = some ⟨.stream, 22, 0, [], false⟩ ∧
      staged.part.lib.die0.waiting = [⟨.stream, 22, 1, [], false⟩] ∧ staged.part.lyric.title = ⟨true, none⟩ := by
  decide

/-- 6.9, the variant of an unreadable header: 52 is struck DAMAGED, slot 4 receives STRUCK (52, DAMAGED), and 53 is staged at the same
event. -/
theorem test_streamFetchComplete_unreadable_header :
    let t := after (.streamFetchComplete 0 badRead) staged
    (t.store 4).struck = [⟨52, .damaged⟩] ∧ ((t.catEntry 58200).map CatEntry.damaged) = some true ∧
      t.lib.lastFault = some ⟨.read, 0, 22⟩ ∧ t.play.entry = some 53 ∧ t.play.state = .staging := by
  decide

/-- R122, R191: an erased page 0 is no header; it is struck DAMAGED with no fault. -/
theorem test_streamFetchComplete_erased_header :
    let t := after (.streamFetchComplete 0 erasedRead) staged
    (t.store 4).struck = [⟨52, .damaged⟩] ∧ t.lib.lastFault = none := by
  decide

/-- 6.9 at 0.160: ticket 52 in HOLDING. -/
def holding : State := { staged with part := { staged.part with play := { staged.part.play with state := .holding, hold := some 960000 } } }

/-- Table 6-7: START taken first. -/
theorem test_start_in_holding :
    (after (.start 0#8 []) holding).play.state = .running ∧ (after (.start 0#8 []) holding).play.hold = none ∧
      ((after (.start 0#8 []) holding).entry 52).map Entry.state = some .playing ∧
      ((after (.start 0#8 []) holding).seat 1).state = .singing := by
  decide

/-- 6.9, the variant: START during STAGING sets start-pending; in GAP it is refused NOT CUED, cause 21. -/
theorem test_start_in_staging :
    (after (.start 0#8 []) staged).play.startPending = true ∧ (after (.start 0#8 []) staged).play.state = .staging ∧
      answerTo (.start 0#8 []) (at' gap) = refusal 21 := by
  decide

/-- Table 6-8: the strike of 52 SKIPPED loads GAP with 5,000 ms; SKIP does to it what the DROP does. -/
theorem test_skip_in_holding :
    let t := after (.skip 0#8 []) holding
    t.play.state = .gap ∧ t.play.gap = some 240000 ∧ order t = [(53, 0)] ∧ t.reader = Reader.reset ∧
      t.play.lastOutcome = some ⟨52, 58200, .struck .skipped⟩ ∧ (t.store 4).struck = [⟨52, .skipped⟩] ∧ (t.store 7).struck = [] := by
  decide

/-- R125, R113: EXTEND HOLD 0 expires HOLD at the load, and the hold action is START; 121 is out of range. -/
theorem test_extendHold :
    (after (.extendHold 0#8 [0#8]) holding).play.state = .running ∧
      (after (.extendHold 0#8 [120#8]) holding).play.hold = some 5760000 ∧
      answerTo (.extendHold 0#8 [121#8]) holding = refusal 1 := by
  decide

/-- The same with hold action SKIP. -/
def holdingSkip : State := { holding with part := { holding.part with settings := { Settings.reset with holdAction := .skip } } }

/-- A state on the last tick of its timers. -/
def atLastTick (s : State) : State := { s with part := soon s.part }

/-- 6.9, the variant: nothing happens in the hold; with hold action SKIP the expiry strikes 52. With time remaining nothing has expired. -/
theorem test_holdExpiry :
    (after .holdExpiry (atLastTick holding)).play.state = .running ∧
      (after .holdExpiry (atLastTick holdingSkip)).play.state = .gap ∧ after .holdExpiry holding = holding.part := by
  decide

/-- Ticket 52 PLAYING at a song time in milliseconds, with a tempo. -/
def playing (ms : Nat) (tempo : Int) : State :=
  { part := { after (.start 0#8 []) holding with
      port := Port.reset
      play := { (after (.start 0#8 []) holding).play with time := ms * 1200, tempo := tempo } }
    pending := [] }

/-- R129: PAUSE and RESUME; NOT PLAYING is cause 22. -/
theorem test_pause_and_resume :
    (after (.pause 0#8 []) (playing 6000 0)).play.state = .paused ∧
      (after (.resume 0#8 []) { part := (after (.pause 0#8 []) (playing 6000 0)).consume, pending := [] }).play.state = .running ∧
      answerTo (.resume 0#8 []) (playing 6000 0) = refusal 22 := by
  decide

/-- 7.8, the variant: NUDGE +1,000 at 6,000 gives 7,000, 1B58h; R130: 2,001 is out of range. -/
theorem test_nudge :
    answerTo (.nudge 0#8 [0xE8#8, 3#8]) (playing 6000 0) = some (.ok, [0x58#8, 0x1B#8, 0#8]) ∧
      answerTo (.nudge 0#8 [0xD1#8, 7#8]) (playing 6000 0) = refusal 1 ∧
      answerTo (.nudge 0#8 [0x0C#8, 0xFE#8]) (playing 300 0) = some (.ok, [0#8, 0#8, 0#8]) := by
  decide

/-- R126, R131: SKIP of a PLAYING song writes the result and retires the entry. -/
theorem test_skip_in_running :
    let t := after (.skip 0#8 []) (playing 6000 0)
    order t = [(53, 0)] ∧ (t.scorer.result.map fun r => (r.ticket, r.edition, r.kind)) = some (52, 2, .skipped) ∧
      t.book.lastStrike = none ∧ t.attn.pending.score = true ∧ (t.store 7).score = some ⟨52, 1, 0⟩ := by
  decide

/-- R132: NEXT NOW in GAP promotes; elsewhere it is refused BUSY. -/
theorem test_nextNow :
    (after (.nextNow 0#8 []) (at' gap)).play.entry = some 52 ∧ answerTo (.nextNow 0#8 []) (at' id) = refusal 20 := by
  decide

/-- R188: 00h stands for a single field that is absent. -/
theorem test_absent_fields_are_00h :
    successorBytes (songAt 10101 1) = [0#8] ∧ successorBytes { songAt 10101 1 with successor := some ⟨3, 0, 3, 14, 201000, 2⟩ } = [3#8] ∧
      (slotBytes Slot.reset).take 2 = [1#8, 0#8] ∧
      (slotBytes { Slot.reset with state := .active, serial := some (serialOf 9) }).take 7 = 2#8 :: serialOf 9 ∧
      lastOperationBytes ⟨.mount, none, .done⟩ = [1#8, 0#8, 1#8, 0#8] ∧
      lastOperationBytes ⟨.install, some 66100, .done⟩ = [2#8, 0x34#8, 2#8, 1#8, 1#8, 0#8] ∧
      Row.reset.bytes = [1#8, 0#8, 0#8, 0#8, 0#8] ∧ Row.bytes ⟨.shown, some 0, 0⟩ = [2#8, 0#8, 0#8, 0#8, 0#8, 0#8] := by
  decide

/-- R134: PLAY STATUS clears PLAY; GAP is state 2 (R188). -/
theorem test_playStatus :
    (after (.playStatus 0#8 []) staged).attn.pending.play = false ∧
      (answerTo (.playStatus 0#8 []) staged).map (fun x => x.2.take 3) = some [3#8, 1#8, 52#8] := by
  decide

/-- An audio frame of silence. -/
def silence : AudioFrame := { sd0 := 0, sd1 := 0 }

/-- R128: 25 steps at tempo 0 and 20 at tempo -5. -/
theorem test_audioFrame_advances :
    (after (.audioFrame silence) (playing 6000 0)).play.time = 7200025 ∧
      (after (.audioFrame silence) (playing 6000 (-5))).play.time = 7200020 := by
  decide

/-- R128, R131: at the duration of 201,000 ms the song ends ENDED. -/
theorem test_audioFrame_ends_the_song :
    let s := playing 0 0
    let t := after (.audioFrame silence)
      { s with part := { s.part with play := { s.part.play with time := 201000 * 1200 - 25 } } }
    t.play.state = .gap ∧ t.play.lastOutcome = some ⟨52, 58200, .ended .ended⟩ := by
  decide

/-- R156: silence measures -96 dB, and the next window is empty. -/
theorem test_windowEnd_of_silence :
    let t := after (.windowEnd silence) (at' fun p => { p with scorer := { p.scorer with window := List.replicate 479 silence } })
    t.scorer.window = [] ∧ (t.scorer.channels.map Channel.level) = [-96, -96, -96, -96] := by
  decide +kernel

/-- R157: the third loud window is the presence rise. -/
theorem test_presence_rise :
    presenceStep (-42) (-42) ⟨-42, false, 2, 0, false⟩ = (⟨-42, true, 0, 0, true⟩, true) ∧
      presenceStep (-42) (-43) ⟨-42, false, 2, 0, false⟩ = (⟨-43, false, 0, 0, false⟩, false) := by
  decide

/-! ## Lyric display (Chapter 7) -/

/-- R148, R147: code 5, one pixel wide, every row of coverage 3. -/
theorem test_loadGlyphs :
    (glyphAt (after (.loadGlyphs 0#8 ([5#8, 0#8, 1#8, 0#8, 1#8] ++ List.replicate 32 3#8)) (at' id)).glyphs 5).map
      (fun g => (g.width, g.rows)) = some (1, List.replicate 32 [3#2]) ∧
    answerTo (.loadGlyphs 0#8 [0#8, 0#8, 1#8, 0#8, 1#8]) (at' id) = refusal 1 := by
  decide

/-- R153: safe width 1280; an upper baseline of 640 stands less than 32 lines above the lower of 660. -/
theorem test_displaySettings :
    (after (.displaySettings 0#8 [15#8, 0#8, 5#8]) (at' id)).display.safeWidth = 1280 ∧
      answerTo (.displaySettings 0#8 [13#8, 0x80#8, 2#8]) (at' id) = refusal 1 := by
  decide

/-- Table 7-2: the three lines of 7.8 in the queue, none given a row yet, and the beats. -/
def denseLines (ms : Nat) : Part :=
  { (playing ms 0).part with
    reader := { (playing ms 0).part.reader with
      beats := [1500, 2500, 3500]
      lines := [⟨⟨1, [16, 17, 18], [⟨3, 4000, 4400⟩, ⟨1, 4400, 6200⟩]⟩, 0, false⟩, ⟨⟨2, [19], [⟨1, 6300, 8100⟩]⟩, 1, false⟩,
        ⟨⟨3, [20], [⟨1, 6800, 9000⟩]⟩, 2, false⟩] } }

/-- 7.8: L0 clears at 6,600, L1 at 8,600 and L2 at 9,500. -/
theorem test_clear_times :
    ((denseLines 0).reader.lines.map (denseLines 0).clearTime) = [6600, 8600, 9500] := by
  decide

/-- Table 7-3 at 999 and at 1,000 ms: L0 is shown, and its row take ends the title card. -/
theorem test_frame_start_shows_L0 :
    let t := after (.inputFrameStart ⟨[], 0⟩) { part := denseLines 1000, pending := [] }
    (after (.inputFrameStart ⟨[], 0⟩) { part := denseLines 999, pending := [] }).lyric.row0.state = .empty ∧
      t.lyric.row0.state = .shown ∧ t.lyric.row0.line = some 0 ∧ t.lyric.row1.state = .empty ∧ t.lyric.title.shown = false ∧
      t.introDots = 3 := by
  decide

/-- Table 7-3 at 6,600 ms: L0 is cleared and row 0 takes L2 at once, with its free time 6,600; row 1 is WIPING. -/
theorem test_frame_start_at_6600 :
    let t := after (.inputFrameStart ⟨[], 0⟩) { part := denseLines 6600, pending := [] }
    t.lyric.row0 = ⟨.shown, some 2, 6600⟩ ∧ t.lyric.row1 = ⟨.wiping, some 1, 0⟩ ∧
      (t.reader.lines.map QueuedLine.ordinal) = [1, 2] := by
  decide +kernel

/-- 7.8: the wipe at 4,100 has drawn 15 of the first syllable's 60 columns. -/
theorem test_wipe_at_4100 : wipedColumns (4100 * 1200) 60 ⟨3, 4000, 4400⟩ = 15 := by
  decide

/-- R138: the second well-formed frame in a row, 1280 by 720 and 450,000 cycles long at 60 frames/s, enters PASS. -/
theorem test_inputFrameStart_regains_video :
    let s := at' fun p => { p with lyric := { p.lyric with path := .lost, frameOpen := true, runCount := 1 } }
    (after (.inputFrameStart ⟨[(720, 1280)], 450000⟩) s).lyric.path = .pass ∧
      (after (.inputFrameStart ⟨[(719, 1280)], 450000⟩) s).lyric.runCount = 0 := by
  decide

/-- R136, Table 7-1: in LOST the background is drawn beneath all else. -/
theorem test_internalFrameStart :
    (after .internalFrameStart (at' fun p => { p with lyric := { p.lyric with path := .lost } })).lyric.plane =
      [.fill 0x101020#24] := by
  decide

/-- Step 2 of 9.8: VIDEO becomes pending, and ATTN stays low. -/
theorem test_videoWatchExpiry :
    (after .videoWatchExpiry (at' soon)).lyric.path = .lost ∧ (after .videoWatchExpiry (at' soon)).attn.pending.video = true ∧
      (after .videoWatchExpiry (at' soon)).attnPin = false ∧ (after .videoWatchExpiry (at' id)).lyric.path = .pass := by
  decide

/-- R152: the score card is taken down. -/
theorem test_cardExpiry :
    (after .cardExpiry (at' fun p => { p with lyric := { p.lyric with card := ⟨true, []⟩, cardTimer := some 1 } })).lyric.card.shown =
      false := by
  decide

/-! ## Singer scoring (Chapter 8) -/

/-- R162: channel 0 goes from seat 0 to seat 1; a channel of none is FFh. -/
theorem test_bindMic :
    answerTo (.bindMic 0#8 [1#8, 0#8]) (at' id) = some (.ok, [0xFF#8, 0#8, 2#8, 3#8]) ∧
      answerTo (.bindMic 0#8 [4#8, 0#8]) (at' id) = refusal 1 := by
  decide

/-- R171: the unread flag and SCORE are cleared. -/
theorem test_scoreReport :
    (after (.scoreReport 0#8 []) (at' fun p => p.writeResult 52 58200 2 .ended)).attn.pending.score = false ∧
      ((after (.scoreReport 0#8 []) (at' fun p => p.writeResult 52 58200 2 .ended)).scorer.result.map ResultRecord.unread) =
        some false := by
  decide

/-- Table 8-5. -/
theorem test_classification :
    ([268, 276, 132].map fun hz => classify true 60 0 (some ⟨hz, 1⟩)) = [.hit, .near, .hit] ∧
      ([268, 276, 132].map fun hz => classify false 60 0 (some ⟨hz, 1⟩)) = [.hit, .near, .miss] ∧
      ([268, 276, 132].map fun hz => centsFrom ⟨hz, 1⟩ 60 0) = [42, 93, -1184] := by
  decide +kernel

/-- 8.6: N1 at 10,045 is EARLY, N2 at 10,525 LATE and N3 at 10,715 EARLY. -/
theorem test_onsets :
    onsetAt (10045 * 1200) 10000 10400 = .early ∧ onsetAt (10525 * 1200) 10400 10600 = .late ∧
      onsetAt (10715 * 1200) 10700 10760 = .early ∧ onsetAt (10731 * 1200) 10700 10760 = .late := by
  decide

/-- 8.6: the weighted scores of N1, N2 and N3 are 356, 61 and 52. -/
theorem test_note_scores :
    (noteScore ⟨32, 4, 2, 2, .early⟩ 400).num = 356 * (noteScore ⟨32, 4, 2, 2, .early⟩ 400).den ∧
      (noteScore ⟨6, 2, 4, 8, .late⟩ 200).num = 61 * (noteScore ⟨6, 2, 4, 8, .late⟩ 200).den ∧
      (noteScore ⟨5, 0, 0, 1, .early⟩ 60).num = 52 * (noteScore ⟨5, 0, 0, 1, .early⟩ 60).den := by
  decide

/-- 8.6: 469 over 660 is 7106, and 417 over 600 is 6950. -/
theorem test_scores :
    scoreOf { Seat.reset (some 0) with weighted := ⟨469, 1⟩, durations := 660 } = 7106 ∧
      scoreOf { Seat.reset (some 0) with weighted := ⟨417, 1⟩, durations := 600 } = 6950 := by
  decide

/-! ## Stream records (10.5, 6.3) -/

/-- Table 10-6: a NOTE of part A, number 60, from 8,100 (1FA4h) to 8,400 (20D0h), a BEAT at 8,200 (2008h), and the end mark. -/
def noteThenBeat : List Byte :=
  [2#8, 1#8, 60#8, 0xA4#8, 0x1F#8, 0#8, 0xD0#8, 0x20#8, 0#8, 3#8, 8#8, 0x20#8, 0#8, 0#8]

theorem test_examine_note_and_beat :
    examine ⟨2, 0, 22, 14, 201000, 2⟩ noteThenBeat 0 = .record (.note 0 60 8100 8400) 9 ∧
      examine ⟨2, 0, 22, 14, 201000, 2⟩ noteThenBeat 9 = .record (.beat 8200) 13 ∧
      examine ⟨2, 0, 22, 14, 201000, 2⟩ noteThenBeat 13 = .endMark ∧
      examine ⟨2, 0, 22, 14, 201000, 2⟩ [4#8] 0 = .skipRest := by
  decide

/-- Table 10-6: a LINE of parts A and B with two glyphs, 16 and 258 (0102h), and one syllable over both from 1,000 (03E8h) to 2,000 (07D0h)
is 4 + 4 + 7 bytes; the same with a mask of part C is out of range for a song of two parts. -/
theorem test_examine_line :
    examine ⟨2, 0, 22, 14, 201000, 2⟩
        [1#8, 3#8, 2#8, 1#8, 16#8, 0#8, 2#8, 1#8, 2#8, 0xE8#8, 3#8, 0#8, 0xD0#8, 7#8, 0#8] 0 =
      .record (.line ⟨3, [16, 258], [⟨2, 1000, 2000⟩]⟩) 15 ∧
    (Record.line ⟨3, [16, 258], [⟨2, 1000, 2000⟩]⟩).bytes =
      [1#8, 3#8, 2#8, 1#8, 16#8, 0#8, 2#8, 1#8, 2#8, 0xE8#8, 3#8, 0#8, 0xD0#8, 7#8, 0#8] ∧
    examine ⟨2, 0, 22, 14, 201000, 2⟩
        [1#8, 4#8, 2#8, 1#8, 16#8, 0#8, 2#8, 1#8, 2#8, 0xE8#8, 3#8, 0#8, 0xD0#8, 7#8, 0#8] 0 = .skipRecord 15 := by
  decide

/-- Table 10-5: page 0 of song 58200 (E358h), edition 2, with 14 stream pages, 201,000 ms and two parts. -/
def headerRead : PageRead :=
  { erasedRead with
    sector0 := .coded 0 ([0x5C#8, 0x3A#8, 0x0E#8, 0x71#8, 0x58#8, 0xE3#8, 0#8, 2#8, 14#8, 0x28#8, 0x11#8, 3#8, 2#8] ++
      List.replicate 499 0#8) }

/-- 6.9 at 0.040: page 0 is the header, page 1 is granted and page 2 is requested. -/
def headed : State := { part := after (.streamFetchComplete 0 headerRead) staged, pending := [] }

theorem test_streamFetchComplete_header :
    headed.part.lib.die0.op = some ⟨.stream, 22, 1, [], false⟩ ∧ headed.part.lib.die0.waiting = [⟨.stream, 22, 2, [], false⟩] ∧
      headed.part.reader.buf0 = .requested 2 ∧ headed.part.play.state = .staging := by
  decide

/-- 6.9: a record of key 8,100 makes staging ready; HOLD is loaded with 20,000 ms, and the page's buffer requests page 3. -/
theorem test_streamFetchComplete_staging_ready :
    let t := after (.streamFetchComplete 0 { erasedRead with sector0 := .coded 0 (noteThenBeat ++ List.replicate 498 0#8) }) headed
    t.play.state = .holding ∧ t.play.hold = some 960000 ∧ (t.reader.notes.map QueuedNote.start) = [8100] ∧
      t.reader.beats = [8200] ∧ t.reader.buf1 = .requested 3 := by
  decide +kernel

/-! ## Witnesses: a state and operands that meet the hypotheses of each obligation, clause by clause -/

/-- The conditions of `Part.cueWf` as a check. -/
def cueCheck (p : Part) : Bool :=
  (p.play.entry.isSome == (p.play.state != .idle && p.play.state != .gap)) && (p.play.song.isSome == p.play.entry.isSome) &&
    (p.play.hold.isSome == (p.play.state == .holding)) && (p.play.gap.isSome == (p.play.state == .gap)) &&
    decide (p.book.entries.map Entry.ticket).Nodup &&
    match p.play.entry, p.book.entries with
    | none, entries => entries.all fun e => e.state == .waiting
    | some ticket, e :: rest =>
      e.ticket == ticket && (rest.all fun x => x.state == .waiting) &&
        e.state == if p.play.state = .staging ∨ p.play.state = .holding then .cued else .playing
    | some _, [] => false

/-- A part that passes the check meets `Part.cueWf`. -/
theorem cueWf_of_check {p : Part} (h : cueCheck p = true) : p.cueWf := by
  simp only [cueCheck, Bool.and_eq_true, beq_iff_eq, decide_eq_true_eq] at h
  obtain ⟨⟨⟨⟨⟨h1, h2⟩, h3⟩, h4⟩, h5⟩, h6⟩ := h
  refine ⟨⟨?_, h2, ?_, ?_⟩, h5, ?_⟩
  · rw [h1]; simp
  · rw [h3]; simp
  · rw [h4]; simp
  · revert h6
    cases p.play.entry with
    | none => simp
    | some ticket =>
      cases p.book.entries with
      | nil => simp
      | cons e rest =>
        intro h6
        simp only [Bool.and_eq_true, beq_iff_eq, List.all_eq_true] at h6
        exact ⟨e, rest, rfl, h6.1.1, h6.1.2, h6.2⟩

/-- A port that waits for a command, as the reset leaves it. -/
theorem ready_of_reset_port {p : Part} (h : p.port = Port.reset) : p.ready := by
  constructor <;> rw [h] <;> rfl

/-- Everything numbered is there. -/
theorem shaped_of_lengths {p : Part}
    (h : (p.slots.length, p.stores.length, p.scorer.seats.length, p.scorer.channels.length) = (16, 16, 4, 4)) : p.shaped := by
  simpa [Part.shaped, Config.slotCount] using h

/-- The conditions of `Book.wf` as a check. -/
theorem bookWf_of_check {b : Book}
    (h : (decide (b.entries.length ≤ 64) && decide (b.entries.map Entry.ticket).Nodup &&
      (b.entries.all fun e => ticketInRange e.ticket) && ticketInRange b.counter) = true) : b.wf := by
  simp only [Bool.and_eq_true, decide_eq_true_eq, List.all_eq_true] at h
  exact ⟨h.1.1.1, h.1.1.2, h.1.2, h.2⟩

theorem reset_ready : (at' id).part.ready := ready_of_reset_port rfl

/-- An answer waits. -/
def answering : State := at' fun p => p.answer 1#8 .ok []

/-- A READ select has left seven bytes in the record of SDO. -/
def afterRead : State := { part := after (.readSelect 7) (at' id), pending := [] }

/-- R173: the WRITE select of IDENTIFY leaves nothing of the READ before it on SDO, and FFh stands in every byte. -/
theorem test_writeSelect_holds_sdo_at_FFh :
    afterRead.part.sdoByte 1 = 0#8 ∧ afterRead.part.sdoByte 0 = 0xFF#8 ∧ afterRead.part.sdoByte 8 = 0xFF#8 ∧
      (after (.identify 0#8 []) afterRead).port.sdo = [] ∧ (after (.identify 0#8 []) afterRead).sdoByte 1 = 0xFF#8 := by
  decide +kernel

/-- A LOOK UP SONG is in hand. -/
def executing : State := at' fun p => (running ⟨.lookupPort, 6, 0, [], false⟩ p).finish 7#8 (.executing 30301)

/-! ### Selects, frames and the port -/

theorem witness_StepTakesFrontCommand :
    ({ State.reset with pending := [.mount 0#8 [], .pollSent] } : State).pending = .mount 0#8 [] :: [.pollSent] ∧
      State.reset.pending = [] := by
  decide

theorem witness_SelectsJudged :
    ((none : Option Byte) ≠ some 0x3C#8 ∧ (none : Option Byte) ≠ some 0xC3#8 ∧ (at' id).part.port.ignoreSelect = false) ∧
      (at' id).part.ready ∧ (([] : List Byte).length < 6 ∧ 2112 < (List.replicate 2113 0#8).length) ∧
      u16At [7#8, 0#8, 0x21#8, 9#8, 0xA7#8, 7#8] 0 ≠ [7#8, 0#8, 0x21#8, 9#8, 0xA7#8, 7#8].length ∧
      ([6#8, 0#8, 0x21#8, 9#8, 0xA7#8, 6#8] : List Byte).drop 4 ≠ crcBytes ([6#8, 0#8, 0x21#8, 9#8, 0xA7#8, 6#8].take 4) ∧
      ((0 : Nat) = 0 ∨ 0x26 ≤ 0) ∧ (0x26 < 256 ∧ 0x26 ≤ 0x26) ∧ (255 < 256 ∧ 0x26 ≤ 255) ∧
      (List.replicate 2106 0#8 : List Byte).length ≤ 2106 ∧
      ((Instr.identify 0#8 []).commandFrame.isSome = true ∧ ∃ t, exec (.identify 0#8 []) afterRead = .next t) :=
  ⟨by decide, reset_ready, by decide +kernel, by decide, by decide +kernel, by decide, by decide, by decide, by decide +kernel,
    by decide, _, rfl⟩

theorem witness_CollisionIsRecorded :
    (answering.part.port.ignoreSelect = false ∧ answering.part.port.state ≠ .idle) ∧
      (executing.part.port.ignoreSelect = false ∧ executing.part.port.state ≠ .idle) ∧
      (Instr.badFrame [] = .badFrame [] ∧ (Instr.mount 0#8 []).commandFrame.isSome = true) ∧
      (answering.part.port.state = .answerReady ∧ answering.part.port.answer = some ⟨1#8, .ok, []⟩ ∧
        ([] : List Byte).length + 7 ≤ 7) := by
  decide

theorem witness_ReadSelectSendsAnswer :
    (answering.part.port.ignoreSelect = false ∧ answering.part.port.state = .answerReady ∧
      answering.part.port.answer = some ⟨1#8, .ok, []⟩) ∧ ([] : List Byte).length + 7 ≤ 7 ∧ 6 < ([] : List Byte).length + 7 ∧
      (at' id).part.port.state ≠ .answerReady ∧ executing.part.port.state ≠ .answerReady := by
  decide

/-- R189: EDIT REQUEST with a number outside its list, a pair cut short or a number twice, INSTALL BEGIN with a tag of 13 bytes or a code cut short, and
ADD REQUEST with another value in the flag's place are refused BAD FORM. -/
theorem test_ill_formed_bodies :
    answerTo (.editRequest 0#8 [53#8, 0#8, 4#8, 1#8]) staged = refusal 1 ∧
      answerTo (.editRequest 0#8 [53#8, 0#8, 1#8, 1#8, 2#8]) staged = refusal 1 ∧
      answerTo (.editRequest 0#8 [53#8, 0#8, 1#8, 1#8, 1#8, 1#8]) staged = refusal 1 ∧
      answerTo (.installBegin 0#8 (installOf66100 ++ [0#8])) (at' mounted) = refusal 1 ∧
      answerTo (.installBegin 0#8 (installOf66100.take 8 ++ 13#8 :: List.replicate 15 0#8)) (at' mounted) = refusal 1 ∧
      answerTo (.addRequest 0#8 [0xD1#8, 0x9D#8, 0#8, 1#8, 0#8, 0#8, 2#8]) (at' sixSongs) = refusal 1 ∧
      answerTo (.libraryStatus 0#8 [2#8]) (at' mounted) = refusal 1 ∧ answerTo (.handsetTable 0#8 [1#8, 1#8]) (at' id) = refusal 1 := by
  decide

theorem witness_WrongLengthIsBadForm :
    ((at' id).part.ready ∧ (Instr.identify 5#8 [1#8]).commandFrame = some ⟨33, 5#8, [1#8]⟩ ∧ fixedParams 33 = some 0 ∧
        ([1#8] : List Byte).length ≠ 0) ∧
      (([0#8, 0#8, 0#8, 0#8, 0#8] : List Byte).length ≠ 6 ∧
        (∀ body : List Byte, [0#8, 0#8, 0#8, 0#8, 0#8] = body ++ [1#8] → body.length ≠ 6) ∧
        ([0#8, 0#8, 0#8, 0#8, 0#8, 0#8, 2#8] : List Byte).length ≠ 6 ∧
        ∀ body : List Byte, [0#8, 0#8, 0#8, 0#8, 0#8, 0#8, 2#8] = body ++ [1#8] → body.length ≠ 6) ∧
      (([2#8] : List Byte) ≠ [] ∧ ([2#8] : List Byte) ≠ [1#8] ∧ ([1#8, 1#8] : List Byte) ≠ [1#8]) ∧
      (¬∃ (t0 t1 : Byte) (pairs : List (Byte × Byte)), (pairs.map Prod.fst).Nodup ∧ (∀ x ∈ pairs, x.1 ∈ [1#8, 2#8, 3#8]) ∧
          [53#8, 0#8, 4#8, 1#8] = t0 :: t1 :: pairs.flatMap fun x => [x.1, x.2]) ∧
      ¬∃ (fixed title artist : List Byte) (codes : List (Byte × Byte)), fixed.length = 8 ∧ title.length ≤ 12 ∧ artist.length ≤ 12 ∧
          codes.length ≤ 255 ∧ (List.replicate 10 0#8 : List Byte) =
            fixed ++ tagBytes title ++ tagBytes artist ++ u8 codes.length ++ codes.flatMap fun x => [x.1, x.2] := by
  refine ⟨⟨reset_ready, rfl, rfl, by decide⟩, ⟨by decide, fun body h => ?_, by decide, fun body h => ?_⟩, by decide, ?_, ?_⟩
  · have := congrArg List.length h
    simp at this
    omega
  · have := congrArg List.getLast? h
    simp at this
  · rintro ⟨t0, t1, pairs, -, hlist, heq⟩
    match pairs with
    | [] => simp at heq
    | x :: rest =>
      simp only [List.flatMap_cons, List.cons_append, List.cons.injEq] at heq
      have := hlist x (by simp)
      rw [← heq.2.2.1] at this
      exact absurd this (by decide)
  · rintro ⟨fixed, title, artist, codes, hfixed, -, -, -, heq⟩
    have := congrArg List.length heq
    simp [tagBytes, u8, hfixed] at this
    omega

theorem witness_CommandFrameRoundTrip : 255 < 256 ∧ (List.replicate 2106 0#8 : List Byte).length ≤ 2106 := by
  decide +kernel

theorem witness_FrameActsAsItsCommand :
    (Instr.mount 5#8 []).commandFrame = some ⟨12, 5#8, []⟩ ∧ (Instr.mount 5#8 []).wellFormed = true := by
  decide

theorem witness_StepKeepsPort :
    State.reset.part.port.wf ∧ ∃ t, step { State.reset with pending := [.pollSent] } = .next t :=
  ⟨by constructor <;> decide, _, rfl⟩

theorem witness_IdentifyAnswers : (at' id).part.ready := reset_ready

/-- Only VIDEO is pending and unmasked; then every source. -/
theorem witness_ReadAttentionAndMask :
    (at' fun p => { p with attn := ⟨{ SourceSet.none with video := true }, { SourceSet.none with video := true }⟩ }).part.ready ∧
      ((⟨{ SourceSet.none with video := true }, { SourceSet.none with video := true }⟩ : Attention).pending.get .video = true ∧
        (∀ other, sourceCode (some other) < sourceCode (some .video) →
          ¬(({ SourceSet.none with video := true } : SourceSet).get other = true ∧
            ({ SourceSet.none with video := true } : SourceSet).get other = true))) ∧
      (∀ other, ¬sourceCode (some other) < sourceCode (some .library)) ∧
      (∀ src, ¬((at' id).part.attn.pending.get src = true ∧ (at' id).part.attn.unmasked.get src = true)) ∧
      ∃ b ∈ ([3#8] : List Byte), b ≠ 1#8 ∧ b ≠ 2#8 :=
  ⟨ready_of_reset_port rfl, ⟨rfl, fun other h => by cases other <;> revert h <;> decide⟩,
    fun other => by cases other <;> decide, fun src => by cases src <;> decide, 3#8, by decide, by decide⟩

theorem staged_ready : staged.part.ready := ready_of_reset_port (by decide)

/-- Line-enable is off and the line is OFF; the line is BROKEN. -/
def lineOff (p : Part) : Part :=
  { p with settings := { p.settings with lineEnable := false }, line := { p.line with state := .off, tx := none } }
def lineBroken (p : Part) : Part := (window p).breakLine

theorem witness_ConfigureWritesSettings :
    ((at' id).part.ready ∧ configParams (at' id).part.settings [2#8, 8#8] = some { Settings.reset with quota := 8 } ∧
        ({ Settings.reset with quota := 8 } : Settings).videoFormat = (at' id).part.settings.videoFormat ∧
        ({ Settings.reset with quota := 8 } : Settings).lineEnable = (at' id).part.settings.lineEnable) ∧
      (configParams (at' id).part.settings [11#8, 1#8] = some { Settings.reset with videoFormat := .hd50 } ∧
        (at' id).part.play.state = .idle ∧ (at' id).part.lyric.path = .pass) ∧
      (staged.part.ready ∧ configParams staged.part.settings [11#8, 4#8] = some { Settings.reset with videoFormat := .full60 } ∧
        ({ Settings.reset with videoFormat := .full60 } : Settings).videoFormat ≠ staged.part.settings.videoFormat ∧
        staged.part.play.state ≠ .idle ∧ staged.part.play.state ≠ .gap) ∧
      (configParams (at' id).part.settings [6#8, 0#8] = some { Settings.reset with lineEnable := false } ∧
        (at' id).part.line.state = .running ∧ (at' id).part.settings.lineEnable = true) ∧
      ((at' lineBroken).part.ready ∧ (at' lineBroken).part.settings = Settings.reset ∧ (at' lineBroken).part.line.state = .broken) ∧
      ((at' lineOff).part.ready ∧ configParams (at' lineOff).part.settings [6#8, 1#8] = some Settings.reset ∧
        (at' lineOff).part.line.state = .off) ∧
      configParams (at' id).part.settings [12#8, 0#8] = none ∧ (1 ≤ 8 ∧ 8 ≤ 8) ∧
      ((0#8).toNat = 0 ∧ 13 < (14#8).toNat) :=
  ⟨⟨reset_ready, by decide⟩, by decide, ⟨staged_ready, by decide⟩, by decide, ⟨ready_of_reset_port rfl, by decide⟩,
    ⟨ready_of_reset_port rfl, by decide⟩, by decide, by decide, by decide⟩

theorem staged_cueWf : staged.part.cueWf := cueWf_of_check (by decide)

theorem playing_ready : (playing 6000 0).part.ready := ready_of_reset_port (by decide)

theorem playing_cueWf : (playing 6000 0).part.cueWf := cueWf_of_check (by decide)

/-- OPEN CLAIMS is off. -/
def claimsClosed (p : Part) : Part := { p with settings := { p.settings with openClaims := false } }

/-- A frame has begun in the turn in progress. -/
def frameBegun (p : Part) : Part := { p with line := { p.line with rx := [charOf 0xC5#8], rxClass := .byTurn, reply := none } }

/-- R187, R36: CLEAR ROOM in a poll turn: the claim window of the round opens, or an idle interval runs; the frame that has begun ends as a
stray frame. -/
theorem test_clearRoom_abandons_turn :
    let t := (after (.clearRoom 0#8 []) (at' fun p => frameBegun (turnTo 5 none (threeSongs p)))).line
    let u := (after (.clearRoom 0#8 []) (at' fun p => claimsClosed (turnTo 5 none (threeSongs p)))).line
    (t.turn, t.reply, t.round, t.rx, t.rxClass) = (.claimWindow, none, 1, [charOf 0xC5#8], .stray) ∧
      (u.turn, u.reply, u.round) = (.idleInterval, some 192, 2) := by
  decide

theorem witness_ClearRoomEndsSession :
    ((playing 6000 0).part.ready ∧ (playing 6000 0).part.cueWf ∧ (playing 6000 0).part.line.turn = .claimWindow) ∧
      ((at' (turnTo 16 none)).part.ready ∧ (at' (turnTo 16 none)).part.cueWf ∧ (at' (turnTo 16 none)).part.line.turn = .poll 16 none ∧
        (at' (turnTo 16 none)).part.settings.openClaims = true) ∧
      let closed := (at' fun p => frameBegun (claimsClosed (turnTo 1 none p))).part
      closed.ready ∧ closed.cueWf ∧ closed.line.turn = .poll 1 none ∧ closed.settings.openClaims = false ∧ closed.line.rx ≠ [] :=
  ⟨⟨playing_ready, playing_cueWf, by decide⟩, ⟨ready_of_reset_port rfl, cueWf_of_check (by decide), by decide⟩,
    ready_of_reset_port rfl, cueWf_of_check (by decide), by decide⟩

/-! ### The Request Book -/

/-- A book with 63 entries whose counter stands at the last ticket. -/
def fullBut1 : Book :=
  { entries := (List.range 63).map fun i => waiting (65535 - i) 10101 .desk 0, counter := 65535, hold := true, lastStrike := none,
    strikeCount := 0 }

theorem witness_IssuedTicketIsFresh :
    (fullBut1.wf ∧ fullBut1.entries.length < 64 ∧ ∀ e ∈ Book.reset.entries, e.ticket ≠ Book.reset.counter) ∧
      (at' sixSongs).part.addCheck ⟨.desk, 40401, 1, 0, 0, false⟩ = none :=
  ⟨⟨bookWf_of_check (by decide), by decide, by decide⟩, by decide⟩

theorem witness_BaseRoundAndSimplePlaces :
    (∀ x ∈ [waiting 2 10101 .desk 0], x.state = .waiting) ∧
      ∀ x ∈ ([{ waiting 1 10101 .desk 0 with state := .cued }, waiting 2 10101 .desk 0] : List Entry).drop 1, x.state = .waiting := by
  decide

theorem witness_RotationPlacesByRound :
    (∀ e ∈ [waiting 2 10101 .desk 65535], e.origin ≠ .slot 16) ∧
      (∃ e ∈ [waiting 2 10101 .desk 65535], e.origin = .desk ∧ e.round = 65535) ∧
      ∀ e ∈ [waiting 2 10101 .desk 65535], e.origin = .desk → e.round ≤ 65535 := by
  decide

theorem reset_shaped : (at' id).part.shaped := shaped_of_lengths rfl

theorem witness_PositionFlagsFollowMoves :
    ((at' id).part.shaped ∧ (1 ≤ 1 ∧ 1 ≤ 16) ∧ 1 ≤ 16 ∧ 16 ≤ 16) ∧
      slotMoved [waiting 1 10101 (.slot 2) 0] [waiting 7 10101 .desk 0, waiting 1 10101 (.slot 2) 0] 2 = true ∧
      slotMoved [waiting 1 10101 (.slot 2) 0] [waiting 1 10101 (.slot 2) 0, waiting 7 10101 .desk 0] 2 = false :=
  ⟨⟨reset_shaped, by decide, by decide, by decide⟩, by decide, by decide⟩

theorem sixSongs_bookWf : (at' sixSongs).part.book.wf := bookWf_of_check (by decide)

theorem witness_AddRequestAddsEntry :
    (at' sixSongs).part.ready ∧ (at' sixSongs).part.book.wf ∧
      addParams [0xD1#8, 0x9D#8, 0#8, 4#8, 7#8, 0xFB#8, 1#8] = some ⟨40401, 4, 7, -5, true⟩ ∧
      (at' sixSongs).part.addCheck ⟨.desk, 40401, 4, 7, -5, true⟩ = none :=
  ⟨ready_of_reset_port (by decide), sixSongs_bookWf, by decide, by decide⟩

/-- A book of 64 entries. -/
def fullBook (p : Part) : Part := booked ((List.range 64).map fun i => waiting (i + 1) 10101 .desk 0) 65 (active [(1, 0)] (mounted p))

theorem witness_AddChecksInOrder :
    (¬(1 ≤ 0 ∧ 0 ≤ 999999) ∧ 1 ≤ 999999 ∧ 999999 ≤ 999999 ∧ -7 ≤ (-7 : Int) ∧ (-5 : Int) ≤ -5) ∧
      (at' id).part.lib.state ≠ .mounted ∧
      ((at' mounted).part.lib.state = .mounted ∧ (at' mounted).part.catEntry 999999 = none) ∧
      (((at' mounted).part.mapCatEntry 10101 fun e => { e with state := .withdrawing }).catEntry 10101 =
          some { songAt 10101 1 with state := .withdrawing } ∧ CatState.withdrawing ≠ .ready) ∧
      ((at' fullBook).part.catEntry 10101 = some (songAt 10101 1) ∧ (songAt 10101 1).state = .ready ∧
        64 ≤ (at' fullBook).part.book.entries.length) ∧
      ((at' threeSongs).part.book.entries.length < 64 ∧ (at' threeSongs).part.settings.quota ≤ ((at' threeSongs).part.slot 2).live ∧
        ((at' threeSongs).part.slot 9).live < (at' threeSongs).part.settings.quota ∧
        ¬∃ e ∈ (at' threeSongs).part.book.entries, e.origin = .slot 9 ∧ e.song = 10101) ∧
      (((at' sixSongs).part.slot 9).live < (at' sixSongs).part.settings.quota ∧
        ∃ e ∈ (at' sixSongs).part.book.entries, e.origin = .slot 9 ∧ e.song = 30301) := by
  decide

/-- Ticket 52 is CUED, 53 is WAITING and 9 is not live. -/
theorem witness_CancelRequestByState :
    (staged.part.ready ∧ staged.part.cueWf ∧ staged.part.entry (ofU16 9#8 0#8) = none) ∧
      ((staged.part.entry (ofU16 52#8 0#8)).map Entry.state = some .cued ∧
        (staged.part.entry (ofU16 53#8 0#8)).map Entry.state = some .waiting) ∧
      ((playing 6000 0).part.ready ∧ (playing 6000 0).part.cueWf ∧
        ((playing 6000 0).part.entry (ofU16 52#8 0#8)).map Entry.state = some .playing) :=
  ⟨⟨staged_ready, staged_cueWf, by decide⟩, by decide, playing_ready, playing_cueWf, by decide⟩

theorem witness_EditRequestWritesFields :
    (staged.part.ready ∧ editParams [52#8, 0#8] = some ⟨52, none, none, none⟩ ∧ editInRange ⟨52, none, none, none⟩ = false) ∧
      (editParams [9#8, 0#8, 1#8, 7#8] = some ⟨9, some 7, none, none⟩ ∧ editInRange ⟨9, some 7, none, none⟩ = true ∧
        staged.part.entry 9 = none) ∧
      (editParams [52#8, 0#8, 2#8, 5#8] = some ⟨52, none, some 5, none⟩ ∧ editInRange ⟨52, none, some 5, none⟩ = true ∧
        (staged.part.entry 52).map Entry.state = some .cued) ∧
      (editParams [53#8, 0#8, 1#8, 0xF9#8, 3#8, 4#8] = some ⟨53, some (-7), none, some 4⟩ ∧
        editInRange ⟨53, some (-7), none, some 4⟩ = true ∧ (staged.part.entry 53).map Entry.state = some .waiting) :=
  ⟨⟨staged_ready, by decide, by decide⟩, by decide, by decide, by decide⟩

theorem threeSongs_cueWf : (at' threeSongs).part.cueWf := cueWf_of_check (by decide)

theorem threeSongs_ready : (at' threeSongs).part.ready := ready_of_reset_port (by decide)

theorem witness_PlaceRequestMovesEntry :
    ((at' threeSongs).part.ready ∧ (at' threeSongs).part.cueWf ∧ (0#8).toNat < 1 ∧ 64 < (65#8).toNat) ∧
      (1 ≤ (64#8).toNat ∧ (64#8).toNat ≤ 64 ∧ (at' threeSongs).part.entry (ofU16 9#8 0#8) = none) ∧
      (staged.part.ready ∧ staged.part.cueWf ∧ (staged.part.entry (ofU16 52#8 0#8)).any (fun e => e.state != .waiting) = true) ∧
      (((at' threeSongs).part.entry (ofU16 3#8 0#8)).map Entry.state = some .waiting ∧
        (waitingEntries (at' threeSongs).part.book.entries).length < (4#8).toNat ∧
        positionOf (at' threeSongs).part.book.entries 3 = some (3#8).toNat ∧
        (3#8).toNat ≤ (waitingEntries (at' threeSongs).part.book.entries).length ∧
        positionOf (at' threeSongs).part.book.entries 3 ≠ some (1#8).toNat) :=
  ⟨⟨threeSongs_ready, threeSongs_cueWf, by decide, by decide⟩, by decide,
    ⟨staged_ready, staged_cueWf, by decide⟩, by decide⟩

theorem witness_ReadAndHoldBook : (at' threeSongs).part.ready ∧ (2#8) ≠ 0#8 ∧ (2#8) ≠ 1#8 :=
  ⟨threeSongs_ready, by decide, by decide⟩

/-! ### The handset line and its messages -/

/-- A frame is being received in an open window, slot 5 ACTIVE. -/
def receivingInWindow (p : Part) : Part := frameBegun (window (active [(5, 0)] p))

/-- R37, R46: OPEN CLAIMS off closes the window with no GRANT: the next round's POLL falls due, and the frame that has begun will be a stray frame; with
no slot to serve REPLY runs for an idle interval. -/
theorem test_openClaims_off_in_window :
    let t := (after (.openClaims 0#8 [0#8]) (at' receivingInWindow)).line
    let u := (after (.openClaims 0#8 [0#8]) (at' window)).line
    (t.turn, t.reply, t.rx, t.rxClass, t.tx.map TxFrame.kind) = (.poll 5 none, none, [charOf 0xC5#8], .stray, some .poll) ∧
      (u.turn, u.reply, u.tx) = (.idleInterval, some 192, none) := by
  decide

theorem witness_LineReportsAndClaims :
    (at' id).part.ready ∧ (0#8) ≠ 1#8 ∧ (at' id).part.line.turn = .claimWindow ∧
      ((at' (turnTo 3 none)).part.ready ∧ (at' (turnTo 3 none)).part.line.turn ≠ .claimWindow) ∧ ((2#8) ≠ 0#8 ∧ (2#8) ≠ 1#8) ∧
      ((at' id).part.sending = true ∧ (at' receivingInWindow).part.sending = false ∧ (at' receivingInWindow).part.ready ∧
        (at' receivingInWindow).part.line.turn = .claimWindow ∧ (at' receivingInWindow).part.line.rx ≠ []) :=
  ⟨reset_ready, by decide, rfl, ⟨ready_of_reset_port rfl, by decide⟩, by decide, by decide, by decide, ready_of_reset_port rfl, rfl,
    by decide⟩

/-- A slot in a state. -/
def slotIn (n : Nat) (state : SlotState) (p : Part) : Part := (active [(n, 0)] p).mapSlot n fun x => { x with state := state }

theorem slotIn_meets (n : Nat) (h : n = 1 ∨ n = 16) (state : SlotState) :
    (at' (slotIn n state)).part.ready ∧ (at' (slotIn n state)).part.shaped ∧ (at' (slotIn n state)).part.cueWf ∧
      ((at' (slotIn n state)).part.slot n).state = state := by
  rcases h with rfl | rfl <;>
    exact ⟨ready_of_reset_port rfl, shaped_of_lengths rfl, cueWf_of_check (by cases state <;> decide), rfl⟩

/-- A poll turn of slot n, these slots ACTIVE. -/
def serving (n : Nat) (slots : List (Nat × Nat)) (p : Part) : Part := turnTo n none (active slots p)

/-- R36: BAR HANDSET and RELEASE HANDSET of the slot being served: the next slot above it is served, or the window of the round opens, or with claims
closed the next round starts; of another slot, the turn goes on. -/
theorem test_departed_slot_leaves_its_turn :
    (after (.barHandset 0#8 [3#8]) (at' fun p => frameBegun (serving 3 [(3, 0), (7, 0), (9, 0)] p))).line.turn = .poll 7 none ∧
      (after (.barHandset 0#8 [3#8]) (at' fun p => frameBegun (serving 3 [(3, 0), (7, 0), (9, 0)] p))).line.rxClass = .stray ∧
      (after (.releaseHandset 0#8 [3#8]) (at' fun p => serving 3 [(1, 0), (3, 0)] p)).line.turn = .claimWindow ∧
      (after (.releaseHandset 0#8 [3#8]) (at' fun p => claimsClosed (serving 3 [(1, 0), (3, 0)] p))).line.turn = .poll 1 none ∧
      (after (.releaseHandset 0#8 [3#8]) (at' fun p => claimsClosed (serving 3 [(1, 0), (3, 0)] p))).line.round = 2 ∧
      (after (.barHandset 0#8 [7#8]) (at' fun p => serving 3 [(3, 0), (7, 0)] p)).line.turn = .poll 3 none := by
  decide

theorem witness_turnLeaves :
    (let p := (at' fun p => serving 1 [(1, 0), (16, 0)] p).part
     p.ready ∧ p.shaped ∧ p.cueWf ∧ (p.slot 1).state = .active ∧ p.line.turn = .poll 1 none ∧ p.line.lastServed < 16 ∧
       p.served 16 = true ∧ (∀ m, p.line.lastServed < m → m < 16 → m ≠ 1 → p.served m = false) ∧
       ∀ carried, p.line.turn ≠ .poll 16 carried) ∧
      (let p := (at' fun p => serving 16 [(16, 0)] p).part
       p.ready ∧ p.shaped ∧ p.cueWf ∧ (p.slot 16).state = .active ∧ p.line.turn = .poll 16 none ∧ p.settings.openClaims = true ∧
         ∀ n, p.line.lastServed < n → n ≤ 16 → n ≠ 16 → p.served n = false) ∧
      (let p := (at' fun p => claimsClosed (serving 16 [(16, 0)] p)).part
       p.ready ∧ p.shaped ∧ p.cueWf ∧ (p.slot 16).state = .active ∧ p.line.turn = .poll 16 none ∧ p.settings.openClaims = false ∧
         p.line.lastServed ≠ 0 ∧ ∀ n, p.line.lastServed < n → n ≤ 16 → n ≠ 16 → p.served n = false) := by
  have h16 : ∀ n, 16 < n → n ≤ 16 → n ≠ 16 → ∀ p : Part, p.served n = false := fun n h1 h2 => by omega
  refine ⟨⟨ready_of_reset_port rfl, shaped_of_lengths rfl, cueWf_of_check (by decide), by decide, rfl, by decide, by decide, ?_, ?_⟩,
    ⟨ready_of_reset_port rfl, shaped_of_lengths rfl, cueWf_of_check (by decide), by decide, rfl, by decide,
      fun n h1 h2 h3 => h16 n h1 h2 h3 _⟩,
    ready_of_reset_port rfl, shaped_of_lengths rfl, cueWf_of_check (by decide), by decide, rfl, by decide, by decide,
      fun n h1 h2 h3 => h16 n h1 h2 h3 _⟩
  · intro m h1 h2 _
    have hm : 1 < m := h1
    interval_cases m <;> rfl
  · intro carried h
    injection h with h
    exact absurd h (by decide)

theorem witness_BarAndReleaseHandset :
    ((0#8).toNat < 1 ∧ 16 < (17#8).toNat) ∧ (1 ≤ (1#8).toNat ∧ (1#8).toNat ≤ 16) ∧ (1 ≤ (16#8).toNat ∧ (16#8).toNat ≤ 16) ∧
      ∀ n state, n = 1 ∨ n = 16 →
        (at' (slotIn n state)).part.ready ∧ (at' (slotIn n state)).part.shaped ∧ (at' (slotIn n state)).part.cueWf ∧
          ((at' (slotIn n state)).part.slot n).state = state :=
  ⟨by decide, by decide, by decide, fun n state h => slotIn_meets n h state⟩

/-- A part whose next round is round 0. -/
def beforeFullRound (p : Part) : Part := { p with line := { p.line with round := 7 } }

/-- Slot 16's store with everything in it, and with the cued notice of a ticket that is in play no more. -/
def fullStore (reply : ReplySlot) (struck : List StruckItem) (cued : Option Nat) (score : Option ScoreNotice) (p : Part) : Part :=
  p.mapStore 16 fun _ => { reply := reply, struck := struck, cued := cued, score := score, position := .set }

/-- R54: the reply first, then the oldest STRUCK item, the cued notice of the entry in play, the score notice and the POSITION item. -/
theorem test_offer_in_order :
    ((fullStore (.held (.dropped 1)) [⟨2, .skipped⟩] (some 52) (some ⟨9, 0, 7⟩) staged.part).offer 16).2 = (some .reply, [1#8, 4#8, 0#8, 1#8, 0#8]) ∧
      ((fullStore .waiting [⟨2, .skipped⟩, ⟨3, .left⟩] (some 52) none staged.part).offer 16).2 =
        (some (.struck true), [2#8, 2#8, 0#8, 4#8]) ∧
      ((fullStore .empty [] (some 52) (some ⟨9, 0, 7⟩) staged.part).offer 16).2 = (some (.cued 52), [3#8, 52#8, 0#8]) ∧
      ((fullStore .empty [] (some 51) (some ⟨9, 0, 7⟩) staged.part).offer 16).2 =
        (some (.score ⟨9, 0, 7⟩), [4#8, 9#8, 0#8, 0#8, 7#8, 0#8]) ∧
      ((fullStore .empty [] (some 51) none staged.part).offer 16).2 = (some .position, [5#8, 0#8]) ∧
      (((fullStore .empty [] (some 51) none staged.part).offer 16).1.store 16) = { Store.empty with position := .sent } := by
  decide

theorem witness_RoundStartsAtLowestSlot :
    ((at' (slotIn 1 .active)).part.slot 1).state = .active ∧
      (((at' fun p => beforeFullRound (slotIn 16 .silent p)).part.slot 16).state = .silent ∧
        ((at' fun p => beforeFullRound (slotIn 16 .silent p)).part.line.round + 1) % 8 = 0 ∧
        ∀ n, 1 ≤ n → n < 16 → ((at' fun p => beforeFullRound (slotIn 16 .silent p)).part.slot n).state = .free) ∧
      (∀ n, 1 ≤ n → n ≤ 16 → ((at' id).part.slot n).state = .free) ∧
      ((at' id).part.sending = true ∧ (at' window).part.sending = false) ∧
      ((at' id).part.settings.openClaims = true ∧
        (at' fun p => { p with settings := { p.settings with openClaims := false } }).part.settings.openClaims = false) ∧
      (staged.part.shaped ∧ (heldEntry staged.part.book.entries).map Entry.ticket = some 52 ∧
        (fullStore (.held (.dropped 1)) [] none none staged.part).store 16 = ⟨.held (.dropped 1), [], none, none, .set⟩ ∧
        (fullStore .waiting [⟨2, .skipped⟩] none none staged.part).store 16 = ⟨.waiting, [⟨2, .skipped⟩], none, none, .set⟩ ∧
        (fullStore .empty [] (some 52) none staged.part).store 16 = ⟨.empty, [], some 52, none, .set⟩ ∧
        (fullStore .empty [] (some 51) (some ⟨9, 0, 7⟩) staged.part).store 16 = ⟨.empty, [], some 51, some ⟨9, 0, 7⟩, .set⟩ ∧
        staged.part.store 16 = Store.empty) := by
  refine ⟨by decide, ⟨by decide, by decide, ?_⟩, ?_, by decide, by decide, shaped_of_lengths (by decide), by decide, by decide,
    by decide, by decide, by decide, by decide⟩
  · intro n h1 h2; interval_cases n <;> rfl
  · intro n h1 h2; interval_cases n <;> rfl

/-- A POLL to slot 16, or a GRANT, is going out. -/
def pollOut (p : Part) : Part := (turnTo 16 none p).sendFrame { kind := .poll, address := 16, body := [] }
def grantOut (p : Part) : Part := { p with line := { p.line with turn := .none, tx := some { kind := .grant, address := 0, body := [] } } }

theorem witness_SentFramesLoadReply :
    ((at' pollOut).part.line.state = .running ∧ (at' pollOut).part.line.rx = [] ∧ (at' pollOut).part.line.txNext = none ∧
        (at' pollOut).part.line.tx = some ⟨.poll, 16, []⟩ ∧ (at' pollOut).part.line.turn = .poll 16 none) ∧
      ((at' id).part.line.tx = some ⟨.openWindow, 31, []⟩ ∧ (at' id).part.line.turn = .claimWindow ∧
        (at' id).part.line.txNext = none) ∧
      ((at' grantOut).part.line.tx = some ⟨.grant, 0, []⟩ ∧ (at' grantOut).part.line.turn = .none ∧
        (at' grantOut).part.line.txNext = none) := by
  decide

/-- Slots 1 and 16 in their turns. -/
def turnAt (n : Nat) (carried : Option Carried) (p : Part) : Part := turnTo n carried (slotIn n .active p)

theorem turnAt_meets (n : Nat) (h : n = 1 ∨ n = 16) (carried : Option Carried) :
    (at' (turnAt n carried)).part.inTurn n carried ∧ (at' (turnAt n carried)).part.shaped := by
  rcases h with rfl | rfl <;> exact ⟨⟨rfl, rfl, rfl, rfl⟩, shaped_of_lengths rfl⟩

theorem witness_CharacterStopsReply :
    (∀ n, n = 1 ∨ n = 16 → (at' (turnAt n none)).part.inTurn n none ∧ (at' (turnAt n none)).part.shaped) ∧
      ((at' id).part.line.rx = [] ∧ (at' id).part.line.tx.isSome = true) ∧
      ((at' fun p => { p with line := { p.line with state := .off } }).part.line.state ≠ .running) :=
  ⟨fun n h => turnAt_meets n h none, by decide, by decide⟩

/-- A claim window in which a frame is being received. -/
def receiving (p : Part) : Part := { window p with line := { (window p).line with rx := [charOf 0#8], rxClass := .byTurn } }

/-- An idle interval. -/
def idle (p : Part) : Part := { p with line := { p.line with turn := .idleInterval, tx := none, reply := some 192 } }

theorem witness_MissesAreCounted :
    ((at' fun p => soon (turnAt 16 none p)).part.line.state = .running ∧
        lastTick (at' fun p => soon (turnAt 16 none p)).part.line.reply = true ∧
        (at' fun p => soon (turnAt 16 none p)).part.line.turn = .poll 16 none ∧
        ((at' fun p => soon (turnAt 16 none p)).part.slot 16).state = .active) ∧
      (lastTick (at' fun p => soon (window p)).part.line.reply = true ∧
        (at' fun p => soon (window p)).part.line.turn = .claimWindow ∧ (at' fun p => soon (window p)).part.line.rx = []) ∧
      (lastTick (at' fun p => soon (receiving p)).part.line.reply = true ∧
        (at' fun p => soon (receiving p)).part.line.turn = .claimWindow ∧ (at' fun p => soon (receiving p)).part.line.rx ≠ []) ∧
      (lastTick (at' fun p => soon (idle p)).part.line.reply = true ∧
        (at' fun p => soon (idle p)).part.line.turn = .idleInterval) ∧
      (lastTick (at' idle).part.line.reply = false ∧ lastTick (at' id).part.line.reply = false) ∧
      (1 ≤ [charOf 0#8].length ∧ (List.replicate 47 (charOf 0#8)).length ≤ 47 ∧ parseFrame [charOf 0#8] = none ∧
        parseFrame (List.replicate 47 (charOf 0#8)) = none) := by
  decide

/-- Slots 1 and 16 with a reply that waits. -/
def replyHeld (n : Nat) (p : Part) : Part := (turnAt n none p).mapStore n fun x => { x with reply := .held (.dropped 1) }

/-- An EMPTY ANSWER of slot 6 has arrived but for its idle gap. It began in the idle interval, and the turn of slot 6 has begun since, its
POLL waiting for the frame to end. -/
def underWay (p : Part) : Part :=
  let p := (active [(6, 1)] p).mapSlot 6 fun x => { x with misses := 2 }
  { p with line := { p.line with
      turn := .poll 6 none, tx := some { kind := .poll, address := 6, body := [] }, lastServed := 6, rx := answerChars 6#8 [] } }

/-- The frame is classed as one that the turn at its end judges. -/
def underWayByTurn (p : Part) : Part := { underWay p with line := { (underWay p).line with rxClass := .byTurn } }

/-- R32: a frame is judged by the turn in progress at its end, though it began before that turn. -/
theorem test_frame_judged_by_the_turn_at_its_end :
    ((after (.answer 6#8 []) (at' underWayByTurn)).slot 6).misses = 0 ∧ (after (.answer 6#8 []) (at' underWayByTurn)).line.strays = 0 := by
  decide +kernel

/-- R32: a frame that begins in an idle interval with no REPLY expiry before it waits for the turn at its end. -/
theorem test_frame_begun_in_an_idle_interval :
    (after (.receivedCharacter (charOf 0xC5#8)) (at' idle)).line.rxClass = .byTurn ∧
      (after (.receivedCharacter (charOf 0xC5#8)) (at' idle)).line.reply = some 192 := by
  decide

theorem witness_AnswerIsTaken :
    (∀ n carried, n = 1 ∨ n = 16 →
      (at' (turnAt n carried)).part.inTurn n carried ∧ (at' (turnAt n carried)).part.shaped) ∧
      ((1#8).toNat = 1 ∧ (16#8).toNat = 16 ∧ (List.replicate 39 0#8 : List Byte).length ≤ 39) ∧
      ((at' (replyHeld 16)).part.inTurn 16 none ∧ (at' (replyHeld 16)).part.shaped ∧
        (((at' (replyHeld 16)).part.heard 16 none).store 16).reply ≠ .empty) ∧
      ((((at' (turnAt 1 none)).part.heard 1 none).store 1).reply = .empty ∧ messageOf 8#8 [] = none ∧ messageOf 1#8 [] = none ∧
        messageOf 4#8 [0#8, 0#8] = none) ∧
      ((0#8).toNat = 0 ∧ 7 < (8#8).toNat ∧ ((4#8, 2) : Byte × Nat) ∈ [(1#8, 5), (2#8, 3), (3#8, 0), (4#8, 2), (5#8, 3), (6#8, 2), (7#8, 0)]) ∧
      ((at' underWayByTurn).part.line.turn = .poll 6 none ∧ (at' underWayByTurn).part.line.rx = answerChars 6#8 [] ∧
        (at' underWayByTurn).part.line.rxClass = .byTurn ∧ (6#8).toNat = 6) :=
  ⟨fun n carried h => turnAt_meets n h carried, by decide, ⟨⟨rfl, rfl, rfl, rfl⟩, shaped_of_lengths rfl, by decide⟩, by decide,
    by decide, rfl, rfl, rfl, rfl⟩

/-- Slot 5's turn with the book of 1.10. -/
def slot5 : State := at' fun p => turnTo 5 none (threeSongs p)

theorem slot5_meets : slot5.part.inTurn 5 none ∧ slot5.part.shaped ∧ slot5.part.book.wf :=
  ⟨⟨rfl, rfl, rfl, rfl⟩, shaped_of_lengths rfl, bookWf_of_check (by decide)⟩

theorem witness_AskAddsEntry :
    (slot5.part.inTurn 5 none ∧ slot5.part.shaped ∧ slot5.part.book.wf) ∧ (5#8).toNat = 5 ∧
      (messageOf 1#8 [0xE9#8, 0x4E#8, 0#8, 4#8, 0xF9#8] = some (.ask 20201 4 (-7)) ∧
        ((slot5.part.heard 5 none).store 5).reply = .empty ∧
        (slot5.part.heard 5 none).addCheck ⟨.slot 5, 20201, 4, -7, 0, false⟩ = none) ∧
      (messageOf 1#8 [0x3F#8, 0x42#8, 0xF#8, 1#8, 7#8] = some (.ask 999999 1 7) ∧
        (slot5.part.heard 5 none).addCheck ⟨.slot 5, 999999, 1, 7, 0, false⟩ = some .noSuchSong) :=
  ⟨slot5_meets, by decide, by decide, by decide⟩

/-- Slot 5's turn with song 20201 OFFLINE on a FAULTED die 0. -/
def slot5Offline : State := at' fun p =>
  turnTo 5 none { (threeSongs p).mapDie 0 (fun x => { x with state := .faulted }) with
    catalog := [{ songAt 20201 4 with state := .offline }] }

/-- R59: FIND of an OFFLINE song is answered at once from the entry. -/
theorem test_find_offline_song :
    let t := after (.find 5#8 [0xE9#8, 0x4E#8, 0#8]) slot5Offline
    (t.store 5).reply = .held (.songInfo
      { song := 20201, edition := 2, state := .offline, duration := 201000, parts := 2, weak := false, damaged := false,
        title := [], artist := [] }) := by
  decide +kernel

theorem witness_FindAndMineReply :
    (slot5.part.inTurn 5 none ∧ slot5.part.shaped) ∧ ((slot5.part.heard 5 none).store 5).reply = .empty ∧
      songInRange (ofU24 1#8 0#8 0#8) = true ∧ songInRange (ofU24 0x3F#8 0x42#8 0xF#8) = true ∧
      (∀ c, slot5.part.catEntry (ofU24 0x76#8 0x27#8 0#8) = some c → c.state = .ready → (slot5.part.die c.current.die).state ≠ .faulted) ∧
      (slot5Offline.part.inTurn 5 none ∧ slot5Offline.part.shaped ∧ ((slot5Offline.part.heard 5 none).store 5).reply = .empty ∧
        (slot5Offline.part.die 0).state = .faulted ∧
        ∀ c, slot5Offline.part.catEntry (ofU24 0xE9#8 0x4E#8 0#8) = some c → c.state = .ready →
          (slot5Offline.part.die c.current.die).state ≠ .faulted) :=
  ⟨⟨slot5_meets.1, slot5_meets.2.1⟩, by decide, by decide, by decide,
    fun _ h => by cases (show some (songAt 10102 2) = some _ from h); decide,
    ⟨rfl, rfl, rfl, rfl⟩, shaped_of_lengths rfl, by decide, by decide,
    fun _ h hr => by
      cases (show some ({ songAt 20201 4 with state := .offline } : CatEntry) = some _ from h)
      exact absurd hr (by decide)⟩

/-- Slot 4's turn while its ticket 52 is CUED, and while it is PLAYING. -/
def slot4Cued : State := { holding with part := turnTo 4 none holding.part }
def slot4Playing : State := { holding with part := turnTo 4 none (playing 6000 0).part }

theorem slot4Cued_meets : slot4Cued.part.inTurn 4 none ∧ slot4Cued.part.shaped ∧ slot4Cued.part.cueWf :=
  ⟨by refine ⟨?_, ?_, ?_, ?_⟩ <;> decide, shaped_of_lengths (by decide), cueWf_of_check (by decide)⟩

theorem slot4Playing_meets : slot4Playing.part.inTurn 4 none ∧ slot4Playing.part.shaped ∧ slot4Playing.part.cueWf :=
  ⟨by refine ⟨?_, ?_, ?_, ?_⟩ <;> decide, shaped_of_lengths (by decide), cueWf_of_check (by decide)⟩

theorem slot5_cueWf : slot5.part.cueWf := cueWf_of_check (by decide)

/-- Slot 2's turn with its own entries WAITING. -/
def slot2 : State := at' fun p => turnTo 2 none (threeSongs p)

theorem witness_DropAndKeyOwnEntry :
    (slot5.part.inTurn 5 none ∧ slot5.part.shaped ∧ slot5.part.cueWf ∧ 1 ≤ ofU16 1#8 0#8 ∧ -7 ≤ (0xF9#8).toInt ∧ (7#8).toInt ≤ 7) ∧
      (slot5.part.entry (ofU16 9#8 0#8) = none ∧ (slot5.part.entry (ofU16 1#8 0#8)).map Entry.origin = some (.slot 2)) ∧
      (slot2.part.inTurn 2 none ∧ (slot2.part.entry (ofU16 1#8 0#8)).map (fun e => (e.origin, e.state)) = some (.slot 2, .waiting)) ∧
      ((slot4Cued.part.inTurn 4 none ∧ slot4Cued.part.shaped ∧ slot4Cued.part.cueWf) ∧
        (slot4Cued.part.entry (ofU16 52#8 0#8)).map (fun e => (e.origin, e.state)) = some (.slot 4, .cued) ∧
        ((slot4Cued.part.heard 4 none).store 4).reply = .empty) ∧
      ((slot4Playing.part.inTurn 4 none ∧ slot4Playing.part.shaped ∧ slot4Playing.part.cueWf) ∧
        (slot4Playing.part.entry (ofU16 52#8 0#8)).map (fun e => (e.origin, e.state)) = some (.slot 4, .playing) ∧
        ((slot4Playing.part.heard 4 none).store 4).reply = .empty) :=
  ⟨⟨slot5_meets.1, slot5_meets.2.1, slot5_cueWf, by decide, by decide, by decide⟩, by decide, ⟨⟨rfl, rfl, rfl, rfl⟩, by decide⟩,
    ⟨slot4Cued_meets, by decide⟩, ⟨slot4Playing_meets, by decide⟩⟩

/-- Slot 9's turn while ticket 52 is CUED, with three singers and seat 2 free. -/
def slot9Cued : State :=
  { holding with part := turnTo 9 none (holding.part.mapEntry 52 fun e => { e with singers := 3, seats := [some 4, some 7, none] }) }

theorem witness_JoinAndLeave :
    (slot5.part.inTurn 5 none ∧ slot5.part.shaped ∧ ((slot5.part.heard 5 none).store 5).reply = .empty ∧ slot5.part.cueWf) ∧
      slot5.part.entry (ofU16 9#8 0#8) = none ∧
      (slot4Playing.part.entry (ofU16 52#8 0#8)).map Entry.state = some .playing ∧
      (slot4Cued.part.entry (ofU16 52#8 0#8)).map (fun e => (e.state, e.seats)) = some (.cued, [some 4, some 7]) ∧
      (∀ i, 1 ≤ i → ([some 2] : List (Option Nat))[i]? ≠ some none) ∧
      ((slot9Cued.part.entry (ofU16 52#8 0#8)).map (fun e => (e.state, e.seats)) = some (.cued, [some 4, some 7, none]) ∧
        (some 9 ∉ [some 4, some 7, none]) ∧ ([some 4, some 7, none] : List (Option Nat))[2]? = some none ∧
        ∀ j, 1 ≤ j → j < 2 → ([some 4, some 7, none] : List (Option Nat))[j]? ≠ some none) := by
  refine ⟨⟨slot5_meets.1, slot5_meets.2.1, by decide, slot5_cueWf⟩, by decide, by decide, by decide, ?_,
    by decide, by decide, by decide, ?_⟩
  · intro i h
    rw [List.getElem?_eq_none (by simpa using h)]
    simp
  · intro j h1 h2
    interval_cases j
    decide

theorem witness_OutsideFrameIsCounted :
    ((at' id).part.line.state = .running ∧ (at' id).part.line.rx = [] ∧ (at' id).part.line.tx.isSome = true ∧
        (at' id).part.promotionDue = false ∧ (at' id).part.line.afterMiss = false) ∧
      ((at' idle).part.line.turn = .idleInterval ∧ (at' idle).part.promotionDue = false) ∧
      ((at' fun p => { idle p with line := { (idle p).line with afterMiss := true } }).part.line.afterMiss = true) ∧
      (1 ≤ [charOf 0#8].length ∧ (List.replicate 46 (charOf 0#8)).length ≤ 46 ∧
        ∀ c ∈ List.replicate 46 (charOf 0#8), spoiled c = false) := by
  decide

/-- Every slot in a state, slot n with the serial of its number. -/
def everySlot (state : SlotState) (p : Part) : Part :=
  window { p with slots := slotNumbers.map fun n => { Slot.reset with state := state, serial := some (serialOf n) } }

theorem witness_ClaimIsDecided :
    (∀ state, (at' (everySlot state)).part.inWindow ∧ (at' (everySlot state)).part.shaped ∧
      (at' (everySlot state)).part.promotionDue = false) ∧
      (serialOf 16).length = 6 ∧
      (((at' (everySlot .barred)).part.slot 16).serial = some (serialOf 16) ∧
        ∀ n, 1 ≤ n → n < 16 → ((at' (everySlot .barred)).part.slot n).serial ≠ some (serialOf 16)) ∧
      (∀ n, 1 ≤ n → n ≤ 16 → ((at' (everySlot .silent)).part.slot n).serial ≠ some (serialOf 99) ∧
        ((at' (everySlot .silent)).part.slot n).state ≠ .free) ∧
      ((at' window).part.inWindow ∧ (at' window).part.shaped ∧ ((at' window).part.slot 1).state = .free ∧
        (at' window).part.line.reply.isSome = true) ∧
      (validClaim (parseFrame [charOf 0#8]) = none ∧ (List.replicate 47 (charOf 0#8)).length ≤ 47) := by
  refine ⟨fun state => ⟨⟨rfl, rfl, rfl, rfl⟩, shaped_of_lengths rfl, rfl⟩, by decide, ⟨by decide, ?_⟩, ?_,
    ⟨⟨rfl, rfl, rfl, rfl⟩, shaped_of_lengths rfl, by decide, by decide⟩, by decide⟩
  · intro n h1 h2; interval_cases n <;> decide
  · intro n h1 h2; interval_cases n <;> decide

theorem witness_BreakAndItsEnd :
    ((at' window).part.line.state = .running ∧ (at' window).part.sending = false) ∧
      (at' fun p => (window p).breakLine).part.line.state = .broken := by
  decide

/-! ### The catalog and the library store -/

/-- Right after MOUNT. -/
def mounting : State := { part := after (.mount 0#8 []) (at' id), pending := [] }

/-- The same, with die 1 found ABSENT. -/
def mountingDie0 : State := { part := after (.dieWatchExpiry 1) (atLastTick mounting), pending := [] }

theorem mounted_ready : (at' mounted).part.ready := ready_of_reset_port rfl

/-- The geometry of Table 5-1. -/
def fits : Geometry := ⟨2048, 64, 2048, 64⟩

/-- Die 0 is IDLE while die 1 is still being identified; die 1 is IDLE while die 0 is. -/
def die0Known : State := { mounting with part := after (.identification 0 (.geometry fits)) mounting }
def die1Known : State := { mounting with part := after (.identification 1 (.geometry fits)) mounting }

/-- Die 0 is ready after its reset, 15 ms into it. -/
def die0Reading : State :=
  { mounting with
    part := after (.identification 0 .ready) { mounting with part := mounting.part.mapDie 0 fun x => { x with watch := some 240 } } }

/-- R94, R99: each of the two steps has 20 ms of its own. -/
theorem test_identification_steps :
    die0Reading.part.lib.die0.watch = some 960 ∧ die0Reading.part.lib.die1.watch = mounting.part.lib.die1.watch ∧
      (after (.identification 0 (.geometry fits)) die0Reading).lib.die0.state = .idle ∧
      (after (.dieWatchExpiry 0) (atLastTick die0Reading)).lib.die0.state = .absent := by
  decide

theorem witness_MountAndIdentification :
    ((at' id).part.ready ∧ (at' id).part.lib.state = .unmounted) ∧ ((at' mounted).part.ready ∧ (at' mounted).part.lib.state ≠ .unmounted) ∧
      (mounting.part.lib.state = .mounting ∧ mounting.part.lib.die0.identifying ≠ none ∧ mounting.part.lib.die1.identifying ≠ none) ∧
      ((mounting.part.die 0).identifying = some .reset ∧ (mounting.part.die 1).identifying = some .reset ∧
        (die0Reading.part.die 0).identifying = some .identityRead ∧ (die0Known.part.die 0).identifying = none) ∧
      (mountingDie0.part.lib.state = .mounting ∧ mountingDie0.part.lib.die0.identifying ≠ none ∧
        mountingDie0.part.lib.die1.identifying = none ∧ mountingDie0.part.lib.die1.state = .absent) ∧
      (die1Known.part.lib.state = .mounting ∧ die1Known.part.lib.die0.identifying ≠ none ∧
        die1Known.part.lib.die1.identifying = none ∧ die1Known.part.lib.die1.state = .idle) ∧
      (die0Known.part.lib.state = .mounting ∧ die0Known.part.lib.die1.identifying ≠ none ∧
        die0Known.part.lib.die0.identifying = none ∧ die0Known.part.lib.die0.state = .idle) ∧
      (⟨2048, 64, 2048, 63⟩ : Geometry) ≠ ⟨2048, 64, 2048, 64⟩ :=
  ⟨⟨reset_ready, rfl⟩, ⟨mounted_ready, by decide⟩, by decide, by decide, by decide, by decide, by decide, by decide⟩

/-- A scan that waits for page 0 of a block. -/
def scanningAt (block : Nat) (p : Part) : Part :=
  (scanning p).mapDie 0 fun x => { x with scan := .header block, op := some ⟨.scan, block, 0, [], false⟩ }

/-- R71, R72: with die 0 IDLE, the identification of die 1 begins the scans: of both dies, or of die 0 alone. -/
theorem test_identification_of_die_1 :
    ((after (.identification 1 (.geometry fits)) die0Known).lib.die0.scan, (after (.identification 1 (.geometry fits)) die0Known).lib.die1.scan) =
      (.header 0, .header 0) ∧
    ((after (.identification 1 (.geometry ⟨1024, 64, 2048, 64⟩)) die0Known).lib.die0.scan,
      (after (.identification 1 (.geometry ⟨1024, 64, 2048, 64⟩)) die0Known).lib.die1.state) = (.header 0, .absent) ∧
    (after (.identification 0 (.geometry fits)) die1Known).lib.die1.scan = .header 0 := by
  decide

/-- A scan of die 0 that waits for the closing page of a header. -/
def closingAt (block : Nat) (p : Part) : Part :=
  (scanning p).mapDie 0 fun x =>
    { x with scan := .closing block ⟨58200, 2, 14, 201000, 2⟩, op := some ⟨.scan, block, 15, [], false⟩ }

/-- Die 0 has been scanned, and die 1 waits for page 0 of its last block. -/
def scanningDie1 (p : Part) : Part :=
  { p with lib := { p.lib with
      state := .mounting
      die0 := { Die.reset with state := .idle, scan := .done, judged := [.bad, .free] }
      die1 := { Die.reset with state := .busy, scan := .header 2047, op := some ⟨.scan, 2047, 0, [], false⟩, watch := some 960 } } }

theorem witness_ScanReadJudgesBlock :
    (∀ block, (at' (scanningAt block)).part.lib.state = .mounting ∧
        ((at' (scanningAt block)).part.die 0).op = some ⟨.scan, block, 0, [], false⟩ ∧
        ((at' (scanningAt block)).part.die 0).waiting = [] ∧ ((at' (scanningAt block)).part.die 0).state = .busy ∧
        ((at' (scanningAt block)).part.die 0).scan = .header block ∧ (at' (scanningAt block)).part.lib.die1.state = .absent) ∧
      (∀ block, (at' (closingAt block)).part.lib.state = .mounting ∧
        ((at' (closingAt block)).part.die 0).op = some ⟨.scan, block, 15, [], false⟩ ∧
        ((at' (closingAt block)).part.die 0).waiting = [] ∧ ((at' (closingAt block)).part.die 0).state = .busy ∧
        ((at' (closingAt block)).part.die 0).scan = .closing block ⟨58200, 2, 14, 201000, 2⟩ ∧
        (at' (closingAt block)).part.lib.die1.state = .absent) ∧
      2046 + 1 < 2048 ∧
      ((at' scanningDie1).part.lib.state = .mounting ∧ ((at' scanningDie1).part.die 1).op = some ⟨.scan, 2047, 0, [], false⟩ ∧
        ((at' scanningDie1).part.die 1).waiting = [] ∧ ((at' scanningDie1).part.die 1).state = .busy ∧
        ((at' scanningDie1).part.die 1).scan = .header 2047 ∧ (at' scanningDie1).part.lib.die0.scan = .done) ∧
      (judgePage0 erasedRead = .inl .free ∧ judgeClosing ⟨58200, 2, 14, 201000, 2⟩ badRead = .reclaim) ∧
      (({ erasedRead with marker := 0xFE#8 } : PageRead).marker ≠ 0xFF#8) ∧
      (badRead.marker = 0xFF#8 ∧ readData badRead = none) ∧
      (erasedRead.marker = 0xFF#8 ∧ (readData erasedRead).bind validHeader = none) ∧
      (headerRead.marker = 0xFF#8 ∧ (readData headerRead).bind validHeader = some ⟨58200, 2, 14, 201000, 2⟩ ∧
        judgePage0 headerRead = .inr ⟨58200, 2, 14, 201000, 2⟩) :=
  ⟨fun _ => ⟨rfl, rfl, rfl, rfl, rfl, rfl⟩, fun _ => ⟨rfl, rfl, rfl, rfl, rfl, rfl⟩, by decide, by decide, by decide, by decide, by decide,
    by decide, by decide⟩

/-- R73, R74: the read that settles block 2047 of the last die completes the mount, whichever die that is, and from a closing page too. -/
theorem test_mount_completes :
    (after (.mountScanReadComplete 1 erasedRead) (at' scanningDie1)).lib.state = .mounted ∧
      (after (.mountScanReadComplete 1 erasedRead) (at' scanningDie1)).lib.die1.map = some [.free] ∧
      (after (.mountScanReadComplete 1 erasedRead) (at' scanningDie1)).lib.die0.map = some [.bad, .free] ∧
      (after (.mountScanReadComplete 0 badRead) (at' (closingAt 2047))).lib.reclaim = [(0, 0)] ∧
      (after (.mountScanReadComplete 0 badRead) (at' (closingAt 2047))).lib.lastOperation = some ⟨.mount, none, .done⟩ ∧
      (after (.mountScanReadComplete 0 headerRead) (at' (scanningAt 5))).lib.die0.op = some ⟨.scan, 5, 15, [], false⟩ := by
  decide

/-- Two candidates of one edition, and one of a lower. -/
theorem witness_MountedCatalogIsSorted :
    candidatesOf 0 [.bad, .candidate ⟨51000, 2, 7, 200000, 1⟩] ++ candidatesOf 1 [.candidate ⟨51000, 2, 7, 200000, 1⟩] =
      [⟨⟨51000, 2, 7, 200000, 1⟩, 0, 1⟩, ⟨⟨51000, 2, 7, 200000, 1⟩, 1, 0⟩] ∧
    keptCandidates [⟨⟨51000, 2, 7, 200000, 1⟩, 0, 1⟩, ⟨⟨51000, 2, 7, 200000, 1⟩, 1, 0⟩] = [⟨⟨51000, 2, 7, 200000, 1⟩, 0, 1⟩] := by
  decide

/-- The highest and the lowest song number, READY and OFFLINE, in a mounted library. -/
def edgeSongs (p : Part) : Part :=
  { mounted p with catalog := [songAt 1 1, { songAt 999999 5 with state := .offline }] }

/-- A lookup read for slot 16 and for the port. -/
def lookupSlot16 : State := at' (running ⟨.lookupSlot 16 30301, 6, 0, [], false⟩)

theorem witness_LookUpSongWaitsForRead :
    ((at' id).part.ready ∧ (at' id).part.lib.state ≠ .mounted ∧ songInRange (ofU24 1#8 0#8 0#8) = true ∧
        songInRange (ofU24 0x3F#8 0x42#8 0xF#8) = true) ∧
      ((at' mounted).part.ready ∧ (at' mounted).part.lib.state = .mounted ∧ (at' mounted).part.catEntry (ofU24 1#8 0#8 0#8) = none) ∧
      ((at' edgeSongs).part.ready ∧
        ((at' edgeSongs).part.catEntry (ofU24 1#8 0#8 0#8)).map CatEntry.state = some .ready ∧
        ((at' edgeSongs).part.die 0).state = .idle ∧
        ((at' edgeSongs).part.catEntry (ofU24 0x3F#8 0x42#8 0xF#8)).map CatEntry.state = some .offline) ∧
      ((executing.part.die 0).op = some ⟨.lookupPort, 6, 0, [], false⟩ ∧ executing.part.port.lookup = some ⟨7#8, 30301⟩ ∧
        executing.part.catEntry 30301 = some (songAt 30301 6) ∧ (songAt 30301 6).current.die = 0 ∧
        (songAt 30301 6).current.block = 6) ∧
      ((lookupSlot16.part.die 0).op = some ⟨.lookupSlot 16 30301, 6, 0, [], false⟩ ∧ lookupSlot16.part.shaped ∧
        lookupSlot16.part.catEntry 30301 = some (songAt 30301 6)) ∧
      (songInRange (ofU24 0#8 0#8 0#8) = false ∧ songInRange (ofU24 0x40#8 0x42#8 0xF#8) = false) :=
  ⟨⟨reset_ready, by decide, by decide, by decide⟩, ⟨mounted_ready, rfl, by decide⟩,
    ⟨ready_of_reset_port rfl, by decide⟩, by decide, ⟨rfl, shaped_of_lengths rfl, by decide⟩, by decide⟩

theorem witness_ListSongsAndLibraryStatus :
    ((at' mounted).part.ready ∧ (at' mounted).part.lib.state = .mounted) ∧ ((at' id).part.ready ∧ (at' id).part.lib.state ≠ .mounted) ∧
      (songInRange (ofU24 1#8 0#8 0#8) = true ∧ 1 ≤ (1#8).toNat ∧ (32#8).toNat ≤ 32) ∧
      (songInRange (ofU24 0#8 0#8 0#8) = false ∧ songInRange (ofU24 0x40#8 0x42#8 0xF#8) = false ∧ (0#8).toNat < 1 ∧
        32 < (33#8).toNat) :=
  ⟨⟨mounted_ready, rfl⟩, ⟨reset_ready, by decide⟩, by decide, by decide⟩

/-- A mounted library with no FREE block. -/
def noFree (p : Part) : Part := (mounted p).mapDie 0 fun x => { x with map := some [.bad, .song] }

/-- LIBWP_N is low, and an install program and a withdraw erase wait. -/
def protectedWaits (p : Part) : Part :=
  { mounted p with lib := { (mounted p).lib with
      libwp := false
      die0 := { (mounted p).lib.die0 with
        waiting := [⟨.install (.program 5), 3, 5, [], false⟩, ⟨.withdraw 20202, 5, 0, [], false⟩] } } }

/-- An install that passes the range checks. -/
def goodInstall : InstallParams := ⟨66100, 14, 201000, 2, [0x41#8], [], []⟩

/-- The library MOUNTED with song 66100 in an entry of this edition and state, and perhaps a successor. -/
def with66100 (edition : Nat) (state : CatState) (successor : Option SongBlock) (p : Part) : Part :=
  { mounted p with catalog := [{ newEntry 66100 ⟨edition, 0, 1, 14, 201000, 2⟩ with state := state, successor := successor }] }

theorem witness_InstallBeginOpensRecord :
    ((at' mounted).part.ready ∧ installParams installOf66100 = some goodInstall) ∧
      (at' id).part.installCheck goodInstall = some .notMounted ∧
      ((at' noFree).part.ready ∧ (at' noFree).part.installCheck goodInstall = none ∧ (at' noFree).part.installDie = none) ∧
      ((at' mounted).part.installCheck goodInstall = none ∧ (at' mounted).part.installDie = some 0 ∧
        (at' mounted).part.lowestFree 0 = 3) ∧
      ((0 : Nat) = 0 ∧ (0 : Nat) < 1 ∧ 0 < 0 + 1) ∧
      (installInRange ⟨999999, 62, 1200000, 4, [], [], List.replicate 32 2047⟩ = true ∧
        installInRange ⟨1, 1, 1000, 1, [], [], []⟩ = true ∧ installInRange { goodInstall with song := 0 } = false ∧
        installInRange { goodInstall with pages := 63 } = false ∧ installInRange goodInstall = true) ∧
      ((at' id).part.lib.state ≠ .mounted ∧ (at' mounted).part.lib.state = .mounted) ∧
      ((at' (installing 5 [] none)).part.install ≠ none ∧ (at' (installing 5 [] none)).part.lib.state = .mounted) ∧
      ((at' mounted).part.install = none ∧ (at' mounted).part.lib.libwp = true ∧ (at' mounted).part.catEntry 66100 = none ∧
        (at' protectedWaits).part.lib.libwp = false ∧ (at' protectedWaits).part.install = none ∧
        (at' protectedWaits).part.lib.state = .mounted) ∧
      (((at' (with66100 3 .offline none)).part.catEntry 66100).map CatEntry.state = some .offline ∧
        ((at' (with66100 3 .ready (some ⟨4, 0, 2, 14, 201000, 2⟩))).part.catEntry 66100).any (fun e => e.successor != none) = true ∧
        ((at' (with66100 3 .withdrawing none)).part.catEntry 66100).map CatEntry.state = some .withdrawing ∧
        ((at' (with66100 254 .ready none)).part.catEntry 66100).map (fun e => e.current.edition) = some 254 ∧
        ((at' (with66100 255 .ready none)).part.catEntry 66100).map (fun e => e.current.edition) = some 255) :=
  ⟨⟨mounted_ready, by decide⟩, by decide, ⟨ready_of_reset_port rfl, by decide⟩, by decide, by decide, by decide, by decide, by decide,
    by decide, by decide⟩

/-- The closing program of an install of one stream page is in progress, or no operation is in flight and the mark stands at it. -/
def closingNow (p : Part) : Part :=
  (installing 15 [] (some (.program 15)) p).startOp 0 ⟨.install (.program 15), 3, 15, [], false⟩ |> fun q =>
    { q with install := q.install.map fun r => { r with closing := true } }
def readyToClose (p : Part) : Part :=
  { installing 15 [] none p with lib := { (installing 15 [] none p).lib with programMark := 15 } }

theorem witness_InstallPageCloseAbandon :
    ((List.replicate 2048 0#8 : List Byte).length = 2048 ∧ 1 ≤ (1#8).toNat ∧ (62#8).toNat ≤ 62 ∧ (0#8).toNat < 1 ∧ 62 < (63#8).toNat) ∧
      ((at' mounted).part.ready ∧ (at' mounted).part.install = none) ∧
      ((at' closingNow).part.ready ∧ (at' closingNow).part.install.any (fun r => r.closing &&
        (at' closingNow).part.closingInProgress r) = true) ∧
      ((at' (installing 1 [] (some .erase))).part.ready ∧
        (at' (installing 1 [] (some .erase))).part.install.any (fun r => !r.closing && (1#8).toNat == r.nextPage && r.inFlight.isSome &&
          (at' (installing 1 [] (some .erase))).part.dieFaulted r.target.die == false && decide (r.buffered.length < 2) && !(at' (installing 1 [] (some .erase))).part.closingInProgress r) = true) ∧
      ((at' (installing 14 [[], []] none)).part.ready ∧
        (at' (installing 14 [[], []] none)).part.install.any (fun r => (14#8).toNat == r.nextPage && decide ((14#8).toNat ≤ r.target.pages) &&
          (at' (installing 14 [[], []] none)).part.dieFaulted r.target.die == false &&
          decide (2 ≤ r.buffered.length) && decide (r.target.pages < (62#8).toNat) && decide (r.nextPage ≠ r.target.pages + 1)) = true) ∧
      ((at' readyToClose).part.ready ∧
        (at' readyToClose).part.install.any (fun r => decide (r.nextPage = r.target.pages + 1) && r.inFlight == none &&
          (at' readyToClose).part.dieFaulted r.target.die == false) = true ∧
        (at' readyToClose).part.lib.programMark = 14 + 1) :=
  ⟨by decide +kernel, ⟨mounted_ready, rfl⟩, ⟨ready_of_reset_port rfl, by decide +kernel⟩, ⟨ready_of_reset_port rfl, by decide +kernel⟩,
    ⟨ready_of_reset_port rfl, by decide⟩, ⟨ready_of_reset_port rfl, by decide⟩⟩

/-- The erase of an install is in progress. -/
def erasing (p : Part) : Part := (installing 1 [] (some .erase) p).startOp 0 ⟨.install .erase, 3, 0, [], false⟩

/-- 5.4: the program of page k of song 66100 is in progress and the mark stands at it. -/
def programming (k : Nat) (buffered : List (List Byte)) (closing : Bool) (p : Part) : Part :=
  let q := (installing 15 buffered (some (.program k)) p).startOp 0 ⟨.install (.program k), 3, k, [], false⟩
  { q with install := q.install.map (fun r => { r with closing := closing }), lib := { q.lib with programMark := k } }

/-- The closing program of a replacement of a song, in block 3 of die 0. -/
def replacing (song : Nat) (p : Part) : Part :=
  { p.mapDie 0 fun x => { x with state := .busy, op := some ⟨.install (.program 15), 3, 15, [], false⟩, watch := some 960 } with
    install := some
      { closing := true, song := song, target := ⟨3, 0, 3, 14, 201000, 2⟩, title := [], artist := [], glyphs := [], nextPage := 15,
        buffered := [], replacement := true, inFlight := some (.program 15) } }

/-- Song 58200, CUED, has a successor. -/
def successorWaits : State :=
  { staged with part := staged.part.mapCatEntry 58200 fun e => { e with successor := some ⟨3, 0, 3, 14, 201000, 2⟩ } }

theorem witness_InstallOperationEnds :
    (((at' erasing).part.die 0).op = some ⟨.install .erase, 3, 0, [], false⟩ ∧ ((at' erasing).part.die 0).state = .busy ∧
        ((at' erasing).part.install.map fun r => (r.target.die, r.target.block)) = some (0, 3)) ∧
      (∀ k buffered closing, (k = 0 ∨ k = 14) →
        ((at' (programming k buffered closing)).part.die 0).op = some ⟨.install (.program k), 3, k, [], false⟩ ∧
        ((at' (programming k buffered closing)).part.die 0).state = .busy ∧
        ((at' (programming k buffered closing)).part.install.map fun r =>
          (r.target.die, r.target.block, r.target.pages, r.buffered, r.closing)) = some (0, 3, 14, buffered, closing) ∧
        (at' (programming k buffered closing)).part.lib.programMark = k ∧ k ≤ 14) ∧
      (((at' closingNow).part.die 0).op = some ⟨.install (.program 15), 3, 15, [], false⟩ ∧
        ((at' closingNow).part.die 0).state = .busy ∧
        ((at' closingNow).part.install.map fun r => (r.target.die, r.target.block, r.target.pages + 1)) = some (0, 3, 15) ∧
        (at' closingNow).part.catEntry 66100 = none) ∧
      (((replacing 58200 staged.part).die 0).op = some ⟨.install (.program 15), 3, 15, [], false⟩ ∧
        ((replacing 58200 staged.part).die 0).state = .busy ∧
        ((replacing 58200 staged.part).play.song.map HeldSong.song) = some 58200 ∧
        ((replacing 61000 staged.part).play.song.map HeldSong.song) ≠ some 61000 ∧
        (replacing 58200 staged.part).catEntry 58200 = some (songAt 58200 22) ∧
        (replacing 61000 staged.part).catEntry 61000 = some (songAt 61000 23)) ∧
      ((staged.part.catEntry 58200).bind CatEntry.successor = none ∧
        (successorWaits.part.catEntry 58200).bind CatEntry.successor = some ⟨3, 0, 3, 14, 201000, 2⟩) ∧
      (successorWaits.part.ready ∧ successorWaits.part.cueWf ∧ successorWaits.part.play.entry = some 52 ∧
        successorWaits.part.play.song = some ⟨58200, ⟨2, 0, 22, 14, 201000, 2⟩⟩) := by
  refine ⟨by decide, ?_, by decide, by decide, by decide, ready_of_reset_port (by decide), cueWf_of_check (by decide), by decide, by decide⟩
  rintro k buffered closing (rfl | rfl) <;> exact ⟨rfl, rfl, rfl, rfl, by decide⟩

/-- R85, R88: a song in play keeps its block until it is released; another song's entry switches at once. -/
theorem test_replacement :
    let kept := after (.installProgramComplete 0 true) { staged with part := replacing 58200 staged.part }
    let switched := after (.installProgramComplete 0 true) { staged with part := replacing 61000 staged.part }
    let skipped := after (.skip 0#8 []) successorWaits
    ((kept.catEntry 58200).map fun e => (e.current.block, e.successor.isSome)) = some (22, true) ∧
      ((switched.catEntry 61000).map fun e => (e.current.block, e.successor.isSome)) = some (3, false) ∧
      switched.lib.reclaim = [(0, 23)] ∧
      ((skipped.catEntry 58200).map fun e => (e.current.block, e.successor.isSome)) = some (3, false) ∧ skipped.lib.reclaim = [(0, 22)] := by
  decide

theorem witness_WithdrawAndReclaim :
    ((at' threeSongs).part.ready ∧ (at' threeSongs).part.cueWf ∧ songInRange (ofU24 0x76#8 0x27#8 0#8) = true ∧
        (at' threeSongs).part.lib.state = .mounted ∧ (at' threeSongs).part.catEntry (ofU24 0x76#8 0x27#8 0#8) = some (songAt 10102 2) ∧
        (at' threeSongs).part.withdrawCheck (songAt 10102 2) = none ∧
        ((at' threeSongs).part.die (songAt 10102 2).current.die).state = .idle) ∧
      (staged.part.ready ∧ staged.part.cueWf ∧ staged.part.catEntry (ofU24 0x48#8 0xEE#8 0#8) = some (songAt 61000 23) ∧
        staged.part.withdrawCheck (songAt 61000 23) = none ∧ (staged.part.die (songAt 61000 23).current.die).state = .busy) ∧
      (songInRange (ofU24 0x58#8 0xE3#8 0#8) = true ∧
        (staged.part.catEntry (ofU24 0x58#8 0xE3#8 0#8)).any (fun e => staged.part.withdrawCheck e == some .inUse) = true) ∧
      (songInRange (ofU24 0#8 0#8 0#8) = false ∧ songInRange (ofU24 0x40#8 0x42#8 0xF#8) = false ∧
        ((at' id).part.ready ∧ (at' id).part.lib.state ≠ .mounted) ∧
        ((at' mounted).part.ready ∧ (at' mounted).part.catEntry (ofU24 1#8 0#8 0#8) = none)) ∧
      (({ songAt 10101 1 with state := .offline } : CatEntry).state = .offline ∧ (songAt 10101 1).state ≠ .offline ∧
        (songAt 10101 1).state ≠ .withdrawing ∧ (songAt 10101 1).successor = none ∧
        ({ songAt 10101 1 with successor := some ⟨3, 0, 3, 14, 201000, 2⟩ } : CatEntry).successor ≠ none ∧
        (staged.part.play.song.map HeldSong.song) = some (songAt 58200 22).song ∧
        (Part.reset.play.song.map HeldSong.song) ≠ some (songAt 10101 1).song ∧
        ((installing 5 [] none Part.reset).install.map Install.song) = some (songAt 66100 2).song ∧
        (Part.reset.install.map Install.song) ≠ some (songAt 10101 1).song) ∧
      ((at' (running ⟨.withdraw 20202, 5, 0, [], false⟩)).part.die 0).op = some ⟨.withdraw 20202, 5, 0, [], false⟩ ∧
      ((at' (running ⟨.reclaim, 2, 0, [], false⟩)).part.die 0).op = some ⟨.reclaim, 2, 0, [], false⟩ :=
  ⟨⟨threeSongs_ready, threeSongs_cueWf, by decide⟩, ⟨staged_ready, staged_cueWf, by decide⟩, by decide,
    ⟨by decide, by decide, ⟨reset_ready, by decide⟩, mounted_ready, by decide⟩, by decide, rfl, rfl⟩

/-- Die 0 is in an operation and the library has FAILED. -/
def failedLibrary (p : Part) : Part := { scanning p with lib := { (scanning p).lib with state := .failed } }

/-- Both dies are being scanned. -/
def scanningBoth (p : Part) : Part :=
  { scanningDie1 p with lib := { (scanningDie1 p).lib with
      die0 := { Die.reset with state := .busy, scan := .header 7, op := some ⟨.scan, 7, 0, [], false⟩, watch := some 960 } } }

/-- LIBWP_N is low, a withdraw erase waits at die 1, and the reclaim list holds a block of die 1 and then one of die 0. -/
def bothProtected (p : Part) : Part :=
  { mounted p with lib := { (mounted p).lib with
      libwp := false
      reclaim := [(1, 4095), (0, 2)]
      die1 := { Die.reset with state := .idle, waiting := [⟨.withdraw 20202, 5, 0, [], false⟩] } } }

/-- LIBWP_N is low, and both dies have a block to reclaim and nothing that waits. -/
def bothReclaim (p : Part) : Part := (bothProtected p).mapDie 1 fun x => { x with waiting := [] }

/-- R103, R101: at the rise of LIBWP_N die 1 starts the withdraw's erase, and with none the erase of its own oldest block; die 0 starts its own. -/
theorem test_libwp_rise_starts_both_dies :
    let t := after (.libwpChange true) (at' bothProtected)
    let u := after (.libwpChange true) (at' bothReclaim)
    (t.lib.die1.op, t.lib.die1.waiting, t.lib.die1.watch) = (some ⟨.withdraw 20202, 5, 0, [], false⟩, [], some 960) ∧
      (t.lib.die0.op, t.lib.die0.state) = (some ⟨.reclaim, 2, 0, [], false⟩, .busy) ∧
      u.lib.die1.op = some ⟨.reclaim, 4095, 0, [], false⟩ ∧ t.attn = (at' bothProtected).part.attn := by
  decide

/-- A read for a requester that has given it up is in progress at die 0, LIBWP_N at a level, and these wait. -/
def givenUpWith (libwp : Bool) (waiting : List Request) : State := at' fun p =>
  { mounted p with lib := { (mounted p).lib with
      libwp := libwp
      reclaim := [(1, 4095), (0, 2)]
      die0 := { (mounted p).lib.die0 with
        state := .busy, op := some ⟨.stream, 1, 0, [], true⟩, watch := some 960, waiting := waiting } } }

/-- An erase and two reads wait, the lookup first. -/
def threeWait : List Request := [⟨.withdraw 20202, 5, 0, [], false⟩, ⟨.lookupPort, 3, 0, [], false⟩, ⟨.stream, 1, 1, [], false⟩]

/-- R101, R103: at a completion the stream fetch goes before the lookup and the erase; with the erase alone a low LIBWP_N leaves the die IDLE, and a high one
starts it; with nothing that waits a high LIBWP_N starts the reclaim erase. -/
theorem test_arbiter_at_a_completion :
    let die (libwp : Bool) (waiting : List Request) :=
      (fun x : Die => (x.state, x.op, x.waiting)) (after (.streamFetchComplete 0 erasedRead) (givenUpWith libwp waiting)).lib.die0
    die false threeWait = (.busy, some ⟨.stream, 1, 1, [], false⟩, threeWait.take 2) ∧
      die false (threeWait.take 2) = (.busy, some ⟨.lookupPort, 3, 0, [], false⟩, threeWait.take 1) ∧
      die false (threeWait.take 1) = (.idle, none, threeWait.take 1) ∧
      die true (threeWait.take 1) = (.busy, some ⟨.withdraw 20202, 5, 0, [], false⟩, []) ∧
      die true [] = (.busy, some ⟨.reclaim, 2, 0, [], false⟩, []) ∧ die false [] = (.idle, none, []) := by
  decide +kernel

/-- What the clauses of `Part.granted` ask, at a completion and at a rise of LIBWP_N. -/
theorem witness_granted :
    (threeWait = threeWait.take 2 ++ ⟨.stream, 1, 1, [], false⟩ :: [] ∧ mayStart false ⟨.stream, 1, 1, [], false⟩ ∧
        (∀ y ∈ threeWait.take 2, requestClass (.stream) < requestClass y.requester) ∧
        (∀ y ∈ threeWait.take 1, ¬mayStart false y) ∧ ∀ y ∈ threeWait.take 1, mayStart true y) ∧
      (((givenUpWith false threeWait).part.die 0).op = some ⟨.stream, 1, 0, [], true⟩ ∧
        (givenUpWith false threeWait).part.promotionDue = false ∧
        ((givenUpWith false threeWait).part.opEnds 0).lib.state = .mounted ∧
        ((givenUpWith false threeWait).part.opEnds 0).lib.reclaim = [(1, 4095)] ++ (0, 2) :: []) ∧
      ((at' fun p => running ⟨.withdraw 20202, 5, 0, [], false⟩ p).part.promotionDue = false ∧
        ((at' fun p => running ⟨.withdraw 20202, 5, 0, [], false⟩ p).part.die 0).op = some ⟨.withdraw 20202, 5, 0, [], false⟩ ∧
        ((at' fun p => running ⟨.reclaim, 2, 0, [], false⟩ p).part.die 0).op = some ⟨.reclaim, 2, 0, [], false⟩ ∧
        (at' fun p => running ⟨.reclaim, 2, 0, [], false⟩ p).part.promotionDue = false) ∧
      (((at' mounted).part.die 0).state = .idle ∧ ((at' mounted).part.die 1).state ≠ .idle ∧ ((at' mounted).part.die 1).state ≠ .busy ∧
        ((givenUpWith false []).part.die 0).state = .busy) := by
  unfold mayStart
  decide

theorem witness_DieWatchAndProtect :
    (lastTick ((atLastTick staged).part.die 0).watch = true ∧ ((atLastTick staged).part.die 0).identifying = none ∧
        ((atLastTick staged).part.die 0).op = some ⟨.stream, 22, 0, [], false⟩ ∧ (atLastTick staged).part.lib.state = .mounted ∧
        ((atLastTick staged).part.book.entries.map fun e => (e.ticket, e.song, e.state)) = [(52, 58200, .cued), (53, 61000, .waiting)] ∧
        ((atLastTick staged).part.catEntry 61000).map (fun c => c.current.die) = some 0 ∧
        (atLastTick staged).part.play.entry = some 52 ∧
        (atLastTick staged).part.play.song = some ⟨58200, ⟨2, 0, 22, 14, 201000, 2⟩⟩) ∧
      ((atLastTick staged).part.cueWf ∧ (atLastTick (playing 6000 0)).part.cueWf) ∧
      (lastTick ((atLastTick (playing 6000 0)).part.die 0).watch = true ∧ (atLastTick (playing 6000 0)).part.playing = true ∧
        ((atLastTick (playing 6000 0)).part.die 0).op.isSome = true ∧ ((atLastTick (playing 6000 0)).part.die 0).identifying = none) ∧
      (let scan0 := (at' fun p => soon (scanning p)).part
       lastTick (scan0.die 0).watch = true ∧ (scan0.die 0).identifying = none ∧ (scan0.die 0).op.isSome = true ∧
         scan0.lib.state = .mounting) ∧
      (let scan1 := (at' fun p => soon (scanningDie1 p)).part
       lastTick (scan1.die 1).watch = true ∧ (scan1.die 1).identifying = none ∧ (scan1.die 1).op.isSome = true ∧
         scan1.lib.state = .mounting ∧ scan1.lib.die0.scan = .done) ∧
      (let both := (at' fun p => soon (scanningBoth p)).part
       lastTick (both.die 1).watch = true ∧ (both.die 1).op.isSome = true ∧ both.lib.state = .mounting ∧ both.lib.die0.scan ≠ .done) ∧
      (let failed := (at' fun p => soon (failedLibrary p)).part
       lastTick (failed.die 0).watch = true ∧ (failed.die 0).op.isSome = true ∧ failed.lib.state = .failed) ∧
      (lastTick (staged.part.die 0).watch = false ∧ lastTick ((at' id).part.die 1).watch = false) ∧
      (let known := (atLastTick die0Known).part
       (atLastTick mounting).part.lib.state = .mounting ∧ (atLastTick mounting).part.lib.die0.identifying ≠ none ∧
         lastTick (atLastTick mounting).part.lib.die0.watch = true ∧ (atLastTick mounting).part.lib.die1.identifying ≠ none ∧
         lastTick (atLastTick mounting).part.lib.die1.watch = true ∧ known.lib.state = .mounting ∧
         known.lib.die1.identifying ≠ none ∧ lastTick known.lib.die1.watch = true ∧ known.lib.die0.identifying = none ∧
         known.lib.die0.state = .idle) ∧
      ((at' protectedWaits).part.lib.libwp = false ∧ (at' protectedWaits).part.lib.die0.state = .idle ∧
        (at' protectedWaits).part.lib.die0.waiting =
          ⟨.install (.program 5), 3, 5, [], false⟩ :: [⟨.withdraw 20202, 5, 0, [], false⟩] ∧
        requestClass (.install (.program 5)) = 4 ∧ requestClass (.withdraw 20202) = 5) ∧
      ((at' bothProtected).part.lib.libwp = false ∧ ((at' bothProtected).part.die 1).state = .idle ∧
        ((at' bothProtected).part.die 1).waiting = [⟨.withdraw 20202, 5, 0, [], false⟩] ∧
        ((at' bothReclaim).part.die 1).state = .idle ∧ ((at' bothReclaim).part.die 1).waiting = [] ∧
        (at' bothReclaim).part.lib.state = .mounted ∧ (at' bothReclaim).part.lib.libwp = false ∧
        (at' bothReclaim).part.lib.reclaim = [] ++ (1, 4095) :: [(0, 2)] ∧
        (at' bothReclaim).part.lib.reclaim = [(1, 4095)] ++ (0, 2) :: [] ∧ (∀ x ∈ [((1 : Nat), (4095 : Nat))], x.1 ≠ 0) ∧
        ((at' bothReclaim).part.die 0).state = .idle ∧ ((at' bothReclaim).part.die 0).waiting = [] ∧
        ((at' protectedWaits).part.die 1).state ≠ .idle ∧ ∀ x ∈ (at' protectedWaits).part.lib.reclaim, x.1 ≠ 1) ∧
      (let none1 := (at' fun p => { bothReclaim p with lib := { (bothReclaim p).lib with reclaim := [(0, 2)] } }).part
       none1.lib.libwp = false ∧ (none1.die 1).state = .idle ∧ (none1.die 1).waiting = [] ∧ ∀ x ∈ none1.lib.reclaim, x.1 ≠ 1) :=
  ⟨by decide, ⟨cueWf_of_check (by decide), cueWf_of_check (by decide)⟩, by decide, by decide, by decide, by decide, by decide, by decide,
    by decide, by decide, by decide, by decide⟩

/-- R18, R50: at a die fault the CUED entry is struck first, and the items of one slot stand in book order. -/
theorem test_die_fault_strikes_in_book_order :
    let t := after (.dieWatchExpiry 0)
      (atLastTick { staged with part := staged.part.mapEntry 53 fun e => { e with origin := .slot 4, seats := [some 4] } })
    (t.store 4).struck = [⟨52, .damaged⟩, ⟨53, .damaged⟩] ∧ (t.book.lastStrike.map LastStrike.ticket) = some 53 ∧
      t.book.entries = [] := by
  decide

/-- R75: with die 0 scanned, the fault of die 1 completes the mount; else the mount goes on. -/
theorem test_die_1_fault_in_a_mount :
    (after (.dieWatchExpiry 1) (at' fun p => soon (scanningDie1 p))).lib.state = .mounted ∧
      (after (.dieWatchExpiry 1) (at' fun p => soon (scanningBoth p))).lib.state = .mounting ∧
      (after (.dieWatchExpiry 0) (at' fun p => soon (scanningBoth p))).lib.state = .failed := by
  decide

/-! ### The play context -/

/-- A promotion is due. -/
def duePart : Part := { gap Part.reset with play := Play.reset }

theorem witness_PromotionCuesFirstWaiting :
    duePart.shaped ∧ duePart.promotionDue = true ∧
      (waitingEntries duePart.book.entries).map Entry.ticket = [52, 53] ∧
      (duePart.catEntry 58200).map CatEntry.current = some ⟨2, 0, 22, 14, 201000, 2⟩ ∧ (duePart.die 0).state = .idle ∧
      Part.reset.promotionDue = false :=
  ⟨shaped_of_lengths rfl, by decide⟩

theorem gap_ready : (at' gap).part.ready := ready_of_reset_port rfl

/-- Ticket 52 is PAUSED. -/
def paused : State := { part := (after (.pause 0#8 []) (playing 6000 0)).consume, pending := [] }

theorem paused_ready : paused.part.ready := by constructor <;> decide

theorem paused_cueWf : paused.part.cueWf := cueWf_of_check (by decide)

theorem witness_PlayStatusPauseAndNext :
    ((playing 6000 0).part.ready ∧ (playing 6000 0).part.play.state = .running) ∧
      (paused.part.ready ∧ paused.part.play.state = .paused ∧ paused.part.play.state ≠ .running ∧ paused.part.play.state ≠ .gap) ∧
      ((at' gap).part.ready ∧ (at' gap).part.play.state = .gap ∧ lastTick (at' gap).part.play.gap = true ∧
        (at' gap).part.play.state ≠ .paused) ∧
      (lastTick (at' id).part.play.gap = false ∧ lastTick (some 2) = false) ∧
      ((at' gap).part.play.gap = some 1 ∧ (at' gap).part.scorer.window.length + 1 < 480 ∧
        Part.quiet { (at' gap).part with play := { (at' gap).part.play with gap := none } } = true) :=
  ⟨⟨playing_ready, by decide⟩, ⟨paused_ready, by decide⟩, ⟨gap_ready, by decide⟩, by decide, by decide⟩

theorem holding_ready : holding.part.ready := ready_of_reset_port (by decide)

theorem holding_cueWf : holding.part.cueWf := cueWf_of_check (by decide)

theorem gap_cueWf : (at' gap).part.cueWf := cueWf_of_check (by decide)

/-- HOLD alone is on its last tick. -/
def lastOfHold (s : State) : State := { s with part := { s.part with play := { s.part.play with hold := some 1 } } }

/-- R113: the audio frame that brings the count to zero expires GAP or HOLD; the timer loaded at that event has lost no tick, and song time does not
move at it (R127). -/
theorem test_audioFrame_expires_timers :
    (after (.audioFrame silence) (at' gap)).play.entry = some 52 ∧
      (after (.audioFrame silence) (lastOfHold holding)).play.state = .running ∧
      (after (.audioFrame silence) (lastOfHold holding)).play.time = 0 ∧
      (after (.audioFrame silence) (lastOfHold holdingSkip)).play.gap = some 240000 ∧
      (after (.audioFrame silence) holding).play.hold = some 959999 := by
  decide

theorem witness_CueIsStartedOrStruck :
    (staged.part.cueWf ∧ staged.part.ready ∧ staged.part.play.state = .staging) ∧
      ((at' gap).part.cueWf ∧ (at' gap).part.ready ∧ (at' gap).part.play.state = .gap) ∧
      ((at' id).part.ready ∧ (at' id).part.play.state = .idle ∧ lastTick (at' id).part.play.hold = false) ∧
      (holding.part.cueWf ∧ holding.part.ready ∧ holding.part.play.state = .holding ∧ holding.part.settings.holdAction = .start ∧
        (holding.part.play.entry = some 52 ∧ holding.part.play.song = some ⟨58200, ⟨2, 0, 22, 14, 201000, 2⟩⟩) ∧
        lastTick holding.part.play.hold = false) ∧
      ((lastOfHold holding).part.cueWf ∧ (lastOfHold holding).part.play.state = .holding ∧
        (lastOfHold holding).part.settings.holdAction = .start ∧ lastTick (lastOfHold holding).part.play.hold = true ∧
        (lastOfHold holding).part.play.hold = some 1 ∧ (lastOfHold holding).part.scorer.window.length + 1 < 480 ∧
        Part.quiet { (lastOfHold holding).part with play := { (lastOfHold holding).part.play with hold := none } } = true) ∧
      ((lastOfHold holdingSkip).part.cueWf ∧ (lastOfHold holdingSkip).part.play.state = .holding ∧
        (lastOfHold holdingSkip).part.settings.holdAction = .skip ∧ lastTick (lastOfHold holdingSkip).part.play.hold = true) ∧
      (1 ≤ (1#8).toNat ∧ (120#8).toNat ≤ 120 ∧ 120 < (121#8).toNat) ∧
      ((playing 6000 0).part.cueWf ∧ (playing 6000 0).part.ready ∧ (playing 6000 0).part.play.state = .running) ∧
      (paused.part.cueWf ∧ paused.part.ready ∧ paused.part.play.state = .paused) :=
  ⟨⟨staged_cueWf, staged_ready, by decide⟩, ⟨gap_cueWf, gap_ready, rfl⟩, ⟨reset_ready, rfl, rfl⟩,
    ⟨holding_cueWf, holding_ready, by decide⟩, ⟨cueWf_of_check (by decide), by decide⟩, ⟨cueWf_of_check (by decide), by decide⟩,
    by decide, ⟨playing_cueWf, playing_ready, by decide⟩, ⟨paused_cueWf, paused_ready, by decide⟩⟩

/-- A song time in steps, with one NOTE in the queue. -/
def playingAt (steps : Nat) (n : QueuedNote) : State :=
  { part := { (playing 0 0).part with
      play := { (playing 0 0).part.play with time := steps }
      reader := { (playing 0 0).part.reader with notes := [n] } }
    pending := [] }

/-- N1 of 8.6. -/
def note1 : QueuedNote := ⟨0, 60, 10000, 10400, some 0, [⟨32, 4, 2, 2, .early⟩, newTally, newTally, newTally]⟩

/-- The song plays with a card time of 0. -/
def noCard : State :=
  { playing 6000 0 with part := { (playing 6000 0).part with display := { (playing 6000 0).part.display with cardTime := 0 } } }

theorem witness_SongClockAdvances :
    ((playingAt 12479975 note1).part.play.state = .running ∧ (playingAt 12479975 note1).part.scorer.window.length + 1 < 480 ∧
        (playingAt 12479975 note1).part.quiet = true ∧
        12480000 = (playingAt 12479975 note1).part.play.time + (25 + (playingAt 12479975 note1).part.play.tempo).toNat ∧
        12480000 < (playingAt 12479975 note1).part.durationSteps ∧ (playingAt 12479975 note1).part.reader.notes = [note1] ∧
        note1.stop * 1200 ≤ 12480000 ∧ (playingAt 12479975 note1).part.shaped ∧
        (playingAt 12479975 note1).part.reader.state ≠ .stalled) ∧
      ((playingAt 241199975 note1).part.cueWf ∧ (playingAt 241199975 note1).part.play.entry = some 52 ∧
        (playingAt 241199975 note1).part.play.song = some ⟨58200, ⟨2, 0, 22, 14, 201000, 2⟩⟩ ∧
        (playingAt 241199975 note1).part.quiet = true ∧
        241200000 = (playingAt 241199975 note1).part.play.time + (25 + (playingAt 241199975 note1).part.play.tempo).toNat ∧
        201000 * 1200 ≤ 241200000) ∧
      (paused.part.play.state ≠ .running ∧ paused.part.scorer.window.length + 1 < 480 ∧ paused.part.quiet = true ∧
        paused.part.promotionDue = false) ∧
      (ofS16 0x0C#8 0xFE#8 = -500 ∧ ofS16 0x0B#8 0xFE#8 < -500 ∧ ofS16 0xD0#8 7#8 = 2000 ∧ 2000 < ofS16 0xD1#8 7#8) ∧
      ((at' id).part.ready ∧ (at' id).part.playing = false) ∧
      ((playing 6000 0).part.ready ∧ (playing 6000 0).part.playing = true ∧
        (playing 6000 0).part.play.time ≤ (playing 6000 0).part.durationSteps ∧
        (playing 6000 0).part.play.time + 2000 * 1200 < (playing 6000 0).part.durationSteps) ∧
      ((playing 200000 0).part.ready ∧ (playing 200000 0).part.playing = true ∧ (playing 200000 0).part.cueWf ∧
        (playing 200000 0).part.play.time ≤ (playing 200000 0).part.durationSteps ∧
        201000 * 1200 ≤ (playing 200000 0).part.play.time + 1000 * 1200) ∧
      0 < (⟨1, 0, 0, 0, .early⟩ : Tally).windows ∧
      ((playing 6000 0).part.heldBookEntry.map (fun e => (e.ticket, e.seats)) = some (52, [some 4, some 7]) ∧
        (playing 6000 0).part.play.song.isSome = true ∧ (playing 6000 0).part.shaped ∧
        (∀ n, some n ∈ [some 4, some 7] → 1 ≤ n) ∧ ([some 4, some 7] : List (Option Nat))[1]? = some (some 7) ∧
        ∀ n, ([some 4, some 7] : List (Option Nat))[n]? = some (some 7) → n = 1) ∧
      ((playing 6000 0).part.display.cardTime ≠ 0 ∧ noCard.part.display.cardTime = 0 ∧ noCard.part.heldBookEntry.isSome = true ∧
        noCard.part.play.song.isSome = true) :=
  ⟨⟨by decide, by decide, by decide, by decide, by decide, by decide, by decide,
      shaped_of_lengths (by decide), by decide⟩,
    ⟨cueWf_of_check (by decide), by decide⟩, by decide, by decide, ⟨reset_ready, rfl⟩, ⟨playing_ready, by decide⟩,
    ⟨ready_of_reset_port (by decide), by decide, cueWf_of_check (by decide), by decide, by decide⟩, by decide, ⟨by decide, by decide,
    shaped_of_lengths (by decide), by simp +contextual, by decide, fun n h => by
      match n with
      | 0 => simp at h
      | 1 => rfl
      | n + 2 => simp at h⟩, by decide⟩

/-- R131, R152: of two seats that sang with no voice heard, NO MIC, both groups of the score card show 0, for parts A and B, and CARD runs 8 s; a
card time of 0 shows no card. -/
theorem test_song_end_shows_the_card :
    let t := after (.skip 0#8 []) (playing 6000 0)
    t.lyric.card = ⟨true, [⟨0, 0⟩, ⟨1, 0⟩]⟩ ∧ t.lyric.cardTimer = some 384000 ∧
      (after (.skip 0#8 []) noCard).lyric.card.shown = false := by
  decide

/-- R131, R170: every seat is DONE, and the two that did not sing are NOT USED in the result. -/
theorem test_song_end_makes_every_seat_done :
    let t := after (.skip 0#8 []) (playing 6000 0)
    t.scorer.seats.map Seat.state = [.done, .done, .done, .done] ∧
      (t.scorer.result.map fun r => r.seats.map SeatResult.status) = some [.noMic, .noMic, .notUsed, .notUsed] := by
  decide

/-- Page 0 is read for a requester that has given it up. -/
def givenUpFetch : State := { staged with part := staged.part.giveUp 0 (· == .stream) }

/-- Page 7 is fetched while the song plays, the reader STALLED on a held BEAT. -/
def fetching7 : State :=
  { part := (playing 6000 0).part.mapDie 0 (fun x => { x with op := some ⟨.stream, 22, 7, [], false⟩, waiting := [] }) |> fun p =>
      { p with reader := { p.reader with state := .stalled, held := some (.beat 9000), buf0 := .requested 7 } }
    pending := [] }

/-- Page 1 is fetched in STAGING after the header, with a cue hold time, start-pending and a hold action; the page holds a NOTE of key 8,100. -/
def fetching1 (hold : Nat) (pending : Bool) (action : HoldAction) : State :=
  { headed with part := { headed.part with
      play := { headed.part.play with cueHold := hold, startPending := pending }
      settings := { headed.part.settings with holdAction := action } } }
def page1Read : PageRead := { erasedRead with sector0 := .coded 0 (noteThenBeat ++ List.replicate 498 0#8) }
def cue52 : HeldSong := ⟨58200, ⟨2, 0, 22, 14, 201000, 2⟩⟩

/-- The part when the reader has examined page 1, or a header in the place of page 0. -/
def page1Examined (s : State) : Part :=
  (((s.part.opEnds 0).pageReadEffects 0 22 (readOutcome page1Read)).pageTaken cue52 1 (readData page1Read)).readerRun
def headerExamined : Part :=
  (((staged.part.opEnds 0).pageReadEffects 0 22 (readOutcome headerRead)).headerTaken cue52 ((readData headerRead).getD [])).readerRun

/-- R123, R125: staging ready with start-pending set enters RUNNING; with a cue hold time of 0 the hold action is taken at once. -/
theorem test_staging_ready_is_acted_on :
    let t (hold : Nat) (pending : Bool) (action : HoldAction) :=
      (after (.streamFetchComplete 0 page1Read) (fetching1 hold pending action)).play
    (t 20 true .skip).state = .running ∧ (t 20 true .skip).hold = none ∧ (t 0 false .start).state = .running ∧
      (t 0 false .skip).state = .gap ∧ (t 0 false .skip).entry = none ∧ (t 120 false .skip).state = .holding ∧
      (t 120 false .skip).hold = some 5760000 := by
  decide +kernel

/-- A reader that has its queues full, and a last NOTE of part A from 1,000 to 9,000. -/
def lastNote : QueuedNote := ⟨0, 60, 1000, 9000, none, []⟩
def fullQueues (r : Reader) : Reader :=
  { r with
    lastKey := some 1000, lastStarts := [some 1000, none, none, none]
    notes := List.replicate 95 ⟨1, 60, 500, 900, none, []⟩ ++ [lastNote]
    lines := List.replicate 16 ⟨⟨1, [16], [⟨1, 500, 900⟩]⟩, 0, true⟩, beats := List.replicate 8 9000 }

theorem witness_StreamFetchIsJudged :
    ((givenUpFetch.part.die 0).op = some ⟨.stream, 22, 0, [], true⟩ ∧ givenUpFetch.part.play.song.isSome = true ∧
        givenUpFetch.part.promotionDue = false) ∧
      ((staged.part.die 0).op = some ⟨.stream, 22, 0, [], false⟩ ∧ staged.part.play.state = .staging ∧
        staged.part.play.cueHold ≠ 0 ∧ (readData headerRead).any (headerUsable ⟨58200, ⟨2, 0, 22, 14, 201000, 2⟩⟩) = true ∧
        staged.part.play.song = some ⟨58200, ⟨2, 0, 22, 14, 201000, 2⟩⟩) ∧
      (staged.part.cueWf ∧ staged.part.play.entry = some 52 ∧
        (readData erasedRead).any (headerUsable ⟨58200, ⟨2, 0, 22, 14, 201000, 2⟩⟩) = false ∧ readData badRead = none ∧
        (staged.part.catEntry 58200).map CatEntry.successor = some none) ∧
      ((fetching7.part.die 0).op = some ⟨.stream, 22, 7, [], false⟩ ∧ fetching7.part.play.song.isSome = true ∧
        fetching7.part.play.state = .running ∧ readOutcome badRead = .uncorrectable ∧ fetching7.part.reader.state = .stalled ∧
        (readData erasedRead).isSome = true) ∧
      (recordInRange ⟨2, 0, 22, 14, 201000, 2⟩ (.line ⟨3, List.replicate 40 2047, (List.range 24).map fun i => ⟨if i < 16 then 2 else 1, i, i + 1⟩⟩) = true ∧
        recordInRange ⟨2, 0, 22, 14, 201000, 2⟩ (.note 1 96 200999 201000) = true ∧
        recordInRange ⟨2, 0, 22, 14, 201000, 2⟩ (.beat 200999) = true ∧ 201000 < 2 ^ 24 ∧ 2 ≤ 4) ∧
      (254 < 255 ∧ ¬(2 < 2 ∧ 36 ≤ 36 ∧ 36 ≤ 96 ∧ 0 < 1 ∧ 1 ≤ 201000) ∧ ¬(1 < 2 ∧ 36 ≤ 97 ∧ 97 ≤ 96 ∧ 0 < 1 ∧ 1 ≤ 201000) ∧
        ¬(1 < 2 ∧ 36 ≤ 60 ∧ 60 ≤ 96 ∧ 5 < 5 ∧ 5 ≤ 201000)) ∧
      (staged.part.play.state = .staging ∧ staged.part.reader.lastKey = none ∧ staged.part.reader.beats.length < 8 ∧
        staged.part.reader.lines.length < 16 ∧ staged.part.reader.notes.length < 96 ∧ staged.part.reader.lastStart 0 ≠ some 8100) ∧
      (holding.part.play.state = .holding ∧ 8 ≤ (fullQueues staged.part.reader).beats.length ∧
        16 ≤ (fullQueues staged.part.reader).lines.length ∧ 96 ≤ (fullQueues staged.part.reader).notes.length ∧
        (fullQueues staged.part.reader).lastKey = some 1000 ∧ (Record.beat 999).key < 1000 ∧
        (fullQueues staged.part.reader).lastStart 0 = some 1000 ∧ lastNote.part = 0 ∧ 8100 < lastNote.stop) ∧
      (headerExamined.reader.state = .fetching ∧ headerExamined.reader.keyReached = false ∧ headerExamined.reader.lines = [] ∧
        headerExamined.reader.notes = [] ∧ headerExamined.reader.beats = []) ∧
      ∀ hold pending action, (hold = 0 ∨ hold = 1) →
        (fetching1 hold pending action).part.play.state = .staging ∧ (fetching1 hold pending action).part.cueWf ∧
        (fetching1 hold pending action).part.play.entry = some 52 ∧ (fetching1 hold pending action).part.play.song = some cue52 ∧
        ((fetching1 hold pending action).part.die 0).op = some ⟨.stream, 22, 1, [], false⟩ ∧
        (page1Examined (fetching1 hold pending action)).reader.state ≠ .idle ∧
        (page1Examined (fetching1 hold pending action)).reader.keyReached = true := by
  refine ⟨by decide, by decide, ⟨staged_cueWf, by decide⟩, by decide, by decide, by decide, by decide, by decide, by decide +kernel, ?_⟩
  rintro hold pending action (rfl | rfl) <;> cases pending <;> cases action <;>
    exact ⟨by decide +kernel, cueWf_of_check (by decide +kernel), by decide +kernel⟩

/-! ### Lyric display, scoring and video -/

theorem witness_DisplayAndScoringCommands :
    (at' id).part.ready ∧ (at' id).part.shaped ∧ glyphParams [0#8, 0#8, 1#8, 0#8] = none ∧
      ((glyphParams ([0xFF#8, 7#8, 1#8, 0#8, 1#8] ++ List.replicate 32 3#8)).map fun x => (x.1, x.2.length)) = some (2047, 1) ∧
      displayParams (at' id).part.display [13#8, 0x3F#8, 0#8] = none ∧
      displayParams (at' id).part.display [13#8, 64#8, 0#8, 20#8] = some ({ Display.reset with upperBaseline := 64 }, true) ∧
      bindParams [4#8, 0#8] = none ∧ bindParams [3#8, 0xFF#8] = some (3, none) ∧ bindParams [3#8, 3#8] = some (3, some 3) ∧
      (glyphsWf [] = true ∧ 1 ≤ 1 ∧ 2047 + [(⟨1, []⟩ : Glyph)].length ≤ 2048) :=
  ⟨reset_ready, reset_shaped, by decide⟩

/-- One audio frame is missing from the window, and channel 0 has been loud for two windows. -/
def lastOfWindow (p : Part) : Part :=
  { p with scorer := { p.scorer with
      window := List.replicate 479 silence
      channels := [⟨-42, false, 2, 0, false⟩, Channel.reset, Channel.reset, Channel.reset] } }

/-- A loud audio frame: the sample of channel 0 is 400000h. -/
def loud : AudioFrame := { sd0 := BitVec.ofNat 64 (0x400000 * 2 ^ 39), sd1 := 0 }

/-- R117, R118: a NOTE that starts in the last of its part ends it there; the one that finds the queue full is held. -/
theorem test_takeRecord_of_an_overlapping_note :
    let t := { staged.part with reader := { staged.part.reader with notes := [lastNote], lastStarts := [some 1000, none, none, none] } }.takeRecord
      (.note 0 62 8100 8500)
    let u := { staged.part with reader := fullQueues staged.part.reader }.takeRecord (.note 0 62 8100 8500)
    (t.reader.notes.map fun n => (n.start, n.stop)) = [(1000, 8100), (8100, 8500)] ∧ t.reader.lastKey = some 8100 ∧
      u.reader.held = some (.note 0 62 8100 8500) ∧ u.reader.state = .stalled ∧ u.reader.notes.length = 96 := by
  decide

/-- The last audio frame but one of a window while a song plays: seats 0 and 1 sing on channels 0 and 1, one NOTE is queued. -/
def windowOf (notes : List QueuedNote) : State :=
  { part := { (playing 10000 0).part with
      scorer := { (playing 10000 0).part.scorer with window := List.replicate 479 silence }
      reader := { (playing 10000 0).part.reader with notes := notes } }
    pending := [] }

theorem witness_WindowEndMeasures :
    ((at' lastOfWindow).part.scorer.window.length = 479 ∧ (at' lastOfWindow).part.quiet = true ∧ (at' lastOfWindow).part.shaped ∧
        ((at' lastOfWindow).part.seat 0).channel = some 0 ∧ (at' lastOfWindow).part.settings.autoStart = true) ∧
      ((at' lastOfWindow).part.scorer.channels[0]? = some ⟨-42, false, 2, 0, false⟩ ∧
        (presenceStep (-42) (levelOf (channelSamples (loud :: (at' lastOfWindow).part.scorer.window) 0)) ⟨-42, false, 2, 0, false⟩).2 =
          true) ∧
      ((lastOfWindow staged.part).cueWf ∧ (lastOfWindow staged.part).play.state = .staging ∧ (lastOfWindow staged.part).quiet = true) ∧
      ((lastOfWindow holding.part).cueWf ∧ (lastOfWindow holding.part).play.state = .holding ∧
        (lastOfWindow holding.part).quiet = true) ∧
      ((windowOf []).part.scorer.window.length = 479 ∧ (windowOf []).part.quiet = true ∧ (windowOf []).part.play.state = .running ∧
        (windowOf []).part.reader.state ≠ .stalled ∧ (windowOf []).part.reader.state ≠ .finished ∧ (windowOf []).part.shaped ∧
        12000025 = (windowOf []).part.play.time + (25 + (windowOf []).part.play.tempo).toNat ∧
        12000025 < (windowOf []).part.durationSteps ∧ (windowOf []).part.reader.notes = []) ∧
      ((windowOf [note1]).part.reader.notes = [note1] ∧ note1.key = some 0 ∧ note1.start * 1200 ≤ 12000025 ∧
        12000025 < note1.stop * 1200 ∧ (windowOf [note1]).part.quiet = true ∧ (windowOf [note1]).part.shaped ∧
        ((windowOf [note1]).part.seat 0).state = .singing ∧ ((windowOf [note1]).part.seat 0).part = note1.part ∧
        ((windowOf [note1]).part.seat 0).channel = some 0) ∧
      (let p := (windowOf [{ note1 with key := none }]).part
       p.heldBookEntry.isSome = true ∧ p.noteActive { note1 with key := none } = true) :=
  ⟨⟨by decide +kernel, by decide +kernel, shaped_of_lengths rfl, rfl, rfl⟩, by decide +kernel,
    ⟨cueWf_of_check (by decide +kernel), by decide +kernel⟩, ⟨cueWf_of_check (by decide), by decide⟩,
    ⟨by decide +kernel, by decide +kernel, by decide +kernel, by decide +kernel, by decide +kernel, shaped_of_lengths (by decide +kernel),
      by decide +kernel⟩,
    ⟨by decide +kernel, by decide +kernel, by decide +kernel, by decide +kernel, by decide +kernel, shaped_of_lengths (by decide +kernel),
      by decide +kernel⟩, by decide +kernel⟩

/-- The path in LOST. -/
def lost (frameOpen : Bool) (run : Nat) : State :=
  at' fun p => { p with lyric := { p.lyric with path := .lost, frameOpen := frameOpen, runCount := run, watch := none } }

/-- R164, R166: a window with no NOTE is unknown and raises PLAY the first time; a silent one of an active NOTE is counted in its tally. -/
theorem test_windowEnd_in_a_song :
    let t := after (.windowEnd silence) (windowOf [])
    let u := after (.windowEnd silence) (windowOf [note1])
    (t.play.unknownWindows, t.play.firstUnderrun) = (1, true) ∧ u.play.unknownWindows = 0 ∧
      (u.reader.notes.map fun n => n.tallies[0]?) = [some ⟨32, 4, 2, 3, .early⟩] ∧ ((u.seat 0).total, (u.seat 0).hit) = (1, 0) := by
  decide +kernel

/-- A song plays at this time with one line in the queue, in its row or not yet; a lead of 3,000 ms and a clear delay of 500 ms. -/
def oneLine (ordinal ms : Nat) (given : Bool) : State :=
  let p := (playing ms 0).part
  { part := { p with
      reader := { p.reader with beats := [], lines := [⟨⟨1, [16, 17], [⟨1, 4000, 4400⟩, ⟨1, 4400, 6200⟩]⟩, ordinal, given⟩] }
      lyric := if given then { p.lyric with row0 := ⟨.shown, some ordinal, 0⟩ } else p.lyric }
    pending := [] }

theorem witness_FrameStartsAndVideoWatch :
    ((lost false 0).part.lyric.path = .lost ∧ (lost false 0).part.lyric.frameOpen = false) ∧
      ((lost true 0).part.lyric.frameOpen = true ∧ (lost true 0).part.lyric.runCount = 0 ∧
        frameWellFormed (lost true 0).part.settings.videoFormat ⟨[(720, 1280)], 459000⟩ = true ∧
        frameWellFormed (lost true 0).part.settings.videoFormat ⟨[(720, 1280)], 459001⟩ = false ∧
        frameWellFormed (lost true 0).part.settings.videoFormat ⟨[(720, 1280)], 441000⟩ = true) ∧
      1 ≤ (lost true 1).part.lyric.runCount ∧
      ((at' id).part.lyric.path = .pass ∧ (at' id).part.playing = false ∧ lastTick (at' id).part.lyric.watch = false ∧
        lastTick (at' id).part.lyric.cardTimer = false) ∧
      lastTick (at' soon).part.lyric.watch = true ∧
      lastTick (at' fun p => { p with lyric := { p.lyric with cardTimer := some 1 } }).part.lyric.cardTimer = true ∧
      (∀ ms given, (ms = 999 ∨ ms = 1000 ∨ ms = 6000 ∨ ms = 6700) →
        (oneLine 0 ms given).part.lyric.path = .pass ∧ (oneLine 0 ms given).part.playing = true ∧
        (oneLine 0 ms given).part.reader.state ≠ .stalled ∧ ((oneLine 0 ms given).part.row false).line = none ∧
        ((oneLine 0 ms given).part.row true).line = (if given then some 0 else none) ∧
        ((oneLine 0 ms given).part.reader.lines.map fun q => (q.ordinal, q.given, q.line.lastEnd + 500)) = [(0, given, 6700)] ∧
        (oneLine 0 ms given).part.display.clearDelay = 500) ∧
      ((oneLine 0 999 false).part.reader.lines.map ((oneLine 0 999 false).part.showReached 0) = [false] ∧
        (oneLine 0 1000 false).part.reader.lines.map ((oneLine 0 1000 false).part.showReached 0) = [true]) ∧
      ((oneLine 0 6000 true).part.ready ∧ ofS16 0xD0#8 7#8 = 2000 ∧ (oneLine 0 6000 true).part.play.time + 2000 * 1200 <
        (oneLine 0 6000 true).part.durationSteps) ∧
      ((denseLines 0).reader.lineOf 2 = some ⟨⟨3, [20], [⟨1, 6800, 9000⟩]⟩, 2, false⟩ ∧ (denseLines 0).reader.lineOf 3 = none) ∧
      ((⟨3, 4000, 4400⟩ : Syllable).start < (⟨3, 4000, 4400⟩ : Syllable).stop) ∧
      ((denseLines 1000).playing = true ∧ (denseLines 1000).play.time < 4000 * 1200 ∧
        (denseLines 1000).reader.beats.countP (fun b => decide ((denseLines 1000).play.time < b * 1200) && decide (b < 4000)) = 3 ∧
        (denseLines 3500).reader.beats.countP (fun b => decide ((denseLines 3500).play.time < b * 1200) && decide (b < 4000)) = 0 ∧
        ((denseLines 1000).reader.lineOf 0).map (fun q => q.line.firstStart) = some 4000) ∧
      (∀ u v : Int, (u = (64 + 24 * 2 + 2 : Nat) ∨ u = (64 + 24 * 2 + 2 : Nat) + 1) → (v = (560 - 12 : Nat) ∨ v = (560 - 12 : Nat) + 1) →
        (u - ((64 : Nat) + 24 * (2 : Nat) + 8)) ^ 2 + (v - ((560 : Nat) - 7)) ^ 2 ≤ 8 ^ 2) ∧
      (∀ i : Nat, i < 3 → ∀ u v : Int, (u = (64 + 24 * 2 : Nat) ∨ u = (64 + 24 * 2 : Nat) + 1) →
        (v = (560 - 12 : Nat) ∨ v = (560 - 12 : Nat) + 1) →
        8 ^ 2 ≤ (u - ((64 : Nat) + 24 * i + 8)) ^ 2 + (v - ((560 : Nat) - 7)) ^ 2) := by
  refine ⟨by decide, by decide, by decide, by decide, by decide, by decide, ?_, by decide, ⟨ready_of_reset_port (by decide), by decide⟩,
    by decide, by decide, by decide, ?_, ?_⟩
  · rintro ms given (rfl | rfl | rfl | rfl) <;> cases given <;> decide
  · rintro u v (rfl | rfl) (rfl | rfl) <;> decide
  · rintro i hi u v (rfl | rfl) (rfl | rfl) <;> interval_cases i <;> decide

/-- R151, by hand from 6² + 5² ≤ 8² ≤ 7² + 4²: of the third of three dots at the default baseline, a disc centred on (120, 553), the pixels just inside
its edge are drawn in the dots' colour, and those just outside it, the gap between dots and the place of a fourth dot are not. -/
theorem test_dot_pixels :
    let drawn (x y : Nat) := itemPixel x y 0#24 (.dots 3 64 560 0xFFFFFF#24) = 0xFFFFFF#24
    drawn 114 548 ∧ drawn 125 557 ∧ drawn 120 553 ∧ ¬ drawn 112 548 ∧ ¬ drawn 127 557 ∧ ¬ drawn 112 545 ∧ ¬ drawn 108 553 ∧ ¬ drawn 144 553 := by
  decide

/-- R140 to R144: the one line is not yet shown, shown, held and cleared; a forward NUDGE past its clear time clears it, shown or not. -/
theorem test_frame_start_of_one_line :
    let shown (ms : Nat) (given : Bool) := (after (.inputFrameStart ⟨[], 0⟩) (oneLine 0 ms given)).lyric.row0
    let nudged (given : Bool) := (after (.nudge 0#8 [0xD0#8, 7#8]) (oneLine 0 6000 given))
    shown 999 false = ⟨.empty, none, 0⟩ ∧ shown 1000 false = ⟨.shown, some 0, 0⟩ ∧ shown 4000 true = ⟨.wiping, some 0, 0⟩ ∧
      shown 6200 true = ⟨.held, some 0, 0⟩ ∧ shown 6700 true = ⟨.empty, none, 6700⟩ ∧ shown 6700 false = ⟨.empty, none, 6700⟩ ∧
      (nudged true).lyric.row0 = ⟨.empty, none, 6700⟩ ∧ (nudged false).lyric.row0 = ⟨.empty, none, 6700⟩ ∧
      (nudged false).reader.lines = [] ∧
      (after (.inputFrameStart ⟨[], 0⟩) (oneLine 1 1000 false)).lyric.row1 = ⟨.shown, some 1, 0⟩ ∧
      (after (.inputFrameStart ⟨[], 0⟩) (oneLine 1 1000 false)).lyric.title.shown = true := by
  decide +kernel

/-! ### Invariants -/

theorem witness_StepKeepsShapeAndGlyphs :
    State.reset.part.shaped ∧ glyphsWf State.reset.part.glyphs = true ∧
      ∃ t, step { State.reset with pending := [.mount 0#8 []] } = .next t :=
  ⟨shaped_of_lengths rfl, rfl, _, rfl⟩

theorem witness_StepKeepsCue :
    staged.part.cueWf ∧ staged.part.book.wf ∧ ∃ t, step { staged with pending := [.start 0#8 []] } = .next t :=
  ⟨staged_cueWf, bookWf_of_check (by decide), _, rfl⟩

end Sys2Proof.Machine.Tests
end

