-- ==== Sys2Proof/Proofs/RequestBookPlacement.lean ====
section
/-! PROOFS. Proofs/RequestBookPlacement.lean: the base round and the places of a new entry in the Request Book (R5 to R8). -/

namespace Sys2Proof.Machine

/-! ### A list of WAITING entries, and a book with at most its first entry not WAITING -/

theorem heldEntry_eq_none {entries : List Entry} (h : ∀ x ∈ entries, x.state = .waiting) : heldEntry entries = none := by
  simpa [heldEntry] using h

theorem waitingEntries_eq_self {entries : List Entry} (h : ∀ x ∈ entries, x.state = .waiting) : waitingEntries entries = entries := by
  simpa [waitingEntries] using h

theorem filter_not_waiting_eq_nil {entries : List Entry} (h : ∀ x ∈ entries, x.state = .waiting) :
    entries.filter (fun x => x.state != .waiting) = [] := by
  simpa using h

theorem heldEntry_cons (e : Entry) (rest : List Entry) :
    heldEntry (e :: rest) = if e.state = .waiting then heldEntry rest else some e := by
  by_cases he : e.state = .waiting <;> simp [heldEntry, he]

theorem waitingEntries_cons (e : Entry) (rest : List Entry) :
    waitingEntries (e :: rest) = if e.state = .waiting then e :: waitingEntries rest else waitingEntries rest := by
  by_cases he : e.state = .waiting <;> simp [waitingEntries, he]

/-- R1: in a book whose entries behind the first are WAITING, the CUED or PLAYING entry stands before the WAITING ones. -/
theorem filter_not_waiting_append_waitingEntries {entries : List Entry} (h : ∀ x ∈ entries.drop 1, x.state = .waiting) :
    entries.filter (fun x => x.state != .waiting) ++ waitingEntries entries = entries := by
  cases entries with
  | nil => rfl
  | cons e rest =>
    have hrest : ∀ x ∈ rest, x.state = .waiting := h
    have hw := waitingEntries_eq_self hrest
    have hnil := filter_not_waiting_eq_nil hrest
    by_cases he : e.state = .waiting
    · rw [waitingEntries_cons, if_pos he, List.filter_cons_of_neg (by simp [he]), hnil, hw, List.nil_append]
    · rw [waitingEntries_cons, if_neg he, List.filter_cons_of_pos (by simp [he]), hnil, hw, List.singleton_append]

/-! ### The base round and the simple places (R5, R7, R8) -/

theorem baseRound_cons {e : Entry} {rest : List Entry} (h : ∀ x ∈ rest, x.state = .waiting) : baseRound (e :: rest) = e.round := by
  by_cases he : e.state = .waiting
  · have hheld : heldEntry (e :: rest) = none := by rw [heldEntry_cons, if_pos he, heldEntry_eq_none h]
    have hwaiting : waitingEntries (e :: rest) = e :: waitingEntries rest := by rw [waitingEntries_cons, if_pos he]
    simp [baseRound, hheld, hwaiting]
  · have hheld : heldEntry (e :: rest) = some e := by rw [heldEntry_cons, if_neg he]
    simp [baseRound, hheld]

theorem arrivalRound_append_singleton (entries : List Entry) (e : Entry) : arrivalRound (entries ++ [e]) = e.round := by
  simp [arrivalRound]

theorem insertWaiting_length {entries : List Entry} (e : Entry) (h : ∀ x ∈ entries.drop 1, x.state = .waiting) :
    insertWaiting entries (waitingEntries entries).length e = entries ++ [e] := by
  calc insertWaiting entries (waitingEntries entries).length e
      = (entries.filter (fun x => x.state != .waiting) ++ waitingEntries entries) ++ [e] := by simp [insertWaiting]
    _ = entries ++ [e] := by rw [filter_not_waiting_append_waitingEntries h]

theorem insertWaiting_zero (entries : List Entry) (e : Entry) :
    insertWaiting entries 0 e = entries.filter (fun x => x.state != .waiting) ++ e :: waitingEntries entries := by
  simp [insertWaiting]

/-- Settles O17, from the base round of a book by the state of its first entry and the two ends of the WAITING entries. -/
theorem baseRoundAndSimplePlaces : Obligations.BaseRoundAndSimplePlaces := by
  refine ⟨⟨rfl, fun _ _ => baseRound_cons⟩, ⟨?arrival, fun _ => rfl, fun _ _ _ => rfl⟩, ?places⟩
  case arrival =>
    intro entries e o
    exact congrArg (·, _) (arrivalRound_append_singleton entries e)
  case places =>
    intro entries e h
    exact ⟨insertWaiting_length e h, insertWaiting_zero entries e⟩

/-! ### The round and the place in ROTATION (R6) -/

theorem lastRound_eq_none {entries : List Entry} {o : Origin} (h : ∀ e ∈ entries, e.origin ≠ o) : lastRound entries o = none := by
  simpa [lastRound] using h

theorem lastRound_eq_some {entries : List Entry} {o : Origin} {last : Nat} (hmem : ∃ e ∈ entries, e.origin = o ∧ e.round = last)
    (hmax : ∀ e ∈ entries, e.origin = o → e.round ≤ last) : lastRound entries o = some last := by
  simp only [lastRound, List.max?_eq_some_iff, List.mem_map, List.mem_filter, beq_iff_eq]
  refine ⟨?attained, ?bound⟩
  case attained =>
    obtain ⟨e, he, ho, hr⟩ := hmem
    exact ⟨e, ⟨he, ho⟩, hr⟩
  case bound =>
    rintro _ ⟨e, ⟨he, ho⟩, rfl⟩
    exact hmax e he ho

/-- R6: the WAITING entries up to the last one whose round is at most `r`. -/
def waitingUpTo (entries : List Entry) (r : Nat) : List Entry := (waitingEntries entries).rdropWhile fun e => r < e.round

/-- R6: the WAITING entries behind the last one whose round is at most `r`. -/
def waitingAbove (entries : List Entry) (r : Nat) : List Entry := (waitingEntries entries).rtakeWhile fun e => r < e.round

theorem waitingUpTo_append_waitingAbove (entries : List Entry) (r : Nat) :
    waitingUpTo entries r ++ waitingAbove entries r = waitingEntries entries :=
  List.rdropWhile_append_rtakeWhile

theorem lt_round_of_mem_waitingAbove {entries : List Entry} {r : Nat} {e : Entry} (h : e ∈ waitingAbove entries r) : r < e.round := by
  simpa using List.mem_rtakeWhile_imp h

theorem round_getLast_waitingUpTo_le {entries : List Entry} {r : Nat} (h : waitingUpTo entries r ≠ []) :
    ((waitingUpTo entries r).getLast h).round ≤ r := by
  simpa [waitingUpTo] using List.rdropWhile_last_not _ _ h

theorem rotationPlace_eq_length (entries : List Entry) (r : Nat) : rotationPlace entries r = (waitingUpTo entries r).length := by
  have habove : ((waitingEntries entries).reverse.takeWhile fun e => r < e.round).length = (waitingAbove entries r).length := by
    rw [waitingAbove, List.rtakeWhile, List.length_reverse]
  rw [rotationPlace, habove, ← waitingUpTo_append_waitingAbove entries r, List.length_append, Nat.add_sub_cancel]

theorem drop_rotationPlace (entries : List Entry) (r : Nat) :
    (waitingEntries entries).drop (rotationPlace entries r) = waitingAbove entries r := by
  rw [rotationPlace_eq_length, ← waitingUpTo_append_waitingAbove entries r, List.drop_left]

/-- R6: the new entry stands first, or directly behind a WAITING entry whose round is at most its own. -/
theorem rotationPlace_eq_zero_or_round_le (entries : List Entry) (r : Nat) :
    rotationPlace entries r = 0 ∨
      ∃ e, (waitingEntries entries)[rotationPlace entries r - 1]? = some e ∧ e.round ≤ r := by
  rw [rotationPlace_eq_length]
  by_cases hne : waitingUpTo entries r = []
  · exact .inl (List.length_eq_zero_iff.mpr hne)
  · have hpos : 0 < (waitingUpTo entries r).length := List.length_pos_iff.mpr hne
    refine .inr ⟨(waitingUpTo entries r).getLast hne, ?_, round_getLast_waitingUpTo_le hne⟩
    rw [← waitingUpTo_append_waitingAbove entries r, List.getElem?_append_left (by omega), ← List.getLast?_eq_getElem?,
      List.getLast?_eq_some_getLast hne]

/-- Settles O18: the round from the highest round of the origin, the place from the tail of WAITING entries of higher rounds. -/
theorem rotationPlacesByRound : Obligations.RotationPlacesByRound := by
  refine ⟨?noLive, ?live, ?place, fun _ _ => rfl⟩
  case noLive =>
    intro entries o h
    simp [rotationRound, lastRound_eq_none h]
  case live =>
    intro entries o last hmem hmax
    simp [rotationRound, lastRound_eq_some hmem hmax]
  case place =>
    intro entries r
    refine ⟨fun e he => ?_, rotationPlace_eq_zero_or_round_le entries r⟩
    rw [drop_rotationPlace] at he
    exact lt_round_of_mem_waitingAbove he

end Sys2Proof.Machine
end

