-- ==== Sys2Proof/Proofs/CommandPort.lean ====
section
/-! PROOFS. Proofs/CommandPort.lean: COLLISION over the selects of the link (R174, R175, R177), and the record of IDENTIFY (R184). -/

namespace Sys2Proof.Machine

/-! ### WRITE selects that find the port EXECUTING or in ANSWER READY (R177) -/

/-- R177: the bytes of a WRITE select are not judged while the port is EXECUTING or in ANSWER READY. -/
theorem Part.writeSelect_busy (p : Part) (h : p.port.ignoreSelect = false) (hs : p.port.state ≠ .idle) (frame : List Byte) :
    p.writeSelect frame = p.collide := by
  unfold Part.writeSelect
  cases hp : p.port.state with
  | idle => exact absurd hp hs
  | executing => simp [h]
  | answerReady => simp [h]

/-- A row that carries the raw bytes of a WRITE select is judged from those bytes (assumption 4). -/
theorem exec_of_rawFrame {i : Instr} {frame : List Byte}
    (hi : i = .badFrame frame ∨ i = .unknownCommand frame ∨ i = .collision frame) (s : State) :
    exec i s = .next (s.mapPart fun p => p.writeSelect frame) := by
  obtain rfl | rfl | rfl := hi <;> rfl

/-- Table 9-3: a host command is offered to the port with the body of its code. -/
theorem exec_of_commandFrame {i : Instr} {f : CommandFrame} (hf : i.commandFrame = some f) (s : State) :
    ∃ body, commandOf f.code f.params = some body ∧ exec i s = .next (s.mapPart fun p => p.takeCommand f.tag body) := by
  cases i <;> cases hf <;> exact ⟨_, rfl, rfl⟩

/-- R177: whichever row carries the WRITE select, it sets COLLISION and has no other effect. -/
theorem exec_write_busy {i : Instr} {s : State} (h : s.part.port.ignoreSelect = false) (hs : s.part.port.state ≠ .idle)
    (hi : (∃ frame, i = .badFrame frame ∨ i = .unknownCommand frame ∨ i = .collision frame) ∨ i.commandFrame.isSome = true) :
    exec i s = .next (s.mapPart Part.collide) := by
  obtain ⟨frame, hraw⟩ | hhost := hi
  · rw [exec_of_rawFrame hraw, State.mapPart, Part.writeSelect_busy s.part h hs, State.mapPart]
  · obtain ⟨f, hf⟩ := Option.isSome_iff_exists.mp hhost
    obtain ⟨body, -, hexec⟩ := exec_of_commandFrame hf s
    rw [hexec, State.mapPart, Part.takeCommand_busy s.part h hs, State.mapPart]

/-! ### The answer frame, and the READ select that consumes the answer (R175, R189) -/

/-- Table 10-3: tag, outcome and port flags stand first in an answer frame. -/
theorem Part.answerFrame_getElem?_two (p : Part) (a : Answer) :
    (p.answerFrame a)[2]? = some (if p.port.collision then 1#8 else 0#8) := rfl

/-- Table 10-3: five bytes stand before the data and two after it. -/
@[simp] theorem Part.answerFrame_length (p : Part) (a : Answer) : (p.answerFrame a).length = a.data.length + 7 := by
  simp [Part.answerFrame, Part.portFlags, u8, u16, flag, crcBytes]

/-- R175: an answer clocked out to its last byte is consumed. -/
theorem Part.readSelect_whole (p : Part) (n : Nat) (a : Answer) (h : p.port.ignoreSelect = false)
    (hs : p.port.state = .answerReady) (ha : p.port.answer = some a) (hn : a.data.length + 7 ≤ n) :
    p.readSelect n = (p.sendSdo n (p.answerFrame a)).consume := by
  simp [Part.readSelect, h, hs, ha, hn]

/-- Settles O5: every WRITE row ends in `Part.collide`, byte 2 of a frame is the port flags, and `Part.consume` clears COLLISION. -/
theorem collisionIsRecorded : Obligations.CollisionIsRecorded := by
  refine ⟨?set, Part.answerFrame_getElem?_two, ?cleared, rfl⟩
  case set =>
    intro i s h hs hi
    exact ⟨s.part.collide, exec_write_busy h hs hi, rfl⟩
  case cleared =>
    intro n s a h hs ha hn
    refine ⟨s.mapPart fun p => p.readSelect n, rfl, ?_⟩
    rw [State.mapPart_part, Part.readSelect_whole s.part n a h hs ha hn]
    rfl

/-! ### IDENTIFY (R184) -/

/-- R184, R189: the record of IDENTIFY, byte by byte. -/
theorem identifyBytes_eq :
    identifyBytes = [0x50#8, 0x5C#8, 0x1C#8, 0x02#8, 0x40#8, 0x08#8, 0x10#8, 0x00#8, 0x40#8, 0x00#8, 0x00#8, 0x10#8, 0x02#8,
      0x00#8, 0x04#8, 0x00#8, 0x04#8, 0x00#8, 0x00#8, 0x08#8] := by
  decide

/-- R184: without parameters, IDENTIFY is taken whatever the blocks hold. -/
theorem cmdIdentify_nil (p : Part) : cmdIdentify [] p = (p, .ok identifyBytes) := rfl

theorem exec_identify_nil {s : State} (h : s.part.ready) (tag : Byte) :
    exec (.identify tag []) s = .next (s.answered tag .ok identifyBytes) := by
  calc exec (.identify tag []) s
      = .next (s.mapPart fun p => p.takeCommand tag (cmdIdentify [])) := rfl
    _ = .next (s.answered tag .ok identifyBytes) := by
      rw [State.mapPart, Part.takeCommand_ready s.part h, cmdIdentify_nil]
      rfl

/-- Settles O11: the part after IDENTIFY is the part before it with the answer formed in the port. -/
theorem identifyAnswers : Obligations.IdentifyAnswers := by
  intro tag s h
  refine ⟨(s.part.answer tag .ok identifyBytes).quietSdo, exec_identify_nil h tag, rfl, rfl, rfl, ?_⟩
  rw [← identifyBytes_eq]
  rfl

end Sys2Proof.Machine
end

