-- ==== Sys2Proof/Proofs/Steps.lean ====
section
/-! PROOFS. Proofs/Steps.lean: a command is a function on the part; what holds of every part after it holds after a step; the port, the shape of the numbered records and glyph memory. -/

namespace Sys2Proof.Machine

/-! ### A command as a function on the part -/

/-- What a command makes of a part. -/
def effectOf (i : Instr) (p : Part) : Part :=
  match exec i { part := p, pending := [] } with
  | .next t => t.part
  | .fault _ => p
  | .refused _ => p

/-- No command stops, and each acts on the part alone. -/
theorem exec_eq_effect (i : Instr) (s : State) : exec i s = .next (s.mapPart (effectOf i)) := by
  cases i <;> rfl

theorem step_cons {s : State} {i : Instr} {rest : List Instr} (h : s.pending = i :: rest) :
    step s = exec i { s with pending := rest } := by
  simp [step, h]

theorem step_nil {s : State} (h : s.pending = []) : step s = .next s := by
  simp [step, h]

/-- What every command keeps of a part, every step keeps. -/
theorem step_keeps {inv : Part → Prop} (keeps : ∀ i p, inv p → inv (effectOf i p)) {s t : State} (h : inv s.part)
    (hs : step s = .next t) : inv t.part := by
  cases hp : s.pending with
  | nil =>
    rw [step_nil hp] at hs
    cases hs
    exact h
  | cons i rest =>
    rw [step_cons hp, exec_eq_effect] at hs
    cases hs
    exact keeps i s.part h

/-- Table 9-3: a host command is offered to the port. -/
theorem effect_of_commandFrame {i : Instr} {f : CommandFrame} (hf : i.commandFrame = some f) :
    ∃ body, commandOf f.code f.params = some body ∧ ∀ p, effectOf i p = p.takeCommand f.tag body := by
  cases i <;> cases hf <;> exact ⟨_, rfl, fun _ => rfl⟩

theorem commandOf_port {code : Nat} {params : List Byte} {body : Part → Part × CmdResult} (hb : commandOf code params = some body)
    (p : Part) : (body p).1.frame.port = p.frame.port := by
  unfold commandOf at hb
  split at hb <;> cases hb <;> simp

/-! ### The settling of the block's own statements -/

/-- Settles O1: `step` takes the queue apart. -/
theorem stepTakesFrontCommand : Obligations.StepTakesFrontCommand :=
  ⟨fun _ _ _ h => step_cons h, fun _ h => step_nil h⟩

/-- Settles O2: every command is a function on the part. -/
theorem everyCommandCompletes : Obligations.EveryCommandCompletes :=
  fun c s => ⟨s.mapPart (effectOf c), exec_eq_effect c s, rfl⟩

/-! ### The port (Table 9-1) -/

theorem Part.port_wf_of_frame {p q : Part} (h : q.frame.port = p.frame.port) (hp : p.port.wf) : q.port.wf := by
  rw [← Part.frame_port, h]
  exact hp

theorem Part.collide_port_wf (p : Part) (h : p.port.wf) : p.collide.port.wf := h
theorem Part.passSelect_port_wf (p : Part) (h : p.port.wf) : p.passSelect.port.wf := h
theorem Part.sendSdo_port_wf (p : Part) (n : Nat) (frame : List Byte) (h : p.port.wf) : (p.sendSdo n frame).port.wf := h
theorem Part.refuse_port_wf (p : Part) (tag : Byte) (cause : Cause) : ((p.refuse tag cause).quietSdo).port.wf := by
  simp [Part.refuse, Part.quietSdo, Port.wf]

theorem Part.judgeFrame_port_wf (p : Part) (frame : List Byte) (h : p.port.wf) : (p.judgeFrame frame).port.wf := by
  unfold Part.judgeFrame
  split
  · exact p.refuse_port_wf _ _
  · split
    · exact p.refuse_port_wf _ _
    · next hb => exact p.takeCommand_port_wf _ _ (commandOf_port hb p) h

theorem Part.writeSelect_port_wf (p : Part) (frame : List Byte) (h : p.port.wf) : (p.writeSelect frame).port.wf := by
  unfold Part.writeSelect
  split
  · exact p.passSelect_port_wf h
  · split
    · exact p.judgeFrame_port_wf frame h
    · exact p.collide_port_wf h
    · exact p.collide_port_wf h

/-- R175: the consumption of an answer leaves IDLE with no answer. -/
theorem Part.consume_port_wf (p : Part) (ha : p.port.state = .answerReady) (h : p.port.wf) : p.consume.port.wf := by
  have hl : p.port.lookup = none := by simpa [ha] using h.2
  simp [Part.consume, Port.wf, hl]

theorem Part.readSelect_port_wf (p : Part) (n : Nat) (h : p.port.wf) : (p.readSelect n).port.wf := by
  unfold Part.readSelect
  split
  · exact p.passSelect_port_wf h
  · split
    · next hs ha =>
      dsimp only
      split
      · exact (p.sendSdo n _).consume_port_wf hs (p.sendSdo_port_wf n _ h)
      · exact p.sendSdo_port_wf n _ h
    · exact p.sendSdo_port_wf n _ h

theorem Part.anySelect_port_wf (p : Part) (direction : Option Byte) (h : p.port.wf) : (p.anySelect direction).port.wf := by
  unfold Part.anySelect
  split
  · exact p.writeSelect_port_wf [] h
  · split
    · exact p.readSelect_port_wf 0 h
    · exact p.passSelect_port_wf h

/-- Selects and events keep the port as Table 9-1 says. -/
theorem effect_keeps_port_of_event {i : Instr} (hf : i.commandFrame = none) (p : Part) (h : p.port.wf) :
    (effectOf i p).port.wf := by
  cases i
  case pinReset selLow => simp [effectOf, exec, execPinReset, Part.pinReset, Port.reset, Port.wf]
  case ignoredSelect direction => exact p.anySelect_port_wf direction h
  case badFrame frame => exact p.writeSelect_port_wf frame h
  case unknownCommand frame => exact p.writeSelect_port_wf frame h
  case collision frame => exact p.writeSelect_port_wf frame h
  case readSelect n => exact p.readSelect_port_wf n h
  case audioFrame f => exact p.audioFrame_port_wf f h
  case windowEnd f => exact p.audioFrame_port_wf f h
  case dieWatchExpiry d => exact p.watchExpiry_port_wf d h
  case streamFetchComplete d read =>
    exact p.readCompletes_port_wf d _ read _ (fun r q hq => Part.port_wf_of_frame (by simp) hq) h
  case lookupReadComplete d read =>
    exact p.readCompletes_port_wf d _ read _ (fun r q hq => Part.lookupEnds_port_wf _ r q hq) h
  case mountScanReadComplete d read =>
    exact p.readCompletes_port_wf d _ read _ (fun r q hq => Part.port_wf_of_frame (by simp) hq) h
  case installProgramComplete d pass =>
    show (p.eraseCompletes d installRequester fun r q => q.installOpEnds d pass r).port.wf
    exact Part.port_wf_of_frame (p.eraseCompletes_port d _ _ fun r q => by simp) h
  case withdrawEraseComplete d pass =>
    show (p.eraseCompletes d isWithdraw (Part.withdrawEnds d pass)).port.wf
    exact Part.port_wf_of_frame (p.eraseCompletes_port d _ _ fun r q => by simp) h
  case reclaimEraseComplete d pass =>
    show (p.eraseCompletes d (· == .reclaim) (Part.reclaimEnds d pass)).port.wf
    exact Part.port_wf_of_frame (p.eraseCompletes_port d _ _ fun r q => by simp) h
  all_goals first
    | (simp [Instr.commandFrame] at hf; done)
    | exact Part.port_wf_of_frame (p := p) (by simp [effectOf, exec, execPollSent, execReceivedCharacter, execReplyExpiry, execInvalidAnswer, execAnswer, execAsk, execFind, execMine, execDrop, execKey, execJoin, execLeave, execLateAnswer, execStrayFrame, execOpenSent, execClaim, execBadClaim, execGrantSent, execBreak, execBreakEnd, execHoldExpiry, execGapExpiry, execIdentification, execLibwpChange, execInputFrameStart, execInternalFrameStart, execVideoWatchExpiry, execCardExpiry]) h

theorem effect_keeps_port (i : Instr) (p : Part) (h : p.port.wf) : (effectOf i p).port.wf := by
  cases hf : i.commandFrame with
  | none => exact effect_keeps_port_of_event hf p h
  | some f =>
    obtain ⟨body, hb, he⟩ := effect_of_commandFrame hf
    rw [he]
    exact p.takeCommand_port_wf _ _ (commandOf_port hb p) h

/-- Settles O10. -/
theorem stepKeepsPort : Obligations.StepKeepsPort :=
  fun _ _ h hs => step_keeps (inv := fun p => p.port.wf) effect_keeps_port h hs

/-! ### The shape of the numbered records, and glyph memory (R40, R48, R155, R159, R147) -/

/-- What `Part.shaped` and `glyphsWf` read of the view. -/
def Fixed.shaped (x : Fixed) : Prop :=
  (x.slots = Config.slotCount ∧ x.stores = Config.slotCount ∧ x.seats = 4 ∧ x.channels = 4) ∧ glyphsWf x.glyphs = true

theorem Part.fixed_shaped (p : Part) : p.frame.fixed.shaped ↔ p.shaped ∧ glyphsWf p.glyphs = true := Iff.rfl

theorem Part.shaped_of_fixed {p q : Part} (h : q.frame.fixed = p.frame.fixed) (hp : p.frame.fixed.shaped) :
    q.frame.fixed.shaped := by
  rw [h]
  exact hp

/-- R178: a command keeps the shape where what it does to a form it takes keeps it. -/
theorem withForm_shaped {α : Type} (form : Option α) (p : Part) (k : α → Part × CmdResult) (h : p.frame.fixed.shaped)
    (hk : ∀ a, form = some a → (k a).1.frame.fixed.shaped) : (withForm form p k).1.frame.fixed.shaped := by
  cases form with
  | none => exact h
  | some a => exact hk a rfl

theorem cmdLoadGlyphs_shaped (params : List Byte) (p : Part) (h : p.frame.fixed.shaped) :
    (cmdLoadGlyphs params p).1.frame.fixed.shaped := by
  refine withForm_shaped _ p _ h fun ⟨first, glyphs⟩ hform => ?_
  obtain ⟨hfirst, hlast⟩ := glyphParams_bounds params first glyphs hform
  exact ⟨h.1, writeGlyphs_wf glyphs first p.glyphs hfirst hlast h.2⟩

theorem cmdDisplaySettings_shaped (params : List Byte) (p : Part) (h : p.frame.fixed.shaped) :
    (cmdDisplaySettings params p).1.frame.fixed.shaped := by
  refine withForm_shaped _ p _ h fun ⟨d, clearCounts⟩ _ => ?_
  cases clearCounts <;> exact h

theorem cmdOpenClaims_shaped (params : List Byte) (p : Part) (h : p.frame.fixed.shaped) :
    (cmdOpenClaims params p).1.frame.fixed.shaped := by
  refine withForm_shaped _ p _ h fun on _ => ?_
  cases on
  · exact Part.shaped_of_fixed (p := { p with settings := { p.settings with openClaims := false } }) (by simp) h
  · exact h

theorem Part.configure_shaped (p : Part) (c : Settings) (h : p.frame.fixed.shaped) : (p.configure c).frame.fixed.shaped := by
  refine Part.shaped_of_fixed (p := { p with settings := c }) ?_ h
  unfold Part.configure
  (repeat' split) <;> simp

theorem cmdConfigure_shaped (params : List Byte) (p : Part) (h : p.frame.fixed.shaped) :
    (cmdConfigure params p).1.frame.fixed.shaped := by
  refine withForm_shaped _ p _ h fun c _ => ?_
  split
  · exact h
  · exact p.configure_shaped c h

/-- R47, R56: every store is emptied and every slot is FREE. -/
def Part.emptyHandsets (p : Part) : Part :=
  { slotNumbers.foldl Part.emptyStore p with slots := List.replicate Config.slotCount Slot.reset }

/-- R36: a poll turn in progress is abandoned and the round goes on. -/
def Part.leaveTurn (p : Part) : Part :=
  match p.line.turn with
  | .poll _ _ => p.abandonTurn.nextTurn
  | .none => p
  | .claimWindow => p
  | .idleInterval => p

theorem Part.clearHandsets_eq (p : Part) : p.clearHandsets = p.emptyHandsets.leaveTurn := rfl

@[simp] theorem Part.leaveTurn_frame (p : Part) : p.leaveTurn.frame = p.frame := by
  unfold Part.leaveTurn
  split <;> simp

/-- R47: room clear leaves 16 slots, whatever their number was. -/
theorem Part.freeSlots_shaped (p : Part) (h : p.frame.fixed.shaped) :
    Fixed.shaped (Part.frame { p with slots := List.replicate Config.slotCount Slot.reset }).fixed :=
  ⟨⟨rfl, h.1.2⟩, h.2⟩

theorem Part.emptyHandsets_shaped (p : Part) (h : p.frame.fixed.shaped) : p.emptyHandsets.frame.fixed.shaped := by
  have hstores : (slotNumbers.foldl Part.emptyStore p).frame = p.frame :=
    foldl_keeps Part.frame Part.emptyStore (fun a b => by simp) slotNumbers p
  exact Part.freeSlots_shaped _ (Part.shaped_of_fixed (by rw [hstores]) h)

theorem Part.clearHandsets_shaped (p : Part) (h : p.frame.fixed.shaped) : p.clearHandsets.frame.fixed.shaped := by
  rw [Part.clearHandsets_eq]
  exact Part.shaped_of_fixed (by simp) (p.emptyHandsets_shaped h)

theorem cmdClearRoom_shaped (params : List Byte) (p : Part) (h : p.frame.fixed.shaped) :
    (cmdClearRoom params p).1.frame.fixed.shaped := by
  refine withForm_shaped _ p _ h fun _ _ => ?_
  have hbefore : p.clearPlay.clearBook.readerEmpty.frame.fixed.shaped := Part.shaped_of_fixed (by simp) h
  exact Part.shaped_of_fixed (by simp [Part.clearRoom]) (Part.clearHandsets_shaped _ hbefore)

theorem commandOf_shaped {code : Nat} {params : List Byte} {body : Part → Part × CmdResult}
    (hb : commandOf code params = some body) (p : Part) (h : p.frame.fixed.shaped) : (body p).1.frame.fixed.shaped := by
  unfold commandOf at hb
  split at hb <;> cases hb
  case h_9 => exact cmdOpenClaims_shaped params p h
  case h_29 => exact cmdLoadGlyphs_shaped params p h
  case h_30 => exact cmdDisplaySettings_shaped params p h
  case h_36 => exact cmdConfigure_shaped params p h
  case h_37 => exact cmdClearRoom_shaped params p h
  all_goals exact Part.shaped_of_fixed (by simp) h

theorem Part.takeCommand_shaped (p : Part) (tag : Byte) (body : Part → Part × CmdResult)
    (hb : (body p).1.frame.fixed.shaped) (h : p.frame.fixed.shaped) : (p.takeCommand tag body).frame.fixed.shaped := by
  unfold Part.takeCommand
  split
  · exact h
  · split
    · exact Part.shaped_of_fixed (by simp) hb
    · exact h
    · exact h

theorem Part.writeSelect_shaped (p : Part) (frame : List Byte) (h : p.frame.fixed.shaped) :
    (p.writeSelect frame).frame.fixed.shaped := by
  unfold Part.writeSelect Part.judgeFrame
  split
  · exact h
  · split
    · split
      · exact h
      · split
        · exact h
        · next hb => exact p.takeCommand_shaped _ _ (commandOf_shaped hb p h) h
    · exact h
    · exact h

theorem Part.readSelect_shaped (p : Part) (n : Nat) (h : p.frame.fixed.shaped) : (p.readSelect n).frame.fixed.shaped := by
  unfold Part.readSelect
  split
  · exact h
  · split
    · dsimp only
      split <;> exact h
    · exact h

theorem Part.anySelect_shaped (p : Part) (direction : Option Byte) (h : p.frame.fixed.shaped) :
    (p.anySelect direction).frame.fixed.shaped := by
  unfold Part.anySelect
  split
  · exact p.writeSelect_shaped [] h
  · split
    · exact p.readSelect_shaped 0 h
    · exact h

/-- Selects and events keep the shape of the numbered records and glyph memory. -/
theorem effect_keeps_shape_of_event {i : Instr} (hf : i.commandFrame = none) (p : Part) (h : p.frame.fixed.shaped) :
    (effectOf i p).frame.fixed.shaped := by
  cases i
  case pinReset selLow => exact ⟨⟨rfl, rfl, rfl, rfl⟩, rfl⟩
  case ignoredSelect direction => exact p.anySelect_shaped direction h
  case badFrame frame => exact p.writeSelect_shaped frame h
  case unknownCommand frame => exact p.writeSelect_shaped frame h
  case collision frame => exact p.writeSelect_shaped frame h
  case readSelect n => exact p.readSelect_shaped n h
  case streamFetchComplete d read =>
    show (p.readCompletes d (· == .stream) read (Part.streamArrives read)).frame.fixed.shaped
    exact Part.shaped_of_fixed (p.readCompletes_fixed d _ read _ fun r q => by simp) h
  case lookupReadComplete d read =>
    show (p.readCompletes d isLookup read (Part.lookupEnds (readData read))).frame.fixed.shaped
    exact Part.shaped_of_fixed (p.readCompletes_fixed d _ read _ fun r q => by simp) h
  case mountScanReadComplete d read =>
    show (p.readCompletes d (· == .scan) read (Part.scanArrives d read)).frame.fixed.shaped
    exact Part.shaped_of_fixed (p.readCompletes_fixed d _ read _ fun r q => by simp) h
  case installProgramComplete d pass =>
    show (p.eraseCompletes d installRequester fun r q => q.installOpEnds d pass r).frame.fixed.shaped
    exact Part.shaped_of_fixed (p.eraseCompletes_fixed d _ _ fun r q => by simp) h
  case withdrawEraseComplete d pass =>
    show (p.eraseCompletes d isWithdraw (Part.withdrawEnds d pass)).frame.fixed.shaped
    exact Part.shaped_of_fixed (p.eraseCompletes_fixed d _ _ fun r q => by simp) h
  case reclaimEraseComplete d pass =>
    show (p.eraseCompletes d (· == .reclaim) (Part.reclaimEnds d pass)).frame.fixed.shaped
    exact Part.shaped_of_fixed (p.eraseCompletes_fixed d _ _ fun r q => by simp) h
  all_goals first
    | (simp [Instr.commandFrame] at hf; done)
    | exact Part.shaped_of_fixed (p := p) (by simp [effectOf, exec, execPollSent, execReceivedCharacter, execReplyExpiry, execInvalidAnswer, execAnswer, execAsk, execFind, execMine, execDrop, execKey, execJoin, execLeave, execLateAnswer, execStrayFrame, execOpenSent, execClaim, execBadClaim, execGrantSent, execBreak, execBreakEnd, execHoldExpiry, execGapExpiry, execIdentification, execLibwpChange, execInputFrameStart, execInternalFrameStart, execVideoWatchExpiry, execCardExpiry, execAudioFrame, execWindowEnd, execDieWatchExpiry]) h

theorem effect_keeps_shape (i : Instr) (p : Part) (h : p.frame.fixed.shaped) : (effectOf i p).frame.fixed.shaped := by
  cases hf : i.commandFrame with
  | none => exact effect_keeps_shape_of_event hf p h
  | some f =>
    obtain ⟨body, hb, he⟩ := effect_of_commandFrame hf
    rw [he]
    exact p.takeCommand_shaped _ _ (commandOf_shaped hb p h) h

/-- Settles O58. -/
theorem stepKeepsShapeAndGlyphs : Obligations.StepKeepsShapeAndGlyphs :=
  fun _ _ hs hg h => step_keeps (inv := fun p => p.frame.fixed.shaped) effect_keeps_shape ⟨hs, hg⟩ h

/-! ### Right after reset -/

/-- Settles O60: nothing waits, nothing is live and no timer of the play context runs. -/
theorem resetMeetsInvariants : Obligations.ResetMeetsInvariants := by
  have hport : Port.reset.wf := by simp [Port.wf, Port.reset]
  have hplay : Play.reset.wf := by simp [Play.wf, Play.reset]
  refine ⟨hport, ⟨rfl, rfl, rfl, rfl⟩, rfl, ⟨hplay, List.nodup_nil, ?_⟩, by decide, List.nodup_nil, ?_, by decide⟩
  · exact fun e he => absurd he List.not_mem_nil
  · exact fun e he => absurd he List.not_mem_nil

end Sys2Proof.Machine
end

