-- ==== Sys2Proof/Proofs/BookFrame.lean ====
section
/-! PROOFS. Proofs/BookFrame.lean: the operations that leave the Request Book alone, one lemma for each, in the order of the model. With Laws/Frame*.lean
they give what a sequence of operations keeps of the book and the play context together. -/

namespace Sys2Proof.Machine

/-! ### Library.lean -/

@[simp] theorem Part.startOp_book (p : Part) (d : Nat) (r : Request) : (p.startOp d r).book = p.book := by
  simp [Part.startOp]

@[simp] theorem Part.request_book (p : Part) (d : Nat) (r : Request) : (p.request d r).book = p.book := by
  unfold Part.request
  split <;> (try split) <;> simp

@[simp] theorem Part.grant_book (p : Part) (d : Nat) : (p.grant d).book = p.book := by
  unfold Part.grant
  (repeat' split) <;> simp

@[simp] theorem Part.grantIfIdle_book (p : Part) (d : Nat) : (p.grantIfIdle d).book = p.book := by
  unfold Part.grantIfIdle
  split <;> simp

@[simp] theorem Part.opEnds_book (p : Part) (d : Nat) : (p.opEnds d).book = p.book := by simp [Part.opEnds]

@[simp] theorem Part.giveUp_book (p : Part) (d : Nat) (mine : Requester → Bool) :
    (p.giveUp d mine).book = p.book := by simp [Part.giveUp]

@[simp] theorem Part.setBlock_book (p : Part) (d b : Nat) (st : BlockState) :
    (p.setBlock d b st).book = p.book := by simp [Part.setBlock]

@[simp] theorem Part.reclaimJoin_book (p : Part) (d b : Nat) : (p.reclaimJoin d b).book = p.book := by
  unfold Part.reclaimJoin
  dsimp only
  split <;> simp

@[simp] theorem Part.reclaimPush_book (p : Part) (d b : Nat) : (p.reclaimPush d b).book = p.book := by
  simp [Part.reclaimPush]

@[simp] theorem Part.reclaimLeave_book (p : Part) (d b : Nat) : (p.reclaimLeave d b).book = p.book := rfl

@[simp] theorem Part.recordFault_book (p : Part) (kind : FaultKind) (d b : Nat) :
    (p.recordFault kind d b).book = p.book := rfl

@[simp] theorem Part.pageReadEffects_book (p : Part) (d b : Nat) (outcome : ReadOutcome) :
    (p.pageReadEffects d b outcome).book = p.book := by
  unfold Part.pageReadEffects
  split <;> simp

@[simp] theorem Part.operationEnds_book (p : Part) (kind : OperationKind) (song : Option Nat) (ending : OperationEnd) :
    (p.operationEnds kind song ending).book = p.book := rfl

/-! ### Catalog.lean -/

@[simp] theorem Part.addPin_book (p : Part) (song : Nat) : (p.addPin song).book = p.book := rfl

@[simp] theorem Part.switchTo_book (p : Part) (song : Nat) (blk : SongBlock) :
    (p.switchTo song blk).book = p.book := by
  unfold Part.switchTo
  dsimp only
  (repeat' split) <;> simp

@[simp] theorem Part.release_book (p : Part) (song : Nat) : (p.release song).book = p.book := by
  unfold Part.release
  split <;> simp

@[simp] theorem Part.installFails_book (p : Part) (ending : OperationEnd) :
    (p.installFails ending).book = p.book := by
  unfold Part.installFails
  split <;> simp

@[simp] theorem Part.installRequest_book (p : Part) (r : Install) (op : InstallOp) (page : Nat) (data : List Byte) :
    (p.installRequest r op page data).book = p.book := by
  unfold Part.installRequest
  dsimp only
  split <;> simp

@[simp] theorem Part.installProceed_book (p : Part) : (p.installProceed).book = p.book := by
  unfold Part.installProceed
  dsimp only
  (repeat' split) <;> simp

@[simp] theorem Part.installCompletes_book (p : Part) (r : Install) :
    (p.installCompletes r).book = p.book := by
  unfold Part.installCompletes
  dsimp only
  (repeat' split) <;> simp

@[simp] theorem Part.completeMount_book (p : Part) : (p.completeMount).book = p.book := by
  simp [Part.completeMount]

@[simp] theorem Part.failMount_book (p : Part) : (p.failMount).book = p.book := rfl

@[simp] theorem Part.requestScan_book (p : Part) (d block page : Nat) :
    (p.requestScan d block page).book = p.book := by simp [Part.requestScan]

@[simp] theorem Part.beginScan_book (p : Part) (d : Nat) : (p.beginScan d).book = p.book := by
  unfold Part.beginScan
  split <;> simp

@[simp] theorem Part.beginScans_book (p : Part) : (p.beginScans).book = p.book := by
  unfold Part.beginScans
  split <;> simp

@[simp] theorem Part.mountIfScanned_book (p : Part) : (p.mountIfScanned).book = p.book := by
  unfold Part.mountIfScanned
  dsimp only
  split <;> simp

@[simp] theorem Part.judgeBlock_book (p : Part) (d block : Nat) (j : Judgement) :
    (p.judgeBlock d block j).book = p.book := by
  unfold Part.judgeBlock
  split <;> simp

/-! ### Book.lean -/

@[simp] theorem Part.setPosition_book (p : Part) (slot : Nat) : (p.setPosition slot).book = p.book := by
  simp [Part.setPosition]

@[simp] theorem Part.pushStruck_book (p : Part) (slot : Nat) (item : StruckItem) :
    (p.pushStruck slot item).book = p.book := by
  unfold Part.pushStruck
  split <;> simp

@[simp] theorem Part.setCued_book (p : Part) (slot ticket : Nat) : (p.setCued slot ticket).book = p.book := by
  simp [Part.setCued]

@[simp] theorem Part.setScore_book (p : Part) (slot : Nat) (notice : ScoreNotice) :
    (p.setScore slot notice).book = p.book := by simp [Part.setScore]

@[simp] theorem Part.placeReply_book (p : Part) (slot : Nat) (reply : Reply) :
    (p.placeReply slot reply).book = p.book := by simp [Part.placeReply]

@[simp] theorem Part.emptyStore_book (p : Part) (slot : Nat) : (p.emptyStore slot).book = p.book := by
  simp [Part.emptyStore]

/-! ### Reader.lean -/

@[simp] theorem Part.underrun_book (p : Part) : (p.underrun).book = p.book := by
  unfold Part.underrun
  split <;> simp

@[simp] theorem Part.countLateLine_book (p : Part) : (p.countLateLine).book = p.book := by
  simp [Part.countLateLine]

@[simp] theorem Part.countUnknownWindow_book (p : Part) : (p.countUnknownWindow).book = p.book := by
  simp [Part.countUnknownWindow]

@[simp] theorem Part.placeLine_book (p : Part) (l : LineRecord) : (p.placeLine l).book = p.book := by
  unfold Part.placeLine
  dsimp only
  split <;> simp

theorem Part.place_book (p : Part) (r : Record) (q : Part) (h : p.place r = some q) : q.book = p.book := by
  cases r <;> simp only [Part.place] at h <;> (repeat' split at h) <;> simp at h <;> subst h <;> simp

@[simp] theorem Part.placeOrHold_book (p : Part) (r : Record) : (p.placeOrHold r).book = p.book := by
  unfold Part.placeOrHold
  split
  next q hq => exact p.place_book r q hq
  · rfl

@[simp] theorem Part.countSkipped_book (p : Part) : (p.countSkipped).book = p.book := rfl

@[simp] theorem Part.takeRecord_book (p : Part) (r : Record) : (p.takeRecord r).book = p.book := by
  unfold Part.takeRecord
  split <;> simp

@[simp] theorem Part.requestStream_book (p : Part) (blk : SongBlock) (page : Nat) :
    (p.requestStream blk page).book = p.book := by simp [Part.requestStream]

@[simp] theorem Part.refill_book (p : Part) (blk : SongBlock) (first : Bool) :
    (p.refill blk first).book = p.book := by
  unfold Part.refill
  split <;> simp

@[simp] theorem Part.decodeOne_book (p : Part) (blk : SongBlock) (first : Bool) (k : Nat) (data : List Byte) (offset : Nat) :
    (p.decodeOne blk first k data offset).book = p.book := by
  unfold Part.decodeOne
  split <;> simp

theorem Part.readerStep_book (p : Part) (blk : SongBlock) (q : Part) (h : p.readerStep blk = some q) :
    q.book = p.book := by
  unfold Part.readerStep at h
  repeat' split at h
  all_goals first | (simp at h; done) | (simp only [Option.some.injEq] at h; subst h; simp)

@[simp] theorem Part.readerLoop_book (blk : SongBlock) (fuel : Nat) (p : Part) :
    (Part.readerLoop blk fuel p).book = p.book := by
  induction fuel generalizing p with
  | zero => rfl
  | succ fuel ih =>
    unfold Part.readerLoop
    split
    · split
      next q hq => rw [ih, p.readerStep_book blk q hq]
      · rfl
    · rfl

@[simp] theorem Part.readerRun_book (p : Part) : (p.readerRun).book = p.book := by
  unfold Part.readerRun
  split <;> simp

@[simp] theorem Part.readerResume_book (p : Part) : (p.readerResume).book = p.book := by
  unfold Part.readerResume
  split
  · split
    · rfl
    next q hq => simp [p.place_book _ q hq]
  · rfl

@[simp] theorem Part.readerEmpty_book (p : Part) : (p.readerEmpty).book = p.book := rfl

@[simp] theorem Part.readerStart_book (p : Part) (blk : SongBlock) : (p.readerStart blk).book = p.book := by
  simp [Part.readerStart]

/-! ### Compositor.lean -/

@[simp] theorem Part.countLayout_book (p : Part) (codes : List Nat) : (p.countLayout codes).book = p.book := rfl

@[simp] theorem Part.titleDown_book (p : Part) : (p.titleDown).book = p.book := rfl

@[simp] theorem Part.retireLine_book (p : Part) (ordinal : Nat) : (p.retireLine ordinal).book = p.book := by
  simp [Part.retireLine]

@[simp] theorem Part.clearRow_book (p : Part) (upper : Bool) (q : QueuedLine) :
    (p.clearRow upper q).book = p.book := by simp [Part.clearRow]

@[simp] theorem Part.takeLine_book (p : Part) (upper : Bool) (q : QueuedLine) :
    (p.takeLine upper q).book = p.book := by
  unfold Part.takeLine
  split <;> simp

@[simp] theorem Part.rowStep_book (p : Part) (upper : Bool) : (p.rowStep upper).1.book = p.book := by
  unfold Part.rowStep
  (repeat' split) <;> simp

@[simp] theorem Part.rowLoop_book (upper : Bool) (fuel : Nat) (p : Part) :
    (Part.rowLoop upper fuel p).book = p.book := by
  induction fuel generalizing p with
  | zero => rfl
  | succ fuel ih =>
    have h := p.rowStep_book upper
    unfold Part.rowLoop
    split <;> rename_i heq <;> simp [heq] at h <;> simp [ih, h]

@[simp] theorem Part.rowsUp_book (p : Part) : (p.rowsUp).book = p.book := by simp [Part.rowsUp]

@[simp] theorem Part.nudgeRowStep_book (p : Part) (upper : Bool) : (p.nudgeRowStep upper).1.book = p.book := by
  unfold Part.nudgeRowStep
  (repeat' split) <;> simp

@[simp] theorem Part.nudgeRowLoop_book (upper : Bool) (fuel : Nat) (p : Part) :
    (Part.nudgeRowLoop upper fuel p).book = p.book := by
  induction fuel generalizing p with
  | zero => rfl
  | succ fuel ih =>
    have h := p.nudgeRowStep_book upper
    unfold Part.nudgeRowLoop
    split <;> rename_i heq <;> simp [heq] at h <;> simp [ih, h]

@[simp] theorem Part.nudgeRows_book (p : Part) : (p.nudgeRows).book = p.book := by simp [Part.nudgeRows]

@[simp] theorem Part.clearRows_book (p : Part) : (p.clearRows).book = p.book := rfl

@[simp] theorem Part.resetRows_book (p : Part) : (p.resetRows).book = p.book := rfl

@[simp] theorem Part.promotionCards_book (p : Part) : (p.promotionCards).book = p.book := rfl

@[simp] theorem Part.titleArrives_book (p : Part) (page : List Byte) :
    (p.titleArrives page).book = p.book := rfl

@[simp] theorem Part.cardDown_book (p : Part) : (p.cardDown).book = p.book := rfl

@[simp] theorem Part.showCard_book (p : Part) (seats : List SeatResult) :
    (p.showCard seats).book = p.book := by
  unfold Part.showCard
  dsimp only
  split <;> simp

@[simp] theorem Part.draw_book (p : Part) : (p.draw).book = p.book := rfl

@[simp] theorem Part.frameStart_book (p : Part) : (p.frameStart).book = p.book := by
  unfold Part.frameStart
  dsimp only
  (repeat' split) <;> simp

/-! ### Scorer.lean -/

@[simp] theorem Part.armSeats_book (p : Part) (singers parts : Nat) (claims : List (Option Nat)) :
    (p.armSeats singers parts claims).book = p.book := by simp [Part.armSeats]

@[simp] theorem Part.startSeats_book (p : Part) : (p.startSeats).book = p.book := by simp [Part.startSeats]

@[simp] theorem Part.doneSeats_book (p : Part) : (p.doneSeats).book = p.book := by simp [Part.doneSeats]

@[simp] theorem Part.idleSeats_book (p : Part) : (p.idleSeats).book = p.book := by simp [Part.idleSeats]

@[simp] theorem Part.clearSeats_book (p : Part) : (p.clearSeats).book = p.book := by simp [Part.clearSeats]

@[simp] theorem Part.bindSeat_book (p : Part) (seat : Nat) (channel : Option Nat) :
    (p.bindSeat seat channel).book = p.book := by simp [Part.bindSeat]

@[simp] theorem Part.activate_book (p : Part) : (p.activate).book = p.book := by
  unfold Part.activate
  dsimp only
  (repeat' split) <;> simp

@[simp] theorem Part.addWindow_book (p : Part) (seat : Nat) (n : QueuedNote) (w : WindowClass) :
    (p.addWindow seat n w).book = p.book := by simp [Part.addWindow]

@[simp] theorem Part.evaluateSeat_book (estimates : List (Option Config.Pitch)) (p : Part) (seat : Nat) :
    (Part.evaluateSeat estimates p seat).book = p.book := by
  unfold Part.evaluateSeat
  dsimp only
  (repeat' split) <;> simp

@[simp] theorem Part.evaluateWindow_book (p : Part) (estimates : List (Option Config.Pitch)) :
    (p.evaluateWindow estimates).book = p.book := by
  unfold Part.evaluateWindow
  split <;> (try split) <;> simp

@[simp] theorem Part.retireNotes_book (p : Part) : (p.retireNotes).book = p.book :=
  foldl_keeps Part.book (fun p n => p.mapSeats (scoreSeat n)) (fun _ _ => rfl) _ p

@[simp] theorem Part.excludeNotes_book (p : Part) : (p.excludeNotes).book = p.book := rfl

@[simp] theorem Part.dropBeats_book (p : Part) : (p.dropBeats).book = p.book := rfl

@[simp] theorem Part.writeResult_book (p : Part) (ticket song edition : Nat) (kind : EndKind) :
    (p.writeResult ticket song edition kind).book = p.book := by simp [Part.writeResult]

@[simp] theorem Part.scoreNotices_book (p : Part) (e : Entry) : (p.scoreNotices e).book = p.book := by
  unfold Part.scoreNotices
  refine foldl_keeps Part.book _ (fun a c => ?_) _ _
  split <;> simp

/-! ### Play.lean -/

@[simp] theorem Part.cueNotices_book (p : Part) (e : Entry) : (p.cueNotices e).book = p.book := by
  unfold Part.cueNotices
  exact foldl_keeps Part.book _ (fun a slot => a.setCued_book slot e.ticket) _ _

@[simp] theorem Part.endDisplay_book (p : Part) : (p.endDisplay).book = p.book := by
  unfold Part.endDisplay
  dsimp only
  split <;> simp

@[simp] theorem Part.measure_book (p : Part) : p.measure.1.book = p.book := by
  simp [Part.measure]

/-! ### Line.lean -/

@[simp] theorem Part.sendFrame_book (p : Part) (f : TxFrame) : (p.sendFrame f).book = p.book := by
  unfold Part.sendFrame
  split <;> simp

@[simp] theorem Part.dropDue_book (p : Part) : (p.dropDue).book = p.book := by
  unfold Part.dropDue
  split <;> simp

@[simp] theorem Part.dropStaleCued_book (p : Part) (slot : Nat) : (p.dropStaleCued slot).book = p.book := by
  unfold Part.dropStaleCued
  split <;> (try split) <;> simp

@[simp] theorem Part.offerNotice_book (p : Part) (slot : Nat) : (p.offerNotice slot).1.book = p.book := by
  unfold Part.offerNotice
  dsimp only
  split <;> simp

@[simp] theorem Part.offer_book (p : Part) (slot : Nat) : (p.offer slot).1.book = p.book := by
  unfold Part.offer
  split <;> simp

@[simp] theorem Part.pollTurn_book (p : Part) (slot : Nat) : (p.pollTurn slot).book = p.book := by
  unfold Part.pollTurn
  simp

@[simp] theorem Part.openWindow_book (p : Part) : (p.openWindow).book = p.book := by simp [Part.openWindow]

@[simp] theorem Part.idleInterval_book (p : Part) : (p.idleInterval).book = p.book := rfl

@[simp] theorem Part.startRound_book (p : Part) : (p.startRound).book = p.book := by
  unfold Part.startRound
  dsimp only
  (repeat' split) <;> simp

@[simp] theorem Part.nextTurn_book (p : Part) : (p.nextTurn).book = p.book := by
  unfold Part.nextTurn
  dsimp only
  (repeat' split) <;> simp

@[simp] theorem Part.miss_book (p : Part) (slot : Nat) : (p.miss slot).book = p.book := by
  unfold Part.miss
  dsimp only
  split <;> simp

@[simp] theorem Part.strayRest_book (p : Part) : (p.strayRest).book = p.book := rfl

@[simp] theorem Part.abandonTurn_book (p : Part) : (p.abandonTurn).book = p.book := by
  unfold Part.abandonTurn
  split <;> simp

@[simp] theorem Part.abandonIfServing_book (p : Part) (slot : Nat) :
    (p.abandonIfServing slot).book = p.book := by
  unfold Part.abandonIfServing
  split <;> (try split) <;> simp

@[simp] theorem Part.closeWindow_book (p : Part) : (p.closeWindow).book = p.book := by
  unfold Part.closeWindow
  split <;> simp

@[simp] theorem Part.silence_book (p : Part) : (p.silence).book = p.book := rfl

@[simp] theorem Part.enableLine_book (p : Part) (on : Bool) : (p.enableLine on).book = p.book := by
  unfold Part.enableLine
  split <;> simp

@[simp] theorem Part.breakLine_book (p : Part) : (p.breakLine).book = p.book := by simp [Part.breakLine]

@[simp] theorem Part.endBreak_book (p : Part) : (p.endBreak).book = p.book := by simp [Part.endBreak]

@[simp] theorem Part.reclaimSlot_book (p : Part) (n : Nat) : (p.reclaimSlot n).book = p.book := by
  unfold Part.reclaimSlot
  split <;> simp

@[simp] theorem Part.giveSlot_book (p : Part) (n : Nat) (serial : List Byte) :
    (p.giveSlot n serial).book = p.book := by simp [Part.giveSlot]

@[simp] theorem Part.decideClaim_book (p : Part) (serial : List Byte) : (p.decideClaim serial).1.book = p.book := by
  unfold Part.decideClaim
  (repeat' split) <;> simp

@[simp] theorem Part.takeClaim_book (p : Part) (serial : List Byte) : (p.takeClaim serial).book = p.book := by
  unfold Part.takeClaim
  simp

/-! ### Messages.lean -/

@[simp] theorem Part.findRead_book (p : Part) (slot : Nat) (e : CatEntry) :
    (p.findRead slot e).book = p.book := by
  unfold Part.findRead
  split <;> simp

@[simp] theorem Part.takeFind_book (p : Part) (slot song : Nat) : (p.takeFind slot song).book = p.book := by
  unfold Part.takeFind
  (repeat' split) <;> simp

@[simp] theorem Part.takeMine_book (p : Part) (slot : Nat) : (p.takeMine slot).book = p.book := by
  simp [Part.takeMine]

@[simp] theorem Part.hearAnswer_book (p : Part) (slot : Nat) (carried : Option Carried) :
    (p.hearAnswer slot carried).book = p.book := by
  unfold Part.hearAnswer
  dsimp only
  (repeat' split) <;> simp

@[simp] theorem Part.badAnswer_book (p : Part) (slot : Nat) (chars : List RxChar) :
    (p.badAnswer slot chars).book = p.book := by
  unfold Part.badAnswer
  split <;> simp

@[simp] theorem Part.judgeClaim_book (p : Part) (chars : List RxChar) :
    (p.judgeClaim chars).book = p.book := by
  unfold Part.judgeClaim
  dsimp only
  (repeat' split) <;> simp

@[simp] theorem Part.countLate_book (p : Part) : (p.countLate).book = p.book := rfl

@[simp] theorem Part.countStray_book (p : Part) : (p.countStray).book = p.book := rfl

@[simp] theorem Part.countSpoiled_book (p : Part) (c : RxChar) : (p.countSpoiled c).book = p.book := by
  unfold Part.countSpoiled
  (repeat' split) <;> simp

@[simp] theorem Part.firstChar_book (p : Part) : (p.firstChar).book = p.book := rfl

/-! ### LineEvents.lean -/

@[simp] theorem Part.txLeaves_book (p : Part) : (p.txLeaves).book = p.book := rfl

@[simp] theorem Part.loadReply_book (p : Part) (ms : Nat) : (p.loadReply ms).book = p.book := rfl

@[simp] theorem Part.pollSent_book (p : Part) : (p.pollSent).book = p.book := by
  unfold Part.pollSent
  split <;> (try split) <;> simp

@[simp] theorem Part.openSent_book (p : Part) : (p.openSent).book = p.book := by
  unfold Part.openSent
  split <;> (try split) <;> simp

@[simp] theorem Part.grantSent_book (p : Part) : (p.grantSent).book = p.book := by
  unfold Part.grantSent
  split <;> (try split) <;> simp

@[simp] theorem Part.replyExpires_book (p : Part) : (p.replyExpires).book = p.book := by
  unfold Part.replyExpires
  split <;> (try split) <;> simp

@[simp] theorem Part.replyExpiry_book (p : Part) : (p.replyExpiry).book = p.book :=
  Part.expireAt_keeps Part.book 1 _ _ Part.replyExpires_book p

@[simp] theorem Part.breakBegins_book (p : Part) : (p.breakBegins).book = p.book := by
  unfold Part.breakBegins
  split <;> simp

@[simp] theorem Part.breakEnds_book (p : Part) : (p.breakEnds).book = p.book := by
  unfold Part.breakEnds
  split <;> simp

@[simp] theorem Part.frameBetween_book (p : Part) (chars : List RxChar) : (p.frameBetween chars).book = p.book := by
  have h := foldl_keeps Part.book Part.countSpoiled (fun (a : Part) c => a.countSpoiled_book c) chars p
  unfold Part.frameBetween
  dsimp only
  split <;> simpa using h

/-! ### LineCommands.lean -/

@[simp] theorem Part.clearErrorCounts_book (p : Part) : (p.clearErrorCounts).book = p.book := by
  simp [Part.clearErrorCounts]

/-! ### CatalogCommands.lean -/

@[simp] theorem Part.installOpen_book (p : Part) (a : InstallParams) (d : Nat) :
    (p.installOpen a d).book = p.book := by simp [Part.installOpen]

@[simp] theorem Part.abandonInstall_book (p : Part) (r : Install) : (p.abandonInstall r).book = p.book := by
  simp [Part.abandonInstall]

/-! ### PlayCommands.lean -/

@[simp] theorem Part.clearPresenceChanged_book (p : Part) : (p.clearPresenceChanged).book = p.book := by
  simp [Part.clearPresenceChanged]

@[simp] theorem Part.setTime_book (p : Part) (steps : Nat) : (p.setTime steps).book = p.book := rfl

/-! ### DisplayCommands.lean -/

@[simp] theorem Part.clearDisplayCounts_book (p : Part) : (p.clearDisplayCounts).book = p.book := rfl

@[simp] theorem Part.markRead_book (p : Part) : (p.markRead).book = p.book := rfl

/-! ### PortCommands.lean -/

@[simp] theorem Part.clearReported_book (p : Part) : (p.clearReported).book = p.book := by
  unfold Part.clearReported
  split <;> (try split) <;> simp

@[simp] theorem Part.formatActs_book (p : Part) : (p.formatActs).book = p.book := by
  unfold Part.formatActs
  split <;> simp

@[simp] theorem Part.clearDisplay_book (p : Part) : (p.clearDisplay).book = p.book := rfl

@[simp] theorem Part.clearScorer_book (p : Part) : (p.clearScorer).book = p.book := by simp [Part.clearScorer]

@[simp] theorem Part.clearRoomSources_book (p : Part) : (p.clearRoomSources).book = p.book := rfl

/-! ### DieEvents.lean -/

@[simp] theorem Part.headerTaken_book (p : Part) (song : HeldSong) (page : List Byte) :
    (p.headerTaken song page).book = p.book := by simp [Part.headerTaken]

@[simp] theorem Part.pageTaken_book (p : Part) (song : HeldSong) (page : Nat) (data : Option (List Byte)) :
    (p.pageTaken song page data).book = p.book := by
  unfold Part.pageTaken
  split <;> simp

@[simp] theorem Part.findAnswered_book (p : Part) (slot song : Nat) (page : Option (List Byte)) :
    (p.findAnswered slot song page).book = p.book := by
  unfold Part.findAnswered
  split <;> simp

@[simp] theorem Part.scanArrives_book (d : Nat) (read : PageRead) (x : Request) (p : Part) :
    (Part.scanArrives d read x p).book = p.book := by
  unfold Part.scanArrives
  split <;> (try split) <;> simp

@[simp] theorem Part.identified_book (p : Part) (d : Nat) (present : Bool) :
    (p.identified d present).book = p.book := by
  unfold Part.identified
  dsimp only
  (repeat' split) <;> simp

@[simp] theorem Part.identifies_book (p : Part) (d : Nat) (report : IdentReport) :
    (p.identifies d report).book = p.book := by
  unfold Part.identifies
  split <;> simp

@[simp] theorem Part.setMark_book (p : Part) (n : Nat) : (p.setMark n).book = p.book := rfl

@[simp] theorem Part.installNext_book (p : Part) (r : Install) : (p.installNext r).book = p.book := by
  simp [Part.installNext]

@[simp] theorem Part.installPassed_book (p : Part) (r : Install) (op : InstallOp) :
    (p.installPassed r op).book = p.book := by
  unfold Part.installPassed
  split <;> (try split) <;> simp

@[simp] theorem Part.installOpFails_book (p : Part) (d : Nat) (x : Request) (op : InstallOp) :
    (p.installOpFails d x op).book = p.book := by
  unfold Part.installOpFails
  split <;> simp

@[simp] theorem Part.installOpEnds_book (p : Part) (d : Nat) (pass : Bool) (x : Request) :
    (p.installOpEnds d pass x).book = p.book := by
  unfold Part.installOpEnds
  (repeat' split) <;> simp

@[simp] theorem Part.removeCatEntry_book (p : Part) (song : Nat) : (p.removeCatEntry song).book = p.book := rfl

@[simp] theorem Part.withdrawEnds_book (d : Nat) (pass : Bool) (r : Request) (p : Part) :
    (Part.withdrawEnds d pass r p).book = p.book := by
  unfold Part.withdrawEnds
  split <;> (try split) <;> simp

@[simp] theorem Part.reclaimEnds_book (d : Nat) (pass : Bool) (r : Request) (p : Part) :
    (Part.reclaimEnds d pass r p).book = p.book := by
  unfold Part.reclaimEnds
  split <;> simp

@[simp] theorem Part.dieStops_book (p : Part) (d : Nat) : (p.dieStops d).book = p.book := by simp [Part.dieStops]

@[simp] theorem Part.catalogFaults_book (p : Part) (d : Nat) : (p.catalogFaults d).book = p.book := by
  unfold Part.catalogFaults
  exact (foldl_keeps Part.book _ (fun a b => a.reclaimJoin_book d b) _ _).trans rfl

@[simp] theorem Part.installOnDieFails_book (p : Part) (d : Nat) : (p.installOnDieFails d).book = p.book := by
  unfold Part.installOnDieFails
  split <;> simp

@[simp] theorem Part.mountingFault_book (p : Part) (d block : Nat) :
    (p.mountingFault d block).book = p.book := by
  unfold Part.mountingFault
  split <;> simp

@[simp] theorem Part.protectChanges_book (p : Part) (high : Bool) : (p.protectChanges high).book = p.book := by
  unfold Part.protectChanges
  dsimp only
  split <;> simp

/-! ### VideoEvents.lean -/

@[simp] theorem Part.loadWatch_book (p : Part) : (p.loadWatch).book = p.book := rfl

@[simp] theorem Part.openFrame_book (p : Part) (b : Bool) : (p.openFrame b).book = p.book := rfl

@[simp] theorem Part.setRun_book (p : Part) (n : Nat) : (p.setRun n).book = p.book := rfl

@[simp] theorem Part.regainVideo_book (p : Part) : (p.regainVideo).book = p.book := by simp [Part.regainVideo]

@[simp] theorem Part.inputLost_book (p : Part) (ended : InputFrame) : (p.inputLost ended).book = p.book := by
  unfold Part.inputLost
  (repeat' split) <;> simp

@[simp] theorem Part.inputPass_book (p : Part) (ended : InputFrame) : (p.inputPass ended).book = p.book := by
  unfold Part.inputPass
  split <;> simp

@[simp] theorem Part.inputFrame_book (p : Part) (ended : InputFrame) : (p.inputFrame ended).book = p.book := by
  unfold Part.inputFrame
  split <;> simp

@[simp] theorem Part.internalFrame_book (p : Part) : (p.internalFrame).book = p.book := by
  unfold Part.internalFrame
  split <;> simp

@[simp] theorem Part.videoLost_book (p : Part) : (p.videoLost).book = p.book := by
  unfold Part.videoLost
  split <;> simp

@[simp] theorem Part.videoWatchExpiry_book (p : Part) : (p.videoWatchExpiry).book = p.book :=
  Part.expireAt_keeps Part.book 1 _ _ Part.videoLost_book p

@[simp] theorem Part.cardExpiry_book (p : Part) : (p.cardExpiry).book = p.book :=
  Part.expireAt_keeps Part.book 1 _ _ Part.cardDown_book p

end Sys2Proof.Machine
end

