-- ==== Sys2Proof/Proofs/Tickets.lean ====
section
/-! PROOFS. Proofs/Tickets.lean: the ticket an add issues (R4), and the checks of an add in their order (R10, Table 1-3). -/

namespace Sys2Proof.Machine

/-! ### The ticket counter (R4) -/

theorem ticketInRange_iff (t : Nat) : ticketInRange t = true ↔ 1 ≤ t ∧ t ≤ 65535 := by
  simp [ticketInRange]

/-- R4: the counter runs through the tickets from 1 to 65535 in a circle. -/
theorem nextTicket_iterate {v : Nat} (hv : ticketInRange v = true) (j : Nat) : nextTicket^[j] v = (v - 1 + j) % 65535 + 1 := by
  rw [ticketInRange_iff] at hv
  induction j with
  | zero => simp only [Function.iterate_zero, id]; omega
  | succ j ih =>
    rw [Function.iterate_succ_apply', ih, nextTicket]
    split <;> omega

theorem ticketInRange_nextTicket_iterate {v : Nat} (hv : ticketInRange v = true) (j : Nat) :
    ticketInRange (nextTicket^[j] v) = true := by
  rw [nextTicket_iterate hv, ticketInRange_iff]
  omega

theorem ticketInRange_nextTicket {v : Nat} (hv : ticketInRange v = true) : ticketInRange (nextTicket v) = true :=
  ticketInRange_nextTicket_iterate hv 1

/-- R4: the search stops at the first value that no live entry carries, or when its fuel is spent. -/
theorem findTicket_eq_iterate (entries : List Entry) (fuel v : Nat) :
    ∃ k ≤ fuel, findTicket entries fuel v = nextTicket^[k] v ∧ (∀ j < k, ∃ e ∈ entries, e.ticket = nextTicket^[j] v) ∧
      (k < fuel → ∀ e ∈ entries, e.ticket ≠ nextTicket^[k] v) := by
  induction fuel generalizing v with
  | zero => exact ⟨0, le_refl 0, rfl, by simp, by simp⟩
  | succ fuel ih =>
    by_cases htaken : ∃ e ∈ entries, e.ticket = v
    · obtain ⟨k, hk, hfind, hbefore, hfree⟩ := ih (nextTicket v)
      refine ⟨k + 1, by omega, ?_, ?_, fun h => hfree (by omega)⟩
      · simpa [findTicket, htaken] using hfind
      · intro j hj
        cases j with
        | zero => exact htaken
        | succ j => exact hbefore j (by omega)
    · refine ⟨0, by omega, ?_, by simp, fun _ e he h => htaken ⟨e, he, h⟩⟩
      simp [findTicket, htaken]

/-- R4: a book of fewer than 64 entries cannot carry 66 tickets in a row, so the search ends at a free one. -/
theorem issueTicket_spec {b : Book} (hcounter : ticketInRange b.counter = true) (hroom : b.entries.length < 64) :
    (∀ e ∈ b.entries, e.ticket ≠ issueTicket b) ∧ ticketInRange (issueTicket b) = true := by
  obtain ⟨k, hk, hfind, hbefore, hfree⟩ := findTicket_eq_iterate b.entries 65 b.counter
  have hissue : issueTicket b = nextTicket^[k] b.counter := hfind
  rw [hissue]
  refine ⟨?_, ticketInRange_nextTicket_iterate hcounter k⟩
  have hlt : k < 65 := by
    by_contra hge
    have hsub : (List.range 65).map (fun j => nextTicket^[j] b.counter) ⊆ b.entries.map Entry.ticket := by
      intro t ht
      obtain ⟨j, hj, rfl⟩ := List.mem_map.mp ht
      obtain ⟨e, he, heq⟩ := hbefore j (by have := List.mem_range.mp hj; omega)
      exact List.mem_map.mpr ⟨e, he, heq⟩
    have hnodup : ((List.range 65).map fun j => nextTicket^[j] b.counter).Nodup := by
      refine List.Nodup.map_on (fun i hi j hj hij => ?_) List.nodup_range
      rw [nextTicket_iterate hcounter, nextTicket_iterate hcounter] at hij
      have := List.mem_range.mp hi
      have := List.mem_range.mp hj
      omega
    have := (hnodup.subperm hsub).length_le
    simp only [List.length_map, List.length_range] at this
    omega
  exact hfree hlt

theorem issueTicket_of_free {b : Book} (h : ∀ e ∈ b.entries, e.ticket ≠ b.counter) : issueTicket b = b.counter := by
  have hnone : ¬∃ e ∈ b.entries, e.ticket = b.counter := fun ⟨e, he, heq⟩ => h e he heq
  simp [issueTicket, findTicket, hnone]

/-! ### The shared add (R10) -/

theorem Part.add_of_cause {p : Part} {a : AddInput} {cause : Cause} (h : p.addCheck a = some cause) : p.add a = (p, .inl cause) := by
  simp [Part.add, h]

theorem Part.add_of_accepted {p : Part} {a : AddInput} (h : p.addCheck a = none) :
    p.add a = (p.insertNew a, .inr (issueTicket p.book, (positionOf (p.insertNew a).book.entries (issueTicket p.book)).getD 0)) := by
  simp [Part.add, h]

/-- R10: what an accepted add makes of the book. -/
theorem Part.insertNew_book (p : Part) (a : AddInput) :
    (p.insertNew a).book = { p.book with
      entries := insertWaiting p.book.entries (placement p.settings.orderMode p.book.entries a.origin a.front).2 (p.newEntry a)
      counter := nextTicket (issueTicket p.book) } := by
  unfold Part.insertNew
  dsimp only
  split <;> simp [Part.addPin, Part.newEntry]

/-- Settles O16. -/
theorem issuedTicketIsFresh : Obligations.IssuedTicketIsFresh := by
  refine ⟨fun b hb hroom => ?_, fun p a h => ?_⟩
  · obtain ⟨-, -, -, hcounter⟩ := hb
    obtain ⟨hfresh, hrange⟩ := issueTicket_spec hcounter hroom
    exact ⟨hfresh, hrange, issueTicket_of_free, rfl, fun v hv => by simp [nextTicket, hv]⟩
  · rw [Part.add_of_accepted h]
    exact ⟨by rw [Part.insertNew_book], _, rfl⟩

/-! ### The checks of an add (Table 1-3) -/

/-- Table 1-3, first row: the ranges of an add. -/
def AddInput.inRange (a : AddInput) : Prop :=
  1 ≤ a.song ∧ a.song ≤ 999999 ∧ 1 ≤ a.singers ∧ a.singers ≤ 4 ∧ -7 ≤ a.key ∧ a.key ≤ 7 ∧ -5 ≤ a.tempo ∧ a.tempo ≤ 5

theorem AddInput.inRange_iff (a : AddInput) :
    a.inRange ↔ (songInRange a.song && 1 ≤ a.singers && a.singers ≤ 4 && keyInRange a.key && tempoInRange a.tempo) = true := by
  simp only [AddInput.inRange, songInRange, keyInRange, tempoInRange, Bool.and_eq_true, decide_eq_true_eq]
  tauto

section
variable {p : Part} {a : AddInput}

theorem Part.addCheck_out_of_range (h : ¬a.inRange) : p.addCheck a = some .badForm := by
  rw [AddInput.inRange_iff, Bool.not_eq_true] at h
  simp only [Part.addCheck, h, Bool.not_false, if_true]

/-- Table 1-3: an add in range is judged by the library and the catalog. -/
theorem Part.addCheck_in_range (h : a.inRange) : p.addCheck a =
    if p.lib.state != .mounted then some .notMounted
    else
      match p.catEntry a.song with
      | none => some .noSuchSong
      | some c =>
        if c.state != .ready then some .notReady
        else if Config.bookCapacity ≤ p.book.entries.length then some .bookFull
        else
          match a.origin with
          | .desk => none
          | .slot n => p.slotAddCheck n a.song := by
  rw [AddInput.inRange_iff] at h
  simp only [Part.addCheck, h, Bool.not_true, Bool.false_eq_true, if_false] <;> rfl

theorem Part.addCheck_not_mounted (h : a.inRange) (hm : p.lib.state ≠ .mounted) : p.addCheck a = some .notMounted := by
  simp [Part.addCheck_in_range h, hm]

theorem Part.addCheck_no_song (h : a.inRange) (hm : p.lib.state = .mounted) (hc : p.catEntry a.song = none) :
    p.addCheck a = some .noSuchSong := by
  simp [Part.addCheck_in_range h, hm, hc]

theorem Part.addCheck_not_ready {c : CatEntry} (h : a.inRange) (hm : p.lib.state = .mounted) (hc : p.catEntry a.song = some c)
    (hr : c.state ≠ .ready) : p.addCheck a = some .notReady := by
  simp [Part.addCheck_in_range h, hm, hc, hr]

theorem Part.addCheck_full {c : CatEntry} (h : a.inRange) (hm : p.lib.state = .mounted) (hc : p.catEntry a.song = some c)
    (hr : c.state = .ready) (hfull : 64 ≤ p.book.entries.length) : p.addCheck a = some .bookFull := by
  simp [Part.addCheck_in_range h, hm, hc, hr, hfull]

/-- Table 1-3: with room in the book, what is left to check depends on the origin. -/
theorem Part.addCheck_room {c : CatEntry} (h : a.inRange) (hm : p.lib.state = .mounted) (hc : p.catEntry a.song = some c)
    (hr : c.state = .ready) (hroom : p.book.entries.length < 64) : p.addCheck a =
      match a.origin with
      | .desk => none
      | .slot n => p.slotAddCheck n a.song := by
  have hfull : ¬Config.bookCapacity ≤ p.book.entries.length := by simpa using hroom
  simp only [Part.addCheck_in_range h, hm, hc, hr, hfull, bne_self_eq_false, Bool.false_eq_true, if_false] <;> rfl

/-- Table 1-3: an accepted add finds fewer than 64 live entries. -/
theorem Part.room_of_accepted (h : p.addCheck a = none) : p.book.entries.length < 64 := by
  by_contra hfull
  have hin : a.inRange := by
    by_contra hout
    rw [Part.addCheck_out_of_range hout] at h
    cases h
  rw [Part.addCheck_in_range hin] at h
  simp only [show Config.bookCapacity ≤ p.book.entries.length by simpa using hfull, if_true] at h
  split at h
  · cases h
  · split at h
    · cases h
    · split at h <;> cases h

theorem Part.slotAddCheck_quota {n song : Nat} (h : p.settings.quota ≤ (p.slot n).live) : p.slotAddCheck n song = some .quota := by
  simp [Part.slotAddCheck, h]

theorem Part.slotAddCheck_duplicate {n song : Nat} (h : (p.slot n).live < p.settings.quota)
    (hd : ∃ e ∈ p.book.entries, e.origin = .slot n ∧ e.song = song) : p.slotAddCheck n song = some .duplicate := by
  simp [Part.slotAddCheck, Nat.not_le.mpr h, hd]

theorem Part.slotAddCheck_none {n song : Nat} (h : (p.slot n).live < p.settings.quota)
    (hd : ¬∃ e ∈ p.book.entries, e.origin = .slot n ∧ e.song = song) : p.slotAddCheck n song = none := by
  simp [Part.slotAddCheck, Nat.not_le.mpr h, hd]

end

/-- Settles O21: each check that fails is the answer of `Part.addCheck` once the checks before it have passed. -/
theorem addChecksInOrder : Obligations.AddChecksInOrder := by
  intro p a
  refine ⟨fun h => Part.add_of_cause (Part.addCheck_out_of_range h), fun h => ⟨fun hm => ?_, fun hm hc => ?_, fun c hm hc hr => ?_, ?_⟩⟩
  · exact Part.add_of_cause (Part.addCheck_not_mounted h hm)
  · exact Part.add_of_cause (Part.addCheck_no_song h hm hc)
  · exact Part.add_of_cause (Part.addCheck_not_ready h hm hc hr)
  · intro c hm hc hr
    refine ⟨fun hfull => Part.add_of_cause (Part.addCheck_full h hm hc hr hfull), fun hroom ho => ?_, fun n hroom ho => ?_⟩
    · rw [Part.addCheck_room h hm hc hr hroom, ho]
    · have hcheck : p.addCheck a = p.slotAddCheck n a.song := by rw [Part.addCheck_room h hm hc hr hroom, ho]
      refine ⟨fun hq => ?_, fun hq hd => ?_, fun hq hd => ?_⟩
      · exact Part.add_of_cause (hcheck.trans (Part.slotAddCheck_quota hq))
      · exact Part.add_of_cause (hcheck.trans (Part.slotAddCheck_duplicate hq hd))
      · exact hcheck.trans (Part.slotAddCheck_none hq hd)

end Sys2Proof.Machine
end

