-- ==== Sys2Proof/Proofs/Cue.lean ====
section
/-! PROOFS. Proofs/Cue.lean: what every command keeps of the play context and the Request Book together (R1, R3, R4, R111, R113): the few changes
that reach both, one lemma for each, and then every operation that makes them. -/

namespace Sys2Proof.Machine

/-! ### The view: the heart of the play context, and the tickets and states of the live entries -/

/-- The ticket and the state of a live entry. -/
def Entry.mark (e : Entry) : Nat × EntryState := (e.ticket, e.state)

/-- What the invariant reads of a book: the marks of its entries and its counter. -/
def Book.ledger (b : Book) : List (Nat × EntryState) × Nat := (b.entries.map Entry.mark, b.counter)

/-- What the invariant reads of a part. -/
def Part.held (p : Part) : Cue × (List (Nat × EntryState) × Nat) := (p.frame.cue, p.book.ledger)

/-- R1: the marks the play context asks for: its entry first, CUED or PLAYING, and WAITING entries behind it. -/
def Cue.marksFit (c : Cue) (marks : List (Nat × EntryState)) : Prop :=
  match c.entry with
  | none => ∀ m ∈ marks, m.2 = .waiting
  | some ticket => ∃ rest, (∀ m ∈ rest, m.2 = .waiting) ∧
      marks = (ticket, if c.state = .staging ∨ c.state = .holding then .cued else .playing) :: rest

/-- R111, R113: the play context holds an entry and a song in four states, HOLD runs in HOLDING and GAP in GAP. -/
def Cue.wf (c : Cue) : Prop :=
  (c.entry.isSome = true ↔ c.state ≠ .idle ∧ c.state ≠ .gap) ∧ (c.song.isSome = c.entry.isSome) ∧
    (c.hold.isSome = true ↔ c.state = .holding) ∧ (c.gap.isSome = true ↔ c.state = .gap)

/-- R4: what a book keeps of its tickets. -/
structure TicketsWf (marks : List (Nat × EntryState)) (counter : Nat) : Prop where
  nodup : (marks.map Prod.fst).Nodup
  room : marks.length ≤ 64
  range : ∀ m ∈ marks, ticketInRange m.1 = true
  counter : ticketInRange counter = true

/-- R1, R3, R4, R111, R113: the play context and the book agree, and the tickets are in order. -/
def Part.sound (p : Part) : Prop := p.cueWf ∧ p.book.wf

/-- The invariant on the view. -/
def heldWf (x : Cue × (List (Nat × EntryState) × Nat)) : Prop := x.1.wf ∧ x.1.marksFit x.2.1 ∧ TicketsWf x.2.1 x.2.2

theorem map_mark_fst (entries : List Entry) : (entries.map Entry.mark).map Prod.fst = entries.map Entry.ticket := by
  simp [Function.comp_def, Entry.mark]

theorem Part.cueWf_iff (p : Part) : p.cueWf ↔
    p.frame.cue.wf ∧ (p.book.entries.map Entry.ticket).Nodup ∧ p.frame.cue.marksFit (p.book.entries.map Entry.mark) := by
  unfold Part.cueWf Cue.marksFit
  refine and_congr Iff.rfl (and_congr Iff.rfl ?_)
  rw [Part.frame_cue, Play.cue]
  cases p.play.entry with
  | none => simp [Entry.mark]
  | some ticket =>
    simp only [List.map_eq_cons_iff]
    constructor
    · rintro ⟨e, rest, he, ht, hw, hs⟩
      exact ⟨rest.map Entry.mark, by simpa [Entry.mark] using hw, e, rest, he, Prod.ext ht hs, rfl⟩
    · rintro ⟨marks, hw, e, rest, he, hm, rfl⟩
      obtain ⟨ht, hs⟩ := Prod.ext_iff.mp hm
      exact ⟨e, rest, he, ht, by simpa [Entry.mark] using hw, hs⟩

theorem Part.sound_iff (p : Part) : p.sound ↔ heldWf p.held := by
  unfold Part.sound Book.wf heldWf
  rw [Part.cueWf_iff]
  constructor
  · rintro ⟨⟨hplay, hnodup, hmarks⟩, hroom, -, hrange, hcounter⟩
    exact ⟨hplay, hmarks, by rw [← map_mark_fst] at hnodup; exact hnodup, by simpa [Part.held, Book.ledger] using hroom,
      by simpa [Part.held, Book.ledger, Entry.mark] using hrange, hcounter⟩
  · rintro ⟨hplay, hmarks, hnodup, hroom, hrange, hcounter⟩
    have hnodup' : (p.book.entries.map Entry.ticket).Nodup := by rw [← map_mark_fst]; exact hnodup
    exact ⟨⟨hplay, hnodup', hmarks⟩, by simpa [Part.held, Book.ledger] using hroom, hnodup',
      by simpa [Part.held, Book.ledger, Entry.mark] using hrange, hcounter⟩

/-- An operation that changes nothing of the view keeps the invariant. -/
theorem Part.sound_of_held {p q : Part} (h : q.held = p.held) (hp : p.sound) : q.sound := by
  rw [Part.sound_iff] at hp ⊢
  rwa [h]

theorem Part.held_of_frame {p q : Part} (hf : q.frame = p.frame) (hb : q.book = p.book) : q.held = p.held := by
  unfold Part.held
  rw [hf, hb]

theorem Part.sound_of_frame {p q : Part} (hf : q.frame = p.frame) (hb : q.book = p.book) (hp : p.sound) : q.sound :=
  Part.sound_of_held (Part.held_of_frame hf hb) hp

theorem foldl_sound {β : Type} (f : Part → β → Part) (h : ∀ p b, p.sound → (f p b).sound) (l : List β) (p : Part)
    (hp : p.sound) : (l.foldl f p).sound := by
  induction l generalizing p with
  | nil => exact hp
  | cons b l ih => exact ih (f p b) (h p b hp)

/-! ### The changes of the view -/

section
variable {c : Cue} {marks : List (Nat × EntryState)} {counter : Nat}

theorem TicketsWf.filter (h : TicketsWf marks counter) (keep : Nat × EntryState → Bool) : TicketsWf (marks.filter keep) counter :=
  ⟨h.nodup.sublist (List.filter_sublist.map _), le_trans (List.length_filter_le _ _) h.room,
    fun m hm => h.range m (List.mem_of_mem_filter hm), h.counter⟩

/-- R17, R18: WAITING entries leave the book. -/
theorem heldWf_filter (h : heldWf (c, marks, counter)) (keep : Nat × EntryState → Bool)
    (hkeep : ∀ m ∈ marks, keep m = false → m.2 = .waiting) : heldWf (c, marks.filter keep, counter) := by
  obtain ⟨hc, hfit, ht⟩ : c.wf ∧ c.marksFit marks ∧ TicketsWf marks counter := h
  refine ⟨hc, ?_, ht.filter keep⟩
  unfold Cue.marksFit at hfit ⊢
  dsimp only at hfit ⊢
  cases he : c.entry with
  | none =>
    rw [he] at hfit
    exact fun m hm => hfit m (List.mem_of_mem_filter hm)
  | some ticket =>
    rw [he] at hfit
    obtain ⟨rest, hrest, rfl⟩ := hfit
    refine ⟨rest.filter keep, fun m hm => hrest m (List.mem_of_mem_filter hm), ?_⟩
    have hhead : keep (ticket, if c.state = .staging ∨ c.state = .holding then .cued else .playing) = true := by
      by_contra hk
      have := hkeep _ List.mem_cons_self (by simpa using hk)
      split at this <;> cases this
    rw [List.filter_cons_of_pos hhead]

/-- R20, R121, R131: the play context's entry leaves the book, and the play context lets it go. -/
theorem heldWf_release (h : heldWf (c, marks, counter)) {ticket : Nat} (he : c.entry = some ticket) (state : PlayState) (gap : Timer)
    (hs : (state = .idle ∧ gap = none) ∨ (state = .gap ∧ gap.isSome = true)) :
    heldWf (⟨state, none, none, none, gap⟩, marks.filter (fun m => m.1 != ticket), counter) := by
  obtain ⟨-, hfit, ht⟩ : c.wf ∧ c.marksFit marks ∧ TicketsWf marks counter := h
  refine ⟨?_, ?_, ht.filter _⟩
  · obtain ⟨rfl, rfl⟩ | ⟨rfl, hg⟩ := hs
    · simp [Cue.wf]
    · simp [Cue.wf, hg]
  · unfold Cue.marksFit at hfit ⊢
    dsimp only at hfit ⊢
    rw [he] at hfit
    obtain ⟨rest, hrest, rfl⟩ := hfit
    intro m hm
    rw [List.filter_cons_of_neg (by simp)] at hm
    exact hrest m (List.mem_of_mem_filter hm)

/-- R5 to R8, R16: a WAITING entry with a ticket of its own stands among the WAITING entries. -/
theorem heldWf_insert (h : heldWf (c, marks, counter)) (place ticket counter' : Nat) (hnew : ∀ m ∈ marks, m.1 ≠ ticket)
    (hroom : marks.length < 64) (hrange : ticketInRange ticket = true) (hcounter : ticketInRange counter' = true) :
    heldWf (c, marks.filter (fun m => m.2 != .waiting) ++ (marks.filter fun m => m.2 == .waiting).take place ++ [(ticket, .waiting)] ++
      (marks.filter fun m => m.2 == .waiting).drop place, counter') := by
  obtain ⟨hc, hfit, ht⟩ : c.wf ∧ c.marksFit marks ∧ TicketsWf marks counter := h
  have hperm : (marks.filter (fun m => m.2 != .waiting) ++ (marks.filter fun m => m.2 == .waiting).take place ++
      [(ticket, EntryState.waiting)] ++ (marks.filter fun m => m.2 == .waiting).drop place).Perm ((ticket, .waiting) :: marks) := by
    have hsplit : (marks.filter (fun m => m.2 != .waiting) ++ marks.filter fun m => m.2 == .waiting).Perm marks := by
      refine List.perm_append_comm.trans ?_
      simpa [bne, Bool.not_eq_true'] using List.filter_append_perm (fun m : Nat × EntryState => m.2 == .waiting) marks
    rw [List.append_assoc _ [_] _, List.singleton_append]
    refine List.perm_middle.trans (List.Perm.cons _ ?_)
    rw [List.append_assoc, List.take_append_drop]
    exact hsplit
  refine ⟨hc, ?_, ⟨?_, ?_, ?_, hcounter⟩⟩
  · unfold Cue.marksFit at hfit ⊢
    dsimp only at hfit ⊢
    cases he : c.entry with
    | none =>
      rw [he] at hfit
      intro m hm
      rcases List.mem_cons.mp (hperm.mem_iff.mp hm) with rfl | hm
      · rfl
      · exact hfit m hm
    | some held =>
      rw [he] at hfit
      obtain ⟨rest, hrest, rfl⟩ := hfit
      have hheld : (if c.state = .staging ∨ c.state = .holding then EntryState.cued else .playing) ≠ .waiting := by split <;> simp
      have hnone : rest.filter (fun m => m.2 != .waiting) = [] := by simpa [List.filter_eq_nil_iff] using hrest
      have hall : rest.filter (fun m => m.2 == .waiting) = rest := by simpa [List.filter_eq_self] using hrest
      refine ⟨rest.take place ++ [(ticket, .waiting)] ++ rest.drop place, ?_, ?_⟩
      · intro m hm
        simp only [List.mem_append, List.mem_singleton] at hm
        rcases hm with (hm | rfl) | hm
        · exact hrest m (List.mem_of_mem_take hm)
        · rfl
        · exact hrest m (List.mem_of_mem_drop hm)
      · rw [List.filter_cons_of_pos (by simpa using hheld), List.filter_cons_of_neg (by simpa using hheld), hnone, hall]
        simp
  · rw [(hperm.map Prod.fst).nodup_iff]
    simp only [List.map_cons, List.nodup_cons, List.mem_map, not_exists, not_and]
    exact ⟨fun m hm => hnew m hm, ht.nodup⟩
  · rw [hperm.length_eq, List.length_cons]
    exact hroom
  · intro m hm
    rcases List.mem_cons.mp (hperm.mem_iff.mp hm) with rfl | hm
    · exact hrange
    · exact ht.range m hm

/-- R115, R127: the entry that stands first takes a state, and the play context holds it in the states that go with it. -/
theorem heldWf_head {state' : EntryState} {c' : Cue} {rest : List (Nat × EntryState)} {ticket : Nat} {state : EntryState}
    (h : heldWf (c, (ticket, state) :: rest, counter)) (hrest : ∀ m ∈ rest, m.2 = .waiting) (hwf : c'.wf) (he : c'.entry = some ticket)
    (hs : state' = if c'.state = .staging ∨ c'.state = .holding then .cued else .playing) :
    heldWf (c', (ticket, state') :: rest, counter) := by
  obtain ⟨-, -, ht⟩ : c.wf ∧ c.marksFit _ ∧ TicketsWf _ counter := h
  refine ⟨hwf, ?_, ⟨by simpa using ht.nodup, ht.room, ?_, ht.counter⟩⟩
  · unfold Cue.marksFit
    rw [he]
    exact ⟨rest, hrest, by rw [hs]⟩
  · intro m hm
    rcases List.mem_cons.mp hm with rfl | hm
    · exact ht.range (ticket, state) List.mem_cons_self
    · exact ht.range m (List.mem_cons_of_mem _ hm)

end

end Sys2Proof.Machine
end

