-- ==== Sys2Proof/Proofs/CueSteps.lean ====
section
/-! PROOFS. Proofs/CueSteps.lean: every operation that reaches the play context or the Request Book keeps the two together (R1, R3, R4, R111, R113). -/

namespace Sys2Proof.Machine

/-! ### The marks of a changed book -/

theorem map_mark_withoutTicket (entries : List Entry) (ticket : Nat) :
    (withoutTicket entries ticket).map Entry.mark = (entries.map Entry.mark).filter fun m => m.1 != ticket := by
  rw [withoutTicket, List.filter_map]
  rfl

theorem map_mark_waitingEntries (entries : List Entry) :
    (waitingEntries entries).map Entry.mark = (entries.map Entry.mark).filter fun m => m.2 == .waiting := by
  rw [waitingEntries, List.filter_map]
  rfl

theorem map_mark_insertWaiting (entries : List Entry) (place : Nat) (e : Entry) :
    (insertWaiting entries place e).map Entry.mark =
      (entries.map Entry.mark).filter (fun m => m.2 != .waiting) ++
        ((entries.map Entry.mark).filter fun m => m.2 == .waiting).take place ++ [e.mark] ++
        ((entries.map Entry.mark).filter fun m => m.2 == .waiting).drop place := by
  rw [insertWaiting, ← map_mark_waitingEntries, ← List.map_take, ← List.map_drop, List.filter_map]
  simp only [List.map_append, List.map_cons, List.map_nil]
  rfl

/-- An entry changed in what its mark does not show. -/
theorem map_mark_map (entries : List Entry) (f : Entry → Entry) (hf : ∀ e ∈ entries, (f e).mark = e.mark) :
    (entries.map f).map Entry.mark = entries.map Entry.mark := by
  rw [List.map_map]
  exact List.map_congr_left hf

theorem Part.mapEntry_ledger (p : Part) (ticket : Nat) (f : Entry → Entry) (hf : ∀ e, (f e).mark = e.mark) :
    (p.mapEntry ticket f).book.ledger = p.book.ledger := by
  refine Prod.ext (map_mark_map p.book.entries _ fun e _ => ?_) rfl
  split
  · exact hf e
  · rfl

theorem Part.mapEntry_sound {p : Part} (ticket : Nat) (f : Entry → Entry) (hf : ∀ e, (f e).mark = e.mark) (h : p.sound) :
    (p.mapEntry ticket f).sound :=
  Part.sound_of_held (p := p) (Prod.ext rfl (p.mapEntry_ledger ticket f hf)) h

/-- The parts of the invariant that the marks alone tell. -/
theorem Part.sound_marks {p : Part} (h : p.sound) :
    p.frame.cue.wf ∧ p.frame.cue.marksFit (p.book.entries.map Entry.mark) ∧ TicketsWf (p.book.entries.map Entry.mark) p.book.counter :=
  p.sound_iff.mp h

theorem Part.sound_of_marks {p : Part} {c : Cue} {marks : List (Nat × EntryState)} {counter : Nat} (hw : heldWf (c, marks, counter))
    (hc : p.frame.cue = c) (hm : p.book.entries.map Entry.mark = marks) (hn : p.book.counter = counter) : p.sound := by
  rw [Part.sound_iff]
  subst hc hm hn
  exact hw

theorem Part.tickets_nodup {p : Part} (h : p.sound) : (p.book.entries.map Entry.ticket).Nodup := h.2.2.1

/-- R3: a live ticket names one entry. -/
theorem Part.eq_of_ticket {p : Part} (h : p.sound) {x y : Entry} (hx : x ∈ p.book.entries) (hy : y ∈ p.book.entries)
    (ht : x.ticket = y.ticket) : x = y :=
  List.inj_on_of_nodup_map (p.tickets_nodup h) hx hy ht

theorem Part.mem_of_entry {p : Part} {ticket : Nat} {e : Entry} (h : p.entry ticket = some e) :
    e ∈ p.book.entries ∧ e.ticket = ticket := by
  have := List.find?_some h
  exact ⟨List.mem_of_find?_eq_some h, by simpa using this⟩

/-- R1: an entry that is not WAITING is the one the play context holds. -/
theorem Part.held_of_not_waiting {p : Part} (h : p.sound) {e : Entry} (he : e ∈ p.book.entries) (hs : e.state ≠ .waiting) :
    p.play.entry = some e.ticket := by
  obtain ⟨⟨-, -, hfit⟩, -⟩ := h
  cases hp : p.play.entry with
  | none =>
    rw [hp] at hfit
    exact absurd (hfit e he) hs
  | some ticket =>
    rw [hp] at hfit
    obtain ⟨x, rest, hx, ht, hrest, -⟩ := hfit
    rw [hx] at he
    rcases List.mem_cons.mp he with rfl | he
    · rw [ht]
    · exact absurd (hrest e he) hs

/-- R1, R111: where the play context holds nothing every entry is WAITING. -/
theorem Part.waiting_of_no_entry {p : Part} (h : p.sound) (hp : p.play.entry = none) : ∀ e ∈ p.book.entries, e.state = .waiting := by
  intro e he
  by_contra hs
  rw [Part.held_of_not_waiting h he hs] at hp
  cases hp

theorem Part.no_entry_iff {p : Part} (h : p.sound) : p.play.entry = none ↔ p.play.state = .idle ∨ p.play.state = .gap := by
  obtain ⟨⟨⟨hentry, -⟩, -⟩, -⟩ := h
  cases hp : p.play.entry with
  | none =>
    rw [hp] at hentry
    simp only [Option.isSome_none, Bool.false_eq_true, false_iff, not_and_or, not_not] at hentry
    simpa using hentry
  | some ticket =>
    rw [hp] at hentry
    simpa [not_or] using hentry

/-- R1: the held entry stands first, and a song stands beside it. -/
theorem Part.held_first {p : Part} (h : p.sound) {ticket : Nat} (hp : p.play.entry = some ticket) :
    ∃ e rest, p.book.entries = e :: rest ∧ e.ticket = ticket ∧ (∀ x ∈ rest, x.state = .waiting) ∧
      (e.state = if p.play.state = .staging ∨ p.play.state = .holding then .cued else .playing) ∧
      p.heldBookEntry = some e ∧ (∃ song, p.play.song = some song) ∧ p.play.gap = none ∧ p.play.state ≠ .idle ∧ p.play.state ≠ .gap := by
  obtain ⟨⟨⟨hentry, hsong, -, hgap⟩, -, hfit⟩, -⟩ := h
  rw [hp] at hfit hentry hsong
  obtain ⟨e, rest, he, ht, hrest, hs⟩ := hfit
  obtain ⟨hidle, hnogap⟩ := hentry.mp rfl
  refine ⟨e, rest, he, ht, hrest, hs, ?_, Option.isSome_iff_exists.mp hsong, ?_, hidle, hnogap⟩
  · simp [Part.heldBookEntry, hp, Part.entry, he, ht]
  · cases hg : p.play.gap with
    | none => rfl
    | some n => exact absurd (hgap.mp (by rw [hg]; rfl)) hnogap

/-! ### Strikes of WAITING entries (R17, R18), and a departure (R19) -/

theorem Part.strikeEntry_sound {p : Part} (e : Entry) (reason : StrikeReason) (quiet : Bool) (h : p.sound)
    (hw : ∀ x ∈ p.book.entries, x.ticket = e.ticket → x.state = .waiting) : (p.strikeEntry e reason quiet).sound := by
  refine Part.sound_of_marks
    (heldWf_filter (Part.sound_marks h) (fun m => m.1 != e.ticket) ?_) (congrArg Frame.cue (p.strikeEntry_frame e reason quiet)) ?_ ?_
  · intro m hm hne
    obtain ⟨x, hx, rfl⟩ := List.mem_map.mp hm
    exact hw x hx (by simpa [Entry.mark] using hne)
  · rw [Part.strikeEntry_book, ← map_mark_withoutTicket]
  · rw [Part.strikeEntry_book]

theorem Part.strike_sound {p : Part} (ticket : Nat) (reason : StrikeReason) (quiet : Bool) (h : p.sound)
    (hw : ∀ x ∈ p.book.entries, x.ticket = ticket → x.state = .waiting) : (p.strike ticket reason quiet).sound := by
  unfold Part.strike
  split
  · exact h
  · next e he =>
    obtain ⟨-, rfl⟩ := Part.mem_of_entry he
    exact p.strikeEntry_sound e reason quiet h hw

theorem Part.strike_entries_subset (p : Part) (ticket : Nat) (reason : StrikeReason) (quiet : Bool) :
    (p.strike ticket reason quiet).book.entries ⊆ p.book.entries := by
  unfold Part.strike
  split
  · exact List.Subset.refl _
  · rw [Part.strikeEntry_book]
    exact List.filter_subset_self _

/-- R18: WAITING entries of one book are struck one after the other. -/
theorem Part.strikes_sound {p : Part} (reason : StrikeReason) (quiet : Bool) (h : p.sound) (struck : List Entry)
    (hs : ∀ e ∈ struck, e ∈ p.book.entries ∧ e.state = .waiting) (q : Part) (hq : q.sound) (hsub : q.book.entries ⊆ p.book.entries) :
    (struck.foldl (fun q e => q.strike e.ticket reason quiet) q).sound := by
  induction struck generalizing q with
  | nil => exact hq
  | cons e struck ih =>
    obtain ⟨hmem, hwait⟩ := hs e List.mem_cons_self
    refine ih (fun x hx => hs x (List.mem_cons_of_mem e hx)) _ (q.strike_sound _ _ _ hq fun x hx ht => ?_)
      (List.Subset.trans (q.strike_entries_subset _ _ _) hsub)
    rw [Part.eq_of_ticket h (hsub hx) hmem ht]
    exact hwait

theorem Part.strikeWaiting_sound {p : Part} (which : Entry → Bool) (reason : StrikeReason) (quiet : Bool) (h : p.sound) :
    (p.strikeWaiting which reason quiet).sound := by
  refine Part.strikes_sound reason quiet h _ (fun e he => ?_) p h (List.Subset.refl _)
  have hmem := List.mem_of_mem_filter he
  exact ⟨List.mem_of_mem_filter hmem, by simpa [waitingEntries] using List.of_mem_filter hmem⟩

theorem Part.bookDeparture_sound {p : Part} (slot : Nat) (reason : StrikeReason) (h : p.sound) : (p.bookDeparture slot reason).sound :=
  Part.sound_of_held (p := p.strikeWaiting (fun e => e.origin == .slot slot) reason false)
    (Prod.ext (congrArg Frame.cue (Part.mapSlot_frame _ _ _)) (Prod.ext (map_mark_map _ (leaveEntry slot) fun _ _ => rfl) rfl))
    (p.strikeWaiting_sound _ reason false h)

theorem Part.depart_sound {p : Part} (slot : Nat) (barred : Bool) (h : p.sound) : (p.depart slot barred).sound :=
  Part.sound_of_frame (p := p.bookDeparture slot (if barred then .barred else .left)) (by simp [Part.depart]) (by simp [Part.depart])
    (p.bookDeparture_sound slot _ h)

/-! ### The play context lets its entry go (R121, R131, R135) -/

/-- R112, R131, R132: after `loadGap` the play context is in GAP with GAP running, or in IDLE with GAP stopped. -/
theorem Part.loadGap_cue (p : Part) : ∃ state gap, ((state = .idle ∧ gap = none) ∨ (state = .gap ∧ gap.isSome = true)) ∧
    p.loadGap.frame.cue = ⟨state, p.play.entry, p.play.song, p.play.hold, gap⟩ := by
  unfold Part.loadGap
  split
  · exact ⟨.idle, none, .inl ⟨rfl, rfl⟩, rfl⟩
  · exact ⟨.gap, _, .inr ⟨rfl, rfl⟩, rfl⟩

/-- Table 1-4: the reasons that strike a CUED entry. -/
def strikesCued (reason : StrikeReason) : Prop :=
  reason = .cancelled ∨ reason = .skipped ∨ reason = .damaged ∨ reason = .cleared

/-- R121: the play context after a strike of its entry, GAP having been stopped. -/
theorem Part.afterCueStrike_cue (p : Part) {reason : StrikeReason} (hr : strikesCued reason) (hg : p.frame.cue.gap = none) :
    ∃ state gap, ((state = .idle ∧ gap = none) ∨ (state = .gap ∧ gap.isSome = true)) ∧
      (p.afterCueStrike reason).frame.cue = ⟨state, p.frame.cue.entry, p.frame.cue.song, p.frame.cue.hold, gap⟩ := by
  have hidle : ({ p with play := { p.play with state := .idle } } : Part).frame.cue =
      ⟨.idle, p.frame.cue.entry, p.frame.cue.song, p.frame.cue.hold, none⟩ := by rw [← hg]; rfl
  obtain rfl | rfl | rfl | rfl := hr
  · exact p.loadGap_cue
  · exact p.loadGap_cue
  · exact ⟨.idle, none, .inl ⟨rfl, rfl⟩, hidle⟩
  · exact ⟨.idle, none, .inl ⟨rfl, rfl⟩, hidle⟩

/-- An operation that takes the held entry out of the book and out of the play context keeps the invariant. -/
theorem Part.sound_of_release {p q : Part} (h : p.sound) {ticket : Nat} (hp : p.play.entry = some ticket)
    (hc : ∃ state gap, ((state = .idle ∧ gap = none) ∨ (state = .gap ∧ gap.isSome = true)) ∧ q.frame.cue = ⟨state, none, none, none, gap⟩)
    (hb : q.book.entries = withoutTicket p.book.entries ticket) (hn : q.book.counter = p.book.counter) : q.sound := by
  obtain ⟨state, gap, hs, hq⟩ := hc
  exact Part.sound_of_marks (heldWf_release (Part.sound_marks h) hp state gap hs) hq (by rw [hb, map_mark_withoutTicket]) hn

theorem Part.cueStrike_sound {p : Part} {reason : StrikeReason} (quiet : Bool) (hr : strikesCued reason) (h : p.sound) :
    (p.cueStrike reason quiet).sound := by
  unfold Part.cueStrike
  split
  · next ticket song hp hs =>
    obtain ⟨e, rest, hentries, ht, -, -, hheld, -, hgap, -⟩ := Part.held_first h hp
    have hentry : p.entry ticket = some e := by simpa [Part.heldBookEntry, hp] using hheld
    dsimp only
    generalize hu : (((p.strike ticket reason quiet).letGo ticket song.song (.struck reason)).readerEmpty.idleSeats.titleDown.release
      song.song) = u
    have hcue : u.frame.cue = ⟨p.play.state, none, none, none, none⟩ := by
      have hplay : (p.strike ticket reason quiet).play.cue = p.play.cue := congrArg Frame.cue (p.strike_frame ticket reason quiet)
      have hlet : ((p.strike ticket reason quiet).letGo ticket song.song (.struck reason)).frame.cue =
          ⟨(p.strike ticket reason quiet).play.cue.state, none, none, none, (p.strike ticket reason quiet).play.cue.gap⟩ := rfl
      rw [← hu]
      simp only [Part.release_frame, Part.titleDown_frame, Part.idleSeats_frame, Part.readerEmpty_frame]
      rw [hlet, hplay, ← hgap]
      rfl
    have hbook : u.book = (p.strikeEntry e reason quiet).book := by
      rw [← hu]
      simp only [Part.release_book, Part.titleDown_book, Part.idleSeats_book, Part.readerEmpty_book]
      exact Part.strike_book p e ticket reason quiet hentry
    have hafter : (u.afterCueStrike reason).book = u.book := by
      obtain rfl | rfl | rfl | rfl := hr <;> simp [Part.afterCueStrike, Part.loadGap] <;> split <;> rfl
    obtain ⟨state, gap, hok, hc⟩ := u.afterCueStrike_cue hr (by rw [hcue])
    rw [hcue] at hc
    refine Part.sound_of_release h hp ⟨state, gap, hok, hc⟩ ?_ ?_
    · rw [hafter, hbook, Part.strikeEntry_book, ht]
    · rw [hafter, hbook, Part.strikeEntry_book]
  · exact h

theorem Part.endSong_sound {p : Part} (kind : EndKind) (h : p.sound) : (p.endSong kind).sound := by
  cases hp : p.play.entry with
  | none =>
    have hnone : p.heldBookEntry = none := by simp [Part.heldBookEntry, hp]
    simpa [Part.endSong, hnone] using h
  | some ticket =>
    obtain ⟨e, rest, hentries, ht, -, -, hheld, ⟨song, hsong⟩, -⟩ := Part.held_first h hp
    obtain ⟨lyric, hview⟩ := p.endSong_roomView e song kind hheld hsong
    obtain ⟨-, -, -, -, -, hplay, -, -, -, -, hbook, -⟩ := Part.roomView_fields hview
    set u : Part := { p.unplayed e song kind with lyric := lyric } with hu
    have hu_play : u.play = _ := p.unplayed_play e song kind
    have hu_book : u.book = _ := p.unplayed_book e song kind
    have hgap_book : u.loadGap.book = u.book := by
      unfold Part.loadGap
      split <;> rfl
    rw [Part.raise_play] at hplay
    rw [Part.raise_book, hgap_book, hu_book] at hbook
    obtain ⟨state, gap, hok, hc⟩ := u.loadGap_cue
    rw [hu_play] at hc
    refine Part.sound_of_release h hp ⟨state, gap, hok, ?_⟩ (by rw [hbook, ht]) (by rw [hbook])
    rw [Part.frame_cue, hplay]
    exact hc

theorem Part.dropEntry_sound {p : Part} {e : Entry} (h : p.sound) (he : e ∈ p.book.entries) : (p.dropEntry e).sound := by
  unfold Part.dropEntry
  split
  · next hs => exact p.strike_sound _ _ _ h fun x hx ht => by rw [Part.eq_of_ticket h hx he ht]; exact hs
  · exact p.cueStrike_sound false (.inr (.inl rfl)) h
  · exact p.endSong_sound .skipped h

theorem Part.cancelEntry_sound {p : Part} {e : Entry} (h : p.sound) (he : e ∈ p.book.entries) : (p.cancelEntry e).sound := by
  unfold Part.cancelEntry
  split
  · next hs => exact p.strike_sound _ _ _ h fun x hx ht => by rw [Part.eq_of_ticket h hx he ht]; exact hs
  · exact p.cueStrike_sound true (.inl rfl) h
  · exact p.endSong_sound .skipped h

end Sys2Proof.Machine
end

