-- ==== Sys2Proof/Proofs/CueEvents.lean ====
section
/-! PROOFS. Proofs/CueEvents.lean: the invariant of Proofs/Cue.lean over promotion, the cue, the song clock, the handset messages, the die events and the
desk's commands, and so over every step. -/

namespace Sys2Proof.Machine

/-! ### The held entry takes a state (R115, R127) -/

/-- R3: the entry that stands first, and no other, takes a state. -/
theorem map_mark_setState {e : Entry} {rest : List Entry} (h : ((e :: rest).map Entry.ticket).Nodup) (state : EntryState) :
    ((e :: rest).map fun x => if x.ticket == e.ticket then { x with state := state } else x).map Entry.mark =
      (e.ticket, state) :: rest.map Entry.mark := by
  rw [List.map_cons, List.nodup_cons] at h
  have hrest : ∀ x ∈ rest, (x.ticket == e.ticket) = false := by
    intro x hx
    rw [beq_eq_false_iff_ne]
    exact fun ht => h.1 (List.mem_map.mpr ⟨x, hx, ht⟩)
  rw [List.map_cons, List.map_cons, beq_self_eq_true, if_pos rfl, map_mark_map rest _ fun x hx => by rw [hrest x hx]; rfl]
  rfl

theorem Part.enterRunning_sound {p : Part} (h : p.sound) : p.enterRunning.sound := by
  unfold Part.enterRunning
  split
  · exact h
  · next ticket hp =>
    obtain ⟨e, rest, hentries, rfl, hrest, hs, -, ⟨song, hsong⟩, hgap, -⟩ := Part.held_first h hp
    have hnodup := p.tickets_nodup h
    have hmarks := Part.sound_marks h
    rw [hentries] at hnodup hmarks
    refine Part.sound_of_marks (c := ⟨.running, some e.ticket, some song, none, none⟩)
      (heldWf_head hmarks (state' := .playing) (by simpa [Entry.mark] using hrest) ?_ rfl ?_) ?_ ?_ rfl
    · simp [Cue.wf]
    · simp
    · simp only [Part.raise_frame, Part.startSeats_frame, Part.mapEntry_frame]
      rw [← hp, ← hsong, ← hgap]
      rfl
    · rw [← map_mark_setState hnodup, ← hentries]
      rfl

theorem Part.gapExpire_sound {p : Part} (h : p.sound) : p.gapExpire.sound := by
  unfold Part.gapExpire
  split
  · next hs =>
    have hnone : p.play.entry = none := (Part.no_entry_iff h).mpr (.inr hs)
    obtain ⟨⟨-, hsong, hhold, -⟩, hfit, ht⟩ := Part.sound_marks h
    have hsong' : p.play.song = none := by
      rw [Part.frame_cue, Play.cue, hnone] at hsong
      simpa using hsong
    have hhold' : p.play.hold = none := by
      rw [Part.frame_cue, Play.cue, hs] at hhold
      simpa using hhold
    refine Part.sound_of_marks (c := ⟨.idle, none, none, none, none⟩) ⟨by simp [Cue.wf], ?_, ht⟩ ?_ rfl rfl
    · simpa [Cue.marksFit, Entry.mark] using Part.waiting_of_no_entry h hnone
    · simp [Part.frame_cue, Play.cue, hnone, hsong', hhold']
  · exact h

/-! ### The hold of a cue (R123 to R125) -/

theorem Part.holdExpire_sound {p : Part} (h : p.sound) : p.holdExpire.sound := by
  unfold Part.holdExpire
  split
  · split
    · exact Part.enterRunning_sound h
    · exact p.cueStrike_sound false (.inr (.inl rfl)) h
  · exact h

/-- R123: an entry that is CUED goes on to be held. -/
theorem Part.loadHold_sound {p : Part} (seconds : Nat) (h : p.sound) (hs : p.play.state = .staging ∨ p.play.state = .holding) :
    (p.loadHold seconds).sound := by
  have hloaded : ({ p with play := { p.play with state := .holding, hold := loadMs (1000 * seconds) } } : Part).sound := by
    obtain ⟨ticket, hp⟩ : ∃ ticket, p.play.entry = some ticket := by
      cases hp : p.play.entry with
      | some ticket => exact ⟨ticket, rfl⟩
      | none =>
        have := (Part.no_entry_iff h).mp hp
        obtain hs | hs := hs <;> simp [hs] at this
    obtain ⟨e, rest, hentries, rfl, hrest, he, -, ⟨song, hsong⟩, hgap, -⟩ := Part.held_first h hp
    have hmarks := Part.sound_marks h
    rw [hentries] at hmarks
    refine Part.sound_of_marks (c := ⟨.holding, some e.ticket, some song, loadMs (1000 * seconds), none⟩)
      (heldWf_head hmarks (state' := .cued) (by simpa [Entry.mark] using hrest) ?_ rfl ?_) ?_ ?_ rfl
    · simp [Cue.wf, loadMs]
    · simp
    · rw [← hp, ← hsong, ← hgap]
      rfl
    · rw [if_pos hs] at he
      simp [hentries, Entry.mark, he]
  unfold Part.loadHold
  dsimp only
  split
  · exact Part.holdExpire_sound hloaded
  · exact hloaded

theorem Part.stagingCheck_sound {p : Part} (h : p.sound) : p.stagingCheck.sound := by
  unfold Part.stagingCheck
  split
  · next hs =>
    split
    · exact Part.enterRunning_sound h
    · exact p.loadHold_sound _ h (.inl hs.1)
  · exact h

theorem Part.presenceRise_sound {p : Part} (h : p.sound) : p.presenceRise.sound := by
  unfold Part.presenceRise
  split
  · split
    · exact Part.sound_of_frame (p := p) (by simp) rfl h
    · exact Part.enterRunning_sound h
    all_goals exact h
  · exact h

/-! ### Promotion (R114, R115) -/

@[simp] theorem Part.takeCue_book (p : Part) (e : Entry) (blk : SongBlock) : (p.takeCue e blk).book = p.book := rfl

theorem Part.promote_book (p : Part) (e : Entry) (blk : SongBlock) : (p.promote e blk).book = { p.book with
    entries := p.book.entries.map fun x => if x.ticket == e.ticket then { x with state := .cued } else x } := by
  simp [Part.promote]

theorem Part.promote_cue (p : Part) (e : Entry) (blk : SongBlock) : (p.promote e blk).frame.cue =
    ⟨.staging, some e.ticket, some { song := e.song, blk }, p.play.hold, p.play.gap⟩ := by
  have hplay : (p.withEntries (p.book.entries.map fun x => if x.ticket == e.ticket then { x with state := .cued } else x)).play.cue =
      p.play.cue := congrArg Frame.cue (p.withEntries_frame _)
  unfold Part.promote
  simp only [Part.resetRows_frame, Part.promotionCards_frame, Part.readerStart_frame, Part.raise_frame, Part.cueNotices_frame,
    Part.armSeats_frame]
  exact congrArg (fun c : Cue => (⟨.staging, some e.ticket, some { song := e.song, blk }, c.hold, c.gap⟩ : Cue)) hplay

theorem Part.promotionDue_iff (p : Part) : p.promotionDue = true ↔
    p.play.state = .idle ∧ p.book.hold = false ∧ p.lib.state = .mounted ∧ waitingEntries p.book.entries ≠ [] := by
  simp [Part.promotionDue, and_assoc]

theorem Part.promoteIfDue_sound {p : Part} (h : p.sound) : p.promoteIfDue.sound := by
  unfold Part.promoteIfDue
  split
  · next hdue =>
    obtain ⟨hidle, -⟩ := p.promotionDue_iff.mp hdue
    split
    · exact h
    · next e rest hw =>
      split
      · exact h
      · next c hc =>
        have hnone : p.play.entry = none := (Part.no_entry_iff h).mpr (.inl hidle)
        have hall := Part.waiting_of_no_entry h hnone
        have hentries : p.book.entries = e :: rest := by rw [← hw, waitingEntries_eq_self hall]
        obtain ⟨⟨-, -, hhold, hgap⟩, -⟩ := Part.sound_marks h
        have hmarks := Part.sound_marks h
        have hnodup := p.tickets_nodup h
        rw [hentries] at hmarks hnodup
        refine Part.sound_of_marks (heldWf_head hmarks (state' := .cued) ?_ ?_ ?_ ?_) (p.promote_cue e c.current) ?_
          (by rw [Part.promote_book])
        · exact fun m hm => by
            obtain ⟨x, hx, rfl⟩ := List.mem_map.mp hm
            exact hall x (by rw [hentries]; exact List.mem_cons_of_mem e hx)
        · rw [Part.frame_cue, Play.cue, hidle] at hhold hgap
          simpa [Cue.wf] using And.intro hhold hgap
        · rfl
        · simp
        · rw [Part.promote_book, ← map_mark_setState hnodup, ← hentries]
  · exact h

/-! ### New, moved and edited entries (R10, R12, R15, R16) -/

theorem Part.insertNew_sound {p : Part} {a : AddInput} (hcheck : p.addCheck a = none) (h : p.sound) : (p.insertNew a).sound := by
  obtain ⟨hc, hfit, ht⟩ := Part.sound_marks h
  have hroom := Part.room_of_accepted hcheck
  obtain ⟨hfresh, hrange⟩ := issueTicket_spec ht.counter hroom
  refine Part.sound_of_marks
    (heldWf_insert (Part.sound_marks h) (placement p.settings.orderMode p.book.entries a.origin a.front).2 (issueTicket p.book)
      (nextTicket (issueTicket p.book)) ?_ (by simpa using hroom) hrange (ticketInRange_nextTicket hrange))
    (congrArg Frame.cue (p.insertNew_frame a)) ?_ (by rw [Part.insertNew_book])
  · intro m hm
    obtain ⟨e, he, rfl⟩ := List.mem_map.mp hm
    exact hfresh e he
  · rw [Part.insertNew_book]
    exact map_mark_insertWaiting _ _ _

theorem Part.add_sound {p : Part} (a : AddInput) (h : p.sound) : (p.add a).1.sound := by
  cases hcheck : p.addCheck a with
  | some cause => rw [Part.add_of_cause hcheck]; exact h
  | none => rw [Part.add_of_accepted hcheck]; exact Part.insertNew_sound hcheck h

theorem Part.placeEntry_sound {p : Part} {e : Entry} (position : Nat) (h : p.sound) (he : e ∈ p.book.entries) (hw : e.state = .waiting) :
    (p.placeEntry e position).sound := by
  have hm := Part.sound_marks h
  obtain ⟨-, -, ht⟩ := hm
  have hgone : heldWf (p.frame.cue, (p.book.entries.map Entry.mark).filter (fun m => m.1 != e.ticket), p.book.counter) := by
    refine heldWf_filter (Part.sound_marks h) _ fun m hm hne => ?_
    obtain ⟨x, hx, rfl⟩ := List.mem_map.mp hm
    rw [Part.eq_of_ticket h hx he (by simpa [Entry.mark] using hne)]
    exact hw
  have hmem : e.mark ∈ p.book.entries.map Entry.mark := List.mem_map.mpr ⟨e, he, rfl⟩
  have hroom : ((p.book.entries.map Entry.mark).filter fun m => m.1 != e.ticket).length < 64 :=
    lt_of_lt_of_le (List.length_filter_lt_length_iff_exists.mpr ⟨e.mark, hmem, by simp [Entry.mark]⟩) ht.room
  refine Part.sound_of_marks (heldWf_insert hgone (position - 1) e.ticket p.book.counter ?_ hroom (ht.range _ hmem) ht.counter)
    (congrArg Frame.cue (p.placeEntry_frame e position)) ?_ (by simp [Part.placeEntry])
  · intro m hm
    simpa using List.of_mem_filter hm
  · simp only [Part.placeEntry, Part.withEntries_book]
    rw [map_mark_insertWaiting, map_mark_withoutTicket]
    simp [Entry.mark, hw]

theorem Part.writeKey_sound {p : Part} (ticket : Nat) (key : Int) (h : p.sound) : (p.writeKey ticket key).sound := by
  have hwritten := Part.mapEntry_sound ticket (fun e => { e with key := key }) (fun _ => rfl) h
  unfold Part.writeKey
  dsimp only
  split
  · exact Part.sound_of_frame (p := p.mapEntry ticket fun e => { e with key := key }) (by simp) rfl hwritten
  · exact hwritten

theorem Part.applyEdit_sound {p : Part} (a : EditParams) (h : p.sound) : (p.applyEdit a).sound := by
  have hwritten := Part.mapEntry_sound a.ticket (editEntry a) (fun _ => rfl) h
  unfold Part.applyEdit
  dsimp only
  split
  · exact hwritten
  · exact Part.writeKey_sound _ _ hwritten

theorem Part.join_sound {p : Part} (slot : Nat) (e : Entry) (seat : Nat) (h : p.sound) : (p.join slot e seat).sound := by
  have hwritten := Part.mapEntry_sound e.ticket (fun x => { x with seats := x.seats.set seat (some slot) }) (fun _ => rfl) h
  unfold Part.join
  dsimp only
  split
  · exact Part.sound_of_frame (by simp) (by simp) hwritten
  · exact Part.sound_of_frame (by simp) (by simp) hwritten

/-! ### The song clock and the window (R128, R130, R131, R164) -/

theorem Part.endIfReached_sound {p : Part} (h : p.sound) : p.endIfReached.sound := by
  unfold Part.endIfReached
  split
  · exact Part.endSong_sound .ended h
  · exact h

theorem Part.advance_sound {p : Part} (h : p.sound) : p.advance.sound := by
  unfold Part.advance
  split
  · exact Part.endIfReached_sound (Part.sound_of_frame (p := p) (by simp) (by simp) h)
  · exact h

theorem Part.windowEnds_sound {p : Part} (h : p.sound) : p.windowEnds.sound := by
  have hmeasured : p.measure.1.sound := Part.sound_of_frame p.measure_frame p.measure_book h
  unfold Part.windowEnds
  split
  next p' rise estimates hm =>
    rw [hm] at hmeasured
    refine Part.sound_of_frame (by simp) (by simp) (p := if rise then p'.presenceRise else p') ?_
    cases rise
    · exact hmeasured
    · exact Part.presenceRise_sound hmeasured

theorem Part.nudge_sound {p : Part} (ms : Int) (h : p.sound) : (p.nudge ms).sound := by
  unfold Part.nudge
  split
  · exact h
  · split
    · exact Part.endIfReached_sound (Part.sound_of_frame (p := p) (by simp) (by simp) h)
    · exact Part.sound_of_frame (p := p) (by simp) rfl h

/-! ### The handset messages (R57 to R65) -/

theorem Part.placeReply_sound {p : Part} (slot : Nat) (reply : Reply) (h : p.sound) : (p.placeReply slot reply).sound :=
  Part.sound_of_frame (p := p) (by simp) (by simp) h

theorem Part.takeAsk_sound {p : Part} (slot song singers : Nat) (key : Int) (h : p.sound) : (p.takeAsk slot song singers key).sound := by
  have hadd := Part.add_sound { origin := .slot slot, song, singers, key, tempo := 0, front := false } h
  unfold Part.takeAsk
  split
  · next heq => rw [heq] at hadd; exact Part.placeReply_sound slot _ hadd
  · next heq => rw [heq] at hadd; exact Part.placeReply_sound slot _ hadd

theorem Part.ownEntry_mem {p : Part} {slot ticket : Nat} {e : Entry} (h : p.ownEntry slot ticket = .inr e) :
    p.entry ticket = some e ∧ e.origin = .slot slot := by
  unfold Part.ownEntry at h
  split at h
  · cases h
  · next he =>
    split at h
    · next ho => cases h; exact ⟨he, ho⟩
    · cases h

theorem Part.takeDrop_sound {p : Part} (slot ticket : Nat) (h : p.sound) : (p.takeDrop slot ticket).sound := by
  unfold Part.takeDrop
  split
  · exact Part.placeReply_sound slot _ h
  · next he => exact Part.dropEntry_sound (Part.placeReply_sound slot _ h) (Part.mem_of_entry (Part.ownEntry_mem he).1).1

theorem Part.takeKey_sound {p : Part} (slot ticket : Nat) (key : Int) (h : p.sound) : (p.takeKey slot ticket key).sound := by
  unfold Part.takeKey
  split
  · exact Part.placeReply_sound slot _ h
  · exact Part.sound_of_frame (by simp) (by simp) (Part.writeKey_sound ticket key (Part.placeReply_sound slot (.keyed ticket key) h))

theorem Part.takeJoin_sound {p : Part} (slot ticket : Nat) (h : p.sound) : (p.takeJoin slot ticket).sound := by
  unfold Part.takeJoin
  split
  · exact Part.placeReply_sound slot _ h
  · exact Part.join_sound slot _ _ (Part.placeReply_sound slot _ h)

theorem Part.act_sound {p : Part} (slot : Nat) (m : Message) (h : p.sound) : (p.act slot m).sound := by
  cases m with
  | ask song singers key => exact Part.takeAsk_sound slot song singers key h
  | find song => exact Part.sound_of_frame (p := p) (p.takeFind_frame slot song) (p.takeFind_book slot song) h
  | mine => exact Part.sound_of_frame (p := p) (p.takeMine_frame slot) (p.takeMine_book slot) h
  | drop ticket => exact Part.takeDrop_sound slot ticket h
  | key ticket key => exact Part.takeKey_sound slot ticket key h
  | join ticket => exact Part.takeJoin_sound slot ticket h
  | leave => exact Part.depart_sound slot false h

theorem Part.takeMessage_sound {p : Part} (slot : Nat) (kind : Byte) (fields : List Byte) (h : p.sound) :
    (p.takeMessage slot kind fields).sound := by
  unfold Part.takeMessage
  split
  · split
    · exact Part.placeReply_sound slot _ h
    · exact Part.act_sound slot _ h
  · exact Part.sound_of_frame (p := p) (by simp) (by simp) h
  · exact Part.sound_of_frame (p := p) (by simp) (by simp) h

theorem Part.takeAnswer_sound {p : Part} (slot : Nat) (carried : Option Carried) (body : List Byte) (h : p.sound) :
    (p.takeAnswer slot carried body).sound := by
  have hheard : (p.hearAnswer slot carried).sound := Part.sound_of_frame (p := p) (by simp) (by simp) h
  unfold Part.takeAnswer
  dsimp only
  split
  · exact Part.sound_of_frame (by simp) (by simp) hheard
  · next kind fields => exact Part.sound_of_frame (by simp) (by simp) (Part.takeMessage_sound slot kind fields hheard)

theorem Part.judgeByTurn_sound {p : Part} (chars : List RxChar) (h : p.sound) : (p.judgeByTurn chars).sound := by
  unfold Part.judgeByTurn
  split
  · next slot carried _ =>
    unfold Part.judgeAnswer
    split
    · exact Part.sound_of_frame (p := p) (by simp) (by simp) h
    · split
      · exact Part.takeAnswer_sound slot carried _ h
      · exact Part.sound_of_frame (p := p) (by simp) (by simp) h
  all_goals exact Part.sound_of_frame (p := p) (by simp) (by simp) h

theorem Part.frameEnds_sound {p : Part} (h : p.sound) : p.frameEnds.sound := by
  have hcut : ({ p with line := { p.line with rx := [] } } : Part).sound := Part.sound_of_frame (p := p) (by simp) rfl h
  unfold Part.frameEnds
  dsimp only
  split
  · exact Part.judgeByTurn_sound _ hcut
  · exact Part.sound_of_frame (by simp) (by simp) hcut
  · exact Part.sound_of_frame (by simp) (by simp) hcut

theorem Part.joinFrame_sound {p : Part} (c : RxChar) (h : p.sound) : (p.joinFrame c).sound := by
  have hjoined : ({ p.countSpoiled c with line := { (p.countSpoiled c).line with rx := (p.countSpoiled c).line.rx ++ [c] } } : Part).sound :=
    Part.sound_of_frame (p := p) (by simp) (p.countSpoiled_book c) h
  unfold Part.joinFrame
  dsimp only
  split
  · exact Part.frameEnds_sound hjoined
  · exact hjoined

theorem Part.receiveChar_sound {p : Part} (c : RxChar) (h : p.sound) : (p.receiveChar c).sound := by
  unfold Part.receiveChar
  split
  · split
    · exact Part.joinFrame_sound c (Part.sound_of_frame (p := p) (by simp) (by simp) h)
    · exact h
  · exact Part.joinFrame_sound c h

theorem Part.wholeFrame_sound {p : Part} (chars : List RxChar) (h : p.sound) : (p.wholeFrame chars).sound := by
  have hreceived := foldl_sound Part.receiveChar (fun p c hp => Part.receiveChar_sound c hp) (chars.drop p.line.rx.length) p h
  unfold Part.wholeFrame Part.receiveFrame Part.receiveGap
  refine Part.promoteIfDue_sound ?_
  split
  · exact hreceived
  · exact Part.frameEnds_sound hreceived

theorem Part.messageFrame_eq (p : Part) (address : Byte) (kind : Nat) (fields : List Byte) :
    p.messageFrame address kind fields = p.wholeFrame (answerChars address (u8 kind ++ fields)) := rfl

theorem Part.outsideFrame_sound {p : Part} (chars : List RxChar) (h : p.sound) : (p.outsideFrame chars).sound := by
  unfold Part.outsideFrame
  split
  · exact Part.sound_of_frame (p := p) (by simp) (by simp) h
  · exact Part.wholeFrame_sound chars h

/-! ### The die events (R75, R91, R99, R107, R119, R122) -/

theorem Part.opDone_sound {p : Part} (d : Nat) (h : p.sound) : (p.opDone d).sound :=
  Part.promoteIfDue_sound (Part.sound_of_frame (p := p) (by simp) (by simp) h)

theorem Part.readCompletes_sound {p : Part} (d : Nat) (kind : Requester → Bool) (read : PageRead) (act : Request → Part → Part)
    (hact : ∀ r q, q.sound → (act r q).sound) (h : p.sound) : (p.readCompletes d kind read act).sound := by
  unfold Part.readCompletes
  split
  · exact h
  · next r _ =>
    have hread : ((p.opEnds d).pageReadEffects d r.block (readOutcome read)).sound :=
      Part.sound_of_frame (p := p) (by simp) (by simp) h
    refine Part.opDone_sound d ?_
    split
    · exact hread
    · exact hact r _ hread

theorem Part.eraseCompletes_sound {p : Part} (d : Nat) (kind : Requester → Bool) (act : Request → Part → Part)
    (hf : ∀ r q, (act r q).frame = q.frame) (hb : ∀ r q, (act r q).book = q.book) (h : p.sound) : (p.eraseCompletes d kind act).sound := by
  unfold Part.eraseCompletes
  split
  · exact h
  · next r _ => exact Part.opDone_sound d (Part.sound_of_frame (p := p) (by rw [hf]; simp) (by rw [hb]; simp) h)

theorem Part.readerGoesOn_sound {p : Part} (h : p.sound) : p.readerGoesOn.sound :=
  Part.stagingCheck_sound (Part.sound_of_frame (p := p) (by simp) (by simp) h)

theorem Part.streamArrives_sound {p : Part} (read : PageRead) (r : Request) (h : p.sound) : (Part.streamArrives read r p).sound := by
  unfold Part.streamArrives
  split
  · exact h
  · next song _ =>
    split
    · unfold Part.headerArrives
      split
      · exact Part.readerGoesOn_sound (Part.sound_of_frame (p := p) (by simp) (by simp) h)
      · exact Part.cueStrike_sound false (.inr (.inr (.inl rfl))) (Part.sound_of_frame (p := p) (by simp) (by simp) h)
    · exact Part.readerGoesOn_sound (Part.sound_of_frame (p := p) (by simp) (by simp) h)

@[simp] theorem Part.lookupAnswered_book (p : Part) (page : Option (List Byte)) : (p.lookupAnswered page).book = p.book := by
  unfold Part.lookupAnswered
  split
  · rfl
  · split <;> rfl

@[simp] theorem Part.lookupEnds_book (page : Option (List Byte)) (r : Request) (p : Part) : (Part.lookupEnds page r p).book = p.book := by
  unfold Part.lookupEnds
  split <;> simp

@[simp] theorem Part.endedByFault_book (p : Part) (r : Request) : (p.endedByFault r).book = p.book := by
  unfold Part.endedByFault
  split
  · rfl
  · split <;> simp

theorem Part.lookupEnds_sound {p : Part} (page : Option (List Byte)) (r : Request) (h : p.sound) : (Part.lookupEnds page r p).sound :=
  Part.sound_of_held (Prod.ext (Part.lookupEnds_cue page r p) (congrArg Book.ledger (Part.lookupEnds_book page r p))) h

theorem Part.playFaults_sound {p : Part} (d : Nat) (h : p.sound) : (p.playFaults d).sound := by
  unfold Part.playFaults
  split
  · split
    · exact Part.endSong_sound .damaged h
    · exact Part.cueStrike_sound false (.inr (.inr (.inl rfl))) h
  · exact h

theorem Part.endedByFault_sound {p : Part} (r : Request) (h : p.sound) : (p.endedByFault r).sound :=
  Part.sound_of_held (Prod.ext (p.endedByFault_cue r) (congrArg Book.ledger (p.endedByFault_book r))) h

theorem Part.mountedFault_sound {p : Part} (d block : Nat) (ended : List Request) (h : p.sound) : (p.mountedFault d block ended).sound := by
  have hstopped : ((p.dieStops d).catalogFaults d).sound := Part.sound_of_frame (p := p) (by simp) (by simp) h
  have hended := foldl_sound Part.endedByFault (fun p r hp => Part.endedByFault_sound r hp) ended _ hstopped
  have hinstall : ((ended.foldl Part.endedByFault ((p.dieStops d).catalogFaults d)).installOnDieFails d).sound :=
    Part.sound_of_frame (by simp) (by simp) hended
  have hplay := Part.playFaults_sound d hinstall
  have hstruck := Part.strikeWaiting_sound
    (Part.namesOffline ((ended.foldl Part.endedByFault ((p.dieStops d).catalogFaults d)).installOnDieFails d)) .damaged false hplay
  exact Part.promoteIfDue_sound (Part.sound_of_frame (by simp) (by simp) hstruck)

theorem Part.watchExpires_sound {p : Part} (d : Nat) (h : p.sound) : (p.watchExpires d).sound := by
  unfold Part.watchExpires
  split
  · exact Part.sound_of_frame (p := p) (by simp) (by simp) h
  · split
    · exact h
    · next r _ =>
      unfold Part.dieFaults
      split
      · exact Part.mountedFault_sound d r.block _ h
      · exact Part.sound_of_frame (p := p) (by simp) (by simp) h
      · exact Part.sound_of_frame (p := p) (by simp) (by simp) h
      · exact h

/-! ### The passing of time (R113) -/

/-- R113: a tick runs the timers down, and stops none. -/
theorem Part.tick_sound {p : Part} (h : p.sound) : p.tick.sound := by
  obtain ⟨⟨hentry, hsong, hhold, hgap⟩, hfit, ht⟩ := Part.sound_marks h
  refine Part.sound_of_marks (c := ⟨p.play.state, p.play.entry, p.play.song, tickTimer p.play.hold, tickTimer p.play.gap⟩)
    ⟨⟨hentry, hsong, ?_, ?_⟩, hfit, ht⟩ rfl rfl rfl
  · simpa [tickTimer, Part.frame_cue, Play.cue] using hhold
  · simpa [tickTimer, Part.frame_cue, Play.cue] using hgap

theorem Part.holdExpires_sound {p : Part} (h : p.sound) : p.holdExpires.sound := Part.promoteIfDue_sound (Part.holdExpire_sound h)

theorem Part.gapExpires_sound {p : Part} (h : p.sound) : p.gapExpires.sound := Part.promoteIfDue_sound (Part.gapExpire_sound h)

theorem Part.timePasses_sound {p : Part} (h : p.sound) : p.timePasses.sound := by
  refine Part.timePasses_holds (inv := Part.sound) (fun q => Part.tick_sound) (fun x hx q hq => ?_) p h
  simp only [expiries, List.mem_cons, List.not_mem_nil, or_false] at hx
  obtain rfl | rfl | rfl | rfl | rfl | rfl | rfl := hx
  · exact Part.watchExpires_sound 0 hq
  · exact Part.watchExpires_sound 1 hq
  · exact Part.sound_of_frame (by simp) (by simp) hq
  · exact Part.sound_of_frame (by simp) (by simp) hq
  · exact Part.sound_of_frame (by simp) (by simp) hq
  · exact Part.holdExpires_sound hq
  · exact Part.gapExpires_sound hq

theorem Part.audioFrame_sound {p : Part} (f : AudioFrame) (h : p.sound) : (p.audioFrame f).sound := by
  have htime := Part.timePasses_sound h
  have hsampled : ({ p.timePasses with scorer := { p.timePasses.scorer with window := f :: p.timePasses.scorer.window } } : Part).sound :=
    Part.sound_of_frame (by simp) rfl htime
  unfold Part.audioFrame
  dsimp only
  refine Part.promoteIfDue_sound ?_
  have hadvanced := Part.advance_sound hsampled
  split <;> split
  · exact Part.windowEnds_sound hadvanced
  · exact hadvanced
  · exact Part.windowEnds_sound hsampled
  · exact hsampled

end Sys2Proof.Machine
end

