-- ==== Sys2Proof/Proofs/CueCommands.lean ====
section
/-! PROOFS. Proofs/CueCommands.lean: the invariant of Proofs/Cue.lean over the desk's commands and room clear, and so over every step. -/

namespace Sys2Proof.Machine

/-! ### Taking a command -/

/-- R178: a command keeps the invariant where what it does to a form it takes keeps it. -/
theorem withForm_sound {α : Type} (form : Option α) {p : Part} (k : α → Part × CmdResult) (h : p.sound) (hk : ∀ a, (k a).1.sound) :
    (withForm form p k).1.sound := by
  cases form with
  | none => exact h
  | some a => exact hk a

theorem Part.takeCommand_sound {p : Part} (tag : Byte) (body : Part → Part × CmdResult) (hb : (body p).1.sound) (h : p.sound) :
    (p.takeCommand tag body).sound := by
  unfold Part.takeCommand
  split
  · exact h
  · split
    · exact Part.sound_of_held (Prod.ext (by simp [Part.held]) (by cases (body p).2 <;> rfl)) hb
    · exact h
    · exact h

/-! ### The Request Book's commands -/

theorem cmdAddRequest_sound (params : List Byte) {p : Part} (h : p.sound) : (cmdAddRequest params p).1.sound := by
  refine withForm_sound _ _ h fun a => ?_
  have hadd := Part.add_sound { origin := .desk, song := a.song, singers := a.singers, key := a.key, tempo := a.tempo, front := a.front } h
  split
  · next heq => rw [heq] at hadd; exact hadd
  · next heq => rw [heq] at hadd; exact Part.promoteIfDue_sound hadd

theorem cmdCancelRequest_sound (params : List Byte) {p : Part} (h : p.sound) : (cmdCancelRequest params p).1.sound := by
  refine withForm_sound _ _ h fun ticket => ?_
  split
  · exact h
  · next e he => exact Part.promoteIfDue_sound (Part.cancelEntry_sound h (Part.mem_of_entry he).1)

theorem cmdEditRequest_sound (params : List Byte) {p : Part} (h : p.sound) : (cmdEditRequest params p).1.sound := by
  refine withForm_sound _ _ h fun a => ?_
  split
  · split
    · exact h
    · split
      · exact h
      · exact Part.applyEdit_sound a h
  · exact h

theorem cmdPlaceRequest_sound (params : List Byte) {p : Part} (h : p.sound) : (cmdPlaceRequest params p).1.sound := by
  refine withForm_sound _ _ h fun ⟨ticket, position⟩ => ?_
  dsimp only
  split
  · exact h
  · split
    · exact h
    · next e he =>
      split
      · exact h
      · next hw =>
        split
        · exact h
        · split
          · exact h
          · exact Part.placeEntry_sound position h (Part.mem_of_entry he).1 (by simpa using hw)

theorem cmdReadBook_sound (params : List Byte) {p : Part} (h : p.sound) : (cmdReadBook params p).1.sound :=
  withForm_sound _ _ h fun _ => Part.sound_of_held (p := p) rfl h

theorem cmdHoldBook_sound (params : List Byte) {p : Part} (h : p.sound) : (cmdHoldBook params p).1.sound := by
  refine withForm_sound _ _ h fun on => ?_
  have hwritten : ({ p with book := { p.book with hold := on } } : Part).sound := Part.sound_of_held (p := p) rfl h
  cases on
  · exact Part.promoteIfDue_sound hwritten
  · exact hwritten

/-! ### The handset line's commands -/

theorem Part.departDesk_sound {p : Part} (slot : Nat) (barred : Bool) (h : p.sound) : (p.departDesk slot barred).sound :=
  Part.sound_of_frame (Part.abandonIfServing_frame _ slot) (Part.abandonIfServing_book _ slot) (Part.depart_sound slot barred h)

theorem cmdBarHandset_sound (params : List Byte) {p : Part} (h : p.sound) : (cmdBarHandset params p).1.sound := by
  refine withForm_sound _ _ h fun slot => ?_
  split
  · exact h
  · exact h
  · exact Part.departDesk_sound slot true h
  · exact Part.departDesk_sound slot true h

theorem cmdReleaseHandset_sound (params : List Byte) {p : Part} (h : p.sound) : (cmdReleaseHandset params p).1.sound := by
  refine withForm_sound _ _ h fun slot => ?_
  split
  · exact h
  · exact Part.departDesk_sound slot false h
  · exact Part.departDesk_sound slot false h
  · exact Part.departDesk_sound slot false h

theorem cmdHandsetTable_sound (params : List Byte) {p : Part} (h : p.sound) : (cmdHandsetTable params p).1.sound := by
  refine withForm_sound _ _ h fun clearCounts => ?_
  cases clearCounts
  · exact Part.sound_of_held (p := p) rfl h
  · exact Part.sound_of_frame (p := p) (by simp) rfl h

theorem cmdOpenClaims_sound (params : List Byte) {p : Part} (h : p.sound) : (cmdOpenClaims params p).1.sound := by
  refine withForm_sound _ _ h fun on => ?_
  have hwritten : ({ p with settings := { p.settings with openClaims := on } } : Part).sound := Part.sound_of_held (p := p) rfl h
  cases on
  · exact Part.sound_of_frame (Part.closeWindow_frame _) (Part.closeWindow_book _) hwritten
  · exact hwritten

/-! ### The library's commands -/

theorem cmdMount_sound (params : List Byte) {p : Part} (h : p.sound) : (cmdMount params p).1.sound := by
  refine withForm_sound _ _ h fun _ => ?_
  split
  · exact Part.sound_of_held (p := p) rfl h
  · exact h

theorem cmdLookUpSong_sound (params : List Byte) {p : Part} (h : p.sound) : (cmdLookUpSong params p).1.sound := by
  refine withForm_sound _ _ h fun song => ?_
  (repeat' split) <;> exact Part.sound_of_frame (p := p) (by simp) (by simp) h

theorem cmdListSongs_sound (params : List Byte) {p : Part} (h : p.sound) : (cmdListSongs params p).1.sound := by
  refine withForm_sound _ _ h fun ⟨start, count⟩ => ?_
  (repeat' split) <;> exact h

theorem cmdInstallBegin_sound (params : List Byte) {p : Part} (h : p.sound) : (cmdInstallBegin params p).1.sound := by
  refine withForm_sound _ _ h fun a => ?_
  (repeat' split) <;> exact Part.sound_of_frame (p := p) (by simp) (by simp) h

theorem cmdInstallPage_sound (params : List Byte) {p : Part} (h : p.sound) : (cmdInstallPage params p).1.sound := by
  refine withForm_sound _ _ h fun ⟨index, data⟩ => ?_
  (repeat' split) <;> exact Part.sound_of_frame (p := p) (by simp) (by simp) h

theorem cmdInstallClose_sound (params : List Byte) {p : Part} (h : p.sound) : (cmdInstallClose params p).1.sound := by
  refine withForm_sound _ _ h fun _ => ?_
  (repeat' split) <;> exact Part.sound_of_frame (p := p) (by simp) (by simp) h

theorem cmdInstallAbandon_sound (params : List Byte) {p : Part} (h : p.sound) : (cmdInstallAbandon params p).1.sound := by
  refine withForm_sound _ _ h fun _ => ?_
  (repeat' split) <;> exact Part.sound_of_frame (p := p) (by simp) (by simp) h

theorem Part.withdraw_sound {p : Part} (e : CatEntry) (h : p.sound) : (p.withdraw e).sound := by
  have hstruck := Part.strikeWaiting_sound (fun x => x.song == e.song) .withdrawn false h
  unfold Part.withdraw
  dsimp only
  split
  · exact Part.sound_of_frame (by simp) (by simp) hstruck
  · exact Part.sound_of_frame (by simp) (by simp) hstruck

theorem cmdWithdrawSong_sound (params : List Byte) {p : Part} (h : p.sound) : (cmdWithdrawSong params p).1.sound := by
  refine withForm_sound _ _ h fun song => ?_
  (repeat' split)
  any_goals exact h
  all_goals exact Part.withdraw_sound _ h

theorem cmdLibraryStatus_sound (params : List Byte) {p : Part} (h : p.sound) : (cmdLibraryStatus params p).1.sound := by
  refine withForm_sound _ _ h fun clearFaults => ?_
  cases clearFaults <;> exact Part.sound_of_held (p := p) rfl h

/-! ### The play commands -/

theorem cmdStart_sound (params : List Byte) {p : Part} (h : p.sound) : (cmdStart params p).1.sound := by
  refine withForm_sound _ _ h fun _ => ?_
  split
  · exact Part.sound_of_frame (p := p) (by simp) rfl h
  · exact Part.enterRunning_sound h
  all_goals exact h

theorem cmdSkip_sound (params : List Byte) {p : Part} (h : p.sound) : (cmdSkip params p).1.sound := by
  refine withForm_sound _ _ h fun _ => ?_
  have hcue := Part.promoteIfDue_sound (p.cueStrike_sound false (.inr (.inl rfl)) h)
  have hsong := Part.promoteIfDue_sound (p.endSong_sound .skipped h)
  split
  · exact hcue
  · exact hcue
  · exact hsong
  · exact hsong
  · exact h
  · exact h

theorem cmdExtendHold_sound (params : List Byte) {p : Part} (h : p.sound) : (cmdExtendHold params p).1.sound := by
  refine withForm_sound _ _ h fun seconds => ?_
  split
  · exact h
  · split
    · next hs => exact Part.promoteIfDue_sound (p.loadHold_sound seconds h (.inr hs))
    · exact h

/-- R129: the song goes on or stands still; the entry stays PLAYING. -/
theorem Part.setPlaying_sound {p : Part} (state : PlayState) (h : p.sound) (hs : p.play.state = .running ∨ p.play.state = .paused)
    (hs' : state = .running ∨ state = .paused) : ({ p with play := { p.play with state := state } } : Part).sound := by
  have hidle : p.play.state ≠ .idle ∧ p.play.state ≠ .gap ∧ p.play.state ≠ .holding ∧ p.play.state ≠ .staging := by
    obtain hs | hs := hs <;> simp [hs]
  have hidle' : state ≠ .idle ∧ state ≠ .gap ∧ state ≠ .holding ∧ state ≠ .staging := by
    obtain hs | hs := hs' <;> simp [hs]
  obtain ⟨⟨hentry, hsong, hhold, hgap⟩, hfit, ht⟩ := Part.sound_marks h
  refine Part.sound_of_marks (c := ⟨state, p.play.entry, p.play.song, p.play.hold, p.play.gap⟩) ⟨⟨?_, hsong, ?_, ?_⟩, ?_, ht⟩ rfl rfl rfl
  · simpa [Part.frame_cue, Play.cue, hidle, hidle'] using hentry
  · simpa [Part.frame_cue, Play.cue, hidle, hidle'] using hhold
  · simpa [Part.frame_cue, Play.cue, hidle, hidle'] using hgap
  · simpa [Part.frame_cue, Play.cue, Cue.marksFit, hidle, hidle'] using hfit

theorem cmdPause_sound (params : List Byte) {p : Part} (h : p.sound) : (cmdPause params p).1.sound := by
  refine withForm_sound _ _ h fun _ => ?_
  split
  · next hs => exact Part.sound_of_frame (Part.raise_frame _ _) rfl (Part.setPlaying_sound .paused h (.inl hs) (.inr rfl))
  · exact h

theorem cmdResume_sound (params : List Byte) {p : Part} (h : p.sound) : (cmdResume params p).1.sound := by
  refine withForm_sound _ _ h fun _ => ?_
  split
  · next hs => exact Part.sound_of_frame (Part.raise_frame _ _) rfl (Part.setPlaying_sound .running h (.inr hs) (.inl rfl))
  · exact h

theorem cmdNudge_sound (params : List Byte) {p : Part} (h : p.sound) : (cmdNudge params p).1.sound := by
  refine withForm_sound _ _ h fun ms => ?_
  split
  · exact h
  · split
    · exact Part.promoteIfDue_sound (Part.nudge_sound ms h)
    · exact h

theorem cmdNextNow_sound (params : List Byte) {p : Part} (h : p.sound) : (cmdNextNow params p).1.sound := by
  refine withForm_sound _ _ h fun _ => ?_
  split
  · exact Part.promoteIfDue_sound (Part.gapExpire_sound h)
  · exact h

/-! ### CONFIGURE and CLEAR ROOM (R185, R187) -/

theorem Part.configure_sound {p : Part} (c : Settings) (h : p.sound) : (p.configure c).sound := by
  have hwritten : ({ p with settings := c } : Part).sound := Part.sound_of_held (p := p) rfl h
  refine Part.sound_of_frame ?_ ?_ hwritten
  · unfold Part.configure
    (repeat' split) <;> simp
  · unfold Part.configure
    (repeat' split) <;> simp

theorem cmdConfigure_sound (params : List Byte) {p : Part} (h : p.sound) : (cmdConfigure params p).1.sound := by
  refine withForm_sound _ _ h fun c => ?_
  split
  · exact h
  · exact Part.configure_sound c h

theorem Part.cueStrike_cleared_state {p : Part} {ticket : Nat} {song : HeldSong} (hp : p.play.entry = some ticket)
    (hs : p.play.song = some song) (quiet : Bool) : (p.cueStrike .cleared quiet).play.state = .idle := by
  simp [Part.cueStrike, hp, hs, Part.afterCueStrike]

/-- R135: the PLAYING entry leaves the book, and the play context lets it go. -/
theorem Part.removePlaying_sound {p : Part} (h : p.sound) : p.removePlaying.sound := by
  unfold Part.removePlaying
  split
  · next e song hheld hsong =>
    dsimp only
    cases hp : p.play.entry with
    | none => simp [Part.heldBookEntry, hp] at hheld
    | some ticket =>
      obtain ⟨x, rest, -, ht, -, -, hx, -, hgap, -⟩ := Part.held_first h hp
      rw [hheld] at hx
      cases hx
      refine Part.sound_of_release h hp ⟨.idle, none, .inl ⟨rfl, rfl⟩, ?_⟩ ?_ ?_
      · have hcue : ((((p.removeEntry e).letGo e.ticket song.song .cleared).readerEmpty.idleSeats.release song.song).frame).cue =
            ⟨(p.removeEntry e).play.cue.state, none, none, none, (p.removeEntry e).play.cue.gap⟩ := by
          simp only [Part.release_frame, Part.idleSeats_frame, Part.readerEmpty_frame]
          rfl
        have hplay : (p.removeEntry e).play.cue = p.play.cue := congrArg Frame.cue (p.removeEntry_frame e)
        have hnone : p.play.cue.gap = none := hgap
        rw [hplay, hnone] at hcue
        exact congrArg (fun c : Cue => (⟨.idle, c.entry, c.song, c.hold, c.gap⟩ : Cue)) hcue
      · simp [Part.letGo, Part.removeEntry, ht]
      · simp [Part.letGo, Part.removeEntry]
  · exact h

theorem Part.removePlaying_state {p : Part} {e : Entry} {song : HeldSong} (he : p.heldBookEntry = some e) (hs : p.play.song = some song) :
    p.removePlaying.play.state = .idle := by
  simp [Part.removePlaying, he, hs]

/-- R135: with the play context IDLE neither timer runs. -/
theorem Part.stopTimers_sound {p : Part} (h : p.sound) (hs : p.play.state = .idle ∨ p.play.state = .gap) :
    ({ p with play := { p.play with state := .idle, hold := none, gap := none, startPending := false } } : Part).sound := by
  have hnone : p.play.entry = none := (Part.no_entry_iff h).mpr hs
  obtain ⟨⟨-, hsong, -⟩, -, ht⟩ := Part.sound_marks h
  have hsong' : p.play.song = none := by
    rw [Part.frame_cue, Play.cue, hnone] at hsong
    simpa using hsong
  refine Part.sound_of_marks (c := ⟨.idle, none, none, none, none⟩) ⟨by simp [Cue.wf], ?_, ht⟩ ?_ rfl rfl
  · simpa [Cue.marksFit, Entry.mark] using Part.waiting_of_no_entry h hnone
  · simp [Part.frame_cue, Play.cue, hnone, hsong']

theorem Part.clearPlay_sound {p : Part} (h : p.sound) : p.clearPlay.sound := by
  have hheld : p.play.state ≠ .idle → p.play.state ≠ .gap →
      (p.cueStrike .cleared true).play.state = .idle ∧ p.removePlaying.play.state = .idle := by
    intro hidle hgap
    cases hp : p.play.entry with
    | none =>
      have := (Part.no_entry_iff h).mp hp
      tauto
    | some ticket =>
      obtain ⟨e, -, -, -, -, -, he, ⟨song, hsong⟩, -⟩ := Part.held_first h hp
      exact ⟨Part.cueStrike_cleared_state hp hsong true, Part.removePlaying_state he hsong⟩
  have hstop : ∀ q : Part, q.sound → q.play.state = .idle →
      ({ q with play := { q.play with hold := none, gap := none, startPending := false } } : Part).sound := by
    intro q hq hs
    have := Part.stopTimers_sound hq (.inl hs)
    rw [← hs] at this
    exact this
  have hcue := p.cueStrike_sound true (.inr (.inr (.inr rfl))) h
  have hsong := Part.removePlaying_sound h
  unfold Part.clearPlay
  cases hs : p.play.state <;> dsimp only
  case idle => exact hstop p h hs
  case gap => exact Part.stopTimers_sound h (.inr hs)
  case staging => exact hstop _ hcue (hheld (by simp [hs]) (by simp [hs])).1
  case holding => exact hstop _ hcue (hheld (by simp [hs]) (by simp [hs])).1
  case running => exact hstop _ hsong (hheld (by simp [hs]) (by simp [hs])).2
  case paused => exact hstop _ hsong (hheld (by simp [hs]) (by simp [hs])).2

theorem Part.clearBook_sound {p : Part} (h : p.sound) : p.clearBook.sound :=
  Part.sound_of_held (p := p.strikeWaiting (fun _ => true) .cleared true) rfl (Part.strikeWaiting_sound _ .cleared true h)

theorem Part.emptyHandsets_held (p : Part) : p.emptyHandsets.held = p.held := by
  have hframe : (slotNumbers.foldl Part.emptyStore p).frame = p.frame :=
    foldl_keeps Part.frame Part.emptyStore (fun a b => by simp) slotNumbers p
  have hbook : (slotNumbers.foldl Part.emptyStore p).book = p.book :=
    foldl_keeps Part.book Part.emptyStore (fun a b => by simp) slotNumbers p
  unfold Part.emptyHandsets
  generalize slotNumbers.foldl Part.emptyStore p = q at hframe hbook ⊢
  exact (Part.held_of_frame hframe hbook : q.held = p.held)

@[simp] theorem Part.leaveTurn_book (p : Part) : p.leaveTurn.book = p.book := by
  unfold Part.leaveTurn
  split <;> simp

theorem Part.clearHandsets_sound {p : Part} (h : p.sound) : p.clearHandsets.sound := by
  rw [Part.clearHandsets_eq]
  exact Part.sound_of_frame (Part.leaveTurn_frame _) (Part.leaveTurn_book _) (Part.sound_of_held p.emptyHandsets_held h)

theorem Part.clearRoom_sound {p : Part} (h : p.sound) : p.clearRoom.sound := by
  have hbook := Part.clearBook_sound (Part.clearPlay_sound h)
  have hturn := Part.clearHandsets_sound (Part.sound_of_frame (Part.readerEmpty_frame _) (Part.readerEmpty_book _) hbook)
  unfold Part.clearRoom
  generalize p.clearPlay.clearBook.readerEmpty.clearHandsets = q at hturn ⊢
  exact Part.sound_of_frame (p := q) (by simp) (by simp) hturn

theorem cmdClearRoom_sound (params : List Byte) {p : Part} (h : p.sound) : (cmdClearRoom params p).1.sound :=
  withForm_sound _ _ h fun _ => Part.clearRoom_sound h

/-! ### Every command, every step -/

theorem cmdReadAttention_sound (params : List Byte) {p : Part} (h : p.sound) : (cmdReadAttention params p).1.sound :=
  withForm_sound _ _ h fun _ => Part.sound_of_frame (p := p) (by simp) (by simp) h

theorem cmdDisplaySettings_sound (params : List Byte) {p : Part} (h : p.sound) : (cmdDisplaySettings params p).1.sound := by
  refine withForm_sound _ _ h fun ⟨d, clearCounts⟩ => ?_
  cases clearCounts <;> exact Part.sound_of_held (p := p) rfl h

theorem cmdBindMic_sound (params : List Byte) {p : Part} (h : p.sound) : (cmdBindMic params p).1.sound :=
  withForm_sound _ _ h fun ⟨_, _⟩ => Part.sound_of_held (p := p) rfl h

theorem cmdLoadGlyphs_sound (params : List Byte) {p : Part} (h : p.sound) : (cmdLoadGlyphs params p).1.sound :=
  withForm_sound _ _ h fun ⟨_, _⟩ => Part.sound_of_held (p := p) rfl h

/-- A command that writes neither the play context nor the book. -/
theorem withForm_aside {α : Type} (form : Option α) {p : Part} (k : α → Part × CmdResult) (h : p.sound)
    (hk : ∀ a, (k a).1.held = p.held) : (withForm form p k).1.sound :=
  withForm_sound form k h fun a => Part.sound_of_held (hk a) h

theorem commandOf_sound {code : Nat} {params : List Byte} {body : Part → Part × CmdResult} (hb : commandOf code params = some body)
    {p : Part} (h : p.sound) : (body p).1.sound := by
  unfold commandOf at hb
  split at hb <;> cases hb
  · exact cmdAddRequest_sound params h
  · exact cmdCancelRequest_sound params h
  · exact cmdEditRequest_sound params h
  · exact cmdPlaceRequest_sound params h
  · exact cmdReadBook_sound params h
  · exact cmdHoldBook_sound params h
  · exact withForm_aside _ _ h fun _ => rfl
  · exact cmdHandsetTable_sound params h
  · exact cmdOpenClaims_sound params h
  · exact cmdBarHandset_sound params h
  · exact cmdReleaseHandset_sound params h
  · exact cmdMount_sound params h
  · exact cmdLookUpSong_sound params h
  · exact cmdListSongs_sound params h
  · exact cmdInstallBegin_sound params h
  · exact cmdInstallPage_sound params h
  · exact cmdInstallClose_sound params h
  · exact cmdInstallAbandon_sound params h
  · exact cmdWithdrawSong_sound params h
  · exact cmdLibraryStatus_sound params h
  · exact withForm_aside _ _ h fun _ => rfl
  · exact cmdStart_sound params h
  · exact cmdSkip_sound params h
  · exact cmdExtendHold_sound params h
  · exact cmdPause_sound params h
  · exact cmdResume_sound params h
  · exact cmdNudge_sound params h
  · exact cmdNextNow_sound params h
  · exact cmdLoadGlyphs_sound params h
  · exact cmdDisplaySettings_sound params h
  · exact cmdBindMic_sound params h
  · exact withForm_aside _ _ h fun _ => rfl
  · exact withForm_aside _ _ h fun _ => rfl
  · exact cmdReadAttention_sound params h
  · exact withForm_aside _ _ h fun _ => rfl
  · exact cmdConfigure_sound params h
  · exact cmdClearRoom_sound params h

theorem Part.writeSelect_sound {p : Part} (frame : List Byte) (h : p.sound) : (p.writeSelect frame).sound := by
  unfold Part.writeSelect Part.judgeFrame
  split
  · exact h
  · split
    · split
      · exact h
      · split
        · exact h
        · next hb => exact Part.takeCommand_sound _ _ (commandOf_sound hb h) h
    · exact h
    · exact h

theorem Part.readSelect_sound {p : Part} (n : Nat) (h : p.sound) : (p.readSelect n).sound := by
  unfold Part.readSelect
  split
  · exact h
  · split
    · dsimp only
      split <;> exact h
    · exact h

theorem Part.anySelect_sound {p : Part} (direction : Option Byte) (h : p.sound) : (p.anySelect direction).sound := by
  unfold Part.anySelect
  split
  · exact Part.writeSelect_sound [] h
  · split
    · exact Part.readSelect_sound 0 h
    · exact h

/-- Selects and events keep the play context and the book together. -/
theorem effectOf_sound_of_event {i : Instr} (hf : i.commandFrame = none) {p : Part} (h : p.sound) : (effectOf i p).sound := by
  cases i
  case pinReset selLow => exact Part.sound_of_held (p := Part.reset) rfl resetMeetsInvariants.2.2.2
  case ignoredSelect direction => exact Part.anySelect_sound direction h
  case badFrame frame => exact Part.writeSelect_sound frame h
  case unknownCommand frame => exact Part.writeSelect_sound frame h
  case collision frame => exact Part.writeSelect_sound frame h
  case readSelect n => exact Part.readSelect_sound n h
  case receivedCharacter c => exact Part.receiveChar_sound c h
  case invalidAnswer chars => exact Part.wholeFrame_sound chars h
  case answer address body => exact Part.wholeFrame_sound _ h
  case ask address fields => exact Part.wholeFrame_sound _ h
  case find address fields => exact Part.wholeFrame_sound _ h
  case mine address fields => exact Part.wholeFrame_sound _ h
  case drop address fields => exact Part.wholeFrame_sound _ h
  case key address fields => exact Part.wholeFrame_sound _ h
  case join address fields => exact Part.wholeFrame_sound _ h
  case leave address fields => exact Part.wholeFrame_sound _ h
  case claim serial => exact Part.wholeFrame_sound _ h
  case badClaim chars => exact Part.wholeFrame_sound chars h
  case lateAnswer chars => exact Part.outsideFrame_sound chars h
  case strayFrame chars => exact Part.outsideFrame_sound chars h
  case holdExpiry => exact Part.expireAt_holds (inv := Part.sound) 1 _ _ (fun q hq => Part.holdExpires_sound hq) p h
  case gapExpiry => exact Part.expireAt_holds (inv := Part.sound) 1 _ _ (fun q hq => Part.gapExpires_sound hq) p h
  case dieWatchExpiry d => exact Part.expireAt_holds (inv := Part.sound) 1 _ _ (fun q hq => Part.watchExpires_sound d hq) p h
  case audioFrame f => exact Part.audioFrame_sound f h
  case windowEnd f => exact Part.audioFrame_sound f h
  case streamFetchComplete d read => exact Part.readCompletes_sound d _ read _ (fun r q hq => Part.streamArrives_sound read r hq) h
  case lookupReadComplete d read => exact Part.readCompletes_sound d _ read _ (fun r q hq => Part.lookupEnds_sound _ r hq) h
  case mountScanReadComplete d read =>
    exact Part.readCompletes_sound d _ read _ (fun r q hq => Part.sound_of_frame (p := q) (by simp) (by simp) hq) h
  case installProgramComplete d pass =>
    show (p.eraseCompletes d installRequester fun r q => q.installOpEnds d pass r).sound
    exact Part.eraseCompletes_sound d _ _ (fun r q => by simp) (fun r q => by simp) h
  case withdrawEraseComplete d pass =>
    show (p.eraseCompletes d isWithdraw (Part.withdrawEnds d pass)).sound
    exact Part.eraseCompletes_sound d _ _ (fun r q => by simp) (fun r q => by simp) h
  case reclaimEraseComplete d pass =>
    show (p.eraseCompletes d (· == .reclaim) (Part.reclaimEnds d pass)).sound
    exact Part.eraseCompletes_sound d _ _ (fun r q => by simp) (fun r q => by simp) h
  all_goals first
    | (simp [Instr.commandFrame] at hf; done)
    | exact Part.sound_of_frame (p := p) (by simp [effectOf, exec, execPollSent, execReplyExpiry, execOpenSent, execGrantSent, execBreak, execBreakEnd, execIdentification, execLibwpChange, execInputFrameStart, execInternalFrameStart, execVideoWatchExpiry, execCardExpiry]) (by simp [effectOf, exec, execPollSent, execReplyExpiry, execOpenSent, execGrantSent, execBreak, execBreakEnd, execIdentification, execLibwpChange, execInputFrameStart, execInternalFrameStart, execVideoWatchExpiry, execCardExpiry]) h

theorem effectOf_sound (i : Instr) (p : Part) (h : p.sound) : (effectOf i p).sound := by
  cases hf : i.commandFrame with
  | none => exact effectOf_sound_of_event hf h
  | some f =>
    obtain ⟨body, hb, he⟩ := effect_of_commandFrame hf
    rw [he]
    exact Part.takeCommand_sound _ _ (commandOf_sound hb h) h

/-- Settles O59. -/
theorem stepKeepsCue : Obligations.StepKeepsCue :=
  fun _ _ hcue hbook h => step_keeps (inv := Part.sound) effectOf_sound ⟨hcue, hbook⟩ h

end Sys2Proof.Machine
end

