-- ==== Sys2Proof/Proofs/HostPort.lean ====
section
/-! PROOFS. Proofs/HostPort.lean: what a host command answers, from what its block gives back; the frames of Tables 10-2 and 10-3; parameter
bodies without their form; pin reset; ATTN (O3, O4, O6, O7, O8, O9, O12). -/

namespace Sys2Proof.Machine

/-! ### What a host command answers -/

/-- The row of a host command offers it to the port. -/
def Instr.offers (i : Instr) (tag : Byte) (body : Part → Part × CmdResult) : Prop :=
  ∀ s, exec i s = .next (s.mapPart fun p => p.takeCommand tag body)

section
variable {i : Instr} {tag : Byte} {body : Part → Part × CmdResult} {s : State}

theorem exec_of_offers (hi : Instr.offers i tag body) (h : s.part.ready) :
    exec i s = .next { s with part := ((body s.part).1.finish tag (body s.part).2).quietSdo } := by
  rw [hi s, State.mapPart, Part.takeCommand_ready s.part h]

theorem exec_ok (hi : Instr.offers i tag body) (h : s.part.ready) {u : Part} {data : List Byte} (hb : body s.part = (u, .ok data)) :
    exec i s = .next (State.answered { s with part := u } tag .ok data) := by
  rw [exec_of_offers hi h, hb]
  rfl

theorem exec_refused (hi : Instr.offers i tag body) (h : s.part.ready) {c : Cause} (hb : body s.part = (s.part, .refused c)) :
    exec i s = .next (s.refused tag c) := by
  rw [exec_of_offers hi h, hb]
  rfl

theorem exec_okThenPromote (hi : Instr.offers i tag body) (h : s.part.ready) {u : Part} {data : List Byte}
    (hb : body s.part = thenPromote (u, .ok data)) : exec i s = .next (s.okThenPromote tag u data) :=
  exec_ok hi h hb

end

@[simp] theorem withForm_some {α : Type} (a : α) (p : Part) (k : α → Part × CmdResult) : withForm (some a) p k = k a := rfl

theorem withForm_none {α : Type} {form : Option α} (h : form = none) (p : Part) (k : α → Part × CmdResult) :
    withForm form p k = (p, .refused .badForm) := by
  rw [h]
  rfl

@[simp] theorem Part.quietSdo_sdoByte (p : Part) (k : Nat) : p.quietSdo.sdoByte k = 0xFF#8 := by
  simp [Part.sdoByte, Part.quietSdo]

/-! ### Pin reset (R110) -/

/-- Settles O3. -/
theorem pinResetGivesResetState : Obligations.PinResetGivesResetState := by
  refine ⟨fun _ _ => rfl, rfl, ?_⟩
  rintro p rfl
  refine ⟨⟨rfl, rfl, rfl, rfl⟩, ⟨rfl, rfl, rfl⟩, ⟨rfl, rfl, rfl, rfl, rfl, rfl, rfl⟩, ?_, ⟨rfl, ?_⟩, ⟨rfl, ?_⟩, ?_, ?_, ?_⟩
  · exact ⟨rfl, rfl, rfl, rfl, rfl, rfl, rfl, rfl, rfl, rfl, rfl, rfl⟩
  · intro x hx
    rw [List.eq_of_mem_replicate (hx : x ∈ List.replicate 16 Slot.reset)]
    exact ⟨rfl, rfl, rfl, rfl⟩
  · exact fun x hx => List.eq_of_mem_replicate (hx : x ∈ List.replicate 16 Store.empty)
  · exact ⟨rfl, rfl, rfl, rfl, rfl, rfl, rfl⟩
  · exact ⟨rfl, rfl, rfl, rfl, rfl, rfl, rfl, rfl⟩
  · exact ⟨rfl, rfl, rfl, rfl⟩

/-! ### ATTN (R180) -/

theorem mem_sourcesByPriority (src : Source) : src ∈ sourcesByPriority := by
  cases src <;> decide

theorem Part.attnPin_iff (p : Part) :
    p.attnPin = true ↔ ∃ src, p.attn.pending.get src = true ∧ p.attn.unmasked.get src = true := by
  simp [Part.attnPin, mem_sourcesByPriority]

/-- Settles O12. -/
theorem attnFollowsPendingAndMask : Obligations.AttnFollowsPendingAndMask := by
  refine ⟨Part.attnPin_iff, fun p src => ?_⟩
  have hself : (p.raise src).attn.pending.get src = true := SourceSet.get_put_self _ src true
  have hother : ∀ other, other ≠ src → (p.raise src).attn.pending.get other = p.attn.pending.get other :=
    fun other h => SourceSet.get_put_of_ne _ _ _ _ h
  refine ⟨hself, ?_, hother⟩
  rw [Bool.eq_iff_iff, Part.attnPin_iff, Bool.or_eq_true, Part.attnPin_iff]
  constructor
  · rintro ⟨x, hp, hm⟩
    by_cases hx : x = src
    · exact .inr (hx ▸ hm)
    · exact .inl ⟨x, (hother x hx).symm.trans hp, hm⟩
  · rintro (⟨x, hp, hm⟩ | hm)
    · by_cases hx : x = src
      · exact ⟨src, hself, hx ▸ hm⟩
      · exact ⟨x, (hother x hx).trans hp, hm⟩
    · exact ⟨src, hself, hm⟩

/-! ### READ selects (R175) -/

/-- Settles O6. -/
theorem readSelectSendsAnswer : Obligations.ReadSelectSendsAnswer := by
  intro n s h
  have hexec : exec (.readSelect n) s = .next (s.mapPart fun p => p.readSelect n) := rfl
  refine ⟨fun a hs ha hn => ?_, fun a hs ha hn => ?_, fun hs => ?_⟩
  · have hsent : sdoBytes n (s.part.answerFrame a) =
        s.part.answerFrame a ++ List.replicate (n - (a.data.length + 7)) 0xFF#8 := by
      unfold sdoBytes
      rw [List.take_of_length_le (by simp; omega), Part.answerFrame_length]
    rw [hexec, State.mapPart, Part.readSelect_whole s.part n a h hs ha hn, Part.sendSdo, hsent]
    rfl
  · have hcut : sdoBytes n (s.part.answerFrame a) = (s.part.answerFrame a).take n := by
      unfold sdoBytes
      rw [List.take_append_of_le_length (by rw [Part.answerFrame_length]; omega)]
    have hlen : ¬(s.part.answerFrame a).length ≤ n := by rw [Part.answerFrame_length]; omega
    have hread : s.part.readSelect n = s.part.sendSdo n (s.part.answerFrame a) := by
      rw [Part.readSelect, if_neg (by simp [h])]
      simp only [hs, ha, hlen, if_false]
    rw [hexec, State.mapPart, hread, Part.sendSdo, hcut]
  · have hempty : s.part.readSelect n = s.part.sendSdo n (s.part.answerFrame emptyAnswer) := by
      unfold Part.readSelect
      rw [if_neg (by simp [h])]
      split
      · next hs' _ => exact absurd hs' hs
      · rfl
    rw [hexec, State.mapPart, hempty]
    rfl

/-! ### Command frames (Table 10-2) -/

theorem ofU16_of_lt {n : Nat} (h : n < 65536) : ofU16 (BitVec.ofNat 8 n) (BitVec.ofNat 8 (n / 256)) = n := by
  simp [ofU16]
  omega

theorem crcBytes_length (span : List Byte) : (crcBytes span).length = 2 := rfl

theorem CommandFrame.span_length (f : CommandFrame) : f.span.length = f.params.length + 4 := by
  simp [CommandFrame.span, u8, u16]

theorem CommandFrame.bytes_length (f : CommandFrame) : f.bytes.length = f.params.length + 6 := by
  simp [CommandFrame.bytes, CommandFrame.span_length, crcBytes_length]

/-- Settles O8. -/
theorem commandFrameRoundTrip : Obligations.CommandFrameRoundTrip := by
  intro f hcode hlen
  have hbytes : f.bytes = BitVec.ofNat 8 (f.params.length + 6) :: BitVec.ofNat 8 ((f.params.length + 6) / 256) ::
      BitVec.ofNat 8 f.code :: f.tag :: (f.params ++ crcBytes f.span) := rfl
  have hdrop : f.bytes.drop (f.bytes.length - 2) = crcBytes (f.bytes.take (f.bytes.length - 2)) := by
    have hsplit : f.bytes.length - 2 = f.span.length := by rw [f.bytes_length, f.span_length]; omega
    rw [hsplit, CommandFrame.bytes, List.drop_left, List.take_left]
  have hwhole : 6 ≤ f.bytes.length ∧ f.bytes.length ≤ Config.frameLimit ∧
      ofU16 (BitVec.ofNat 8 (f.params.length + 6)) (BitVec.ofNat 8 ((f.params.length + 6) / 256)) = f.bytes.length ∧
      f.bytes.drop (f.bytes.length - 2) = crcBytes (f.bytes.take (f.bytes.length - 2)) := by
    refine ⟨by rw [f.bytes_length]; omega, by rw [f.bytes_length]; exact Nat.add_le_add_right hlen 6, ?_, hdrop⟩
    rw [f.bytes_length, ofU16_of_lt (by omega)]
  rw [hbytes] at hwhole ⊢
  rw [parseCommand, if_pos hwhole]
  have hparams : (f.params ++ crcBytes f.span).take ((f.params ++ crcBytes f.span).length - 2) = f.params := by
    simp [crcBytes_length]
  have htoNat : (BitVec.ofNat 8 f.code).toNat = f.code := by simpa using hcode
  rw [hparams, htoNat]

theorem commandOf_eq_none {code : Nat} (params : List Byte) (h : code = 0 ∨ 0x26 ≤ code) : commandOf code params = none := by
  unfold commandOf
  split
  any_goals rfl
  all_goals omega

theorem commandOf_lt {code : Nat} {params : List Byte} {body : Part → Part × CmdResult} (h : commandOf code params = some body) :
    code < 256 := by
  by_contra hn
  simp [commandOf_eq_none params (code := code) (by omega)] at h

theorem parseCommand_eq_none {frame : List Byte}
    (h : frame.length < 6 ∨ 2112 < frame.length ∨ u16At frame 0 ≠ frame.length ∨
      frame.drop (frame.length - 2) ≠ crcBytes (frame.take (frame.length - 2))) : parseCommand frame = none := by
  unfold parseCommand
  split
  · next l0 l1 code tag rest =>
    rw [if_neg]
    rintro ⟨hlo, hhi, hlen, hcrc⟩
    obtain h | h | h | h := h
    · omega
    · exact absurd hhi (Nat.not_le.mpr h)
    · exact h hlen
    · exact h hcrc
  · rfl

theorem Part.writeSelect_idle {p : Part} (h : p.ready) (frame : List Byte) : p.writeSelect frame = p.judgeFrame frame := by
  simp [Part.writeSelect, h.1, h.2]

theorem Part.writeSelect_ignored {p : Part} (h : p.port.ignoreSelect = true) (frame : List Byte) : p.writeSelect frame = p.passSelect := by
  simp [Part.writeSelect, h]

theorem Instr.params_length_of_wellFormed {i : Instr} {f : CommandFrame} (hf : i.commandFrame = some f) (hw : i.wellFormed = true) :
    f.params.length ≤ 2106 := by
  cases i <;> cases hf <;> exact of_decide_eq_true hw

/-- Settles O9: a frame that parses is judged as its command, whatever the port's state. -/
theorem frameActsAsItsCommand : Obligations.FrameActsAsItsCommand := by
  intro i f s hf hw
  obtain ⟨body, hb, hexec⟩ := exec_of_commandFrame hf s
  rw [hexec, exec_of_rawFrame (.inr (.inr rfl))]
  have hparse : parseCommand f.bytes = some f :=
    commandFrameRoundTrip f (commandOf_lt hb) (Instr.params_length_of_wellFormed hf hw)
  have hjudge : ∀ p : Part, p.judgeFrame f.bytes = p.takeCommand f.tag body := by
    intro p
    simp [Part.judgeFrame, hparse, hb]
  have hselect : s.part.writeSelect f.bytes = s.part.takeCommand f.tag body := by
    cases hi : s.part.port.ignoreSelect with
    | true => rw [Part.writeSelect_ignored hi, Part.takeCommand, if_pos hi]
    | false =>
      by_cases hs : s.part.port.state = .idle
      · rw [Part.writeSelect_idle ⟨hs, hi⟩, hjudge]
      · rw [Part.writeSelect_busy s.part hi hs, Part.takeCommand_busy s.part hi hs]
  rw [State.mapPart, State.mapPart, hselect]

/-! ### SDO through a WRITE select (R173) -/

theorem Part.takeCommand_quiet {p : Part} (h : p.port.ignoreSelect = false) (tag : Byte) (body : Part → Part × CmdResult) :
    ∃ q : Part, p.takeCommand tag body = q.quietSdo := by
  by_cases hs : p.port.state = .idle
  · exact ⟨_, Part.takeCommand_ready p ⟨hs, h⟩ tag body⟩
  · exact ⟨_, Part.takeCommand_busy p h hs tag body⟩

theorem Part.writeSelect_quiet {p : Part} (h : p.port.ignoreSelect = false) (frame : List Byte) :
    ∃ q : Part, p.writeSelect frame = q.quietSdo := by
  by_cases hs : p.port.state = .idle
  · rw [Part.writeSelect_idle ⟨hs, h⟩]
    unfold Part.judgeFrame
    split
    · exact ⟨_, rfl⟩
    · split
      · exact ⟨_, rfl⟩
      · exact Part.takeCommand_quiet h _ _
  · exact ⟨_, Part.writeSelect_busy p h hs frame⟩

/-- Settles O4. -/
theorem selectsJudged : Obligations.SelectsJudged := by
  refine ⟨?ignored, ?bad, ?unknown, fun p => rfl, ?sdo⟩
  case ignored =>
    intro direction s hw hr hi
    have hpass : s.part.anySelect direction = s.part := by
      rw [Part.anySelect, if_neg hw, if_neg hr, Part.passSelect, ← hi]
    have hexec : exec (.ignoredSelect direction) s = .next { s with part := s.part.anySelect direction } := rfl
    rw [hexec, hpass]
  case bad =>
    intro frame s h hbad
    rw [exec_of_rawFrame (.inl rfl), State.mapPart, Part.writeSelect_idle h, Part.judgeFrame, parseCommand_eq_none hbad]
    rfl
  case unknown =>
    intro f s h hlen hcode hc
    rw [exec_of_rawFrame (.inr (.inl rfl)), State.mapPart, Part.writeSelect_idle h, Part.judgeFrame, commandFrameRoundTrip f hcode hlen]
    dsimp only
    rw [commandOf_eq_none f.params hc]
    rfl
  case sdo =>
    intro i s t h hi ht k
    have hquiet : ∃ q : Part, exec i s = .next { s with part := q.quietSdo } := by
      obtain ⟨frame, hraw⟩ | hhost := hi
      · obtain ⟨q, hq⟩ := Part.writeSelect_quiet h frame
        exact ⟨q, by rw [exec_of_rawFrame hraw, State.mapPart, hq]⟩
      · obtain ⟨f, hf⟩ := Option.isSome_iff_exists.mp hhost
        obtain ⟨body, -, hexec⟩ := exec_of_commandFrame hf s
        obtain ⟨q, hq⟩ := Part.takeCommand_quiet h f.tag body
        exact ⟨q, by rw [hexec, State.mapPart, hq]⟩
    obtain ⟨q, hq⟩ := hquiet
    rw [hq] at ht
    cases ht
    exact q.quietSdo_sdoByte k

end Sys2Proof.Machine
end

