-- ==== Sys2Proof/Proofs/Forms.lean ====
section
/-! PROOFS. Proofs/Forms.lean: the parameter forms of Table 10-1 as bytes, and the bodies that have none of them (O7). -/

namespace Sys2Proof.Machine

/-! ### Forms of fixed length -/

section
variable {l : List Byte}

theorem takesNone_eq_none (h : l.length ≠ 0) : takesNone l = none := by
  unfold takesNone
  split <;> [exact absurd rfl h; rfl]

theorem u8Value_eq_none (h : l.length ≠ 1) : u8Value l = none := by
  unfold u8Value
  split <;> [exact absurd rfl h; rfl]

theorem onOffValue_eq_none (h : l.length ≠ 1) : onOffValue l = none := by
  unfold onOffValue
  split <;> [exact absurd rfl h; rfl]

theorem u16Value_eq_none (h : l.length ≠ 2) : u16Value l = none := by
  unfold u16Value
  split <;> [exact absurd rfl h; rfl]

theorem s16Value_eq_none (h : l.length ≠ 2) : s16Value l = none := by
  unfold s16Value
  split <;> [exact absurd rfl h; rfl]

theorem u24Value_eq_none (h : l.length ≠ 3) : u24Value l = none := by
  unfold u24Value
  split <;> [exact absurd rfl h; rfl]

theorem placeParams_eq_none (h : l.length ≠ 3) : placeParams l = none := by
  unfold placeParams
  split <;> [exact absurd rfl h; rfl]

theorem listParams_eq_none (h : l.length ≠ 4) : listParams l = none := by
  unfold listParams
  split <;> [exact absurd rfl h; rfl]

theorem bindParams_eq_none (h : l.length ≠ 2) : bindParams l = none := by
  unfold bindParams
  split <;> [exact absurd rfl h; rfl]

theorem maskParams_eq_none (h : l.length ≠ 7) : maskParams l = none := by
  unfold maskParams
  split <;> [exact absurd rfl h; rfl]

theorem pageParams_eq_none (h : l.length ≠ 2049) : pageParams l = none := by
  cases l with
  | nil => rfl
  | cons i data => exact if_neg fun hd => h (congrArg (· + 1) hd)

theorem inRange_eq_none {lo hi : Nat} {v : Option Nat} (h : v = none) : inRange lo hi v = none := by
  rw [h]
  rfl

end

theorem commandOf_of_wrong_length {code n : Nat} {params : List Byte} {body : Part → Part × CmdResult}
    (hb : commandOf code params = some body) (hn : fixedParams code = some n) (hl : params.length ≠ n) (p : Part) :
    body p = (p, .refused .badForm) := by
  unfold commandOf at hb
  split at hb <;> cases hb <;> cases hn
  · exact withForm_none (u16Value_eq_none hl) _ _
  · exact withForm_none (placeParams_eq_none hl) _ _
  · exact withForm_none (takesNone_eq_none hl) _ _
  · exact withForm_none (onOffValue_eq_none hl) _ _
  · exact withForm_none (takesNone_eq_none hl) _ _
  · exact withForm_none (onOffValue_eq_none hl) _ _
  · exact withForm_none (inRange_eq_none (u8Value_eq_none hl)) _ _
  · exact withForm_none (inRange_eq_none (u8Value_eq_none hl)) _ _
  · exact withForm_none (takesNone_eq_none hl) _ _
  · exact withForm_none (u24Value_eq_none hl) _ _
  · exact withForm_none (listParams_eq_none hl) _ _
  · exact withForm_none (pageParams_eq_none hl) _ _
  · exact withForm_none (takesNone_eq_none hl) _ _
  · exact withForm_none (takesNone_eq_none hl) _ _
  · exact withForm_none (u24Value_eq_none hl) _ _
  · exact withForm_none (takesNone_eq_none hl) _ _
  · exact withForm_none (takesNone_eq_none hl) _ _
  · exact withForm_none (takesNone_eq_none hl) _ _
  · exact withForm_none (u8Value_eq_none hl) _ _
  · exact withForm_none (takesNone_eq_none hl) _ _
  · exact withForm_none (takesNone_eq_none hl) _ _
  · exact withForm_none (s16Value_eq_none hl) _ _
  · exact withForm_none (takesNone_eq_none hl) _ _
  · exact withForm_none (bindParams_eq_none hl) _ _
  · exact withForm_none (takesNone_eq_none hl) _ _
  · exact withForm_none (takesNone_eq_none hl) _ _
  · exact withForm_none (takesNone_eq_none hl) _ _
  · exact withForm_none (maskParams_eq_none hl) _ _
  · exact withForm_none (takesNone_eq_none hl) _ _

/-! ### Forms of varying length -/

theorem addParams_eq_none {l : List Byte} (h : l.length ≠ 6) (hf : ∀ body, l = body ++ [1#8] → body.length ≠ 6) :
    addParams l = none := by
  unfold addParams
  split
  · next s0 s1 s2 n k t rest =>
    have hflag : optionalFlag rest = none := by
      unfold optionalFlag
      split
      · exact absurd rfl h
      · next b => exact if_neg fun hb : b = 1#8 => hf [s0, s1, s2, n, k, t] (by rw [hb]; rfl) rfl
      · rfl
    rw [hflag]
    rfl
  · rfl

theorem optionalFlag_eq_none {l : List Byte} (h : l ≠ []) (hf : l ≠ [1#8]) : optionalFlag l = none := by
  unfold optionalFlag
  split
  · exact absurd rfl h
  · next b => exact if_neg fun hb : b = 1#8 => hf (by rw [hb])
  · rfl

/-- R189: pairs of EDIT REQUEST are a number from 1 to 3 and one byte. -/
theorem editWidth_eq_some {n w : Nat} (h : editWidth n = some w) : w = 1 ∧ (n = 1 ∨ n = 2 ∨ n = 3) := by
  unfold editWidth at h
  split at h <;> cases h <;> exact ⟨rfl, by omega⟩

theorem takePairs_editWidth {fuel : Nat} {l : List Byte} {pairs : List (Nat × List Byte)} (h : takePairs editWidth fuel l = some pairs) :
    ∃ bytes : List (Byte × Byte), l = bytes.flatMap (fun x => [x.1, x.2]) ∧ (∀ x ∈ bytes, x.1 ∈ [1#8, 2#8, 3#8]) ∧
      pairs.map Prod.fst = (bytes.map Prod.fst).map BitVec.toNat := by
  induction fuel generalizing l pairs with
  | zero =>
    cases l with
    | nil => cases h; exact ⟨[], rfl, by simp, rfl⟩
    | cons n rest => cases h
  | succ fuel ih =>
    cases l with
    | nil => cases h; exact ⟨[], rfl, by simp, rfl⟩
    | cons n rest =>
      rw [takePairs] at h
      split at h
      · cases h
      · next w hw =>
        obtain ⟨rfl, hn⟩ := editWidth_eq_some hw
        split at h
        · cases h
        · next hlen =>
          obtain ⟨more, hmore, rfl⟩ := Option.map_eq_some_iff.mp h
          obtain ⟨bytes, hrest, hmem, hmap⟩ := ih hmore
          obtain ⟨v, rest, rfl⟩ := List.exists_cons_of_length_pos (Nat.lt_of_lt_of_le Nat.zero_lt_one (Nat.not_lt.mp hlen))
          have hn' : n ∈ [1#8, 2#8, 3#8] := by
            simpa [← BitVec.toNat_inj] using hn
          refine ⟨(n, v) :: bytes, ?_, ?_, ?_⟩
          · rw [List.drop_one, List.tail_cons] at hrest
            simp [hrest]
          · simpa using ⟨by simpa using hn', by simpa using hmem⟩
          · simp [hmap]

theorem editParams_eq_none {l : List Byte}
    (h : ¬∃ (t0 t1 : Byte) (pairs : List (Byte × Byte)), (pairs.map Prod.fst).Nodup ∧ (∀ x ∈ pairs, x.1 ∈ [1#8, 2#8, 3#8]) ∧
      l = t0 :: t1 :: pairs.flatMap fun x => [x.1, x.2]) : editParams l = none := by
  unfold editParams
  split
  · next t0 t1 rest =>
    cases hp : pairsOf editWidth rest with
    | none => rfl
    | some pairs =>
      obtain ⟨htake, hnodup⟩ := Option.filter_eq_some_iff.mp hp
      obtain ⟨bytes, hrest, hmem, hmap⟩ := takePairs_editWidth htake
      have hnodup' : (pairs.map Prod.fst).Nodup := of_decide_eq_true hnodup
      rw [hmap] at hnodup'
      exact absurd ⟨t0, t1, bytes, hnodup'.of_map, hmem, by rw [hrest]⟩ h
  · rfl

theorem takeTag_eq_some {l t rest : List Byte} (h : takeTag l = some (t, rest)) : l = tagBytes t ++ rest ∧ t.length ≤ 12 := by
  cases l with
  | nil => cases h
  | cons n l =>
    rw [takeTag] at h
    split at h
    · next hn =>
      obtain ⟨hle, hlen⟩ := hn
      cases h
      have hlength : (l.take n.toNat).length = n.toNat := List.length_take_of_le hlen
      refine ⟨?_, hlength.trans_le hle⟩
      rw [tagBytes, hlength]
      simp [u8]
    · cases h

theorem u16List_eq_some {n : Nat} {l : List Byte} {values : List Nat} (h : u16List n l = some values) :
    ∃ codes : List (Byte × Byte), codes.length = n ∧ l = codes.flatMap fun x => [x.1, x.2] := by
  induction n generalizing l values with
  | zero =>
    cases l with
    | nil => exact ⟨[], rfl, rfl⟩
    | cons b l => cases h
  | succ n ih =>
    match l, h with
    | b0 :: b1 :: rest, h =>
      rw [u16List] at h
      obtain ⟨more, hmore, -⟩ := Option.map_eq_some_iff.mp h
      obtain ⟨codes, hlen, hrest⟩ := ih hmore
      exact ⟨(b0, b1) :: codes, by simp [hlen], by simp [hrest]⟩

theorem installParams_eq_none {l : List Byte}
    (h : ¬∃ (fixed title artist : List Byte) (codes : List (Byte × Byte)), fixed.length = 8 ∧ title.length ≤ 12 ∧ artist.length ≤ 12 ∧
      codes.length ≤ 255 ∧
      l = fixed ++ tagBytes title ++ tagBytes artist ++ u8 codes.length ++ codes.flatMap fun x => [x.1, x.2]) :
    installParams l = none := by
  unfold installParams
  split
  · next s0 s1 s2 n d0 d1 d2 q rest =>
    split
    · rfl
    · next title rest1 htitle =>
      split
      · next artist g rest2 hartist =>
        cases hcodes : u16List g.toNat rest2 with
        | none => rfl
        | some values =>
          obtain ⟨htb, htl⟩ := takeTag_eq_some htitle
          obtain ⟨hab, hal⟩ := takeTag_eq_some hartist
          obtain ⟨codes, hcl, hcb⟩ := u16List_eq_some hcodes
          refine absurd ⟨[s0, s1, s2, n, d0, d1, d2, q], title, artist, codes, rfl, htl, hal, ?_, ?_⟩ h
          · have := g.isLt
            omega
          · have hg : u8 codes.length = [g] := by rw [hcl, u8, BitVec.ofNat_toNat, BitVec.setWidth_eq]
            rw [htb, hab, hcb, hg]
            simp
      · rfl
  · rfl

/-- Settles O7: each body has no reading in its command's form. -/
theorem wrongLengthIsBadForm : Obligations.WrongLengthIsBadForm := by
  refine ⟨fun tag params s h => ⟨?add, ?flags, ?edit, ?install⟩, ?fixed⟩
  case add =>
    intro hl hf
    exact exec_refused (body := cmdAddRequest params) (fun _ => rfl) h (withForm_none (addParams_eq_none hl hf) _ _)
  case flags =>
    intro hl hf
    have hnone := optionalFlag_eq_none hl hf
    exact ⟨exec_refused (body := cmdHandsetTable params) (fun _ => rfl) h (withForm_none hnone _ _),
      exec_refused (body := cmdLibraryStatus params) (fun _ => rfl) h (withForm_none hnone _ _)⟩
  case edit =>
    intro hn
    exact exec_refused (body := cmdEditRequest params) (fun _ => rfl) h (withForm_none (editParams_eq_none hn) _ _)
  case install =>
    intro hn
    exact exec_refused (body := cmdInstallBegin params) (fun _ => rfl) h (withForm_none (installParams_eq_none hn) _ _)
  case fixed =>
    intro i f n s h hf hn hl
    obtain ⟨body, hb, -⟩ := exec_of_commandFrame hf s
    refine exec_refused (body := body) (fun t => ?_) h (commandOf_of_wrong_length hb hn hl s.part)
    obtain ⟨body', hb', hexec⟩ := exec_of_commandFrame hf t
    rw [hb] at hb'
    cases hb'
    exact hexec

end Sys2Proof.Machine
end

