-- ==== Sys2Proof/Proofs/Records.lean ====
section
/-! PROOFS. Proofs/Records.lean: the numbered slot records and stores after a change of one of them; the commands that report and clear
(O13, O25). -/

namespace Sys2Proof.Machine

/-! ### Numbered records -/

theorem getD_modify_self {α : Type} (l : List α) (n : Nat) (f : α → α) (d : α) (h : n < l.length) :
    (l.modify n f).getD n d = f (l.getD n d) := by
  simp [List.getD_eq_getElem?_getD, h]

theorem getD_modify_of_ne {α : Type} (l : List α) {n m : Nat} (f : α → α) (d : α) (h : n ≠ m) :
    (l.modify n f).getD m d = l.getD m d := by
  simp [List.getD_eq_getElem?_getD, h]

theorem Part.slot_mapSlot_self {p : Part} {n : Nat} (f : Slot → Slot) (hl : p.slots.length = 16) (h1 : 1 ≤ n) (h16 : n ≤ 16) :
    (p.mapSlot n f).slot n = f (p.slot n) :=
  getD_modify_self p.slots (n - 1) f Slot.reset (by omega)

theorem Part.slot_mapSlot_of_ne (p : Part) {n m : Nat} (f : Slot → Slot) (h : m ≠ n) (hn : 1 ≤ n) (hm : 1 ≤ m) :
    (p.mapSlot n f).slot m = p.slot m :=
  getD_modify_of_ne p.slots f Slot.reset (by omega)

theorem Part.store_mapStore_self {p : Part} {n : Nat} (f : Store → Store) (hl : p.stores.length = 16) (h1 : 1 ≤ n) (h16 : n ≤ 16) :
    (p.mapStore n f).store n = f (p.store n) :=
  getD_modify_self p.stores (n - 1) f Store.empty (by omega)

theorem Part.store_mapStore_of_ne (p : Part) {n m : Nat} (f : Store → Store) (h : m ≠ n) (hn : 1 ≤ n) (hm : 1 ≤ m) :
    (p.mapStore n f).store m = p.store m :=
  getD_modify_of_ne p.stores f Store.empty (by omega)

theorem Part.slot_congr {p q : Part} (h : q.slots = p.slots) (n : Nat) : q.slot n = p.slot n := by
  rw [Part.slot, Part.slot, h]

theorem Part.store_congr {p q : Part} (h : q.stores = p.stores) (n : Nat) : q.store n = p.store n := by
  rw [Part.store, Part.store, h]

@[simp] theorem Part.slot_mapStore (p : Part) (n m : Nat) (f : Store → Store) : (p.mapStore n f).slot m = p.slot m := rfl
@[simp] theorem Part.store_mapSlot (p : Part) (n m : Nat) (f : Slot → Slot) : (p.mapSlot n f).store m = p.store m := rfl
@[simp] theorem Part.slot_raise (p : Part) (src : Source) (m : Nat) : (p.raise src).slot m = p.slot m := rfl
@[simp] theorem Part.store_raise (p : Part) (src : Source) (m : Nat) : (p.raise src).store m = p.store m := rfl

/-! ### READ ATTENTION and SET ATTENTION MASK (R181, R182) -/

theorem Part.reportedSource_eq_some {p : Part} {src : Source} (hp : p.attn.pending.get src = true) (hm : p.attn.unmasked.get src = true)
    (h : ∀ other, sourceCode (some other) < sourceCode (some src) →
      ¬(p.attn.pending.get other = true ∧ p.attn.unmasked.get other = true)) : p.reportedSource = some src := by
  obtain ⟨before, rest, hsplit⟩ := List.append_of_mem (mem_sourcesByPriority src)
  rw [Part.reportedSource, List.find?_eq_some_iff_append]
  refine ⟨by simp [hp, hm], before, rest, hsplit, fun other hother => ?_⟩
  have hsorted : sourcesByPriority.Pairwise fun x y => sourceCode (some x) < sourceCode (some y) := by decide
  rw [hsplit, List.pairwise_append] at hsorted
  obtain ⟨-, -, hbefore⟩ := hsorted
  simpa [-not_and, not_and_or] using h other (hbefore other hother src List.mem_cons_self)

theorem Part.reportedSource_eq_none {p : Part} (h : ∀ src, ¬(p.attn.pending.get src = true ∧ p.attn.unmasked.get src = true)) :
    p.reportedSource = none := by
  rw [Part.reportedSource, List.find?_eq_none]
  intro src _
  simpa using h src

theorem clearedByReport_iff (src : Source) : clearedByReport src = true ↔ src = .book ∨ src = .handset ∨ src = .video := by
  cases src <;> simp [clearedByReport]

theorem maskParams_maskBytes (m : SourceSet) : maskParams (maskBytes m) = some m := by
  have hentry : ∀ b : Bool, maskEntry (BitVec.ofNat 8 (if b then 2 else 1)) = some b := by decide
  show maskParams (_ :: _ :: _ :: _ :: _ :: _ :: _ :: []) = some m
  rw [maskParams, hentry, hentry, hentry, hentry, hentry, hentry, hentry]
  rfl

theorem maskEntry_eq_none {b : Byte} (h : b ≠ 1#8 ∧ b ≠ 2#8) : maskEntry b = none := by
  simp [maskEntry, h.1, h.2]

theorem maskParams_eq_none_of_entry {params : List Byte} (h : ∃ b ∈ params, b ≠ 1#8 ∧ b ≠ 2#8) : maskParams params = none := by
  obtain ⟨b, hb, hv⟩ := h
  have hnone := maskEntry_eq_none hv
  unfold maskParams
  split
  · split
    · next h0 h1 h2 h3 h4 h5 h6 =>
      simp only [List.mem_cons, List.not_mem_nil, or_false] at hb
      obtain rfl | rfl | rfl | rfl | rfl | rfl | rfl := hb <;> simp_all
    · rfl
  · rfl

/-- Settles O13. -/
theorem readAttentionAndMask : Obligations.ReadAttentionAndMask := by
  have hread : ∀ tag : Byte, Instr.offers (.readAttention tag []) tag (cmdReadAttention []) := fun _ _ => rfl
  have hmask : ∀ (tag : Byte) (params : List Byte), Instr.offers (.setAttentionMask tag params) tag (cmdSetAttentionMask params) :=
    fun _ _ _ => rfl
  refine ⟨fun tag s h => ⟨fun src hp hm hlow => ?_, fun hnone => ?_⟩, fun tag m s h => ?_, fun tag params s h hb => ?_⟩
  · have hsrc := Part.reportedSource_eq_some hp hm hlow
    by_cases hc : src = .book ∨ src = .handset ∨ src = .video
    · rw [if_pos hc]
      refine exec_ok (hread tag) h (u := s.part.clearSource src) ?_
      simp [cmdReadAttention, takesNone, Part.clearReported, hsrc, (clearedByReport_iff src).mpr hc]
    · rw [if_neg hc]
      refine exec_ok (hread tag) h (u := s.part) ?_
      simp [cmdReadAttention, takesNone, Part.clearReported, hsrc, mt (clearedByReport_iff src).mp hc]
  · refine exec_ok (hread tag) h (u := s.part) ?_
    simp [cmdReadAttention, takesNone, Part.clearReported, Part.reportedSource_eq_none hnone, sourceCode]
  · refine exec_ok (hmask tag _) h ?_
    simp [cmdSetAttentionMask, maskParams_maskBytes]
  · exact exec_refused (hmask tag params) h (withForm_none (maskParams_eq_none_of_entry hb) _ _)

/-! ### READ BOOK and HOLD BOOK (R22 to R24) -/

theorem onOffValue_eq_none_of_ne {b : Byte} (h0 : b ≠ 0#8) (h1 : b ≠ 1#8) : onOffValue [b] = none := by
  simp [onOffValue, h0, h1]

/-- Settles O25. -/
theorem readAndHoldBook : Obligations.ReadAndHoldBook := by
  have hread : ∀ tag : Byte, Instr.offers (.readBook tag []) tag (cmdReadBook []) := fun _ _ => rfl
  have hhold : ∀ (tag : Byte) (params : List Byte), Instr.offers (.holdBook tag params) tag (cmdHoldBook params) := fun _ _ _ => rfl
  refine ⟨fun tag s h => exec_ok (hread tag) h rfl, fun tag s h => ⟨exec_ok (hhold tag _) h rfl, ?_, fun b h0 h1 => ?_⟩⟩
  · exact exec_okThenPromote (hhold tag _) h rfl
  · exact exec_refused (hhold tag _) h (withForm_none (onOffValue_eq_none_of_ne h0 h1) _ _)

end Sys2Proof.Machine
end

