-- ==== Sys2Proof/Proofs/LineTurns.lean ====
section
/-! PROOFS. Proofs/LineTurns.lean: the item a store offers, the frame that falls due, and the turn a round begins with (O28, O29). -/

namespace Sys2Proof.Machine

/-! ### Sending (R32) -/

theorem Part.sendFrame_of_sending {p : Part} (h : p.sending = true) (f : TxFrame) :
    p.sendFrame f = { p with line := { p.line with txNext := some f } } := if_pos h

theorem Part.sendFrame_of_idle {p : Part} (h : p.sending = false) (f : TxFrame) :
    p.sendFrame f = { p with line := { p.line with tx := some f, txNext := none } } := if_neg (by simp [h])

/-- R32: sending a frame writes what is due on the line alone. -/
theorem Part.sendFrame_keeps (p : Part) (f : TxFrame) :
    p.sendFrame f = { p with line := { p.line with tx := (p.sendFrame f).line.tx, txNext := (p.sendFrame f).line.txNext } } := by
  unfold Part.sendFrame
  split <;> rfl

theorem Part.sendFrame_sends {p q : Part} (f : TxFrame) (htx : q.line.tx = p.line.tx) (hrx : q.line.rx = p.line.rx) :
    p.sends (q.sendFrame f) f := by
  have hsending : q.sending = p.sending := by rw [Part.sending, Part.sending, htx, hrx]
  refine ⟨fun h => ?_, fun h => ?_⟩
  · rw [Part.sendFrame_of_idle (hsending.trans h)]
    exact ⟨rfl, rfl⟩
  · rw [Part.sendFrame_of_sending (hsending.trans h)]
    exact ⟨htx, rfl⟩

/-! ### The item a store offers (R54) -/

theorem Part.offer_held {p : Part} {slot : Nat} {r : Reply} (h : (p.store slot).reply = .held r) :
    p.offer slot = (p, some .reply, u8 1 ++ replyBytes r) := by
  simp only [Part.offer, h]

theorem Part.offer_struck {p : Part} {slot : Nat} (hr : ∀ r, (p.store slot).reply ≠ .held r) {x : StruckItem} {rest : List StruckItem}
    (hs : (p.store slot).struck = x :: rest) :
    p.offer slot = (p, some (.struck true), u8 2 ++ u16 x.ticket ++ u8 x.reason.code) := by
  cases hreply : (p.store slot).reply with
  | held r => exact absurd hreply (hr r)
  | empty => simp only [Part.offer, hreply, hs]
  | waiting => simp only [Part.offer, hreply, hs]

theorem Part.offer_notice {p : Part} {slot : Nat} (hr : ∀ r, (p.store slot).reply ≠ .held r) (hs : (p.store slot).struck = []) :
    p.offer slot = p.offerNotice slot := by
  cases hreply : (p.store slot).reply with
  | held r => exact absurd hreply (hr r)
  | empty => simp only [Part.offer, hreply, hs]
  | waiting => simp only [Part.offer, hreply, hs]

theorem Part.cuedCurrent_iff (p : Part) (ticket : Nat) :
    p.cuedCurrent ticket = true ↔ (heldEntry p.book.entries).map Entry.ticket = some ticket := by
  unfold Part.cuedCurrent
  cases heldEntry p.book.entries <;> simp

theorem Part.offerNotice_cued {p : Part} {slot ticket : Nat} (hc : (p.store slot).cued = some ticket)
    (hcur : (heldEntry p.book.entries).map Entry.ticket = some ticket) :
    p.offerNotice slot = (p, some (.cued ticket), u8 3 ++ u16 ticket) := by
  have hkeep : p.dropStaleCued slot = p := by
    simp only [Part.dropStaleCued, hc, (p.cuedCurrent_iff ticket).mpr hcur, if_true]
  simp only [Part.offerNotice, hkeep, hc]

theorem Store.eq_noCued {st : Store} (h : st.cued = none) : st = { st with cued := none } := by
  cases st
  cases h
  rfl

/-- R51: the store without a cued notice that names another entry. -/
structure Part.noCued (p : Part) (slot : Nat) (q : Part) : Prop where
  only : q = { p with stores := q.stores }
  others : ∀ n, 1 ≤ n → n ≠ slot → q.store n = p.store n
  own : q.store slot = { p.store slot with cued := none }
  length : q.stores.length = p.stores.length

theorem Part.dropStaleCued_noCued {p : Part} {slot : Nat} (hl : p.stores.length = 16) (h1 : 1 ≤ slot) (h16 : slot ≤ 16)
    (h : ∀ ticket, (p.store slot).cued = some ticket → (heldEntry p.book.entries).map Entry.ticket ≠ some ticket) :
    p.noCued slot (p.dropStaleCued slot) := by
  unfold Part.dropStaleCued
  cases hc : (p.store slot).cued with
  | none => exact ⟨rfl, fun _ _ _ => rfl, Store.eq_noCued hc, rfl⟩
  | some ticket =>
    have hstale : p.cuedCurrent ticket = false := by
      rw [Bool.eq_false_iff]
      exact mt (p.cuedCurrent_iff ticket).mp (h ticket hc)
    simp only [hstale, Bool.false_eq_true, if_false]
    exact ⟨rfl, fun n hn hne => p.store_mapStore_of_ne _ hne h1 hn, Part.store_mapStore_self _ hl h1 h16, List.length_modify ..⟩

theorem Part.offerNotice_score {p : Part} {slot : Nat} {x : ScoreNotice} (h : p.noCued slot (p.dropStaleCued slot))
    (hs : (p.store slot).score = some x) :
    p.offerNotice slot = (p.dropStaleCued slot, some (.score x), u8 4 ++ u16 x.ticket ++ u8 x.seat ++ u16 x.score) := by
  simp only [Part.offerNotice, h.own, hs]

theorem Part.offerNotice_position {p : Part} {slot : Nat} (h : p.noCued slot (p.dropStaleCued slot))
    (hs : (p.store slot).score = none) (hp : (p.store slot).position = .set) :
    p.offerNotice slot = ((p.dropStaleCued slot).mapStore slot fun st => { st with position := .sent }, some .position,
      u8 5 ++ counted ((ticketLines (p.dropStaleCued slot).book.entries slot).map ticketLineBytes)) := by
  simp only [Part.offerNotice, h.own, hs, hp]

theorem Part.offerNotice_none {p : Part} {slot : Nat} (h : p.noCued slot (p.dropStaleCued slot))
    (hs : (p.store slot).score = none) (hp : (p.store slot).position ≠ .set) :
    p.offerNotice slot = (p.dropStaleCued slot, none, []) := by
  cases hpos : (p.store slot).position with
  | set => exact absurd hpos hp
  | clear => simp only [Part.offerNotice, h.own, hs, hpos]
  | sent => simp only [Part.offerNotice, h.own, hs, hpos]

/-- R54: the choice of an item reads the store and the book, not the line. -/
theorem Part.offer_withLine (p : Part) (l : Line) (slot : Nat) :
    ({ p with line := l } : Part).offer slot = ({ (p.offer slot).1 with line := l }, (p.offer slot).2) := by
  have hstale : ({ p with line := l } : Part).dropStaleCued slot = { p.dropStaleCued slot with line := l } := by
    have hstore : ({ p with line := l } : Part).store slot = p.store slot := rfl
    have hcurrent : ∀ ticket, ({ p with line := l } : Part).cuedCurrent ticket = p.cuedCurrent ticket := fun _ => rfl
    unfold Part.dropStaleCued
    rw [hstore]
    cases (p.store slot).cued with
    | none => rfl
    | some ticket =>
      dsimp only
      rw [hcurrent]
      cases p.cuedCurrent ticket <;> rfl
  have hnotice : ({ p with line := l } : Part).offerNotice slot =
      ({ (p.offerNotice slot).1 with line := l }, (p.offerNotice slot).2) := by
    unfold Part.offerNotice
    rw [hstale]
    generalize p.dropStaleCued slot = q
    have hstore : ({ q with line := l } : Part).store slot = q.store slot := rfl
    dsimp only
    rw [hstore]
    cases (q.store slot).cued <;> cases (q.store slot).score <;> cases (q.store slot).position <;> rfl
  have hstore : ({ p with line := l } : Part).store slot = p.store slot := rfl
  unfold Part.offer
  rw [hstore]
  cases (p.store slot).reply <;> cases (p.store slot).struck <;> first | exact hnotice | rfl

/-- R34: forming a POLL changes the stores alone. -/
theorem Part.offer_keeps (p : Part) (slot : Nat) : (p.offer slot).1 = { p with stores := (p.offer slot).1.stores } := by
  unfold Part.offer Part.offerNotice Part.dropStaleCued
  dsimp only
  (repeat' split) <;> rfl

/-! ### Turns and rounds (R33, R34, R37) -/

theorem Part.pollTurn_eq (p : Part) (slot : Nat) :
    p.pollTurn slot = ({ (p.offer slot).1 with line := { p.line with turn := .poll slot (p.offer slot).2.1, lastServed := slot } }
      : Part).sendFrame { kind := .poll, address := slot, body := (p.offer slot).2.2 } := by
  rw [← p.offer_line slot]
  rfl

/-- R34: a poll turn changes the stores and the line alone. -/
theorem Part.pollTurn_keeps (p : Part) (slot : Nat) :
    p.pollTurn slot = { p with stores := (p.offer slot).1.stores, line := (p.pollTurn slot).line } := by
  rw [p.pollTurn_eq, Part.sendFrame_keeps, p.offer_keeps]

theorem Part.pollTurn_stores (p : Part) (slot : Nat) : (p.pollTurn slot).stores = (p.offer slot).1.stores := by
  rw [p.pollTurn_keeps]

theorem Part.openWindow_keeps (p : Part) : p.openWindow = { p with line := p.openWindow.line } := by
  unfold Part.openWindow
  rw [Part.sendFrame_keeps]

theorem Part.nextSlot_eq_some {p : Part} {slot : Nat} (hlast : p.line.lastServed < slot) (h16 : slot ≤ 16)
    (hs : p.served slot = true) (hlow : ∀ n, p.line.lastServed < n → n < slot → p.served n = false) : p.nextSlot = some slot := by
  cases h : p.nextSlot with
  | none => rw [Part.nextSlot_none h slot hlast h16] at hs; cases hs
  | some n =>
    obtain ⟨hln, -, hserved, hbelow⟩ := Part.nextSlot_lowest h
    rcases Nat.lt_trichotomy n slot with hlt | rfl | hgt
    · rw [hlow n hln hlt] at hserved; cases hserved
    · rfl
    · rw [hbelow slot hlast hgt] at hs; cases hs

theorem Part.nextSlot_eq_none {p : Part} (h : ∀ n, p.line.lastServed < n → n ≤ 16 → p.served n = false) : p.nextSlot = none := by
  cases hn : p.nextSlot with
  | none => rfl
  | some n =>
    obtain ⟨hln, h16, hserved, -⟩ := Part.nextSlot_lowest hn
    rw [h n hln h16] at hserved
    cases hserved

theorem Part.served_iff (p : Part) (n : Nat) :
    p.served n = true ↔ (p.slot n).state = .active ∨ ((p.slot n).state = .silent ∧ p.line.round = 0) := by
  simp [Part.served]

theorem Part.served_eq_false_iff (p : Part) (n : Nat) :
    p.served n = false ↔ (p.slot n).state ≠ .active ∧ ((p.slot n).state = .silent → p.line.round ≠ 0) := by
  rw [Bool.eq_false_iff, ne_eq, p.served_iff]
  tauto

/-- R33: the line at the start of a round, before it serves a slot. -/
def Line.roundBegun (l : Line) (divisor : Nat) : Line :=
  { l with round := (l.round + 1) % 8, divisorNow := divisor, lastServed := 0, turn := .none, reply := none }

def Part.roundBegun (p : Part) : Part := { p with line := p.line.roundBegun p.settings.divisor }

theorem Part.startRound_eq (p : Part) :
    p.startRound = match p.roundBegun.nextSlot with
      | some n => p.roundBegun.pollTurn n
      | none => if p.settings.openClaims then p.roundBegun.openWindow else p.roundBegun.idleInterval := rfl

theorem Part.startRound_poll {p : Part} {n : Nat} (h : p.roundBegun.nextSlot = some n) : p.startRound = p.roundBegun.pollTurn n := by
  simp only [p.startRound_eq, h]

theorem Part.startRound_window {p : Part} (h : p.roundBegun.nextSlot = none) (ho : p.settings.openClaims = true) :
    p.startRound = p.roundBegun.openWindow := by
  simp only [p.startRound_eq, h, ho, if_true]

theorem Part.startRound_idle {p : Part} (h : p.roundBegun.nextSlot = none) (ho : p.settings.openClaims = false) :
    p.startRound = p.roundBegun.idleInterval := by
  simp only [p.startRound_eq, h, ho, Bool.false_eq_true, if_false]

/-- R33: a round begins in one of three ways. -/
theorem Part.startRound_cases (p : Part) :
    (∃ n, p.roundBegun.nextSlot = some n ∧ p.startRound = p.roundBegun.pollTurn n) ∨
      (p.settings.openClaims = true ∧ p.startRound = p.roundBegun.openWindow) ∨
      (p.settings.openClaims = false ∧ p.startRound = p.roundBegun.idleInterval) := by
  cases hn : p.roundBegun.nextSlot with
  | some n => exact .inl ⟨n, rfl, Part.startRound_poll hn⟩
  | none =>
    cases ho : p.settings.openClaims with
    | true => exact .inr (.inl ⟨rfl, Part.startRound_window hn ho⟩)
    | false => exact .inr (.inr ⟨rfl, Part.startRound_idle hn ho⟩)

/-- R33: the start of a round changes the stores and the line alone. -/
theorem Part.startRound_keeps (p : Part) :
    p.startRound = { p with stores := p.startRound.stores, line := p.startRound.line } := by
  obtain ⟨n, -, h⟩ | ⟨-, h⟩ | ⟨-, h⟩ := p.startRound_cases
  · rw [h, Part.pollTurn_keeps]
    rfl
  · rw [h, Part.openWindow_keeps]
    rfl
  · rw [h]
    rfl

/-- What the start of a round writes of the line, whatever it serves. -/
def Line.roundMarks (l : Line) : LineState × Nat × Nat := (l.state, l.round, l.divisorNow)

@[simp] theorem Part.sendFrame_roundMarks (p : Part) (f : TxFrame) : (p.sendFrame f).line.roundMarks = p.line.roundMarks := by
  unfold Part.sendFrame
  split <;> rfl

theorem Part.startRound_marks (p : Part) :
    p.startRound.line.roundMarks = (p.line.state, (p.line.round + 1) % 8, p.settings.divisor) := by
  obtain ⟨n, -, h⟩ | ⟨-, h⟩ | ⟨-, h⟩ := p.startRound_cases
  · rw [h, Part.pollTurn_eq, Part.sendFrame_roundMarks]
    rfl
  · rw [h, Part.openWindow, Part.sendFrame_roundMarks]
    rfl
  · rw [h]
    rfl

theorem Part.startRound_state (p : Part) : p.startRound.line.state = p.line.state := congrArg Prod.fst p.startRound_marks

theorem Part.startRound_round (p : Part) : p.startRound.line.round = (p.line.round + 1) % 8 :=
  congrArg (fun m => m.2.1) p.startRound_marks

theorem Part.startRound_divisor (p : Part) : p.startRound.line.divisorNow = p.settings.divisor :=
  congrArg (fun m => m.2.2) p.startRound_marks

/-- R33, R34: the first slot a round serves. -/
theorem Part.startRound_serves {p : Part} {slot : Nat} (h : p.roundBegun.nextSlot = some slot) :
    p.startRound.line.turn = .poll slot (p.offer slot).2.1 ∧ p.startRound.line.lastServed = slot ∧
      p.startRound.stores = (p.offer slot).1.stores ∧
      p.sends p.startRound { kind := .poll, address := slot, body := (p.offer slot).2.2 } := by
  have hoffer : p.roundBegun.offer slot = ({ (p.offer slot).1 with line := p.line.roundBegun p.settings.divisor }, (p.offer slot).2) :=
    p.offer_withLine _ slot
  have hview := p.roundBegun.pollTurn_turnView slot
  simp only [Part.turnView, Prod.mk.injEq, hoffer] at hview
  obtain ⟨hturn, -, hlast, -⟩ := hview
  rw [Part.startRound_poll h]
  refine ⟨hturn, hlast, ?_, ?_⟩
  · rw [Part.pollTurn_stores, hoffer]
  · rw [Part.pollTurn_eq, hoffer]
    exact Part.sendFrame_sends _ rfl rfl

/-- Settles O28. -/
theorem roundStartsAtLowestSlot : Obligations.RoundStartsAtLowestSlot := by
  refine ⟨fun p => ⟨p.startRound_round, p.startRound_divisor, ?serves, ?none⟩, ?offer⟩
  case serves =>
    intro slot h1 h16 hs hlow
    refine Part.startRound_serves (Part.nextSlot_eq_some h1 h16 ((p.roundBegun.served_iff slot).mpr hs) fun n hn hlt => ?_)
    exact (p.roundBegun.served_eq_false_iff n).mpr (hlow n hn hlt)
  case none =>
    intro h
    have hnone : p.roundBegun.nextSlot = none :=
      Part.nextSlot_eq_none fun n hn h16 => (p.roundBegun.served_eq_false_iff n).mpr (h n hn h16)
    cases ho : p.settings.openClaims with
    | true =>
      have hview := p.roundBegun.openWindow_turnView
      simp only [Part.turnView, Prod.mk.injEq] at hview
      obtain ⟨hturn, -, -, hreply, -⟩ := hview
      rw [Part.startRound_window hnone ho]
      exact ⟨hturn, hreply, fun _ => Part.sendFrame_sends _ rfl rfl, fun hc => by cases hc⟩
    | false =>
      rw [Part.startRound_idle hnone ho]
      exact ⟨rfl, rfl, fun hc => absurd hc Bool.false_ne_true, fun _ => ⟨rfl, rfl⟩⟩
  case offer =>
    rintro p slot st current hshaped h1 h16 rfl rfl
    obtain ⟨-, hlen, -⟩ := hshaped
    refine ⟨fun r hr => Part.offer_held hr, fun hr => ⟨fun x rest hx => Part.offer_struck hr hx, fun hs => ?_⟩⟩
    rw [Part.offer_notice hr hs]
    refine ⟨fun ticket hc hcur => Part.offerNotice_cued hc hcur, fun hstale => ?_⟩
    have hdrop := Part.dropStaleCued_noCued hlen h1 h16 hstale
    obtain hscore | ⟨x, hscore⟩ := Option.eq_none_or_eq_some (p.store slot).score
    · by_cases hpos : (p.store slot).position = .set
      · have hbook : (p.dropStaleCued slot).book = p.book := by rw [hdrop.only]
        rw [Part.offerNotice_position hdrop hscore hpos, hbook]
        refine ⟨(p.dropStaleCued slot).mapStore slot fun st => { st with position := .sent }, ?_, fun n hn _ hne => ?_,
          fun y hy => ?_, fun _ _ => ⟨rfl, ?_⟩, fun _ hn => absurd hpos hn⟩
        · conv_lhs => rw [hdrop.only]
          rfl
        · rw [Part.store_mapStore_of_ne _ _ hne h1 hn, hdrop.others n hn hne]
        · rw [hscore] at hy
          cases hy
        · rw [Part.store_mapStore_self _ (hdrop.length.trans hlen) h1 h16, hdrop.own]
      · rw [Part.offerNotice_none hdrop hscore hpos]
        refine ⟨p.dropStaleCued slot, hdrop.only, fun n hn _ hne => hdrop.others n hn hne, fun y hy => ?_,
          fun _ hp => absurd hp hpos, fun _ _ => ⟨rfl, hdrop.own⟩⟩
        rw [hscore] at hy
        cases hy
    · have hsome : (p.store slot).score ≠ none := by simp [hscore]
      rw [Part.offerNotice_score hdrop hscore]
      refine ⟨p.dropStaleCued slot, hdrop.only, fun n hn _ hne => hdrop.others n hn hne, fun y hy => ?_,
        fun hc => absurd hc hsome, fun hc => absurd hc hsome⟩
      rw [hscore] at hy
      cases hy
      exact ⟨rfl, hdrop.own⟩

/-! ### Frames of the part that have left (R34, R37) -/

theorem Part.outgoing_eq_some {p : Part} {f : TxFrame} (hs : p.line.state = .running) (hr : p.line.rx = [])
    (ht : p.line.tx = some f) : p.outgoing f.kind = some f := by
  simp [Part.outgoing, hs, hr, ht, Option.filter]

theorem Part.txLeaves_of_none {p : Part} (h : p.line.txNext = none) :
    p.txLeaves = { p with line := { p.line with tx := none } } := by
  have hleft : p.txLeaves = { p with line := { p.line with tx := none, txNext := none } } := by rw [Part.txLeaves, h]
  exact hleft.trans (congrArg (fun n => { p with line := { p.line with tx := none, txNext := n } }) h.symm)

/-- Settles O29. -/
theorem sentFramesLoadReply : Obligations.SentFramesLoadReply := by
  intro f s hs hr ht hn
  have hout := Part.outgoing_eq_some hs hr ht
  refine ⟨fun carried hk hturn => ?_, fun hk hturn => ?_, fun hk hturn => ?_⟩
  · rw [hk] at hout
    have hpoll : s.part.pollOfTurn f = true := by simp [Part.pollOfTurn, hn, hturn]
    have hsent : s.part.pollSent = ({ s.part.txLeaves with line := { s.part.txLeaves.line with afterMiss := false } } : Part).loadReply
        s.part.settings.replyWindow := by
      simp only [Part.pollSent, hout, hpoll, if_true]
    have hexec : exec .pollSent s = .next { s with part := s.part.pollSent } := rfl
    rw [hexec, hsent, Part.loadReply, Part.txLeaves_of_none hn]
    rfl
  · rw [hk] at hout
    have hsent : s.part.openSent = s.part.txLeaves.loadReply (4 * s.part.settings.replyWindow) := by
      simp only [Part.openSent, hout, hn, hturn, and_self, if_true]
    have hexec : exec .openSent s = .next { s with part := s.part.openSent } := rfl
    rw [hexec, hsent, Part.loadReply, Part.txLeaves_of_none hn]
    rfl
  · rw [hk] at hout
    have hsent : s.part.grantSent = s.part.txLeaves.startRound := by
      simp only [Part.grantSent, hout, hn, hturn, and_self, if_true]
    have hexec : exec .grantSent s = .next { s with part := s.part.grantSent } := rfl
    rw [hexec, hsent, Part.txLeaves_of_none hn]

end Sys2Proof.Machine
end

