-- ==== Sys2Proof/Proofs/DeskLine.lean ====
section
/-! PROOFS. Proofs/DeskLine.lean: what the desk's commands do to the line and its slots (O14, O26, O27). -/

namespace Sys2Proof.Machine

/-! ### Steps of the line -/

/-- A step of the line controller writes the line and the stores alone. -/
def Part.stepsLine (p q : Part) : Prop := q = { p with stores := q.stores, line := q.line }

theorem Part.stepsLine.trans {p q r : Part} (h : p.stepsLine q) (h' : q.stepsLine r) : p.stepsLine r := by
  unfold Part.stepsLine at *
  rw [h', h]

theorem Part.stepsLine_refl (p : Part) : p.stepsLine p := rfl

theorem Part.startRound_stepsLine (p : Part) : p.stepsLine p.startRound := p.startRound_keeps

theorem Part.pollTurn_stepsLine (p : Part) (slot : Nat) : p.stepsLine (p.pollTurn slot) := by
  unfold Part.stepsLine
  rw [Part.pollTurn_stores]
  exact p.pollTurn_keeps slot

theorem Part.openWindow_stepsLine (p : Part) : p.stepsLine p.openWindow := by
  unfold Part.stepsLine
  rw [p.openWindow_keeps]

theorem Part.withLine_stepsLine (p : Part) (l : Line) : p.stepsLine { p with line := l } := rfl

theorem Part.nextTurn_stepsLine (p : Part) : p.stepsLine p.nextTurn := by
  unfold Part.nextTurn
  refine (p.withLine_stepsLine { p.line with turn := .none, reply := none }).trans ?_
  dsimp only
  split
  · exact Part.pollTurn_stepsLine _ _
  · split
    · exact Part.openWindow_stepsLine _
    · split
      · exact Part.withLine_stepsLine _ _
      · exact Part.startRound_stepsLine _

theorem Part.dropDue_stepsLine (p : Part) : p.stepsLine p.dropDue := by
  unfold Part.dropDue
  split <;> rfl

theorem Part.abandonTurn_stepsLine (p : Part) : p.stepsLine p.abandonTurn := by
  unfold Part.abandonTurn
  refine Part.stepsLine.trans ?_ (Part.dropDue_stepsLine _)
  dsimp only
  split <;> rfl

/-- R32: abandoning a turn keeps the line's state and drops what had not begun to go out. -/
theorem Part.abandonTurn_sending (p : Part) :
    p.abandonTurn.line.state = p.line.state ∧ p.abandonTurn.line.txNext = none ∧ p.abandonTurn.line.rx = p.line.rx ∧
      p.abandonTurn.line.tx = if p.sending then p.line.tx else none := by
  unfold Part.abandonTurn Part.strayRest Part.dropDue
  cases hs : p.sending <;> cases p.line.turn <;>
    simp only [Part.sending, Part.mapStore_line] at hs ⊢ <;> simp [hs]

theorem Part.abandonTurn_fields (p : Part) :
    p.abandonTurn.line.turn = .none ∧ p.abandonTurn.line.round = p.line.round ∧ p.abandonTurn.line.lastServed = p.line.lastServed ∧
      p.abandonTurn.line.reply = none ∧ p.abandonTurn.line.rx = p.line.rx ∧ p.abandonTurn.line.rxClass = .stray := by
  have h := p.abandonTurn_line.1
  simpa only [Part.turnView, Prod.mk.injEq] using h

/-! ### OPEN CLAIMS off (R37, R46) -/

/-- R37: with claims closed a round begins with a POLL or with an idle interval; nothing but its POLL falls due. -/
theorem Part.startRound_closed {p : Part} (ho : p.settings.openClaims = false) (hn : p.line.txNext = none)
    (hidle : p.sending = false → p.line.tx = none) :
    p.startRound.line.turn ≠ .claimWindow ∧
      p.startRound.line.reply = (if p.startRound.line.turn = .idleInterval then some (p.settings.replyWindow * 48) else none) ∧
      (∀ f, p.startRound.line.txNext = some f → f.kind = .poll) ∧
      (p.sending = true → p.startRound.line.tx = p.line.tx) ∧
      (p.sending = false → ∀ f, p.startRound.line.tx = some f → f.kind = .poll) := by
  obtain ⟨n, hslot, -⟩ | ⟨hopen, -⟩ | ⟨-, h⟩ := p.startRound_cases
  · obtain ⟨hturn, -, -, hsendIdle, hsendBusy⟩ := Part.startRound_serves hslot
    have hview := p.roundBegun.pollTurn_turnView n
    rw [← Part.startRound_poll hslot] at hview
    simp only [Part.turnView, Prod.mk.injEq] at hview
    obtain ⟨-, -, -, hreply, -⟩ := hview
    rw [hturn]
    refine ⟨by simp, by rw [hreply]; rfl, fun f hf => ?_, fun hs => (hsendBusy hs).1, fun hs f hf => ?_⟩
    · cases hs : p.sending with
      | true => rw [(hsendBusy hs).2] at hf; cases hf; rfl
      | false => rw [(hsendIdle hs).2] at hf; cases hf
    · rw [(hsendIdle hs).1] at hf
      cases hf
      rfl
  · rw [ho] at hopen
    cases hopen
  · rw [h]
    refine ⟨by simp [Part.idleInterval], rfl, fun f hf => ?_, fun _ => rfl, fun hs f hf => ?_⟩
    · exact absurd (hn.symm.trans hf) (by simp)
    · exact absurd ((hidle hs).symm.trans hf) (by simp)

theorem Part.closeWindow_of_window {p : Part} (h : p.line.turn = .claimWindow) : p.closeWindow = p.abandonTurn.startRound := by
  simp only [Part.closeWindow, h]

theorem Part.closeWindow_of_ne {p : Part} (h : p.line.turn ≠ .claimWindow) : p.closeWindow = p := by
  unfold Part.closeWindow
  split
  · next hw => exact absurd hw h
  all_goals rfl

/-- Settles O26. -/
theorem lineReportsAndClaims : Obligations.LineReportsAndClaims := by
  have htable : ∀ (tag : Byte) (params : List Byte), Instr.offers (.handsetTable tag params) tag (cmdHandsetTable params) :=
    fun _ _ _ => rfl
  have hclaims : ∀ (tag : Byte) (params : List Byte), Instr.offers (.openClaims tag params) tag (cmdOpenClaims params) :=
    fun _ _ _ => rfl
  refine ⟨fun tag s h => ⟨?_, exec_ok (htable tag _) h rfl, exec_ok (htable tag _) h rfl, fun b hb => ?_⟩,
    fun tag s h => ⟨exec_ok (hclaims tag _) h rfl, fun hw => ?_, fun hw => ?_, fun b h0 h1 => ?_⟩⟩
  · exact exec_ok (body := cmdLineStatus []) (fun _ => rfl) h rfl
  · exact exec_refused (htable tag _) h (withForm_none (optionalFlag_eq_none (by simp) (by simpa using hb)) _ _)
  · refine exec_ok (hclaims tag _) h ?_
    have hclose : Part.closeWindow { s.part with settings := { s.part.settings with openClaims := false } } =
        { s.part with settings := { s.part.settings with openClaims := false } } := Part.closeWindow_of_ne hw
    exact congrArg (fun q => (q, CmdResult.ok [])) hclose
  · obtain ⟨q, hq⟩ : ∃ q : Part, ({ s.part with settings := { s.part.settings with openClaims := false } } : Part) = q := ⟨_, rfl⟩
    have hline : q.line = s.part.line := by rw [← hq]
    have hsending : q.sending = s.part.sending := by rw [← hq]; rfl
    refine ⟨q.abandonTurn.startRound, exec_ok (hclaims tag _) h ?_, ?_⟩
    · rw [← Part.closeWindow_of_window (by rw [hline]; exact hw), ← hq]
      rfl
    · obtain ⟨-, hround, -, -, hrx, hclass⟩ := q.abandonTurn_fields
      obtain ⟨-, hnext, -, htx⟩ := q.abandonTurn_sending
      have hkeeps := q.abandonTurn_stepsLine
      have hset : q.abandonTurn.settings = q.settings := by rw [hkeeps]
      have hidle : q.abandonTurn.sending = true → q.sending = true := by
        intro hs
        by_contra hn
        rw [Part.sending, htx, if_neg hn] at hs
        cases hs
      have hbusy : q.sending = true → q.abandonTurn.sending = true := by
        intro hs
        have hs' := hs
        rw [Part.sending] at hs'
        rw [Part.sending, htx, if_pos hs, hrx, hs']
      obtain ⟨hturn, hreply, hdue, hkept, hpoll⟩ := Part.startRound_closed (p := q.abandonTurn) (by rw [hset, ← hq]) hnext
        (fun hs => by rw [htx, if_neg (fun h => by rw [hbusy h] at hs; cases hs)])
      obtain ⟨-, hrx', hclass', -⟩ := q.abandonTurn.startRound_line
      have hkeeps' := hkeeps.trans q.abandonTurn.startRound_stepsLine
      refine ⟨?_, hturn, ?_, ?_, ?_, ?_, hclass'.trans hclass, ?_, hdue, fun hs => ?_, fun hs => ?_⟩
      · rw [hkeeps', ← hq]
      · rw [Part.startRound_round, hround, hline]
      · rw [hkeeps', ← hq]
      · rw [hkeeps', ← hq]
      · rw [hrx', hrx, hline]
      · rw [hreply, hset, ← hq]
      · rw [hkept (hbusy (hsending.trans hs)), htx, if_pos (hsending.trans hs), hline]
      · refine hpoll (Bool.eq_false_iff.mpr fun hb => ?_)
        rw [hsending.symm.trans (hidle hb)] at hs
        cases hs
  · exact exec_refused (hclaims tag _) h (withForm_none (onOffValue_eq_none_of_ne h0 h1) _ _)

end Sys2Proof.Machine
end

