-- ==== Sys2Proof/Proofs/Departures.lean ====
section
/-! PROOFS. Proofs/Departures.lean: what strikes leave of the slots, the stores and the line, and what a departure writes (O27). -/

namespace Sys2Proof.Machine

/-! ### Strikes beside the book (R17, R18) -/

theorem Part.noticeStrike_of_silent (p : Part) (e : Entry) {reason : StrikeReason} (h : givesStruckItem reason = false) :
    p.noticeStrike e reason = p := by
  unfold Part.noticeStrike
  cases e.origin <;> simp [h]

@[simp] theorem Part.withEntries_line (p : Part) (entries : List Entry) : (p.withEntries entries).line = p.line := by
  unfold Part.withEntries
  rw [foldl_keeps Part.line Part.setPosition (fun _ _ => rfl)]

@[simp] theorem Part.mapLive_line (p : Part) (o : Origin) (f : Nat → Nat) : (p.mapLive o f).line = p.line := by
  cases o <;> rfl

@[simp] theorem Part.dropPin_line (p : Part) (song : Nat) : (p.dropPin song).line = p.line := rfl
@[simp] theorem Part.dropPin_slots (p : Part) (song : Nat) : (p.dropPin song).slots = p.slots := rfl

@[simp] theorem Part.noticeStrike_slots (p : Part) (e : Entry) (reason : StrikeReason) : (p.noticeStrike e reason).slots = p.slots := by
  unfold Part.noticeStrike Part.pushStruck
  split <;> (try split) <;> (try split) <;> rfl

/-- R17: a strike that places no STRUCK item leaves the line alone. -/
theorem Part.strike_line (p : Part) (ticket : Nat) {reason : StrikeReason} (quiet : Bool) (h : givesStruckItem reason = false) :
    (p.strike ticket reason quiet).line = p.line := by
  unfold Part.strike
  split
  · rfl
  · unfold Part.strikeEntry
    simp only [Part.noticeStrike_of_silent _ _ h]
    by_cases hc : reason = .cleared <;> cases quiet <;> simp [hc]

/-- A slot record but for its live-entry count. -/
def Slot.noLive (x : Slot) : Slot := { x with live := 0 }

theorem map_noLive_modify (l : List Slot) (n : Nat) (f : Nat → Nat) :
    (l.modify n fun x => { x with live := f x.live }).map Slot.noLive = l.map Slot.noLive := by
  rw [List.ext_getElem?_iff]
  intro i
  simp only [List.getElem?_map, List.getElem?_modify]
  cases l[i]? with
  | none => rfl
  | some x => by_cases hi : n = i <;> simp [hi, Slot.noLive]

theorem Part.mapLive_noLive (p : Part) (o : Origin) (f : Nat → Nat) :
    (p.mapLive o f).slots.map Slot.noLive = p.slots.map Slot.noLive := by
  cases o with
  | desk => rfl
  | slot n => exact map_noLive_modify p.slots (n - 1) f

/-- R17: a strike changes of the slots the live-entry counts alone. -/
theorem Part.strike_noLive (p : Part) (ticket : Nat) (reason : StrikeReason) (quiet : Bool) :
    (p.strike ticket reason quiet).slots.map Slot.noLive = p.slots.map Slot.noLive := by
  unfold Part.strike
  split
  · rfl
  · unfold Part.strikeEntry
    by_cases hc : reason = .cleared <;> cases quiet <;> simp [hc, Part.mapLive_noLive]

theorem Part.strikeWaiting_noLive (p : Part) (which : Entry → Bool) (reason : StrikeReason) (quiet : Bool) :
    (p.strikeWaiting which reason quiet).slots.map Slot.noLive = p.slots.map Slot.noLive :=
  foldl_keeps (fun q : Part => q.slots.map Slot.noLive) _ (fun q (e : Entry) => q.strike_noLive e.ticket reason quiet) _ p

theorem Part.strikeWaiting_line (p : Part) (which : Entry → Bool) {reason : StrikeReason} (quiet : Bool)
    (h : givesStruckItem reason = false) : (p.strikeWaiting which reason quiet).line = p.line :=
  foldl_keeps Part.line _ (fun q (e : Entry) => q.strike_line e.ticket quiet h) _ p

theorem Part.strikeWaiting_songView (p : Part) (which : Entry → Bool) (reason : StrikeReason) (quiet : Bool) :
    (p.strikeWaiting which reason quiet).songView = p.songView :=
  foldl_keeps Part.songView _ (fun q (e : Entry) => q.strike_songView e.ticket reason quiet) _ p

theorem Part.slot_noLive {p q : Part} (h : q.slots.map Slot.noLive = p.slots.map Slot.noLive) (n : Nat) :
    (q.slot n).noLive = (p.slot n).noLive := by
  have hget : ∀ r : Part, (r.slot n).noLive = (r.slots.map Slot.noLive).getD (n - 1) Slot.reset := by
    intro r
    rw [Part.slot, List.getD_eq_getElem?_getD, List.getD_eq_getElem?_getD, List.getElem?_map]
    cases r.slots[n - 1]? <;> rfl
  rw [hget, hget, h]

theorem Part.slots_length_of_noLive {p q : Part} (h : q.slots.map Slot.noLive = p.slots.map Slot.noLive) :
    q.slots.length = p.slots.length := by
  simpa using congrArg List.length h

/-! ### The book after the strikes of several entries (R18) -/

theorem Part.strike_entries (p : Part) (ticket : Nat) (reason : StrikeReason) (quiet : Bool) :
    (p.strike ticket reason quiet).book.entries = withoutTicket p.book.entries ticket := by
  cases h : p.entry ticket with
  | none =>
    have hself : p.strike ticket reason quiet = p := by simp only [Part.strike, h]
    rw [hself, withoutTicket, List.filter_eq_self.mpr]
    intro e he
    simpa using List.find?_eq_none.mp h e he
  | some e =>
    have ht : e.ticket = ticket := by simpa using List.find?_some h
    rw [Part.strike_book p e ticket reason quiet h, Part.strikeEntry_book, ht]

theorem foldl_strike_entries (l : List Entry) (p : Part) (reason : StrikeReason) (quiet : Bool) :
    (l.foldl (fun q e => q.strike e.ticket reason quiet) p).book.entries =
      p.book.entries.filter fun x => decide (x.ticket ∉ l.map Entry.ticket) := by
  induction l generalizing p with
  | nil => simp
  | cons e l ih =>
    rw [List.foldl_cons, ih, Part.strike_entries, withoutTicket, List.filter_filter]
    refine List.filter_congr fun x _ => ?_
    by_cases hx : x.ticket = e.ticket <;> simp [hx]

/-- Two live entries of one ticket are one. -/
theorem entry_eq_of_ticket {entries : List Entry} (hn : (entries.map Entry.ticket).Nodup) {x y : Entry} (hx : x ∈ entries)
    (hy : y ∈ entries) (h : x.ticket = y.ticket) : x = y :=
  List.inj_on_of_nodup_map hn hx hy h

theorem Part.strikeWaiting_entries {p : Part} (hn : (p.book.entries.map Entry.ticket).Nodup) (which : Entry → Bool)
    (reason : StrikeReason) (quiet : Bool) :
    (p.strikeWaiting which reason quiet).book.entries = p.book.entries.filter fun e => !(e.state == .waiting && which e) := by
  rw [Part.strikeWaiting, foldl_strike_entries]
  refine List.filter_congr fun x hx => ?_
  have hstruck : x.ticket ∈ ((waitingEntries p.book.entries).filter which).map Entry.ticket ↔ (x.state == .waiting && which x) = true := by
    simp only [waitingEntries, List.filter_filter, List.mem_map, List.mem_filter]
    constructor
    · rintro ⟨y, ⟨hy, hstate⟩, ht⟩
      rw [entry_eq_of_ticket hn hx hy ht.symm, Bool.and_comm]
      exact hstate
    · intro h
      exact ⟨x, ⟨hx, by rw [Bool.and_comm]; exact h⟩, rfl⟩
  rw [Bool.eq_iff_iff, decide_eq_true_eq, hstruck, Bool.not_eq_true', Bool.not_eq_true]

/-! ### A departure (R19, R41) -/

/-- R56: emptying a store writes that store, and of the rest the library alone. -/
theorem Part.emptyStore_roomView (p : Part) (slot : Nat) :
    (p.emptyStore slot).roomView = (p.mapStore slot fun _ => Store.empty).roomView := by
  rw [Part.emptyStore, Part.giveUp_roomView, Part.giveUp_roomView]

/-- What a departure writes (R19, R41), and what it leaves to the line. -/
structure Part.departed (p : Part) (slot : Nat) (barred : Bool) (q : Part) : Prop where
  ownSlot : q.slot slot = departSlot barred { p.slot slot with live := 0 }
  otherSlots : ∀ n, 1 ≤ n → n ≠ slot → (q.slot n).noLive = (p.slot n).noLive
  ownStore : q.store slot = Store.empty
  handset : q.attn.pending.handset = true
  entries : q.book.entries =
    (p.book.entries.filter fun e => !(e.state == .waiting && e.origin == .slot slot)).map (leaveEntry slot)
  line : q.line = p.line
  settings : q.settings = p.settings

theorem Part.depart_departed {p : Part} (hs : p.shaped) (hn : (p.book.entries.map Entry.ticket).Nodup) {slot : Nat} (h1 : 1 ≤ slot)
    (h16 : slot ≤ 16) (barred : Bool) : p.departed slot barred (p.depart slot barred) := by
  have hsilent : givesStruckItem (if barred then .barred else .left) = false := by cases barred <;> rfl
  obtain ⟨a, ha⟩ : ∃ a, p.strikeWaiting (fun e => e.origin == .slot slot) (if barred then .barred else .left) false = a := ⟨_, rfl⟩
  obtain ⟨b, hb⟩ : ∃ b, p.bookDeparture slot (if barred then .barred else .left) = b := ⟨_, rfl⟩
  have hnoLive : a.slots.map Slot.noLive = p.slots.map Slot.noLive := by rw [← ha, Part.strikeWaiting_noLive]
  have hlen : a.slots.length = 16 := (Part.slots_length_of_noLive hnoLive).trans hs.1
  have hstores : b.stores.length = 16 := by
    have hfixed := congrArg (fun f : Frame => f.fixed.stores) (p.bookDeparture_frame slot (if barred then .barred else .left))
    rw [hb] at hfixed
    exact hfixed.trans hs.2.1
  have hself : b.slot slot = { p.slot slot with live := 0 } := by
    rw [← hb, Part.bookDeparture, ha]
    exact (Part.slot_mapSlot_self _ hlen h1 h16).trans (Part.slot_noLive hnoLive slot)
  have hothers : ∀ n, 1 ≤ n → n ≠ slot → (b.slot n).noLive = (p.slot n).noLive := by
    intro n h hne
    rw [← hb, Part.bookDeparture, ha, Part.slot_mapSlot_of_ne _ _ hne h1 h]
    exact Part.slot_noLive hnoLive n
  have hentries : b.book.entries =
      (p.book.entries.filter fun e => !(e.state == .waiting && e.origin == .slot slot)).map (leaveEntry slot) := by
    rw [← hb, ← Part.strikeWaiting_entries hn]
    rfl
  have hblen : b.slots.length = 16 := by
    rw [← hb, Part.bookDeparture, ha]
    exact (List.length_modify ..).trans hlen
  have hline : b.line = p.line := by
    rw [← hb, ← Part.strikeWaiting_line p (fun e => e.origin == .slot slot) false hsilent]
    rfl
  have hsettings : b.settings = p.settings := by
    rw [← hb]
    exact congrArg Song.settings (p.strikeWaiting_songView (fun e => e.origin == .slot slot) (if barred then .barred else .left) false)
  have hempty := Part.roomView_fields (b.emptyStore_roomView slot)
  obtain ⟨eset, -, -, -, -, -, -, -, -, -, ebook, eslots, estores, eline⟩ := hempty
  have hd : p.depart slot barred = ((b.emptyStore slot).mapSlot slot (departSlot barred)).raise .handset := by rw [← hb]; rfl
  have hslot : ∀ n, (b.emptyStore slot).slot n = b.slot n := Part.slot_congr eslots
  rw [hd]
  constructor
  case ownSlot =>
    rw [Part.slot_raise, Part.slot_mapSlot_self _ ((congrArg List.length eslots).trans hblen) h1 h16, hslot, hself]
  case otherSlots =>
    intro n h hne
    rw [Part.slot_raise, Part.slot_mapSlot_of_ne _ _ hne h1 h, hslot, hothers n h hne]
  case ownStore =>
    rw [Part.store_raise, Part.store_mapSlot, Part.store_congr estores, Part.store_mapStore_self _ hstores h1 h16]
  case handset => rfl
  case entries => exact (congrArg Book.entries ebook).trans hentries
  case line => exact eline.trans hline
  case settings => exact eset.trans hsettings

/-! ### The turn of a slot that leaves (R36) -/

theorem Part.offer_store_of_ne (p : Part) {n m : Nat} (h : m ≠ n) (hn : 1 ≤ n) (hm : 1 ≤ m) : (p.offer n).1.store m = p.store m := by
  have hdrop : (p.dropStaleCued n).store m = p.store m := by
    unfold Part.dropStaleCued
    split
    · rfl
    · split
      · rfl
      · exact p.store_mapStore_of_ne _ h hn hm
  unfold Part.offer
  split
  · rfl
  · rfl
  · unfold Part.offerNotice
    dsimp only
    split
    · exact hdrop
    · exact hdrop
    · exact ((p.dropStaleCued n).store_mapStore_of_ne _ h hn hm).trans hdrop
    · exact hdrop
    · exact hdrop

theorem Part.nextSlot_ne {p : Part} {n slot : Nat} (h : p.nextSlot = some n) (hs : p.served slot = false) : slot ≠ n := by
  rintro rfl
  rw [Part.served_of_nextSlot h] at hs
  cases hs

theorem Part.pollTurn_store_of_next {p : Part} {n slot : Nat} (h : p.nextSlot = some n) (hs : p.served slot = false) (h1 : 1 ≤ slot) :
    (p.pollTurn n).store slot = p.store slot := by
  have hn : 1 ≤ n := by
    have := (Part.nextSlot_lowest h).1
    omega
  rw [Part.store_congr (p.pollTurn_stores n), p.offer_store_of_ne (Part.nextSlot_ne h hs) hn h1]

theorem Part.served_of_gone {p : Part} {slot : Nat} (h : (p.slot slot).state = .free ∨ (p.slot slot).state = .barred) :
    p.served slot = false := by
  rcases h with h | h <;> simp [Part.served, h]

theorem Part.startRound_store_of_gone {p : Part} {slot : Nat} (h : (p.slot slot).state = .free ∨ (p.slot slot).state = .barred)
    (h1 : 1 ≤ slot) : p.startRound.store slot = p.store slot := by
  obtain ⟨n, hn, hr⟩ | ⟨-, hr⟩ | ⟨-, hr⟩ := p.startRound_cases
  · rw [hr, Part.pollTurn_store_of_next hn (Part.served_of_gone (p := p.roundBegun) h) h1]
    rfl
  · rw [hr, Part.openWindow_keeps]
    rfl
  · rw [hr]
    rfl

/-- R36: the turn that follows serves no FREE or BARRED slot, so its store stays. -/
theorem Part.nextTurn_store_of_gone {p : Part} {slot : Nat} (h : (p.slot slot).state = .free ∨ (p.slot slot).state = .barred)
    (h1 : 1 ≤ slot) : p.nextTurn.store slot = p.store slot := by
  unfold Part.nextTurn
  obtain ⟨q, hq⟩ : ∃ q : Part, ({ p with line := { p.line with turn := .none, reply := none } } : Part) = q := ⟨_, rfl⟩
  have hstore : q.store slot = p.store slot := by rw [← hq]; rfl
  have hgone : (q.slot slot).state = .free ∨ (q.slot slot).state = .barred := by rw [← hq]; exact h
  simp only [hq]
  rw [← hstore]
  split
  · next n hn => exact Part.pollTurn_store_of_next hn (Part.served_of_gone hgone) h1
  · split
    · rw [Part.openWindow_keeps]
      rfl
    · split
      · rfl
      · exact Part.startRound_store_of_gone hgone h1

theorem Part.dropDue_store (p : Part) (slot : Nat) : p.dropDue.store slot = p.store slot := by
  refine Part.store_congr ?_ slot
  unfold Part.dropDue
  split <;> rfl

/-- R53: the turn abandoned returns the POSITION flag of its slot's store. -/
theorem Part.abandonTurn_store {p : Part} {slot : Nat} {c : Option Carried} (ht : p.line.turn = .poll slot c)
    (hl : p.stores.length = 16) (h1 : 1 ≤ slot) (h16 : slot ≤ 16) : p.abandonTurn.store slot = returnCarried (p.store slot) := by
  unfold Part.abandonTurn Part.strayRest
  rw [Part.dropDue_store, ht]
  exact Part.store_mapStore_self returnCarried hl h1 h16

/-- R36: abandoning the turn of a slot that has left keeps its store empty. -/
theorem Part.abandonIfServing_store {p : Part} {slot : Nat} (hl : p.stores.length = 16) (h1 : 1 ≤ slot) (h16 : slot ≤ 16)
    (h : (p.slot slot).state = .free ∨ (p.slot slot).state = .barred) (he : p.store slot = Store.empty) :
    (p.abandonIfServing slot).store slot = Store.empty := by
  unfold Part.abandonIfServing
  split
  · next n c ht =>
    split
    · next hn =>
      subst hn
      have hslots : p.abandonTurn.slot n = p.slot n := Part.slot_congr p.abandonTurn_line.2.1 n
      rw [Part.nextTurn_store_of_gone (by rwa [hslots]) h1, Part.abandonTurn_store ht hl h1 h16, he]
      rfl
    · exact he
  all_goals exact he

theorem Part.abandonIfServing_stepsLine (p : Part) (slot : Nat) : p.stepsLine (p.abandonIfServing slot) := by
  unfold Part.abandonIfServing
  split
  · split
    · exact p.abandonTurn_stepsLine.trans (Part.nextTurn_stepsLine _)
    · rfl
  all_goals rfl

/-- R36: what becomes of the line does not turn on the records of the slot that leaves. -/
theorem Part.turnLeaves_congr {p q u : Part} {slot : Nat} (hl : q.line = p.line) (hset : q.settings = p.settings)
    (ho : ∀ n, 1 ≤ n → n ≠ slot → q.served n = p.served n) (h : q.turnLeaves u slot) : p.turnLeaves u slot := by
  unfold Part.turnLeaves at h ⊢
  rw [hl, hset] at h
  refine ⟨h.1, fun carried ht => ?_⟩
  obtain ⟨hturn, hrx, hclass, hnext, hlast⟩ := h.2 carried ht
  refine ⟨hturn, hrx, hclass, fun n hn h16 hne hs hlow => ?_, fun hnone => ?_⟩
  · refine hnext n hn h16 hne ((ho n (by omega) hne).trans hs) fun m hm hmn hms => ?_
    exact (ho m (by omega) hms).trans (hlow m hm hmn hms)
  · exact hlast fun n hn h16 hne => (ho n (by omega) hne).trans (hnone n hn h16 hne)

theorem departSlot_gone (barred : Bool) (x : Slot) : (departSlot barred x).state = .free ∨ (departSlot barred x).state = .barred := by
  cases barred
  · exact .inl rfl
  · exact .inr rfl

theorem Part.departed.turnLeaves {p q : Part} {slot : Nat} {barred : Bool} (h : p.departed slot barred q) :
    p.turnLeaves (q.abandonIfServing slot) slot := by
  have hgone : (q.slot slot).state = .free ∨ (q.slot slot).state = .barred := by
    rw [h.ownSlot]
    exact departSlot_gone barred _
  refine Part.turnLeaves_congr (q := { p with slots := q.slots }) rfl rfl (fun n hn hne => ?_)
    (Part.abandonIfServing_turnLeaves { p with slots := q.slots } q slot h.line h.settings hgone fun _ _ => rfl)
  have hrecord := h.otherSlots n hn hne
  have hstate : (q.slot n).noLive.state = (p.slot n).noLive.state := by rw [hrecord]
  change (q.slot n).state = (p.slot n).state at hstate
  unfold Part.served
  rw [← hstate]
  rfl

/-- R19, R36, R41: a desk departure and the turn it ends. -/
theorem Part.departDesk_leaves {p : Part} (hs : p.shaped) (hc : p.cueWf) {slot : Nat} (h1 : 1 ≤ slot) (h16 : slot ≤ 16) (barred : Bool) :
    (p.departDesk slot barred).slot slot = departSlot barred { p.slot slot with live := 0 } ∧
      (p.departDesk slot barred).store slot = Store.empty ∧ (p.departDesk slot barred).attn.pending.handset = true ∧
      (p.departDesk slot barred).book.entries =
        (p.book.entries.filter fun e => !(e.state == .waiting && e.origin == .slot slot)).map (leaveEntry slot) ∧
      p.turnLeaves (p.departDesk slot barred) slot := by
  obtain ⟨-, hn, -⟩ := hc
  have h := Part.depart_departed hs hn h1 h16 barred
  have hkeeps := (p.depart slot barred).abandonIfServing_stepsLine slot
  have hstores : (p.depart slot barred).stores.length = 16 :=
    (congrArg (fun f : Frame => f.fixed.stores) (p.depart_frame slot barred)).trans hs.2.1
  have hgone : ((p.depart slot barred).slot slot).state = .free ∨ ((p.depart slot barred).slot slot).state = .barred := by
    rw [h.ownSlot]
    exact departSlot_gone barred _
  refine ⟨?_, Part.abandonIfServing_store hstores h1 h16 hgone h.ownStore, ?_, ?_, h.turnLeaves⟩
  · rw [Part.departDesk, ← h.ownSlot]
    exact Part.slot_congr (by rw [hkeeps]) slot
  · rw [Part.departDesk, hkeeps]
    exact h.handset
  · rw [Part.departDesk, hkeeps]
    exact h.entries

theorem slotParam_eq_some {b : Byte} (h1 : 1 ≤ b.toNat) (h16 : b.toNat ≤ 16) : slotParam [b] = some b.toNat := by
  simp [slotParam, inRange, u8Value, Option.filter, h1, h16]

theorem slotParam_eq_none {b : Byte} (h : b.toNat < 1 ∨ 16 < b.toNat) : slotParam [b] = none := by
  have hout : (1 ≤ b.toNat && b.toNat ≤ 16) = false := by
    rw [Bool.and_eq_false_iff, decide_eq_false_iff_not, decide_eq_false_iff_not]
    omega
  simp only [slotParam, inRange, u8Value, Option.filter, hout]
  rfl

/-- Settles O27. -/
theorem barAndReleaseHandset : Obligations.BarAndReleaseHandset := by
  intro tag b s h hs hc
  have hbar : Instr.offers (.barHandset tag [b]) tag (cmdBarHandset [b]) := fun _ => rfl
  have hrel : Instr.offers (.releaseHandset tag [b]) tag (cmdReleaseHandset [b]) := fun _ => rfl
  refine ⟨fun hout => ?_, fun h1 h16 => ?_⟩
  · exact ⟨exec_refused hbar h (withForm_none (slotParam_eq_none hout) _ _),
      exec_refused hrel h (withForm_none (slotParam_eq_none hout) _ _)⟩
  · have hslot := slotParam_eq_some h1 h16
    refine ⟨fun hf => ⟨exec_refused hbar h ?_, exec_ok hrel h ?_⟩, fun hb => exec_ok hbar h ?_, fun ha => ?_, fun hf => ?_⟩
    · simp only [cmdBarHandset, hslot, withForm_some, hf]
    · simp only [cmdReleaseHandset, hslot, withForm_some, hf]
    · simp only [cmdBarHandset, hslot, withForm_some, hb]
    · refine ⟨s.part.departDesk b.toNat true, exec_ok hbar h ?_, Part.departDesk_leaves hs hc h1 h16 true⟩
      rcases ha with ha | ha <;> simp only [cmdBarHandset, hslot, withForm_some, ha]
    · refine ⟨s.part.departDesk b.toNat false, exec_ok hrel h ?_, Part.departDesk_leaves hs hc h1 h16 false⟩
      cases ha : (s.part.slot b.toNat).state
      case free => exact absurd ha hf
      all_goals simp only [cmdReleaseHandset, hslot, withForm_some, ha]

end Sys2Proof.Machine
end

