-- ==== Sys2Proof/Proofs/Configure.lean ====
section
/-! PROOFS. Proofs/Configure.lean: CONFIGURE (O14). -/

namespace Sys2Proof.Machine

/-! ### The list of fields (R185, R189) -/

theorem takePairs_of_width_none {width : Nat → Option Nat} {n : Byte} (h : width n.toNat = none) (fuel : Nat) (rest : List Byte) :
    takePairs width (fuel + 1) (n :: rest) = none := by
  simp only [takePairs, h]

theorem configParams_of_pairs_none {c : Settings} {bytes : List Byte} (h : pairsOf configWidth bytes = none) :
    configParams c bytes = none := by
  simp only [configParams, h]

theorem configParams_of_pairs {c : Settings} {bytes : List Byte} {pairs : List (Nat × List Byte)}
    (h : pairsOf configWidth bytes = some pairs) : configParams c bytes = pairs.foldlM writeSetting c := by
  simp only [configParams, h]

theorem configWidth_eq_none {n : Nat} (h : n = 0 ∨ 13 < n) : configWidth n = none := by
  unfold configWidth
  split
  any_goals rfl
  all_goals omega

theorem configParams_of_field (c : Settings) {field : Byte} (h : field.toNat = 0 ∨ 13 < field.toNat) (params : List Byte) :
    configParams c (field :: params) = none := by
  refine configParams_of_pairs_none ?_
  rw [pairsOf, List.length_cons, takePairs_of_width_none (configWidth_eq_none h)]
  rfl

theorem pairsOf_quota (b : Byte) : pairsOf configWidth [2#8, b] = some [(2, [b])] := rfl

theorem configParams_quota (c : Settings) {quota : Nat} (h1 : 1 ≤ quota) (h8 : quota ≤ 8) :
    configParams c [2#8, BitVec.ofNat 8 quota] = some { c with quota := quota } := by
  have htoNat : (BitVec.ofNat 8 quota).toNat = quota := by
    rw [BitVec.toNat_ofNat]
    omega
  rw [configParams_of_pairs (pairsOf_quota _)]
  simp [writeSetting, inRange, u8Value, Option.filter, htoNat, h1, h8]

theorem configParams_quota_high (c : Settings) : configParams c [2#8, 9#8] = none := by
  rw [configParams_of_pairs (pairsOf_quota _)]
  rfl

theorem configParams_twice (c : Settings) : configParams c [2#8, 3#8, 2#8, 3#8] = none :=
  configParams_of_pairs_none (by decide)

/-! ### What is written (R29, R138, R185) -/

/-- R138: the lyric path after a new video format. -/
def Lyric.formatted (l : Lyric) (old new : VideoFormat) : Lyric :=
  if new = old then l
  else if l.path = .pass then { l with watch := some (watchMs new * 48) } else { l with runCount := 0 }

theorem Part.formatActs_eq (p : Part) : p.formatActs = { p with lyric := p.formatActs.lyric } := by
  unfold Part.formatActs
  split <;> rfl

theorem Part.formatActs_lyric (p : Part) :
    p.formatActs.lyric = if p.lyric.path = .pass then { p.lyric with watch := some (watchMs p.settings.videoFormat * 48) }
      else { p.lyric with runCount := 0 } := by
  unfold Part.formatActs
  split
  · next h =>
    rw [if_pos h]
    rfl
  · next h => rw [if_neg (by simp [h])]

/-- The part once the fields are written and the video format has acted, before line-enable acts. -/
theorem Part.configure_eq (p : Part) (c : Settings) :
    p.configure c =
      if p.settings.lineEnable = c.lineEnable then
        { p with settings := c, lyric := p.lyric.formatted p.settings.videoFormat c.videoFormat }
      else Part.enableLine { p with settings := c, lyric := p.lyric.formatted p.settings.videoFormat c.videoFormat } c.lineEnable := by
  have hformat : (if p.settings.videoFormat = c.videoFormat then ({ p with settings := c } : Part)
      else Part.formatActs { p with settings := c }) =
        { p with settings := c, lyric := p.lyric.formatted p.settings.videoFormat c.videoFormat } := by
    unfold Lyric.formatted
    split
    · next h => rw [if_pos h.symm]
    · next h =>
      rw [if_neg (Ne.symm h), Part.formatActs_eq, Part.formatActs_lyric]
  unfold Part.configure
  simp only [hformat]

theorem Part.enableLine_off_running {p : Part} (h : p.line.state = .running) :
    p.enableLine false = { p.abandonTurn.silence with line := { p.abandonTurn.silence.line with state := .off } } := by
  simp only [Part.enableLine, h]

theorem Part.enableLine_off_broken {p : Part} (h : p.line.state = .broken) :
    p.enableLine false = { p with line := { p.line with state := .off } } := by
  simp only [Part.enableLine, h]

theorem Part.enableLine_off_off {p : Part} (h : p.line.state = .off) : p.enableLine false = p := by
  simp only [Part.enableLine, h]

theorem Part.enableLine_on_off {p : Part} (h : p.line.state = .off) :
    p.enableLine true = Part.startRound { p with line := { p.line with state := .running } } := by
  simp only [Part.enableLine, h]

theorem Part.enableLine_stepsLine (p : Part) (on : Bool) : p.stepsLine (p.enableLine on) := by
  unfold Part.enableLine
  split
  · exact p.abandonTurn_stepsLine.trans (Part.withLine_stepsLine _ _)
  · rfl
  · rfl
  · exact (p.withLine_stepsLine _).trans (Part.startRound_stepsLine _)
  · rfl
  · rfl

/-- R29: line-enable off. -/
theorem Part.enableLine_off (p : Part) :
    (p.enableLine false).line.state = .off ∧ (p.enableLine false).line.round = p.line.round ∧
      (p.line.state = .running → (p.enableLine false).line.turn = .none ∧ (p.enableLine false).line.reply = none ∧
        (p.enableLine false).line.tx = none ∧ (p.enableLine false).line.txNext = none) := by
  cases h : p.line.state with
  | running =>
    obtain ⟨hturn, hround, -, hreply, -⟩ := p.abandonTurn_fields
    rw [Part.enableLine_off_running h]
    exact ⟨rfl, hround, fun _ => ⟨hturn, hreply, rfl, rfl⟩⟩
  | off =>
    rw [Part.enableLine_off_off h]
    exact ⟨h, rfl, fun hc => by cases hc⟩
  | broken =>
    rw [Part.enableLine_off_broken h]
    exact ⟨rfl, rfl, fun hc => by cases hc⟩

theorem Part.holdsAny_eq_false {p : Part} (h : p.play.state = .idle ∨ p.play.state = .gap) : p.holdsAny = false := by
  rcases h with h | h <;> simp [Part.holdsAny, h]

theorem Part.holdsAny_eq_true {p : Part} (hi : p.play.state ≠ .idle) (hg : p.play.state ≠ .gap) : p.holdsAny = true := by
  simp [Part.holdsAny, hi, hg]

/-- Settles O14. -/
theorem configureWritesSettings : Obligations.ConfigureWritesSettings := by
  intro tag params s h
  have hoffers : Instr.offers (.configure tag params) tag (cmdConfigure params) := fun _ => rfl
  refine ⟨fun c hc hformat => ?_, fun c hc hne hi hg => ?_, fun hnone => ?_, fun quota h1 h8 => configParams_quota _ h1 h8,
    fun field hf => configParams_of_field _ hf params, configParams_quota_high _, configParams_twice _⟩
  · have htaken : (s.part.settings.videoFormat != c.videoFormat && s.part.holdsAny) = false := by
      rcases hformat with hv | hidle
      · simp [hv]
      · rw [Part.holdsAny_eq_false hidle, Bool.and_false]
    refine ⟨s.part.configure c, exec_ok hoffers h ?_, ?_⟩
    · simp only [cmdConfigure, hc, withForm_some, htaken, Bool.false_eq_true, if_false]
    rw [Part.configure_eq]
    obtain ⟨q, hq⟩ : ∃ q : Part, ({ s.part with
      settings := c, lyric := s.part.lyric.formatted s.part.settings.videoFormat c.videoFormat } : Part) = q := ⟨_, rfl⟩
    have hline : q.line = s.part.line := by rw [← hq]
    have hslots : q.slots = s.part.slots := by rw [← hq]
    rw [hq]
    by_cases he : c.lineEnable = s.part.settings.lineEnable
    · rw [if_pos he.symm]
      exact ⟨by subst hq; exact ⟨rfl, rfl, rfl, rfl, rfl, rfl, rfl, rfl, rfl⟩, fun _ => hline, fun hn => absurd he hn, by subst hq; rfl⟩
    · rw [if_neg (Ne.symm he)]
      have hkeeps := q.enableLine_stepsLine c.lineEnable
      refine ⟨?_, fun hn => absurd hn he, fun _ => ⟨fun hoff => ?_, fun hoff hrun => ?_, fun hoff hbroken => ?_, fun hon hs => ?_⟩, ?_⟩
      · rw [hkeeps]
        subst hq
        exact ⟨rfl, rfl, rfl, rfl, rfl, rfl, rfl, rfl, rfl⟩
      · rw [hoff] at hkeeps ⊢
        obtain ⟨hstate, hround, -⟩ := q.enableLine_off
        exact ⟨hstate, hround.trans (congrArg Line.round hline), (congrArg Part.slots hkeeps).trans hslots⟩
      · rw [hoff]
        exact q.enableLine_off.2.2 (by rw [hline]; exact hrun)
      · rw [hoff, Part.enableLine_off_broken (by rw [hline]; exact hbroken), hline]
      · rw [hon, Part.enableLine_on_off (by rw [hline]; exact hs), Part.startRound_state, Part.startRound_round, hline]
        exact ⟨rfl, rfl⟩
      · rw [hkeeps]
        subst hq
        rfl
  · refine exec_refused hoffers h ?_
    have hbusy : (s.part.settings.videoFormat != c.videoFormat && s.part.holdsAny) = true := by
      rw [Part.holdsAny_eq_true hi hg, Bool.and_true, bne_iff_ne]
      exact Ne.symm hne
    simp only [cmdConfigure, hc, withForm_some, hbusy, if_true]
  · exact exec_refused hoffers h (withForm_none hnone _ _)

end Sys2Proof.Machine
end

