-- ==== Sys2Proof/Proofs/ClearRoom.lean ====
section
/-! PROOFS. Proofs/ClearRoom.lean: what the book's and the library's operations leave of a session, and CLEAR ROOM (O15). -/

namespace Sys2Proof.Machine

/-! ### The library's state -/

section
variable (p : Part)

@[simp] theorem Part.mapDie_libState (d : Nat) (f : Die → Die) : (p.mapDie d f).lib.state = p.lib.state := by
  unfold Part.mapDie
  split <;> rfl

@[simp] theorem Part.startOp_libState (d : Nat) (r : Request) : (p.startOp d r).lib.state = p.lib.state := p.mapDie_libState d _

@[simp] theorem Part.giveUp_libState (d : Nat) (mine : Requester → Bool) : (p.giveUp d mine).lib.state = p.lib.state :=
  p.mapDie_libState d _

@[simp] theorem Part.setBlock_libState (d b : Nat) (st : BlockState) : (p.setBlock d b st).lib.state = p.lib.state :=
  p.mapDie_libState d _

@[simp] theorem Part.grant_libState (d : Nat) : (p.grant d).lib.state = p.lib.state := by
  unfold Part.grant
  (repeat' split) <;> simp

@[simp] theorem Part.grantIfIdle_libState (d : Nat) : (p.grantIfIdle d).lib.state = p.lib.state := by
  unfold Part.grantIfIdle
  split <;> simp

@[simp] theorem Part.reclaimJoin_libState (d b : Nat) : (p.reclaimJoin d b).lib.state = p.lib.state := by
  unfold Part.reclaimJoin
  dsimp only
  split <;> simp

@[simp] theorem Part.reclaimPush_libState (d b : Nat) : (p.reclaimPush d b).lib.state = p.lib.state := by
  simp [Part.reclaimPush]

@[simp] theorem Part.mapCatEntry_libState (song : Nat) (f : CatEntry → CatEntry) : (p.mapCatEntry song f).lib.state = p.lib.state := rfl

@[simp] theorem Part.switchTo_libState (song : Nat) (blk : SongBlock) : (p.switchTo song blk).lib.state = p.lib.state := by
  unfold Part.switchTo
  dsimp only
  (repeat' split) <;> simp

@[simp] theorem Part.release_libState (song : Nat) : (p.release song).lib.state = p.lib.state := by
  unfold Part.release
  split <;> simp

@[simp] theorem Part.readerEmpty_libState : p.readerEmpty.lib.state = p.lib.state := by
  simp [Part.readerEmpty]

@[simp] theorem Part.emptyStore_libState (slot : Nat) : (p.emptyStore slot).lib.state = p.lib.state := by
  simp [Part.emptyStore]

end

/-! ### What room clear keeps of a session (R187) -/

/-- What the end of a session keeps: the settings, the glyphs, the install record, the library's state, the book's counter and the attention the book and
the play context do not raise. -/
structure Session where
  settings : Settings
  display : Display
  glyphs : List (Nat × Glyph)
  install : Option Install
  lib : LibState
  counter : Nat
  unmasked : SourceSet
  library : Bool
  line : Bool
  video : Bool

def Part.session (p : Part) : Session :=
  ⟨p.settings, p.display, p.glyphs, p.install, p.lib.state, p.book.counter, p.attn.unmasked, p.attn.pending.library, p.attn.pending.line,
    p.attn.pending.video⟩

theorem Part.session_of_roomView {p q : Part} (h : q.roomView = p.roomView) (hl : q.lib.state = p.lib.state) : q.session = p.session := by
  obtain ⟨hset, hdisplay, -, hattn, hinstall, -, -, -, hglyphs, -, hbook, -⟩ := Part.roomView_fields h
  simp only [Part.session, hset, hdisplay, hattn, hinstall, hglyphs, hbook, hl]

@[simp] theorem Part.strike_session (p : Part) (ticket : Nat) (reason : StrikeReason) (quiet : Bool) :
    (p.strike ticket reason quiet).session = p.session := by
  cases he : p.entry ticket with
  | none => simp only [Part.strike, he]
  | some e =>
    have hbook := p.strikeEntry_book e reason quiet
    have hpending := p.strikeEntry_pending e reason quiet
    have hview := p.strikeEntry_songView e reason quiet
    simp only [Part.songView, Song.mk.injEq] at hview
    obtain ⟨hset, hdisplay, -, hmask, hlib, hinstall, -, -, -, hglyphs, -⟩ := hview
    simp only [Part.strike, he, Part.session, hbook, hpending, hset, hdisplay, hmask, hlib, hinstall, hglyphs]
    cases quiet <;> rfl

@[simp] theorem Part.release_session (p : Part) (song : Nat) : (p.release song).session = p.session :=
  Part.session_of_roomView (p.release_roomView song) (p.release_libState song)

@[simp] theorem Part.readerEmpty_session (p : Part) : p.readerEmpty.session = p.session :=
  (Part.session_of_roomView p.readerEmpty_roomView p.readerEmpty_libState : _ = Part.session { p with reader := Reader.reset })

@[simp] theorem Part.emptyStore_session (p : Part) (slot : Nat) : (p.emptyStore slot).session = p.session :=
  (Part.session_of_roomView (p.emptyStore_roomView slot) (p.emptyStore_libState slot) : _ = (p.mapStore slot fun _ => Store.empty).session)

@[simp] theorem Part.mapLive_session (p : Part) (o : Origin) (f : Nat → Nat) : (p.mapLive o f).session = p.session := by
  cases o <;> rfl

@[simp] theorem Part.removeEntry_session (p : Part) (e : Entry) : (p.removeEntry e).session = p.session := by
  unfold Part.removeEntry
  rw [Part.mapLive_session]
  rfl

@[simp] theorem Part.strikeWaiting_session (p : Part) (which : Entry → Bool) (reason : StrikeReason) (quiet : Bool) :
    (p.strikeWaiting which reason quiet).session = p.session :=
  foldl_keeps Part.session _ (fun q (e : Entry) => q.strike_session e.ticket reason quiet) _ p

theorem Part.stepsLine.session {p q : Part} (h : p.stepsLine q) : q.session = p.session := by
  rw [h]
  rfl

@[simp] theorem Part.readerEmpty_line (p : Part) : p.readerEmpty.line = p.line := by
  obtain ⟨-, -, -, -, -, -, -, -, -, -, -, -, -, hline⟩ := Part.roomView_fields p.readerEmpty_roomView
  exact hline

@[simp] theorem Part.emptyStore_line (p : Part) (slot : Nat) : (p.emptyStore slot).line = p.line := by
  obtain ⟨-, -, -, -, -, -, -, -, -, -, -, -, -, hline⟩ := Part.roomView_fields (p.emptyStore_roomView slot)
  exact hline

@[simp] theorem Part.release_line (p : Part) (song : Nat) : (p.release song).line = p.line := by
  obtain ⟨-, -, -, -, -, -, -, -, -, -, -, -, -, hline⟩ := Part.roomView_fields (p.release_roomView song)
  exact hline

/-! ### The play context at room clear (R135) -/

/-- The play context is IDLE and holds nothing. -/
def Cue.empty : Cue := ⟨.idle, none, none, none, none⟩

/-- R135: what room clear has done once the play context is IDLE: the entry it held is gone from the book. -/
structure Part.playCleared (p q : Part) : Prop where
  cue : q.play.cue = Cue.empty
  waiting : ∀ e ∈ q.book.entries, e.state = .waiting
  nodup : (q.book.entries.map Entry.ticket).Nodup
  session : q.session = p.session
  line : q.line = p.line

theorem Part.entry_of_first {p : Part} {e : Entry} {rest : List Entry} (h : p.book.entries = e :: rest) : p.entry e.ticket = some e := by
  simp [Part.entry, h]

theorem waiting_withoutTicket {e : Entry} {rest : List Entry} (h : ∀ x ∈ rest, x.state = .waiting) :
    ∀ x ∈ withoutTicket (e :: rest) e.ticket, x.state = .waiting := by
  intro x hx
  obtain ⟨hmem, hne⟩ := List.mem_filter.mp hx
  rcases List.mem_cons.mp hmem with rfl | hrest
  · simp at hne
  · exact h x hrest

theorem nodup_withoutTicket {entries : List Entry} (h : (entries.map Entry.ticket).Nodup) (ticket : Nat) :
    ((withoutTicket entries ticket).map Entry.ticket).Nodup :=
  h.sublist (List.filter_sublist.map _)

section
variable {p : Part} {e : Entry} {rest : List Entry} {song : HeldSong}

/-- R135: the entry of the play context, first in the book, has left it, and the play context has let it go. -/
theorem Part.playCleared_of_letGo (hb : p.book.entries = e :: rest) (hw : ∀ x ∈ rest, x.state = .waiting)
    (hn : (p.book.entries.map Entry.ticket).Nodup) (hg : p.play.gap = none) {a q : Part} {song : Nat} {ending : PlayEnd}
    (haplay : a.play = p.play) (habook : a.book.entries = withoutTicket p.book.entries e.ticket) (hasession : a.session = p.session)
    (haline : a.line = p.line) (hplay : q.play = (a.letGo e.ticket song ending).play) (hbook : q.book = a.book)
    (hsession : q.session = a.session) (hline : q.line = a.line) :
    p.playCleared { q with play := { q.play with state := .idle } } := by
  constructor
  case cue =>
    have hgap : q.play.gap = none := by rw [hplay, ← hg, ← haplay]; rfl
    show Cue.mk .idle q.play.entry q.play.song q.play.hold q.play.gap = Cue.empty
    rw [hgap, hplay]
    rfl
  case waiting =>
    rw [show Part.book _ = q.book from rfl, hbook, habook, hb]
    exact waiting_withoutTicket hw
  case nodup =>
    rw [show Part.book _ = q.book from rfl, hbook, habook]
    exact nodup_withoutTicket hn e.ticket
  case session => exact hsession.trans hasession
  case line => exact hline.trans haline

/-- What room clear keeps of a part beside the reader, the seats, the cards and the library. -/
def Part.heldBeside (p : Part) : Play × Book × Session × Line := (p.play, p.book, p.session, p.line)

theorem Part.readerEmpty_heldBeside (p : Part) : p.readerEmpty.heldBeside = p.heldBeside := by
  obtain ⟨-, -, -, -, -, hplay, -, -, -, -, hbook, -⟩ := Part.roomView_fields p.readerEmpty_roomView
  simp only [Part.heldBeside, hplay, hbook, Part.readerEmpty_session, Part.readerEmpty_line]

theorem Part.release_heldBeside (p : Part) (song : Nat) : (p.release song).heldBeside = p.heldBeside := by
  obtain ⟨-, -, -, -, -, hplay, -, -, -, -, hbook, -⟩ := Part.roomView_fields (p.release_roomView song)
  simp only [Part.heldBeside, hplay, hbook, Part.release_session, Part.release_line]

theorem Part.removeEntry_play (p : Part) (e : Entry) : (p.removeEntry e).play = p.play := by
  unfold Part.removeEntry Part.mapLive
  split <;> rfl

theorem Part.removeEntry_line (p : Part) (e : Entry) : (p.removeEntry e).line = p.line := by
  simp [Part.removeEntry]

/-- R135, R121: the CUED entry is struck CLEARED. -/
theorem Part.cueStrike_cleared (hb : p.book.entries = e :: rest) (hw : ∀ x ∈ rest, x.state = .waiting)
    (hn : (p.book.entries.map Entry.ticket).Nodup) (hg : p.play.gap = none) (hp : p.play.entry = some e.ticket)
    (hs : p.play.song = some song) : p.playCleared (p.cueStrike .cleared true) := by
  obtain ⟨a, ha⟩ : ∃ a, p.strike e.ticket .cleared true = a := ⟨_, rfl⟩
  obtain ⟨q, hq⟩ : ∃ q, ((a.letGo e.ticket song.song (.struck .cleared)).readerEmpty.idleSeats.titleDown).release song.song = q := ⟨_, rfl⟩
  have heq : p.cueStrike .cleared true = { q with play := { q.play with state := .idle } } := by
    simp only [Part.cueStrike, hp, hs, ha, hq, Part.afterCueStrike]
  have hbeside : q.heldBeside = (a.letGo e.ticket song.song (.struck .cleared)).heldBeside := by
    rw [← hq, Part.release_heldBeside]
    exact Part.readerEmpty_heldBeside _
  simp only [Part.heldBeside, Prod.mk.injEq] at hbeside
  obtain ⟨hplay, hbook, hsession, hline⟩ := hbeside
  rw [heq]
  refine Part.playCleared_of_letGo hb hw hn hg ?_ ?_ ?_ ?_ hplay hbook hsession hline
  · rw [← ha]
    exact congrArg Song.play (p.strike_songView e.ticket .cleared true)
  · rw [← ha, Part.strike_entries]
  · rw [← ha, Part.strike_session]
  · rw [← ha, Part.strike_line _ _ _ rfl]

/-- R135: the PLAYING entry is removed without an end. -/
theorem Part.removePlaying_cleared (hb : p.book.entries = e :: rest) (hw : ∀ x ∈ rest, x.state = .waiting)
    (hn : (p.book.entries.map Entry.ticket).Nodup) (hg : p.play.gap = none) (hp : p.play.entry = some e.ticket)
    (hs : p.play.song = some song) : p.playCleared p.removePlaying := by
  have hheld : p.heldBookEntry = some e := by
    simp [Part.heldBookEntry, hp, Part.entry_of_first hb]
  obtain ⟨q, hq⟩ : ∃ q, ((p.removeEntry e).letGo e.ticket song.song .cleared).readerEmpty.idleSeats.release song.song = q := ⟨_, rfl⟩
  have heq : p.removePlaying = { q with play := { q.play with state := .idle } } := by
    simp only [Part.removePlaying, hheld, hs, hq]
  have hbeside : q.heldBeside = ((p.removeEntry e).letGo e.ticket song.song .cleared).heldBeside := by
    rw [← hq, Part.release_heldBeside]
    exact Part.readerEmpty_heldBeside _
  simp only [Part.heldBeside, Prod.mk.injEq] at hbeside
  obtain ⟨hplay, hbook, hsession, hline⟩ := hbeside
  rw [heq]
  refine Part.playCleared_of_letGo hb hw hn hg (p.removeEntry_play e) ?_ (p.removeEntry_session e) (p.removeEntry_line e) hplay hbook
    hsession hline
  simp [Part.removeEntry]

end

theorem Part.playCleared.stopTimers {p q : Part} (h : p.playCleared q) :
    p.playCleared { q with play := { q.play with hold := none, gap := none, startPending := false } } := by
  refine ⟨?_, h.waiting, h.nodup, h.session, h.line⟩
  obtain ⟨hstate, hentry, hsong, -⟩ : q.play.state = .idle ∧ q.play.entry = none ∧ q.play.song = none ∧ q.play.hold = none ∧ q.play.gap = none := by
    simpa [Play.cue, Cue.empty] using h.cue
  show Cue.mk q.play.state q.play.entry q.play.song none none = Cue.empty
  rw [hstate, hentry, hsong]
  rfl

/-- R135, R111: the play context with no entry holds no song and stops at room clear. -/
theorem Part.playCleared_of_none {p : Part} (h : p.cueWf) (hp : p.play.entry = none) :
    p.playCleared { p with play := { p.play with state := .idle, hold := none, gap := none, startPending := false } } := by
  obtain ⟨⟨-, hsong, -, -⟩, hn, hall⟩ := h
  rw [hp] at hsong hall
  refine ⟨?_, hall, hn, rfl, rfl⟩
  show Cue.mk .idle p.play.entry p.play.song none none = Cue.empty
  have hnone : p.play.song = none := by simpa using hsong
  rw [hp, hnone]
  rfl

theorem Part.clearPlay_cleared {p : Part} (h : p.cueWf) : p.playCleared p.clearPlay := by
  obtain ⟨⟨hentry, hsong, -, hgap⟩, hn, hfirst⟩ := id h
  cases hp : p.play.entry with
  | none =>
    have hstate : p.play.state = .idle ∨ p.play.state = .gap := by
      rw [hp] at hentry
      have := mt hentry.mpr (by simp)
      tauto
    have heq : p.clearPlay = { p with play := { p.play with state := .idle, hold := none, gap := none, startPending := false } } := by
      rcases hstate with hs | hs <;> simp only [Part.clearPlay, hs]
    rw [heq]
    exact Part.playCleared_of_none h hp
  | some ticket =>
    rw [hp] at hfirst hentry hsong
    obtain ⟨e, rest, hb, rfl, hw, -⟩ := hfirst
    obtain ⟨hidle, hnogap⟩ := hentry.mp rfl
    obtain ⟨song, hs⟩ := Option.isSome_iff_exists.mp hsong
    have hg : p.play.gap = none := by
      rw [← Option.not_isSome_iff_eq_none]
      exact fun hc => hnogap (hgap.mp hc)
    have hcue := Part.cueStrike_cleared hb hw hn hg hp hs
    have hplaying := Part.removePlaying_cleared hb hw hn hg hp hs
    unfold Part.clearPlay
    cases hstate : p.play.state with
    | idle => exact absurd hstate hidle
    | gap => exact absurd hstate hnogap
    | staging => exact hcue.stopTimers
    | holding => exact hcue.stopTimers
    | running => exact hplaying.stopTimers
    | paused => exact hplaying.stopTimers

/-! ### The book and the handsets at room clear (R25, R47, R56) -/

/-- R25: the book is empty and its hold flag is clear. -/
theorem Part.clearBook_cleared {p q : Part} (h : p.playCleared q) :
    q.clearBook.book.entries = [] ∧ q.clearBook.book.hold = false ∧ p.playCleared q.clearBook := by
  have hentries : q.clearBook.book.entries = [] := by
    refine (Part.strikeWaiting_entries h.nodup (fun _ => true) .cleared true).trans (List.filter_eq_nil_iff.mpr fun e he => ?_)
    simp [h.waiting e he]
  have hplay : q.clearBook.play = q.play := congrArg Song.play (q.strikeWaiting_songView (fun _ => true) .cleared true)
  refine ⟨hentries, rfl, ⟨?_, by simp [hentries], by simp [hentries], ?_, ?_⟩⟩
  · rw [hplay]
    exact h.cue
  · exact (q.strikeWaiting_session (fun _ => true) .cleared true).trans h.session
  · exact (q.strikeWaiting_line (fun _ => true) true rfl).trans h.line

theorem getD_modify_const {α : Type} (l : List α) (i j : Nat) (d : α) (h : i = j ∨ l.getD j d = d) :
    (l.modify i fun _ => d).getD j d = d := by
  by_cases hij : i = j
  · subst hij
    simp only [List.getD_eq_getElem?_getD, List.getElem?_modify_eq]
    cases l[i]? <;> rfl
  · rw [getD_modify_of_ne l _ d hij]
    exact h.resolve_left hij

theorem Part.emptyStore_store (p : Part) {slot n : Nat} (h : slot = n ∨ p.store n = Store.empty) :
    (p.emptyStore slot).store n = Store.empty := by
  obtain ⟨-, -, -, -, -, -, -, -, -, -, -, -, hstores, -⟩ := Part.roomView_fields (p.emptyStore_roomView slot)
  rw [Part.store_congr hstores]
  refine getD_modify_const p.stores (slot - 1) (n - 1) Store.empty ?_
  rcases h with rfl | h
  · exact .inl rfl
  · exact .inr h

theorem foldl_emptyStore_store (l : List Nat) (p : Part) {n : Nat} (h : n ∈ l ∨ p.store n = Store.empty) :
    (l.foldl Part.emptyStore p).store n = Store.empty := by
  induction l generalizing p with
  | nil => exact h.resolve_left (List.not_mem_nil)
  | cons slot l ih =>
    rw [List.foldl_cons]
    refine ih _ ?_
    rcases h with h | h
    · rcases List.mem_cons.mp h with rfl | h
      · exact .inr (p.emptyStore_store (.inl rfl))
      · exact .inl h
    · exact .inr (p.emptyStore_store (.inr h))

/-- R47, R56: every slot is FREE and every store empty. -/
structure Part.vacant (p : Part) : Prop where
  slots : p.slots = List.replicate 16 Slot.reset
  stores : ∀ slot, 1 ≤ slot → slot ≤ 16 → p.store slot = Store.empty

theorem Part.emptyHandsets_vacant (p : Part) : p.emptyHandsets.vacant := by
  have hstores : ∀ n, 1 ≤ n → n ≤ 16 → (slotNumbers.foldl Part.emptyStore p).store n = Store.empty :=
    fun n h1 h16 => foldl_emptyStore_store slotNumbers p (.inl (mem_slotNumbers.mpr ⟨h1, h16⟩))
  unfold Part.emptyHandsets
  generalize slotNumbers.foldl Part.emptyStore p = q at hstores ⊢
  exact ⟨rfl, hstores⟩

theorem Part.vacant.served {p : Part} (h : p.vacant) (n : Nat) : p.served n = false := by
  have hfree : (p.slot n).state = .free := by
    rw [Part.slot, h.slots, List.getD_eq_getElem?_getD, List.getElem?_replicate]
    split <;> rfl
  simp [Part.served, hfree]

theorem Part.vacant.nextSlot {p : Part} (h : p.vacant) : p.nextSlot = none :=
  Part.nextSlot_eq_none fun n _ _ => h.served n

theorem Part.abandonTurn_stores_empty {p : Part} {n : Nat} (h : p.store n = Store.empty) : p.abandonTurn.store n = Store.empty := by
  unfold Part.abandonTurn Part.strayRest
  rw [Part.dropDue_store]
  split
  · next slot _ _ =>
    by_cases hn : slot - 1 = n - 1
    · show (p.stores.modify (slot - 1) returnCarried).getD (n - 1) Store.empty = Store.empty
      rw [Part.store, ← hn] at h
      rw [← hn, List.getD_eq_getElem?_getD, List.getElem?_modify_eq]
      rw [List.getD_eq_getElem?_getD] at h
      cases hs : p.stores[slot - 1]? with
      | none => rfl
      | some st =>
        rw [hs] at h
        obtain rfl : st = Store.empty := h
        rfl
    · exact (getD_modify_of_ne p.stores returnCarried Store.empty hn).trans h
  all_goals exact h

theorem Part.vacant.of_stores {p q : Part} (h : p.vacant) (hslots : q.slots = p.slots) (hstores : q.stores = p.stores) : q.vacant :=
  ⟨hslots.trans h.slots, fun n h1 h16 => (Part.store_congr hstores n).trans (h.stores n h1 h16)⟩

theorem Part.vacant.abandonTurn {p : Part} (h : p.vacant) : p.abandonTurn.vacant :=
  ⟨p.abandonTurn_line.2.1.trans h.slots, fun n h1 h16 => Part.abandonTurn_stores_empty (h.stores n h1 h16)⟩

/-- The line's state and its counts. -/
def Line.counts (l : Line) : LineState × Nat × Nat × Nat × Nat := (l.state, l.strays, l.lates, l.badClaims, l.breaks)

section
variable (p : Part)

@[simp] theorem Part.sendFrame_counts (f : TxFrame) : (p.sendFrame f).line.counts = p.line.counts := by
  unfold Part.sendFrame
  split <;> rfl

@[simp] theorem Part.pollTurn_counts (slot : Nat) : (p.pollTurn slot).line.counts = p.line.counts := by
  rw [Part.pollTurn_eq, Part.sendFrame_counts]
  rfl

@[simp] theorem Part.openWindow_counts : p.openWindow.line.counts = p.line.counts := by
  rw [Part.openWindow, Part.sendFrame_counts]
  rfl

@[simp] theorem Part.idleInterval_counts : p.idleInterval.line.counts = p.line.counts := rfl

@[simp] theorem Part.startRound_counts : p.startRound.line.counts = p.line.counts := by
  have hbegun : p.roundBegun.line.counts = p.line.counts := rfl
  obtain ⟨n, -, h⟩ | ⟨-, h⟩ | ⟨-, h⟩ := p.startRound_cases <;> rw [h] <;> simp [hbegun]

@[simp] theorem Part.nextTurn_counts : p.nextTurn.line.counts = p.line.counts := by
  have hbegun : Line.counts { p.line with turn := .none, reply := none } = p.line.counts := rfl
  unfold Part.nextTurn
  dsimp only
  (repeat' split) <;> simp [hbegun]

@[simp] theorem Part.abandonTurn_counts : p.abandonTurn.line.counts = p.line.counts := by
  unfold Part.abandonTurn Part.strayRest Part.dropDue
  dsimp only
  (repeat' split) <;> rfl

end

/-- R33: with no slot to serve, the turn that follows is the claim window, or with claims closed an idle interval. -/
theorem Part.vacant.nextTurn {p : Part} (h : p.vacant) :
    p.nextTurn.vacant ∧
      p.nextTurn.line.turn = (if p.settings.openClaims then .claimWindow else .idleInterval) ∧
      p.nextTurn.line.reply = (if p.settings.openClaims then none else some (p.settings.replyWindow * 48)) ∧
      p.nextTurn.line.rx = p.line.rx ∧ p.nextTurn.line.rxClass = p.line.rxClass ∧
      (p.settings.openClaims = true → p.nextTurn.line.round = p.line.round) := by
  obtain ⟨q, hq⟩ : ∃ q : Part, ({ p with line := { p.line with turn := .none, reply := none } } : Part) = q := ⟨_, rfl⟩
  have hv : q.vacant := h.of_stores (by rw [← hq]) (by rw [← hq])
  have heq : p.nextTurn = if p.settings.openClaims then q.openWindow else if q.line.lastServed = 0 then q.idleInterval else q.startRound := by
    have hset : q.settings = p.settings := by rw [← hq]
    rw [← hset, Part.nextTurn, hq, hv.nextSlot]
  cases ho : p.settings.openClaims with
  | true =>
    have hview := q.openWindow_turnView
    simp only [Part.turnView, Prod.mk.injEq] at hview
    obtain ⟨hturn, hround, -, hreply, hrx, hclass⟩ := hview
    have hkeeps := q.openWindow_keeps
    rw [heq, ho, if_pos rfl]
    subst hq
    exact ⟨hv.of_stores (by rw [hkeeps]) (by rw [hkeeps]), hturn, hreply, hrx, hclass, fun _ => hround⟩
  | false =>
    have hidle : ∀ r : Part, r.line.rx = p.line.rx → r.line.rxClass = p.line.rxClass →
        r.settings = p.settings → r.vacant →
        r.idleInterval.vacant ∧ r.idleInterval.line.turn = .idleInterval ∧
          r.idleInterval.line.reply = some (p.settings.replyWindow * 48) ∧ r.idleInterval.line.rx = p.line.rx ∧
          r.idleInterval.line.rxClass = p.line.rxClass := by
      intro r hrx hclass hset hr
      exact ⟨hr.of_stores rfl rfl, rfl, by rw [← hset]; rfl, hrx, hclass⟩
    rw [heq, ho, if_neg (by simp)]
    split
    · obtain ⟨h1, h2, h3, h4, h5⟩ := hidle q (by rw [← hq]) (by rw [← hq]) (by rw [← hq]) hv
      exact ⟨h1, h2, h3, h4, h5, fun hc => by cases hc⟩
    · have hbegun : q.roundBegun.vacant := hv.of_stores rfl rfl
      rw [Part.startRound_idle hbegun.nextSlot (by rw [← hq]; exact ho)]
      obtain ⟨h1, h2, h3, h4, h5⟩ := hidle q.roundBegun (by rw [← hq]; rfl) (by rw [← hq]; rfl) (by rw [← hq]; rfl) hbegun
      exact ⟨h1, h2, h3, h4, h5, fun hc => by cases hc⟩

/-- Emptying the stores leaves what is beside the slots and the stores. -/
theorem Part.emptyHandsets_keeps {γ : Type} (view : Part → γ) (h : ∀ (a : Part) n, view (a.emptyStore n) = view a)
    (hs : ∀ (a : Part) slots, view { a with slots := slots } = view a) (p : Part) : view p.emptyHandsets = view p := by
  have hfold := foldl_keeps view Part.emptyStore h slotNumbers p
  unfold Part.emptyHandsets
  generalize slotNumbers.foldl Part.emptyStore p = q at hfold ⊢
  exact (hs q _).trans hfold

/-- R47: room clear at the handsets, and the turn it ends. -/
structure Part.handsetsCleared (p q : Part) : Prop where
  vacant : q.vacant
  stays : (∀ slot carried, p.line.turn ≠ .poll slot carried) → q.line = p.line
  counts : q.line.counts = p.line.counts
  round : p.settings.openClaims = true → q.line.round = p.line.round
  turn : ∀ slot carried, p.line.turn = .poll slot carried →
    q.line.turn = (if p.settings.openClaims then .claimWindow else .idleInterval) ∧
      q.line.reply = (if p.settings.openClaims then none else some (p.settings.replyWindow * 48)) ∧
      q.line.rx = p.line.rx ∧ q.line.rxClass = .stray

theorem Part.clearHandsets_cleared (p : Part) : p.handsetsCleared p.clearHandsets := by
  obtain ⟨m, hm⟩ : ∃ m, p.emptyHandsets = m := ⟨_, rfl⟩
  have hv : m.vacant := hm ▸ p.emptyHandsets_vacant
  have hline : m.line = p.line := by
    rw [← hm]
    exact Part.emptyHandsets_keeps Part.line Part.emptyStore_line (fun _ _ => rfl) p
  have hsession : m.session = p.session := by
    rw [← hm]
    exact Part.emptyHandsets_keeps Part.session Part.emptyStore_session (fun _ _ => rfl) p
  have hset : m.settings = p.settings := congrArg Session.settings hsession
  rw [Part.clearHandsets_eq, hm]
  have hstay : (∀ slot carried, p.line.turn ≠ .poll slot carried) → m.leaveTurn = m := by
    intro h
    unfold Part.leaveTurn
    split
    · next slot carried ht => exact absurd (hline ▸ ht) (h slot carried)
    all_goals rfl
  by_cases h : ∀ slot carried, p.line.turn ≠ .poll slot carried
  · rw [hstay h]
    exact ⟨hv, fun _ => hline, by rw [hline], fun _ => by rw [hline], fun slot carried ht => absurd ht (h slot carried)⟩
  · simp only [not_forall, not_not] at h
    obtain ⟨slot, carried, ht⟩ := h
    have hleave : m.leaveTurn = m.abandonTurn.nextTurn := by
      simp only [Part.leaveTurn, hline, ht]
    obtain ⟨-, hround, -, -, hrx, hclass⟩ := m.abandonTurn_fields
    have hset' : m.abandonTurn.settings = p.settings := by rw [m.abandonTurn_line.2.2, hset]
    obtain ⟨nv, nturn, nreply, nrx, nclass, nround⟩ := hv.abandonTurn.nextTurn
    rw [hset'] at nturn nreply nround
    rw [hleave]
    refine ⟨nv, fun hn => absurd ht (hn slot carried), ?_, fun ho => ?_, fun _ _ _ => ⟨nturn, nreply, ?_, nclass.trans hclass⟩⟩
    · rw [Part.nextTurn_counts, Part.abandonTurn_counts, hline]
    · rw [nround ho, hround, hline]
    · rw [nrx, hrx, hline]

theorem Part.leaveTurn_stepsLine (p : Part) : p.stepsLine p.leaveTurn := by
  unfold Part.leaveTurn
  split
  · exact p.abandonTurn_stepsLine.trans (Part.nextTurn_stepsLine _)
  all_goals rfl

/-- Room clear at the handsets leaves the book, the play context, the reader and the session. -/
theorem Part.clearHandsets_beside (p : Part) :
    p.clearHandsets.book = p.book ∧ p.clearHandsets.play = p.play ∧ p.clearHandsets.reader = p.reader ∧
      p.clearHandsets.session = p.session := by
  have hstore : ∀ (a : Part) n, (a.emptyStore n).book = a.book ∧ (a.emptyStore n).play = a.play ∧ (a.emptyStore n).reader = a.reader := by
    intro a n
    obtain ⟨-, -, -, -, -, hplay, hreader, -, -, -, hbook, -⟩ := Part.roomView_fields (a.emptyStore_roomView n)
    exact ⟨hbook, hplay, hreader⟩
  obtain ⟨m, hm⟩ : ∃ m, p.emptyHandsets = m := ⟨_, rfl⟩
  have hkept : m.book = p.book ∧ m.play = p.play ∧ m.reader = p.reader ∧ m.session = p.session := by
    rw [← hm]
    exact ⟨Part.emptyHandsets_keeps Part.book (fun a n => (hstore a n).1) (fun _ _ => rfl) p,
      Part.emptyHandsets_keeps Part.play (fun a n => (hstore a n).2.1) (fun _ _ => rfl) p,
      Part.emptyHandsets_keeps Part.reader (fun a n => (hstore a n).2.2) (fun _ _ => rfl) p,
      Part.emptyHandsets_keeps Part.session Part.emptyStore_session (fun _ _ => rfl) p⟩
  obtain ⟨hbook, hplay, hreader, hsession⟩ := hkept
  have hstep := m.leaveTurn_stepsLine
  rw [Part.clearHandsets_eq, hm]
  exact ⟨by rw [hstep]; exact hbook, by rw [hstep]; exact hplay, by rw [hstep]; exact hreader, hstep.session.trans hsession⟩

/-- R154, R172, R183: what the clearing of the displays, the scorer and the attention leaves, and what it writes. -/
theorem Part.clearOutputs_fields (q : Part) :
    (q.clearDisplay.clearScorer.clearRoomSources.book = q.book ∧ q.clearDisplay.clearScorer.clearRoomSources.play = q.play ∧
      q.clearDisplay.clearScorer.clearRoomSources.reader = q.reader ∧ q.clearDisplay.clearScorer.clearRoomSources.line = q.line ∧
      q.clearDisplay.clearScorer.clearRoomSources.slots = q.slots ∧ q.clearDisplay.clearScorer.clearRoomSources.stores = q.stores ∧
      q.clearDisplay.clearScorer.clearRoomSources.session = q.session) ∧
    (q.clearDisplay.clearScorer.clearRoomSources.lyric.row0.state = .empty ∧ q.clearDisplay.clearScorer.clearRoomSources.lyric.row1.state = .empty ∧
      q.clearDisplay.clearScorer.clearRoomSources.lyric.title.shown = false ∧
      q.clearDisplay.clearScorer.clearRoomSources.lyric.card.shown = false ∧
      q.clearDisplay.clearScorer.clearRoomSources.scorer.result = none) ∧
    q.clearDisplay.clearScorer.clearRoomSources.attn.pending =
      { q.attn.pending with play := false, score := false, book := false, handset := false } ∧
    ∀ x ∈ q.clearDisplay.clearScorer.clearRoomSources.scorer.seats, x.state = .idle := by
  refine ⟨?_, ?_, ?_, fun x hx => ?_⟩
  · simp [Part.clearRoomSources, Part.clearScorer, Part.clearSeats, Part.mapSeats, Part.clearDisplay, Part.resetRows, Part.titleDown,
      Part.cardDown, Part.session, SourceSet.put]
  · simp [Part.clearRoomSources, Part.clearScorer, Part.clearSeats, Part.mapSeats, Part.clearDisplay, Part.resetRows, Part.titleDown,
      Part.cardDown, Row.reset]
  · simp [Part.clearRoomSources, Part.clearScorer, Part.clearSeats, Part.mapSeats, Part.clearDisplay, Part.resetRows, Part.titleDown,
      Part.cardDown, SourceSet.put]
  · obtain ⟨i, hi, rfl⟩ := List.mem_mapIdx.mp (hx : x ∈ q.scorer.seats.mapIdx _)
    rfl

/-- R187: the part after room clear: the part whose handsets are cleared, with the displays, the scorer and the attention cleared. -/
theorem Part.clearRoom_of_cleared {p : Part} (hc : p.cueWf) :
    ∃ q, p.clearRoom = q.clearDisplay.clearScorer.clearRoomSources ∧ q.book.entries = [] ∧ q.book.hold = false ∧
      q.play.cue = Cue.empty ∧ q.reader = Reader.reset ∧ q.session = p.session ∧ p.handsetsCleared q := by
  obtain ⟨hentries, hhold, hplay⟩ := Part.clearBook_cleared (Part.clearPlay_cleared hc)
  unfold Part.clearRoom
  generalize p.clearPlay.clearBook = b at hentries hhold hplay
  obtain ⟨r, hr⟩ : ∃ r, b.readerEmpty = r := ⟨_, rfl⟩
  have hbeside : r.heldBeside = b.heldBeside := by rw [← hr, Part.readerEmpty_heldBeside]
  simp only [Part.heldBeside, Prod.mk.injEq] at hbeside
  obtain ⟨rplay, rbook, rsession, rline⟩ := hbeside
  have rreader : r.reader = Reader.reset := by rw [← hr]; rfl
  have hline : r.line = p.line := rline.trans hplay.line
  have hset : r.settings = p.settings := congrArg Session.settings (rsession.trans hplay.session)
  have hturn := r.clearHandsets_cleared
  obtain ⟨hbook, hplay', hreader, hsession⟩ := r.clearHandsets_beside
  rw [hr]
  generalize r.clearHandsets = q at hturn hbook hplay' hreader hsession
  obtain ⟨tvacant, tstays, tcounts, tround, tturn⟩ := hturn
  rw [hline, hset] at tround
  rw [hline] at tstays tcounts
  rw [hline, hset] at tturn
  exact ⟨q, rfl, by rw [hbook, rbook, hentries], by rw [hbook, rbook, hhold], by rw [hplay', rplay, hplay.cue], hreader.trans rreader,
    hsession.trans (rsession.trans hplay.session), ⟨tvacant, tstays, tcounts, tround, tturn⟩⟩

/-- Settles O15. -/
theorem clearRoomEndsSession : Obligations.ClearRoomEndsSession := by
  intro tag s h hc
  obtain ⟨q, hroom, hentries, hhold, hcue, hreader, hkept, hturn⟩ := Part.clearRoom_of_cleared hc
  have hoffers : Instr.offers (.clearRoom tag []) tag (cmdClearRoom []) := fun _ => rfl
  obtain ⟨u, hu⟩ : ∃ u, q.clearDisplay.clearScorer.clearRoomSources = u := ⟨_, rfl⟩
  have hcmd : cmdClearRoom [] s.part = (u, .ok []) := by
    rw [← hu, ← hroom]
    simp only [cmdClearRoom, takesNone, withForm_some]
  obtain ⟨⟨ubook, uplay, ureader, uline, uslots, ustores, usession⟩, hdisplay, hpending, hseats⟩ := q.clearOutputs_fields
  rw [hu] at ubook uplay ureader uline uslots ustores usession hdisplay hpending hseats
  have huv : u.vacant := hturn.vacant.of_stores uslots ustores
  rw [← ubook] at hentries hhold
  rw [← uplay] at hcue
  rw [← ureader] at hreader
  have hpending' : u.attn.pending = { s.part.attn.pending with play := false, score := false, book := false, handset := false } := by
    simp only [Part.session, Session.mk.injEq] at hkept
    obtain ⟨-, -, -, -, -, -, -, hlibrary, hline, hvideo⟩ := hkept
    rw [hpending]
    dsimp only
    rw [hlibrary, hline, hvideo]
  rw [← usession] at hkept
  obtain ⟨tvacant, tstays, tcounts, tround, tturn⟩ := hturn
  rw [← uline] at tstays tcounts tround tturn
  simp only [Play.cue, Cue.empty, Cue.mk.injEq] at hcue
  obtain ⟨cstate, centry, -, chold, cgap⟩ := hcue
  simp only [Part.session, Session.mk.injEq] at hkept
  obtain ⟨kset, kdisplay, kglyphs, kinstall, klib, kcounter, kmask, -⟩ := hkept
  simp only [Line.counts, Prod.mk.injEq] at tcounts
  obtain ⟨dupper, dlower, dtitle, dcard, dresult⟩ := hdisplay
  refine ⟨u, exec_ok hoffers h hcmd, ⟨hentries, hhold, kcounter⟩, ⟨huv.slots, huv.stores⟩,
    ⟨cstate, centry, chold, cgap, congrArg Reader.state hreader⟩, ⟨dupper, dlower, dtitle, dcard⟩, ⟨dresult, hseats⟩, ⟨hpending', kmask⟩,
    ⟨kset, kdisplay, kglyphs, kinstall, klib, tcounts⟩, tstays, tround, tturn⟩

end Sys2Proof.Machine
end

