-- ==== Sys2Proof/Proofs/BookOrder.lean ====
section
/-! PROOFS. Proofs/BookOrder.lean: positions, the POSITION flags of a changed order, and the entry an ADD REQUEST adds (O19, O20). -/

namespace Sys2Proof.Machine

/-! ### Positions (R1) -/

theorem find?_eq_some_of_nodup {α β : Type} [BEq β] [LawfulBEq β] {f : α → β} {l : List α} (h : (l.map f).Nodup) {x : α} (hx : x ∈ l) :
    (l.find? fun y => f y == f x) = some x := by
  induction l with
  | nil => cases hx
  | cons y l ih =>
    rw [List.map_cons, List.nodup_cons] at h
    rcases List.mem_cons.mp hx with rfl | hmem
    · simp
    · have hne : (f y == f x) = false := by
        rw [beq_eq_false_iff_ne]
        intro he
        exact h.1 (he ▸ List.mem_map_of_mem hmem)
      rw [List.find?_cons, hne]
      exact ih h.2 hmem

theorem positionsFrom_map_snd (n : Nat) (l : List Entry) : (positionsFrom n l).map Prod.snd = l := by
  induction l generalizing n with
  | nil => rfl
  | cons e l ih =>
    rw [positionsFrom]
    split <;> simp [ih]

/-- R1: a WAITING entry's position is its place among the WAITING entries. -/
theorem mem_positionsFrom_waiting {n k : Nat} {l : List Entry} {e : Entry} (he : e.state = .waiting) :
    (k, e) ∈ positionsFrom n l ↔ ∃ i, (waitingEntries l)[i]? = some e ∧ k = n + i := by
  induction l generalizing n with
  | nil => simp [positionsFrom, waitingEntries]
  | cons x l ih =>
    rw [positionsFrom, waitingEntries_cons]
    split
    · rw [List.mem_cons, ih]
      constructor
      · rintro (heq | ⟨i, hi, rfl⟩)
        · cases heq
          exact ⟨0, rfl, rfl⟩
        · exact ⟨i + 1, hi, by omega⟩
      · rintro ⟨i, hi, rfl⟩
        cases i with
        | zero =>
          cases hi
          exact .inl rfl
        | succ i => exact .inr ⟨i, hi, by omega⟩
    · next hx =>
      rw [List.mem_cons, ih]
      constructor
      · rintro (heq | h)
        · cases heq
          exact absurd he hx
        · exact h
      · exact .inr

theorem positionOf_of_mem {l : List Entry} (hn : (l.map Entry.ticket).Nodup) {k : Nat} {e : Entry} (h : (k, e) ∈ positions l) :
    positionOf l e.ticket = some k := by
  have hmap : ((positions l).map fun x => x.2.ticket) = l.map Entry.ticket := by
    calc (positions l).map (fun x => x.2.ticket) = ((positions l).map Prod.snd).map Entry.ticket := by rw [List.map_map]; rfl
      _ = l.map Entry.ticket := by rw [positions, positionsFrom_map_snd]
  have hfind : (positions l).find? (fun x => x.2.ticket == e.ticket) = some (k, e) :=
    find?_eq_some_of_nodup (f := fun x : Nat × Entry => x.2.ticket) (by rw [hmap]; exact hn) h
  rw [positionOf, hfind]
  rfl

theorem positionOf_waiting {l : List Entry} (hn : (l.map Entry.ticket).Nodup) {i : Nat} {e : Entry} (he : e.state = .waiting)
    (h : (waitingEntries l)[i]? = some e) : positionOf l e.ticket = some (i + 1) :=
  positionOf_of_mem hn ((mem_positionsFrom_waiting he).mpr ⟨i, h, by omega⟩)

/-! ### The POSITION flags (R21, R53) -/

theorem foldl_setPosition_store (l : List Nat) {p : Part} (hl : p.stores.length = 16) {slot : Nat} (h1 : 1 ≤ slot) (h16 : slot ≤ 16)
    (hpos : ∀ n ∈ l, 1 ≤ n) :
    (l.foldl Part.setPosition p).store slot =
      { p.store slot with position := if slot ∈ l then .set else (p.store slot).position } := by
  induction l generalizing p with
  | nil => simp
  | cons n l ih =>
    have hlen : (p.setPosition n).stores.length = 16 := (List.length_modify ..).trans hl
    rw [List.foldl_cons, ih hlen fun m hm => hpos m (List.mem_cons_of_mem n hm)]
    by_cases hn : slot = n
    · subst hn
      rw [Part.setPosition, Part.store_mapStore_self _ hl h1 h16]
      simp
    · rw [Part.setPosition, Part.store_mapStore_of_ne _ _ hn (hpos n List.mem_cons_self) h1]
      simp [hn]

theorem slotMoved_iff (before after : List Entry) (slot : Nat) :
    slotMoved before after slot = true ↔
      ∃ (e y : Entry) (i j : Nat), (waitingEntries after)[i]? = some e ∧ e.origin = .slot slot ∧
        (waitingEntries before)[j]? = some y ∧ y.ticket = e.ticket ∧ i ≠ j := by
  simp only [slotMoved, List.any_eq_true, Bool.and_eq_true, beq_iff_eq, bne_iff_ne, Prod.exists]
  constructor
  · rintro ⟨k, e, he, ⟨horigin, hstate⟩, m, y, hy, ⟨hticket, hystate⟩, hne⟩
    obtain ⟨i, hi, rfl⟩ := (mem_positionsFrom_waiting hstate).mp he
    obtain ⟨j, hj, rfl⟩ := (mem_positionsFrom_waiting hystate).mp hy
    exact ⟨e, y, i, j, hi, horigin, hj, hticket, by omega⟩
  · rintro ⟨e, y, i, j, hi, horigin, hj, hticket, hne⟩
    have hwaiting : ∀ (l : List Entry) {n : Nat} {x : Entry}, (waitingEntries l)[n]? = some x → x.state = .waiting := by
      intro l n x hx
      have hmem := List.mem_of_getElem? hx
      rw [waitingEntries, List.mem_filter] at hmem
      simpa using hmem.2
    exact ⟨1 + i, e, (mem_positionsFrom_waiting (hwaiting _ hi)).mpr ⟨i, hi, rfl⟩, ⟨horigin, hwaiting _ hi⟩, 1 + j, y,
      (mem_positionsFrom_waiting (hwaiting _ hj)).mpr ⟨j, hj, rfl⟩, ⟨hticket, hwaiting _ hj⟩, by omega⟩

/-- Settles O19. -/
theorem positionFlagsFollowMoves : Obligations.PositionFlagsFollowMoves := by
  refine ⟨fun p entries slot hs h1 h16 => ?_, slotMoved_iff⟩
  obtain ⟨-, hlen, -⟩ := hs
  have hmem : slot ∈ slotNumbers.filter (slotMoved p.book.entries entries) ↔ slotMoved p.book.entries entries slot = true := by
    rw [List.mem_filter, and_iff_right (mem_slotNumbers.mpr ⟨h1, h16⟩)]
  rw [Part.withEntries, foldl_setPosition_store _ (p := { p with book := { p.book with entries := entries } }) hlen h1 h16
    fun n hn => (mem_slotNumbers.mp (List.mem_of_mem_filter hn)).1]
  simp only [hmem]
  rfl

/-! ### A new entry in its place (R5 to R8, R10) -/

theorem insertWaiting_perm (entries : List Entry) (n : Nat) (e : Entry) : (insertWaiting entries n e).Perm (e :: entries) := by
  have hsplit : (entries.filter (fun x => x.state != .waiting) ++ waitingEntries entries).Perm entries := by
    have h := List.filter_append_perm (fun x : Entry => x.state != .waiting) entries
    have hw : (entries.filter fun x => !(x.state != .waiting)) = waitingEntries entries := by
      unfold waitingEntries
      exact List.filter_congr fun x _ => by simp [bne]
    rwa [hw] at h
  have hinsert : insertWaiting entries n e = (entries.filter (fun x => x.state != .waiting) ++ (waitingEntries entries).take n) ++
      e :: (waitingEntries entries).drop n := by simp [insertWaiting]
  rw [hinsert]
  refine List.perm_middle.trans (List.Perm.cons e ?_)
  rw [List.append_assoc, List.take_append_drop]
  exact hsplit

theorem waitingEntries_insertWaiting (entries : List Entry) (n : Nat) {e : Entry} (he : e.state = .waiting) :
    waitingEntries (insertWaiting entries n e) = (waitingEntries entries).take n ++ e :: (waitingEntries entries).drop n := by
  have hkeep : ∀ l : List Entry, (∀ x ∈ l, x.state = .waiting) → waitingEntries l = l := fun l h => waitingEntries_eq_self h
  have hnone : waitingEntries (entries.filter fun x => x.state != .waiting) = [] := by
    simp [waitingEntries]
  have hall : ∀ x ∈ waitingEntries entries, x.state = .waiting := by
    intro x hx
    simpa using (List.mem_filter.mp hx).2
  have happend : ∀ a b : List Entry, waitingEntries (a ++ b) = waitingEntries a ++ waitingEntries b := fun a b => List.filter_append ..
  rw [insertWaiting, happend, happend, happend, hnone, hkeep _ fun x hx => hall x (List.mem_of_mem_take hx),
    hkeep _ fun x hx => hall x (List.mem_of_mem_drop hx), hkeep [e] (by simpa using he)]
  simp

theorem getElem?_insertWaiting (entries : List Entry) {n : Nat} {e : Entry} (he : e.state = .waiting)
    (hn : n ≤ (waitingEntries entries).length) : (waitingEntries (insertWaiting entries n e))[n]? = some e := by
  rw [waitingEntries_insertWaiting entries n he, List.getElem?_append_right (by simp), List.length_take_of_le hn]
  simp

theorem nodup_insertWaiting {entries : List Entry} {n : Nat} {e : Entry} (hn : (entries.map Entry.ticket).Nodup)
    (hfresh : ∀ x ∈ entries, x.ticket ≠ e.ticket) : ((insertWaiting entries n e).map Entry.ticket).Nodup := by
  rw [((insertWaiting_perm entries n e).map Entry.ticket).nodup_iff, List.map_cons, List.nodup_cons]
  refine ⟨fun h => ?_, hn⟩
  obtain ⟨x, hx, ht⟩ := List.mem_map.mp h
  exact hfresh x hx ht

theorem positionOf_insertWaiting {entries : List Entry} {n : Nat} {e : Entry} (he : e.state = .waiting)
    (hn : n ≤ (waitingEntries entries).length) (hnodup : (entries.map Entry.ticket).Nodup) (hfresh : ∀ x ∈ entries, x.ticket ≠ e.ticket) :
    positionOf (insertWaiting entries n e) e.ticket = some (n + 1) :=
  positionOf_waiting (nodup_insertWaiting hnodup hfresh) he (getElem?_insertWaiting entries he hn)

theorem placement_le (mode : OrderMode) (entries : List Entry) (o : Origin) (front : Bool) :
    (placement mode entries o front).2 ≤ (waitingEntries entries).length := by
  cases front with
  | true => exact Nat.zero_le _
  | false =>
    cases mode with
    | rotation => exact Nat.sub_le _ _
    | arrival => exact le_refl _

theorem seatsFor_desk {singers : Nat} (h : 1 ≤ singers) : seatsFor .desk singers = List.replicate singers none := by
  obtain ⟨n, rfl⟩ := Nat.exists_eq_add_of_le h
  rw [seatsFor, Nat.add_sub_cancel_left, Nat.add_comm 1 n]
  rfl

theorem Part.catEntry_mapCatEntry {p : Part} {song : Nat} {f : CatEntry → CatEntry} (hf : ∀ e, (f e).song = e.song) (n : Nat) :
    (p.mapCatEntry song f).catEntry n = if n = song then (p.catEntry n).map f else p.catEntry n := by
  have hsong : ((fun e : CatEntry => e.song == n) ∘ fun e => if e.song == song then f e else e) = fun e => e.song == n := by
    funext e
    by_cases he : e.song = song <;> simp [he, hf]
  have hfind : (p.mapCatEntry song f).catEntry n = (p.catEntry n).map fun e => if e.song == song then f e else e := by
    rw [Part.catEntry, Part.mapCatEntry, List.find?_map, hsong]
    rfl
  rw [hfind]
  cases he : p.catEntry n with
  | none => simp
  | some e =>
    have hn : e.song = n := by simpa using List.find?_some he
    by_cases h : n = song <;> simp [hn, h]

/-- R10: beside the book and the POSITION flags, an add of the desk writes the song's pin count alone. -/
theorem Part.insertNew_desk (p : Part) {a : AddInput} (ho : a.origin = .desk) :
    (p.insertNew a).songView = p.songView ∧ (p.insertNew a).attn = p.attn ∧ (p.insertNew a).slots = p.slots ∧
      (p.insertNew a).line = p.line ∧ (p.insertNew a).catalog = (p.addPin a.song).catalog := by
  obtain ⟨q, hq⟩ : ∃ q, p.withEntries (insertWaiting p.book.entries
    (placement p.settings.orderMode p.book.entries a.origin a.front).2 (p.newEntry a)) = q := ⟨_, rfl⟩
  have hview : q.songView = p.songView := by rw [← hq, Part.withEntries_songView]
  have hattn : q.attn = p.attn := by rw [← hq, Part.withEntries_attn]
  have hslots : q.slots = p.slots := by rw [← hq, Part.withEntries_slots]
  have hline : q.line = p.line := by rw [← hq, Part.withEntries_line]
  have hcatalog : q.catalog = p.catalog := by rw [← hq, Part.withEntries_catalog]
  have heq : p.insertNew a = Part.addPin { q with book := { q.book with counter := nextTicket (p.newEntry a).ticket } } a.song := by
    unfold Part.insertNew
    dsimp only
    rw [hq]
    simp only [ho, Part.mapLive]
  rw [heq]
  refine ⟨hview, hattn, hslots, hline, ?_⟩
  simp only [Part.addPin, Part.mapCatEntry, hcatalog]

theorem Part.insertNew_desk_catEntry (p : Part) {a : AddInput} (ho : a.origin = .desk) (song : Nat) :
    (p.insertNew a).catEntry song =
      if song = a.song then (p.catEntry song).map fun c => { c with pins := c.pins + 1 } else p.catEntry song := by
  obtain ⟨-, -, -, -, hcatalog⟩ := p.insertNew_desk ho
  have hcat : (p.insertNew a).catEntry song = (p.addPin a.song).catEntry song := by rw [Part.catEntry, Part.catEntry, hcatalog]
  rw [hcat]
  exact Part.catEntry_mapCatEntry (f := fun c => { c with pins := c.pins + 1 }) (fun _ => rfl) song

theorem Part.inRange_of_accepted {p : Part} {a : AddInput} (h : p.addCheck a = none) : a.inRange := by
  by_contra hout
  rw [Part.addCheck_out_of_range hout] at h
  cases h

/-- R10: the position an accepted add answers. -/
theorem Part.insertNew_position {p : Part} (hwf : p.book.wf) {a : AddInput} (h : p.addCheck a = none) :
    positionOf (p.insertNew a).book.entries (issueTicket p.book) =
      some ((placement p.settings.orderMode p.book.entries a.origin a.front).2 + 1) := by
  obtain ⟨-, hnodup, -, hcounter⟩ := hwf
  obtain ⟨hfresh, -⟩ := issueTicket_spec hcounter (Part.room_of_accepted h)
  rw [Part.insertNew_book]
  exact positionOf_insertWaiting (e := p.newEntry a) rfl (placement_le _ _ _ _) hnodup hfresh

/-- Settles O20. -/
theorem addRequestAddsEntry : Obligations.AddRequestAddsEntry := by
  rintro tag params a s h hwf ha input rfl hcheck place rfl
  have hadd := Part.add_of_accepted hcheck
  rw [Part.insertNew_position hwf hcheck] at hadd
  obtain ⟨hview, hattn, hslots, hline, -⟩ := s.part.insertNew_desk (a := ⟨.desk, a.song, a.singers, a.key, a.tempo, a.front⟩) rfl
  have hcat := s.part.insertNew_desk_catEntry (a := ⟨.desk, a.song, a.singers, a.key, a.tempo, a.front⟩) rfl
  obtain ⟨-, -, hsingers, -⟩ := Part.inRange_of_accepted hcheck
  have hbook := s.part.insertNew_book ⟨.desk, a.song, a.singers, a.key, a.tempo, a.front⟩
  simp only [Part.songView, Song.mk.injEq] at hview
  obtain ⟨hset, -, -, -, hlib, -, hplay, -, hlyric, -, hscorer⟩ := hview
  refine ⟨s.part.insertNew ⟨.desk, a.song, a.singers, a.key, a.tempo, a.front⟩,
    exec_okThenPromote (body := cmdAddRequest params) (fun _ => rfl) h ?_, ?_, ?_, fun c hc => ?_, fun song hne => ?_, hattn, hslots, hplay,
    hlib, hset, hline, hscorer, hlyric⟩
  · simp only [cmdAddRequest, ha, withForm_some, hadd, Option.getD_some]
  · rw [hbook]
    simp only [Part.newEntry, seatsFor_desk hsingers]
  · rw [hbook]
  · rw [hcat, if_pos rfl, hc]
    rfl
  · rw [hcat, if_neg hne]

end Sys2Proof.Machine
end

