-- ==== Sys2Proof/Proofs/BookCommands.lean ====
section
/-! PROOFS. Proofs/BookCommands.lean: CANCEL, EDIT and PLACE REQUEST (O22, O23, O24). -/

namespace Sys2Proof.Machine

/-! ### The book under the play context's invariant (R1, R111) -/

theorem Part.cueWf.tail_waiting {p : Part} (h : p.cueWf) : ∀ x ∈ p.book.entries.drop 1, x.state = .waiting := by
  obtain ⟨-, -, hfirst⟩ := h
  intro x hx
  cases hp : p.play.entry with
  | none =>
    rw [hp] at hfirst
    exact hfirst x (List.mem_of_mem_drop hx)
  | some ticket =>
    rw [hp] at hfirst
    obtain ⟨e, rest, hb, -, hw, -⟩ := hfirst
    rw [hb] at hx
    exact hw x hx

/-- The live entry that is not WAITING stands first, and the play context holds it and its song. -/
structure Part.holds (p : Part) (e : Entry) (rest : List Entry) (song : HeldSong) : Prop where
  entries : p.book.entries = e :: rest
  waiting : ∀ x ∈ rest, x.state = .waiting
  entry : p.play.entry = some e.ticket
  song : p.play.song = some song
  gap : p.play.gap = none
  state : p.play.state ≠ .idle ∧ p.play.state ≠ .gap
  mark : e.state = if p.play.state = .staging ∨ p.play.state = .holding then .cued else .playing

theorem Part.cueWf.holds_of_entry {p : Part} (h : p.cueWf) {ticket : Nat} (hp : p.play.entry = some ticket) :
    ∃ e rest song, p.holds e rest song ∧ e.ticket = ticket := by
  obtain ⟨⟨hentry, hsong, -, hgap⟩, -, hfirst⟩ := h
  rw [hp] at hfirst hentry hsong
  obtain ⟨e, rest, hb, rfl, hw, hmark⟩ := hfirst
  obtain ⟨song, hs⟩ := Option.isSome_iff_exists.mp hsong
  obtain ⟨hidle, hnogap⟩ := hentry.mp rfl
  have hg : p.play.gap = none := by
    rw [← Option.not_isSome_iff_eq_none]
    exact fun hc => hnogap (hgap.mp hc)
  exact ⟨e, rest, song, ⟨hb, hw, hp, hs, hg, ⟨hidle, hnogap⟩, hmark⟩, rfl⟩

theorem Part.entry_mem {p : Part} {ticket : Nat} {e : Entry} (h : p.entry ticket = some e) : e ∈ p.book.entries ∧ e.ticket = ticket :=
  ⟨List.mem_of_find?_eq_some h, by simpa using List.find?_some h⟩

theorem Part.cueWf.holds_of_not_waiting {p : Part} (h : p.cueWf) {e : Entry} (he : e ∈ p.book.entries) (hs : e.state ≠ .waiting) :
    ∃ rest song, p.holds e rest song := by
  cases hp : p.play.entry with
  | none =>
    obtain ⟨-, -, hfirst⟩ := h
    rw [hp] at hfirst
    exact absurd (hfirst e he) hs
  | some ticket =>
    obtain ⟨x, rest, song, hx, -⟩ := h.holds_of_entry hp
    rw [hx.entries] at he
    rcases List.mem_cons.mp he with rfl | hrest
    · exact ⟨rest, song, hx⟩
    · exact absurd (hx.waiting e hrest) hs

/-! ### CANCEL REQUEST (R14, R17, R121, R131) -/

theorem Part.strike_of_entry {p : Part} {e : Entry} (h : p.entry e.ticket = some e) (reason : StrikeReason) (quiet : Bool) :
    p.strike e.ticket reason quiet = p.strikeEntry e reason quiet := by
  simp only [Part.strike, h]

theorem Part.strikeEntry_attn_quiet (p : Part) (e : Entry) (reason : StrikeReason) : (p.strikeEntry e reason true).attn = p.attn := by
  have hpending := p.strikeEntry_pending e reason true
  have hmask : (p.strikeEntry e reason true).attn.unmasked = p.attn.unmasked := congrArg Song.unmasked (p.strikeEntry_songView e reason true)
  rw [if_pos rfl] at hpending
  exact congrArg₂ Attention.mk hpending hmask

/-- R112, R113: where the play context goes when GAP is loaded. -/
theorem Part.loadGap_fields (p : Part) :
    p.loadGap.play.state = (if p.settings.gapTime = 0 then .idle else .gap) ∧ p.loadGap.play.entry = p.play.entry ∧
      p.loadGap.book = p.book ∧ p.loadGap.attn = p.attn ∧ p.loadGap.scorer = p.scorer := by
  unfold Part.loadGap
  split <;> exact ⟨rfl, rfl, rfl, rfl, rfl⟩

/-- R121: a CUED entry is struck CANCELLED or SKIPPED. -/
theorem Part.cueStrike_gap {p : Part} {e : Entry} {rest : List Entry} {song : HeldSong} (h : p.holds e rest song) {reason : StrikeReason}
    (hr : reason = .cancelled ∨ reason = .skipped) (quiet : Bool) :
    (p.cueStrike reason quiet).book = { p.book with
      entries := withoutTicket p.book.entries e.ticket
      lastStrike := some { ticket := e.ticket, song := e.song, origin := e.origin, reason }
      strikeCount := satInc 255 p.book.strikeCount } ∧
    (p.cueStrike reason quiet).play.state = (if p.settings.gapTime = 0 then .idle else .gap) ∧
    (p.cueStrike reason quiet).play.entry = none ∧
    (p.cueStrike reason quiet).attn.pending = { p.attn.pending with play := true, book := p.attn.pending.book || !quiet } := by
  have hview := Part.cueStrike_roomView p e song reason quiet h.entry h.song (Part.entry_of_first h.entries)
  have hafter : (p.uncued e song.song reason quiet).afterCueStrike reason = (p.uncued e song.song reason quiet).loadGap.raise .play := by
    rcases hr with rfl | rfl <;> rfl
  rw [hafter] at hview
  obtain ⟨hset, -, -, hattn, -, hplay, -, -, -, -, hbook, -⟩ := Part.roomView_fields hview
  obtain ⟨gstate, gentry, gbook, gattn, -⟩ := (p.uncued e song.song reason quiet).loadGap_fields
  have uset : (p.uncued e song.song reason quiet).settings = p.settings := congrArg Song.settings (p.strikeEntry_songView e reason quiet)
  have ubook : (p.uncued e song.song reason quiet).book = (p.strikeEntry e reason quiet).book := rfl
  have uattn : (p.uncued e song.song reason quiet).attn = (p.strikeEntry e reason quiet).attn := rfl
  refine ⟨?_, ?_, ?_, ?_⟩
  · rw [hbook, Part.raise_book, gbook, ubook, Part.strikeEntry_book]
  · rw [hplay, Part.raise_play, gstate, uset]
  · rw [hplay, Part.raise_play, gentry]
    rfl
  · rw [hattn, Part.raise_attn, gattn, uattn, Part.strikeEntry_pending]
    cases quiet <;> simp [SourceSet.put]

/-- R131: the end of the song the play context holds. -/
theorem Part.endSong_gap {p : Part} {e : Entry} {rest : List Entry} {song : HeldSong} (h : p.holds e rest song) (kind : EndKind) :
    (p.endSong kind).book = { p.book with entries := withoutTicket p.book.entries e.ticket } ∧
    (p.endSong kind).play.state = (if p.settings.gapTime = 0 then .idle else .gap) ∧
    (p.endSong kind).play.entry = none ∧
    (p.endSong kind).attn.pending = { p.attn.pending with play := true, score := true, book := true } ∧
    (p.endSong kind).scorer.result = (p.writeResult e.ticket song.song song.blk.edition kind).scorer.result := by
  have hheld : p.heldBookEntry = some e := by simp [Part.heldBookEntry, h.entry, Part.entry_of_first h.entries]
  obtain ⟨lyric, hview⟩ := Part.endSong_roomView p e song kind hheld h.song
  obtain ⟨-, -, -, hattn, -, hplay, -, -, -, hscorer, hbook, -⟩ := Part.roomView_fields hview
  obtain ⟨gstate, gentry, gbook, gattn, gscorer⟩ := Part.loadGap_fields { p.unplayed e song kind with lyric := lyric }
  refine ⟨?_, ?_, ?_, ?_, ?_⟩
  · rw [hbook, Part.raise_book, gbook]
    exact p.unplayed_book e song kind
  · rw [hplay, Part.raise_play, gstate]
    exact congrArg (fun s : Settings => if s.gapTime = 0 then PlayState.idle else PlayState.gap) (p.unplayed_settings e song kind)
  · rw [hplay, Part.raise_play, gentry]
    exact congrArg Play.entry (p.unplayed_play e song kind)
  · rw [hattn, Part.raise_attn, gattn]
    exact congrArg (fun f : SourceSet => f.put .play true) (p.unplayed_pending e song kind)
  · rw [hscorer, Part.raise_scorer, gscorer]
    exact p.unplayed_result e song kind

theorem Part.writeResult_result (p : Part) (ticket song edition : Nat) (kind : EndKind) :
    ((p.writeResult ticket song edition kind).scorer.result.map fun r => (r.ticket, r.kind)) = some (ticket, kind) := rfl

/-- Settles O22. -/
theorem cancelRequestByState : Obligations.CancelRequestByState := by
  intro tag b0 b1 s h hc
  have hoffers : Instr.offers (.cancelRequest tag [b0, b1]) tag (cmdCancelRequest [b0, b1]) := fun _ => rfl
  have hform : u16Value [b0, b1] = some (ofU16 b0 b1) := rfl
  refine ⟨fun hnone => exec_refused hoffers h ?_, fun e he => ⟨s.part.cancelEntry e, exec_okThenPromote hoffers h ?_, ?_⟩⟩
  · simp only [cmdCancelRequest, hform, withForm_some, hnone]
  · simp only [cmdCancelRequest, hform, withForm_some, he]
  obtain ⟨hmem, hticket⟩ := Part.entry_mem he
  rw [← hticket] at he
  cases hs : e.state with
  | waiting =>
    have hcancel : s.part.cancelEntry e = s.part.strikeEntry e .cancelled true := by
      simp only [Part.cancelEntry, hs, Part.strike_of_entry he]
    rw [hcancel]
    have hbook := s.part.strikeEntry_book e .cancelled true
    refine ⟨by rw [hbook], fun _ => ⟨congrArg Song.play (s.part.strikeEntry_songView e .cancelled true), Part.strikeEntry_attn_quiet _ _ _⟩,
      fun _ => (by rw [hbook]; exact ⟨rfl, rfl⟩), fun hcue => (by cases hcue), fun hplaying => (by cases hplaying)⟩
  | cued =>
    have hcancel : s.part.cancelEntry e = s.part.cueStrike .cancelled true := by simp only [Part.cancelEntry, hs]
    obtain ⟨rest, song, hh⟩ := hc.holds_of_not_waiting hmem (by simp [hs])
    obtain ⟨hbook, hstate, hentry, hpending⟩ := Part.cueStrike_gap hh (.inl rfl) true
    rw [hcancel]
    refine ⟨by rw [hbook], fun hw => (by cases hw), fun _ => (by rw [hbook]; exact ⟨rfl, rfl⟩), fun _ => ⟨hstate, hentry, ?_⟩,
      fun hplaying => (by cases hplaying)⟩
    rw [hpending]
    simp
  | playing =>
    have hcancel : s.part.cancelEntry e = s.part.endSong .skipped := by simp only [Part.cancelEntry, hs]
    obtain ⟨rest, song, hh⟩ := hc.holds_of_not_waiting hmem (by simp [hs])
    obtain ⟨hbook, hstate, hentry, hpending, hresult⟩ := Part.endSong_gap hh .skipped
    rw [hcancel]
    refine ⟨by rw [hbook], fun hw => (by cases hw), fun hw => (by rcases hw with hw | hw <;> cases hw), fun hw => (by cases hw),
      fun _ => ⟨hstate, hentry, by rw [hbook], by rw [hbook], ?_, hpending⟩⟩
    rw [hresult, Part.writeResult_result]

/-! ### EDIT REQUEST (R15) -/

theorem editInRange_iff (a : EditParams) :
    editInRange a = true ↔
      (a.key.isSome = true ∨ a.tempo.isSome = true ∨ a.singers.isSome = true) ∧
        (∀ k, a.key = some k → -7 ≤ k ∧ k ≤ 7) ∧ (∀ t, a.tempo = some t → -5 ≤ t ∧ t ≤ 5) ∧
        ∀ n, a.singers = some n → 1 ≤ n ∧ n ≤ 4 := by
  simp only [editInRange, Bool.and_eq_true, Bool.or_eq_true, Option.all_eq_true, keyInRange, tempoInRange, decide_eq_true_eq]
  tauto

/-- R15: every present field of an edit written to an entry. -/
def EditParams.write (a : EditParams) (x : Entry) : Entry :=
  { x with key := a.key.getD x.key, tempo := a.tempo.getD x.tempo, singers := a.singers.getD x.singers,
           seats := match a.singers with
             | none => x.seats
             | some n => x.seats.take n ++ List.replicate (n - x.seats.length) none }

theorem EditParams.write_of_no_key {a : EditParams} (h : a.key = none) (x : Entry) : editEntry a x = a.write x := by
  unfold editEntry EditParams.write
  rw [h]
  rfl

theorem EditParams.write_of_key {a : EditParams} {k : Int} (h : a.key = some k) (x : Entry) : { editEntry a x with key := k } = a.write x := by
  unfold editEntry EditParams.write
  rw [h]
  rfl

theorem Part.applyEdit_eq (p : Part) (a : EditParams) :
    p.applyEdit a = { p with
      book := { p.book with entries := p.book.entries.map fun x => if x.ticket = a.ticket then a.write x else x }
      play := if p.play.entry = some a.ticket then { p.play with key := a.key.getD p.play.key } else p.play } := by
  unfold Part.applyEdit
  cases hk : a.key with
  | none =>
    have hplay : (if p.play.entry = some a.ticket then { p.play with key := p.play.key } else p.play) = p.play := ite_self _
    have hmap : (p.book.entries.map fun e => if e.ticket == a.ticket then editEntry a e else e) =
        p.book.entries.map fun x => if x.ticket = a.ticket then a.write x else x :=
      List.map_congr_left fun x _ => by by_cases hx : x.ticket = a.ticket <;> simp [hx, EditParams.write_of_no_key hk]
    simp only [Option.getD_none, hplay]
    rw [← hmap]
    rfl
  | some k =>
    have hmap : ((p.book.entries.map fun e => if e.ticket == a.ticket then editEntry a e else e).map fun e =>
        if e.ticket == a.ticket then { e with key := k } else e) =
        p.book.entries.map fun x => if x.ticket = a.ticket then a.write x else x := by
      rw [List.map_map]
      refine List.map_congr_left fun x _ => ?_
      have ht : (editEntry a x).ticket = x.ticket := rfl
      by_cases hx : x.ticket = a.ticket <;> simp [hx, ht, ← EditParams.write_of_key hk]
    rw [← hmap]
    by_cases hp : p.play.entry = some a.ticket
    · simp only [Part.writeKey, Part.mapEntry, hp, if_true, Option.getD_some]
    · simp only [Part.writeKey, Part.mapEntry, hp, if_false]

/-- Settles O23. -/
theorem editRequestWritesFields : Obligations.EditRequestWritesFields := by
  intro tag params a s h ha
  have hoffers : Instr.offers (.editRequest tag params) tag (cmdEditRequest params) := fun _ => rfl
  have hcmd : cmdEditRequest params s.part = (if editInRange a then
      match s.part.entry a.ticket with
      | none => (s.part, .refused .noSuchTicket)
      | some e =>
        if (a.tempo.isSome || a.singers.isSome) && e.state != .waiting then (s.part, .refused .tooLate)
        else (s.part.applyEdit a, .ok [])
    else (s.part, .refused .badForm)) := by
    rw [cmdEditRequest, ha]
    rfl
  refine ⟨fun hr => exec_refused hoffers h ?_, fun hr hnone => exec_refused hoffers h ?_, fun e hr he => ⟨fun hf hs => ?_, fun hok => ?_⟩,
    editInRange_iff a⟩
  · rw [hcmd, hr]
    rfl
  · rw [hcmd, hr, hnone]
    rfl
  · refine exec_refused hoffers h ?_
    have hlate : ((a.tempo.isSome || a.singers.isSome) && e.state != .waiting) = true := by simpa [hs] using hf
    rw [hcmd, hr, he]
    simp only [hlate, if_true]
  · have hintime : ((a.tempo.isSome || a.singers.isSome) && e.state != .waiting) = false := by
      rcases hok with ⟨ht, hn⟩ | hw
      · simp [ht, hn]
      · simp [hw]
    refine exec_ok hoffers h ?_
    rw [hcmd, hr, he]
    simp only [hintime, if_true, Bool.false_eq_true, if_false, Part.applyEdit_eq]
    rfl

/-! ### PLACE REQUEST (R16) -/

theorem perm_withoutTicket {entries : List Entry} (hn : (entries.map Entry.ticket).Nodup) {e : Entry} (he : e ∈ entries) :
    entries.Perm (e :: withoutTicket entries e.ticket) := by
  have hsplit := (List.filter_append_perm (fun x : Entry => x.ticket == e.ticket) entries).symm
  have hself : entries.filter (fun x => x.ticket == e.ticket) = [e] := by
    have hnodup : (entries.filter fun x => x.ticket == e.ticket).Nodup := hn.of_map.filter _
    refine List.perm_singleton.mp ((List.perm_ext_iff_of_nodup hnodup (List.nodup_singleton e)).mpr fun x => ?_)
    rw [List.mem_filter, List.mem_singleton, beq_iff_eq]
    exact ⟨fun ⟨hx, ht⟩ => entry_eq_of_ticket hn hx he ht, fun hx => by rw [hx]; exact ⟨he, rfl⟩⟩
  have hothers : (entries.filter fun x => !(x.ticket == e.ticket)) = withoutTicket entries e.ticket := rfl
  rwa [hself, hothers] at hsplit

theorem length_waitingEntries_withoutTicket {entries : List Entry} (hn : (entries.map Entry.ticket).Nodup) {e : Entry} (he : e ∈ entries)
    (hw : e.state = .waiting) : (waitingEntries entries).length = (waitingEntries (withoutTicket entries e.ticket)).length + 1 := by
  have hperm := ((perm_withoutTicket hn he).filter fun x => x.state == .waiting).length_eq
  simpa [waitingEntries, hw] using hperm

theorem tail_waiting_withoutTicket {entries : List Entry} (h : ∀ x ∈ entries.drop 1, x.state = .waiting) (ticket : Nat) :
    ∀ x ∈ (withoutTicket entries ticket).drop 1, x.state = .waiting := by
  cases entries with
  | nil => exact h
  | cons a rest =>
    intro x hx
    refine h x ?_
    unfold withoutTicket at hx
    rw [List.filter_cons] at hx
    split at hx
    · exact List.mem_of_mem_filter hx
    · exact List.mem_of_mem_filter (List.mem_of_mem_drop hx)

theorem withoutTicket_insertWaiting {others : List Entry} (h : ∀ x ∈ others.drop 1, x.state = .waiting) {e : Entry}
    (hfresh : ∀ x ∈ others, x.ticket ≠ e.ticket) (n : Nat) : withoutTicket (insertWaiting others n e) e.ticket = others := by
  have hkeep : ∀ l : List Entry, (∀ x ∈ l, x ∈ others) → withoutTicket l e.ticket = l := fun l hl =>
    List.filter_eq_self.mpr fun x hx => by simpa using hfresh x (hl x hx)
  have hwaiting : ∀ x ∈ waitingEntries others, x ∈ others := fun x hx => List.mem_of_mem_filter hx
  have happend : ∀ a b : List Entry, withoutTicket (a ++ b) e.ticket = withoutTicket a e.ticket ++ withoutTicket b e.ticket :=
    fun a b => List.filter_append ..
  have hself : withoutTicket [e] e.ticket = [] := by simp [withoutTicket]
  rw [insertWaiting, happend, happend, happend, hself, hkeep _ fun x hx => List.mem_of_mem_filter hx,
    hkeep _ fun x hx => hwaiting x (List.mem_of_mem_take hx), hkeep _ fun x hx => hwaiting x (List.mem_of_mem_drop hx)]
  rw [List.append_nil, List.append_assoc, List.take_append_drop]
  exact filter_not_waiting_append_waitingEntries h

/-- R16: the moved entry takes the round of its new neighbour. -/
theorem neighbour_round {others : List Entry} {n : Nat} {e : Entry} (hw : e.state = .waiting) (h1 : 1 ≤ n)
    (hn : n - 1 ≤ (waitingEntries others).length) (hround : e.round = (neighbourRound (waitingEntries others) n).getD e.round) {x y : Entry}
    (hx : (waitingEntries (insertWaiting others (n - 1) e))[n - 1]? = some x)
    (hy : (waitingEntries (insertWaiting others (n - 1) e))[if n = 1 then 1 else n - 2]? = some y) : x.round = y.round := by
  rw [getElem?_insertWaiting others hw hn] at hx
  cases hx
  rw [waitingEntries_insertWaiting others (n - 1) hw] at hy
  by_cases hone : n = 1
  · subst hone
    simp only [if_true, Nat.sub_self, List.take_zero, List.nil_append, List.drop_zero, List.getElem?_cons_succ] at hy
    rw [hround]
    simp [neighbourRound, List.head?_eq_getElem?, hy]
  · rw [if_neg hone, List.getElem?_append_left (by rw [List.length_take_of_le hn]; omega), List.getElem?_take_of_lt (by omega)] at hy
    rw [hround]
    simp [neighbourRound, hy, show 1 < n by omega]

/-- Settles O24. -/
theorem placeRequestMovesEntry : Obligations.PlaceRequestMovesEntry := by
  intro tag b0 b1 target s h hc
  have hoffers : Instr.offers (.placeRequest tag [b0, b1, target]) tag (cmdPlaceRequest [b0, b1, target]) := fun _ => rfl
  have hcmd : cmdPlaceRequest [b0, b1, target] s.part =
      (if target.toNat < 1 || 64 < target.toNat then (s.part, .refused .badForm)
      else
        match s.part.entry (ofU16 b0 b1) with
        | none => (s.part, .refused .noSuchTicket)
        | some e =>
          if e.state != .waiting then (s.part, .refused .tooLate)
          else if (waitingEntries s.part.book.entries).length < target.toNat then (s.part, .refused .badForm)
          else if positionOf s.part.book.entries (ofU16 b0 b1) = some target.toNat then (s.part, .ok (u8 target.toNat))
          else (s.part.placeEntry e target.toNat, .ok (u8 target.toNat))) := rfl
  refine ⟨fun hout => exec_refused hoffers h ?_, fun h1 h64 => ?_⟩
  · rw [hcmd, if_pos (by simpa using hout)]
  have hin : ¬((target.toNat < 1 || 64 < target.toNat) = true) := by simp; omega
  rw [if_neg hin] at hcmd
  refine ⟨fun hnone => exec_refused hoffers h (by rw [hcmd, hnone]), fun e he => ?_⟩
  obtain ⟨hmem, hticket⟩ := Part.entry_mem he
  rw [he, ← hticket] at hcmd
  simp only [bne_iff_ne, ne_eq] at hcmd
  refine ⟨fun hs => exec_refused hoffers h ?_, fun hs hlen => exec_refused hoffers h ?_, fun hs hpos => ?_, fun hs hlen => ?_⟩
  · rw [hcmd, if_pos hs]
  · rw [hcmd, if_neg (not_not.mpr hs), if_pos hlen]
  · obtain ⟨i, hi, hpos'⟩ : ∃ i, (waitingEntries s.part.book.entries)[i]? = some e ∧ positionOf s.part.book.entries e.ticket = some (i + 1) := by
      have hw : e ∈ waitingEntries s.part.book.entries := List.mem_filter.mpr ⟨hmem, by simp [hs]⟩
      obtain ⟨i, hi⟩ := List.mem_iff_getElem?.mp hw
      exact ⟨i, hi, positionOf_waiting hc.2.1 hs hi⟩
    have hlt := (List.getElem?_eq_some_iff.mp hi).1
    rw [hpos] at hpos'
    have htarget : target.toNat = i + 1 := Option.some.inj hpos'
    refine exec_ok hoffers h ?_
    rw [hcmd, if_neg (not_not.mpr hs), if_neg (by omega), if_pos hpos]
  · by_cases hpos : positionOf s.part.book.entries e.ticket = some target.toNat
    · refine ⟨s.part, exec_ok hoffers h ?_, hpos, rfl, rfl, rfl, fun hne => absurd hpos hne⟩
      rw [hcmd, if_neg (not_not.mpr hs), if_neg (by omega), if_pos hpos]
    · refine ⟨s.part.placeEntry e target.toNat, exec_ok hoffers h ?_, ?_⟩
      · rw [hcmd, if_neg (not_not.mpr hs), if_neg (by omega), if_neg hpos]
      obtain ⟨others, hothers⟩ : ∃ l, withoutTicket s.part.book.entries e.ticket = l := ⟨_, rfl⟩
      obtain ⟨e', he'⟩ : ∃ x, ({ e with round := (neighbourRound (waitingEntries others) target.toNat).getD e.round } : Entry) = x := ⟨_, rfl⟩
      have hplace : s.part.placeEntry e target.toNat = s.part.withEntries (insertWaiting others (target.toNat - 1) e') := by
        rw [← he', ← hothers]
        rfl
      have hticket' : e'.ticket = e.ticket := by rw [← he']
      have hw' : e'.state = .waiting := by rw [← he']; exact hs
      have hnodup : (others.map Entry.ticket).Nodup := hothers ▸ nodup_withoutTicket hc.2.1 e.ticket
      have hfresh : ∀ x ∈ others, x.ticket ≠ e'.ticket := by
        intro x hx
        rw [← hothers] at hx
        rw [hticket']
        simpa using (List.mem_filter.mp hx).2
      have hroom : target.toNat - 1 ≤ (waitingEntries others).length := by
        have hcount := length_waitingEntries_withoutTicket hc.2.1 hmem hs
        rw [hothers] at hcount
        omega
      rw [hplace, Part.withEntries_book, Part.withEntries_attn]
      refine ⟨?_, ?_, rfl, congrArg Song.play (s.part.withEntries_songView _), fun _ x y hx hy => ?_⟩
      · rw [← hticket', positionOf_insertWaiting hw' hroom hnodup hfresh]
        congr 1
        omega
      · rw [← hticket', hticket', hothers, ← hticket']
        exact withoutTicket_insertWaiting (hothers ▸ tail_waiting_withoutTicket hc.tail_waiting e.ticket) hfresh _
      · refine neighbour_round hw' h1 hroom ?_ hx hy
        rw [← he']
        cases neighbourRound (waitingEntries others) target.toNat <;> rfl

end Sys2Proof.Machine
end

