-- ==== Sys2Proof/Proofs/LineFrames.lean ====
section
/-! PROOFS. Proofs/LineFrames.lean: the characters of a frame, the frames that end in a turn, and misses (O30, O31). -/

namespace Sys2Proof.Machine

/-! ### Spoiled characters (R27) -/

theorem Part.countSpoiled_of_good (p : Part) {c : RxChar} (h : spoiled c = false) : p.countSpoiled c = p := by
  simp only [spoiled, Bool.or_eq_false_iff] at h
  obtain ⟨hframing, hparity⟩ := h
  unfold Part.countSpoiled
  split <;> simp [hframing, hparity]

theorem Part.foldl_countSpoiled_of_good (p : Part) {chars : List RxChar} (h : ∀ c ∈ chars, spoiled c = false) :
    chars.foldl Part.countSpoiled p = p := by
  induction chars with
  | nil => rfl
  | cons c cs ih =>
    rw [List.foldl_cons, p.countSpoiled_of_good (h c (by simp))]
    exact ih fun x hx => h x (by simp [hx])

/-- A step that writes the slots alone. -/
def Part.stepsSlots (p q : Part) : Prop := q = { p with slots := q.slots }

theorem Part.stepsSlots.trans {p q r : Part} (h : p.stepsSlots q) (h' : q.stepsSlots r) : p.stepsSlots r := by
  unfold Part.stepsSlots at *
  rw [h', h]

theorem Part.stepsSlots_refl (p : Part) : p.stepsSlots p := rfl

theorem Part.stepsSlots.line {p q : Part} (h : p.stepsSlots q) : q.line = p.line := by
  rw [show q = { p with slots := q.slots } from h]
theorem Part.stepsSlots.stores {p q : Part} (h : p.stepsSlots q) : q.stores = p.stores := by
  rw [show q = { p with slots := q.slots } from h]
theorem Part.stepsSlots.book {p q : Part} (h : p.stepsSlots q) : q.book = p.book := by
  rw [show q = { p with slots := q.slots } from h]
theorem Part.stepsSlots.attn {p q : Part} (h : p.stepsSlots q) : q.attn = p.attn := by
  rw [show q = { p with slots := q.slots } from h]
theorem Part.stepsSlots.settings {p q : Part} (h : p.stepsSlots q) : q.settings = p.settings := by
  rw [show q = { p with slots := q.slots } from h]

/-- R27: a spoiled character is counted in the slots alone. -/
theorem Part.countSpoiled_stepsSlots (p : Part) (c : RxChar) : p.stepsSlots (p.countSpoiled c) := by
  unfold Part.countSpoiled
  (repeat' split) <;> rfl

theorem Part.foldl_countSpoiled_stepsSlots (p : Part) (chars : List RxChar) : p.stepsSlots (chars.foldl Part.countSpoiled p) := by
  induction chars generalizing p with
  | nil => exact p.stepsSlots_refl
  | cons c cs ih => exact (p.countSpoiled_stepsSlots c).trans (ih _)

@[simp] theorem Part.countSpoiled_line (p : Part) (c : RxChar) : (p.countSpoiled c).line = p.line :=
  (p.countSpoiled_stepsSlots c).line

@[simp] theorem Part.foldl_countSpoiled_line (p : Part) (chars : List RxChar) :
    (chars.foldl Part.countSpoiled p).line = p.line := (p.foldl_countSpoiled_stepsSlots chars).line

/-- The part with other characters of the frame being received. -/
def Part.withRx (p : Part) (rx : List RxChar) : Part := { p with line := { p.line with rx } }

@[simp] theorem Part.withRx_rx (p : Part) (rx : List RxChar) : (p.withRx rx).line.rx = rx := rfl
@[simp] theorem Part.withRx_withRx (p : Part) (rx rx' : List RxChar) : (p.withRx rx).withRx rx' = p.withRx rx' := rfl

theorem Part.withRx_self {p : Part} {rx : List RxChar} (h : p.line.rx = rx) : p.withRx rx = p := by
  subst h
  rfl

/-- R27: the count reads the turn in progress, not the frame being received. -/
theorem Part.countSpoiled_withRx (p : Part) (rx : List RxChar) (c : RxChar) :
    (p.withRx rx).countSpoiled c = (p.countSpoiled c).withRx rx := by
  have hturn : (p.withRx rx).line.turn = p.line.turn := rfl
  unfold Part.countSpoiled
  rw [hturn]
  cases p.line.turn <;> cases framingError c <;> cases parityError c <;> rfl

theorem Part.foldl_countSpoiled_withRx (p : Part) (rx : List RxChar) (chars : List RxChar) :
    chars.foldl Part.countSpoiled (p.withRx rx) = (chars.foldl Part.countSpoiled p).withRx rx := by
  induction chars generalizing p with
  | nil => rfl
  | cons c cs ih => rw [List.foldl_cons, List.foldl_cons, p.countSpoiled_withRx, ih]

/-- R27: what a character adds to the error counts of the slot being served. -/
def Slot.countSpoiled (x : Slot) (c : RxChar) : Slot :=
  if framingError c then { x with framing := satInc 255 x.framing }
  else if parityError c then { x with parity := satInc 255 x.parity } else x

/-- The parts that differ in the error counts of one slot. -/
structure Part.spoilt (p : Part) (slot : Nat) (x : Slot) (q : Part) : Prop where
  only : p.stepsSlots q
  length : q.slots.length = p.slots.length
  ownSlot : q.slot slot = x
  others : ∀ n, 1 ≤ n → n ≠ slot → q.slot n = p.slot n

theorem Part.spoilt_refl (p : Part) (slot : Nat) : p.spoilt slot (p.slot slot) p := ⟨rfl, rfl, rfl, fun _ _ _ => rfl⟩

theorem Part.spoilt.trans {p q r : Part} {slot : Nat} {x y : Slot} (h : p.spoilt slot x q) (h' : q.spoilt slot y r) :
    p.spoilt slot y r := by
  exact ⟨h.only.trans h'.only, h'.length.trans h.length, h'.ownSlot,
    fun n hn hne => (h'.others n hn hne).trans (h.others n hn hne)⟩

theorem Part.mapSlot_spoilt {p : Part} {slot : Nat} (hl : p.slots.length = 16) (h1 : 1 ≤ slot) (h16 : slot ≤ 16) (f : Slot → Slot) :
    p.spoilt slot (f (p.slot slot)) (p.mapSlot slot f) :=
  ⟨rfl, List.length_modify .., Part.slot_mapSlot_self f hl h1 h16, fun _ hn hne => p.slot_mapSlot_of_ne f hne h1 hn⟩

theorem Part.countSpoiled_spoilt {p : Part} {slot : Nat} {carried : Option Carried} (hturn : p.line.turn = .poll slot carried)
    (hl : p.slots.length = 16) (h1 : 1 ≤ slot) (h16 : slot ≤ 16) (c : RxChar) :
    p.spoilt slot ((p.slot slot).countSpoiled c) (p.countSpoiled c) := by
  simp only [Part.countSpoiled, Slot.countSpoiled, hturn]
  split
  · exact Part.mapSlot_spoilt hl h1 h16 fun x => { x with framing := satInc 255 x.framing }
  · split
    · exact Part.mapSlot_spoilt hl h1 h16 fun x => { x with parity := satInc 255 x.parity }
    · exact p.spoilt_refl slot

theorem Part.foldl_countSpoiled_spoilt {p : Part} {slot : Nat} {carried : Option Carried} (hturn : p.line.turn = .poll slot carried)
    (hl : p.slots.length = 16) (h1 : 1 ≤ slot) (h16 : slot ≤ 16) (chars : List RxChar) :
    p.spoilt slot (chars.foldl Slot.countSpoiled (p.slot slot)) (chars.foldl Part.countSpoiled p) := by
  induction chars generalizing p with
  | nil => exact p.spoilt_refl slot
  | cons c cs ih =>
    have hone := Part.countSpoiled_spoilt hturn hl h1 h16 c
    have hrest := ih (p := p.countSpoiled c) (by rw [p.countSpoiled_line, hturn]) (hone.length.trans hl)
    rw [hone.ownSlot] at hrest
    exact hone.trans hrest

/-- What the counts of spoiled characters and of check errors leave of a slot. -/
def Slot.beside (x : Slot) : SlotState × Nat × Nat := (x.state, x.misses, x.check)

@[simp] theorem Slot.countSpoiled_beside (x : Slot) (c : RxChar) : (x.countSpoiled c).beside = x.beside := by
  unfold Slot.countSpoiled
  (repeat' split) <;> rfl

theorem Slot.foldl_countSpoiled_beside (x : Slot) (chars : List RxChar) :
    (chars.foldl Slot.countSpoiled x).beside = x.beside := by
  induction chars generalizing x with
  | nil => rfl
  | cons c cs ih => rw [List.foldl_cons, ih, Slot.countSpoiled_beside]

/-! ### The characters of a frame (R32) -/

theorem Part.joinFrame_eq (p : Part) (c : RxChar) :
    p.joinFrame c = if 46 ≤ p.line.rx.length then ((p.countSpoiled c).withRx (p.line.rx ++ [c])).frameEnds
      else (p.countSpoiled c).withRx (p.line.rx ++ [c]) := by
  have hjoin : p.joinFrame c = if 47 ≤ ((p.countSpoiled c).line.rx ++ [c]).length
      then ((p.countSpoiled c).withRx ((p.countSpoiled c).line.rx ++ [c])).frameEnds
      else (p.countSpoiled c).withRx ((p.countSpoiled c).line.rx ++ [c]) := rfl
  rw [hjoin, p.countSpoiled_line, List.length_append, List.length_singleton]
  exact if_congr (by omega) rfl rfl

theorem Part.joinFrame_short {p : Part} (c : RxChar) (h : p.line.rx.length < 46) :
    p.joinFrame c = (p.countSpoiled c).withRx (p.line.rx ++ [c]) := by
  rw [p.joinFrame_eq, if_neg (by omega)]

theorem Part.joinFrame_full {p : Part} (c : RxChar) (h : p.line.rx.length = 46) :
    p.joinFrame c = ((p.countSpoiled c).withRx (p.line.rx ++ [c])).frameEnds := by
  rw [p.joinFrame_eq, if_pos (by omega)]

theorem Part.receiveChar_of_begun {p : Part} (c : RxChar) (h : p.line.rx ≠ []) : p.receiveChar c = p.joinFrame c := by
  unfold Part.receiveChar
  split
  · next hn => exact absurd hn h
  · rfl

theorem Part.receiveChar_first {p : Part} (c : RxChar) (hrx : p.line.rx = []) (hs : p.line.state = .running)
    (ht : p.sending = false) : p.receiveChar c = p.firstChar.joinFrame c := by
  unfold Part.receiveChar
  rw [hrx]
  exact if_pos ⟨hs, ht⟩

theorem Part.receiveChar_ignored {p : Part} (c : RxChar) (hrx : p.line.rx = [])
    (h : p.line.state ≠ .running ∨ p.line.tx.isSome = true) : p.receiveChar c = p := by
  unfold Part.receiveChar
  rw [hrx]
  refine if_neg fun ⟨hs, ht⟩ => ?_
  rcases h with h | h
  · exact h hs
  · simp [Part.sending, h, hrx] at ht

/-- R32: up to the 46th character a frame grows, and its spoiled characters are counted. -/
theorem Part.foldl_receiveChar_short {p : Part} {chars : List RxChar} (hrx : p.line.rx ≠ [])
    (hlen : p.line.rx.length + chars.length ≤ 46) :
    chars.foldl Part.receiveChar p = (chars.foldl Part.countSpoiled p).withRx (p.line.rx ++ chars) := by
  induction chars generalizing p with
  | nil =>
    rw [List.append_nil]
    rfl
  | cons c cs ih =>
    rw [List.length_cons] at hlen
    rw [List.foldl_cons, List.foldl_cons, Part.receiveChar_of_begun c hrx, Part.joinFrame_short c (by omega), ih]
    · rw [Part.foldl_countSpoiled_withRx, Part.withRx_withRx, Part.withRx_rx, List.append_assoc, List.singleton_append]
    · simp
    · rw [Part.withRx_rx, List.length_append, List.length_singleton]
      omega

/-- R32: the first characters of a frame, up to the 46th. -/
theorem Part.foldl_receiveChar_first {p : Part} {chars : List RxChar} (hrx : p.line.rx = []) (hs : p.line.state = .running)
    (ht : p.sending = false) (h1 : chars ≠ []) (h46 : chars.length ≤ 46) :
    chars.foldl Part.receiveChar p = (chars.foldl Part.countSpoiled p.firstChar).withRx chars := by
  obtain ⟨c, cs, rfl⟩ := List.exists_cons_of_ne_nil h1
  have hfirst : p.firstChar.line.rx = [] := hrx
  rw [List.length_cons] at h46
  rw [List.foldl_cons, List.foldl_cons, Part.receiveChar_first c hrx hs ht, Part.joinFrame_short c (by simp [hfirst]), hfirst,
    List.nil_append, Part.foldl_receiveChar_short (by simp) (by rw [Part.withRx_rx, List.length_singleton]; omega),
    Part.foldl_countSpoiled_withRx, Part.withRx_withRx, Part.withRx_rx, List.singleton_append]

/-- R32: the part that judges a frame: its characters are counted, and it is no longer being received. -/
def Part.collected (p : Part) (chars : List RxChar) : Part := chars.foldl Part.countSpoiled p.firstChar

/-- R32: how a frame that has ended is judged. -/
def Part.judged (p : Part) (chars : List RxChar) : Part :=
  match p.line.rxClass with
  | .byTurn => p.judgeByTurn chars
  | .late => p.countLate
  | .stray => p.countStray

theorem Part.frameEnds_eq (p : Part) : p.frameEnds = (p.withRx []).judged p.line.rx := by
  unfold Part.frameEnds Part.judged
  rfl

theorem Part.receiveGap_of_begun {p : Part} (h : p.line.rx ≠ []) : p.receiveGap = p.frameEnds := by
  unfold Part.receiveGap
  split
  · next hn => exact absurd hn h
  · rfl

theorem Part.receiveGap_of_none {p : Part} (h : p.line.rx = []) : p.receiveGap = p := by
  unfold Part.receiveGap
  rw [h]

/-- R32: a whole frame is judged once its last character, or the gap after it, has ended it. -/
theorem Part.receiveFrame_eq {p : Part} {chars : List RxChar} (hrx : p.line.rx = []) (hs : p.line.state = .running)
    (ht : p.sending = false) (h1 : 1 ≤ chars.length) (h47 : chars.length ≤ 47)
    (hfull : chars.length = 47 → ((p.collected chars).judged chars).line.rx = []) :
    p.receiveFrame chars = (p.collected chars).judged chars := by
  have hne : chars ≠ [] := List.ne_nil_of_length_pos h1
  have hempty : ∀ cs : List RxChar, (cs.foldl Part.countSpoiled p.firstChar).line.rx = [] := fun cs => by
    rw [Part.foldl_countSpoiled_line]
    exact hrx
  have hends : ((p.collected chars).withRx chars).frameEnds = (p.collected chars).judged chars := by
    rw [Part.frameEnds_eq, Part.withRx_withRx, Part.withRx_self (p := p.collected chars) (hempty chars), Part.withRx_rx]
  unfold Part.receiveFrame
  rw [hrx, List.length_nil, List.drop_zero]
  obtain hshort | hlong := Nat.lt_or_ge chars.length 47
  · rw [Part.foldl_receiveChar_first hrx hs ht hne (by omega), Part.receiveGap_of_begun (by simpa using hne)]
    exact hends
  · obtain ⟨cs, c, rfl⟩ := List.eq_nil_or_concat'  chars |>.resolve_left hne
    rw [List.length_append, List.length_singleton] at h47 hlong
    have hcs : cs ≠ [] := List.ne_nil_of_length_pos (by omega)
    have hlast : (cs ++ [c]).foldl Part.receiveChar p = ((p.collected (cs ++ [c])).withRx (cs ++ [c])).frameEnds := by
      rw [List.foldl_append, Part.foldl_receiveChar_first hrx hs ht hcs (by omega), List.foldl_cons, List.foldl_nil,
        Part.receiveChar_of_begun c (by simpa using hcs), Part.joinFrame_full c (by rw [Part.withRx_rx]; omega),
        Part.countSpoiled_withRx, Part.withRx_withRx, Part.withRx_rx, Part.collected, List.foldl_append, List.foldl_cons, List.foldl_nil]
    rw [hlast, hends]
    exact Part.receiveGap_of_none (hfull (by rw [List.length_append, List.length_singleton]; omega))

/-! ### Frames that end in a poll turn (R34, R35) -/

theorem Part.inTurn.sending {p : Part} {slot : Nat} {carried : Option Carried} (h : p.inTurn slot carried) : p.sending = false := by
  obtain ⟨-, -, htx, -⟩ := h
  rw [Part.sending, htx]
  rfl

theorem Part.inTurn.firstChar {p : Part} {slot : Nat} {carried : Option Carried} (h : p.inTurn slot carried) :
    p.firstChar = p.frameOfTurn := by
  obtain ⟨-, hturn, -, -⟩ := h
  simp only [Part.firstChar, Part.frameOfTurn, Line.classNow, Line.replyAtFirst, hturn]

theorem Slot.countSpoiled_eq (x : Slot) (c : RxChar) :
    x.countSpoiled c = if c.stop = false then { x with framing := satInc 255 x.framing }
      else if c.parity = parityOf c.data then x else { x with parity := satInc 255 x.parity } := by
  unfold Slot.countSpoiled framingError parityError
  cases c.stop <;> by_cases hp : c.parity = parityOf c.data <;> simp [hp]

/-- Settles O30. -/
theorem characterStopsReply : Obligations.CharacterStopsReply := by
  intro c s
  have hexec : exec (.receivedCharacter c) s = .next { s with part := s.part.receiveChar c } := rfl
  rw [hexec]
  refine ⟨fun slot carried hin hshaped h1 h16 => ⟨_, rfl, ?_⟩, fun hrx h => by rw [Part.receiveChar_ignored c hrx h]⟩
  obtain ⟨hl, -⟩ := hshaped
  have ⟨hs, hturn, _, hrx⟩ := hin
  have hspoilt : s.part.frameOfTurn.spoilt slot ((s.part.slot slot).countSpoiled c) (s.part.frameOfTurn.countSpoiled c) :=
    Part.countSpoiled_spoilt (p := s.part.frameOfTurn) hturn hl h1 h16 c
  have hchar : s.part.receiveChar c = (s.part.frameOfTurn.countSpoiled c).withRx [c] := by
    have hrx' : s.part.frameOfTurn.line.rx = [] := hrx
    rw [Part.receiveChar_first c hrx hs hin.sending, hin.firstChar, Part.joinFrame_short c (by simp [hrx']), hrx', List.nil_append]
  rw [hchar]
  obtain ⟨hstep, -, hown, hothers⟩ := hspoilt
  refine ⟨?_, hown.trans (Slot.countSpoiled_eq _ c), fun n hn _ hne => hothers n hn hne, hstep.stores, hstep.book, hstep.attn⟩
  have hline : ((s.part.frameOfTurn.countSpoiled c).withRx [c]).line =
      { (s.part.frameOfTurn.countSpoiled c).line with rx := [c] } := rfl
  rw [hline, Part.countSpoiled_line]
  rfl

/-! ### Misses (R35) -/

/-- R35: the slot after a miss. -/
def Slot.missed (x : Slot) (limit : Nat) : Slot :=
  if x.state = .active ∧ limit ≤ satInc 15 x.misses then { x with misses := satInc 15 x.misses, state := .silent }
  else { x with misses := satInc 15 x.misses }

theorem returnCarried_eq (st : Store) :
    returnCarried st = { st with position := if st.position = .sent then .set else st.position } := by
  unfold returnCarried
  split <;> rfl

/-- R35: a miss at the limit of an ACTIVE slot. -/
theorem Part.miss_limit {p : Part} {slot : Nat} (h : (p.slot slot).state = .active ∧ p.settings.missLimit ≤ satInc 15 (p.slot slot).misses) :
    p.miss slot = ((p.mapStore slot returnCarried).mapSlot slot fun x =>
      { x with misses := satInc 15 (p.slot slot).misses, state := .silent }).raise .handset := if_pos h

/-- R35: any other miss. -/
theorem Part.miss_counted {p : Part} {slot : Nat}
    (h : ¬((p.slot slot).state = .active ∧ p.settings.missLimit ≤ satInc 15 (p.slot slot).misses)) :
    p.miss slot = (p.mapStore slot returnCarried).mapSlot slot fun x => { x with misses := satInc 15 (p.slot slot).misses } := if_neg h

/-- R35: a miss writes no line and no book. -/
theorem Part.miss_line (p : Part) (slot : Nat) : (p.miss slot).line = p.line ∧ (p.miss slot).book = p.book := by
  by_cases h : (p.slot slot).state = .active ∧ p.settings.missLimit ≤ satInc 15 (p.slot slot).misses
  · rw [Part.miss_limit h]
    exact ⟨rfl, rfl⟩
  · rw [Part.miss_counted h]
    exact ⟨rfl, rfl⟩

theorem Part.miss_slot {p : Part} {slot : Nat} (hl : p.slots.length = 16) (h1 : 1 ≤ slot) (h16 : slot ≤ 16) :
    (p.miss slot).slot slot = (p.slot slot).missed p.settings.missLimit := by
  have hl' : (p.mapStore slot returnCarried).slots.length = 16 := hl
  by_cases h : (p.slot slot).state = .active ∧ p.settings.missLimit ≤ satInc 15 (p.slot slot).misses
  · rw [Part.miss_limit h, Part.slot_raise, Part.slot_mapSlot_self _ hl' h1 h16, Part.slot_mapStore, Slot.missed, if_pos h]
  · rw [Part.miss_counted h, Part.slot_mapSlot_self _ hl' h1 h16, Part.slot_mapStore, Slot.missed, if_neg h]

theorem Part.miss_store {p : Part} {slot : Nat} (hl : p.stores.length = 16) (h1 : 1 ≤ slot) (h16 : slot ≤ 16) :
    (p.miss slot).store slot = returnCarried (p.store slot) := by
  by_cases h : (p.slot slot).state = .active ∧ p.settings.missLimit ≤ satInc 15 (p.slot slot).misses
  · rw [Part.miss_limit h, Part.store_raise, Part.store_mapSlot, Part.store_mapStore_self _ hl h1 h16]
  · rw [Part.miss_counted h, Part.store_mapSlot, Part.store_mapStore_self _ hl h1 h16]

theorem Part.miss_handset {p : Part} {slot : Nat} (ha : (p.slot slot).state = .active)
    (hm : p.settings.missLimit ≤ satInc 15 (p.slot slot).misses) :
    (p.miss slot).attn.pending = { p.attn.pending with handset := true } := by
  rw [Part.miss_limit ⟨ha, hm⟩]
  rfl

/-- R35: a frame that is no valid ANSWER of the slot is a miss, and a check error when no character of it is spoiled. -/
theorem Part.judgeAnswer_bad {p : Part} {slot : Nat} (carried : Option Carried) {chars : List RxChar}
    (h : ∀ f, parseFrame chars = some f → ¬(f.address = slot ∧ f.kind = 0x11)) :
    p.judgeAnswer slot carried chars = p.badAnswer slot chars := by
  unfold Part.judgeAnswer
  split
  · rfl
  · next f hf => exact if_neg (h f hf)

/-- R35: the part with the check error of a frame that is no valid ANSWER. -/
def Part.countCheck (p : Part) (slot : Nat) (chars : List RxChar) : Part :=
  if chars.any spoiled then p else p.mapSlot slot fun x => { x with check := satInc 255 x.check }

theorem Part.badAnswer_eq (p : Part) (slot : Nat) (chars : List RxChar) :
    p.badAnswer slot chars = ((p.countCheck slot chars).miss slot).nextTurn := rfl

theorem Part.countCheck_stepsSlots (p : Part) (slot : Nat) (chars : List RxChar) : p.stepsSlots (p.countCheck slot chars) := by
  unfold Part.countCheck
  split <;> rfl

theorem Part.countCheck_slot {p : Part} {slot : Nat} (hl : p.slots.length = 16) (h1 : 1 ≤ slot) (h16 : slot ≤ 16)
    (chars : List RxChar) :
    (p.countCheck slot chars).slot slot =
      { p.slot slot with check := if chars.any spoiled then (p.slot slot).check else satInc 255 (p.slot slot).check } := by
  unfold Part.countCheck
  cases chars.any spoiled with
  | true => rfl
  | false => exact Part.slot_mapSlot_self (fun x => { x with check := satInc 255 x.check }) hl h1 h16

theorem Part.pollTurn_rx (p : Part) (slot : Nat) : (p.pollTurn slot).line.rx = p.line.rx :=
  congrArg (fun v => v.2.2.2.2.1) (p.pollTurn_turnView slot)

theorem Part.openWindow_rx (p : Part) : p.openWindow.line.rx = p.line.rx :=
  congrArg (fun v => v.2.2.2.2.1) p.openWindow_turnView

/-- R33: the turn that follows keeps the frame being received. -/
theorem Part.nextTurn_rx (p : Part) : p.nextTurn.line.rx = p.line.rx := by
  unfold Part.nextTurn
  dsimp only
  split
  · exact Part.pollTurn_rx _ _
  · split
    · exact Part.openWindow_rx _
    · split
      · rfl
      · exact (Part.startRound_line _).2.1

/-- R32, R35: a frame in a poll turn that is no valid ANSWER. -/
theorem Part.inTurn.badFrame {p : Part} {slot : Nat} {carried : Option Carried} (hin : p.inTurn slot carried) {chars : List RxChar}
    (h1 : 1 ≤ chars.length) (h47 : chars.length ≤ 47)
    (h : ∀ f, parseFrame chars = some f → ¬(f.address = slot ∧ f.kind = 0x11)) :
    p.receiveFrame chars = (((chars.foldl Part.countSpoiled p.frameOfTurn).countCheck slot chars).miss slot).nextTurn := by
  have ⟨hs, hturn, _, hrx⟩ := hin
  have hline : (chars.foldl Part.countSpoiled p.frameOfTurn).line = p.frameOfTurn.line := Part.foldl_countSpoiled_line _ _
  have hjudged : (p.collected chars).judged chars =
      (((chars.foldl Part.countSpoiled p.frameOfTurn).countCheck slot chars).miss slot).nextTurn := by
    have hclass : (chars.foldl Part.countSpoiled p.frameOfTurn).line.rxClass = .byTurn := by rw [hline]; rfl
    have hpoll : (chars.foldl Part.countSpoiled p.frameOfTurn).line.turn = .poll slot carried := by rw [hline]; exact hturn
    simp only [Part.collected, hin.firstChar, Part.judged, hclass, Part.judgeByTurn, hpoll, Part.judgeAnswer_bad carried h,
      Part.badAnswer_eq]
  rw [← hjudged]
  refine Part.receiveFrame_eq hrx hs hin.sending h1 h47 fun _ => ?_
  rw [hjudged, Part.nextTurn_rx, (Part.miss_line _ _).1, (Part.countCheck_stepsSlots _ _ _).line, hline]
  exact hrx

theorem Part.replyExpiry_due {p : Part} (h : lastTick p.line.reply = true) : p.replyExpiry = p.replyExpires :=
  Part.expireAt_due 1 (fun q => q.line.reply) Part.replyExpires p h

theorem Part.replyExpiry_quiet {p : Part} (h : lastTick p.line.reply = false) : p.replyExpiry = p :=
  Part.expireAt_quiet 1 (fun q => q.line.reply) Part.replyExpires p h

/-- R34: the part in which REPLY has expired in a poll turn. -/
def Part.replyOver (p : Part) : Part := { p with line := { p.line with reply := none, afterMiss := true } }

theorem Part.replyExpires_poll {p : Part} {slot : Nat} {carried : Option Carried} (hs : p.line.state = .running)
    (hturn : p.line.turn = .poll slot carried) : p.replyExpires = (p.replyOver.miss slot).nextTurn := by
  simp only [Part.replyExpires, Part.replyOver, hs, hturn]

theorem exec_replyExpiry (s : State) : exec .replyExpiry s = .next { s with part := s.part.replyExpiry } := rfl

/-- Settles O31. -/
theorem missesAreCounted : Obligations.MissesAreCounted := by
  refine ⟨fun s hs hdue => ?expiry, fun s hquiet => ?stopped, fun chars slot carried s hin hshaped h1 h16 hc hc' hbad => ?frame⟩
  case expiry =>
    rw [exec_replyExpiry, Part.replyExpiry_due hdue]
    refine ⟨fun slot carried hturn hshaped h1 h16 => ?_, fun hturn hrx => ?_, fun hturn hrx => ?_, fun hturn => ?_⟩
    · obtain ⟨hl, hl', -⟩ := hshaped
      rw [Part.replyExpires_poll hs hturn]
      obtain ⟨hline, hbook⟩ := s.part.replyOver.miss_line slot
      refine ⟨s.part.replyOver.miss slot, rfl, Part.miss_slot (p := s.part.replyOver) hl h1 h16,
        fun ha hm => Part.miss_handset (p := s.part.replyOver) ha hm,
        (Part.miss_store (p := s.part.replyOver) hl' h1 h16).trans (returnCarried_eq _), ?_, ?_, hbook⟩ <;> rw [hline] <;> rfl
    · simp only [Part.replyExpires, hs, hturn, hrx]
    · obtain ⟨c, cs, hcs⟩ := List.exists_cons_of_ne_nil hrx
      simp only [Part.replyExpires, hs, hturn, hcs]
    · simp only [Part.replyExpires, hs, hturn]
  case stopped => rw [exec_replyExpiry, Part.replyExpiry_quiet hquiet]
  case frame =>
    obtain ⟨hl, -⟩ := hshaped
    have ⟨_, hturn, _, _⟩ := hin
    have hspoilt := Part.foldl_countSpoiled_spoilt (p := s.part.frameOfTurn) hturn hl h1 h16 chars
    obtain ⟨q, hq⟩ : ∃ q, chars.foldl Part.countSpoiled s.part.frameOfTurn = q := ⟨_, rfl⟩
    have hexec : exec (.invalidAnswer chars) s = .next { s with part := ((q.countCheck slot chars).miss slot).turnOver } := by
      rw [← hq]
      exact congrArg (fun p => Host.Outcome.next { s with part := Part.promoteIfDue p }) (hin.badFrame hc hc' hbad)
    rw [hq] at hspoilt
    obtain ⟨hstep, hlen, hown, -⟩ := hspoilt
    have hslot := Part.countCheck_slot (p := q) (hlen.trans hl) h1 h16 chars
    have hbeside : (q.slot slot).beside = (s.part.slot slot).beside := by
      rw [hown]
      exact Slot.foldl_countSpoiled_beside _ chars
    simp only [Slot.beside, Prod.mk.injEq] at hbeside
    obtain ⟨hstate, hmisses, hcheck⟩ := hbeside
    have hall := hstep.trans (q.countCheck_stepsSlots slot chars)
    refine ⟨_, hexec, ?_, ?_, hall.stores, hall.book, hall.attn, hall.settings, ?_⟩
    · rw [hslot, hmisses]
    · rw [hslot, hstate]
    · rw [hslot, hcheck]

end Sys2Proof.Machine
end

