-- ==== Sys2Proof/Proofs/Answers.lean ====
section
/-! PROOFS. Proofs/Answers.lean: a line frame read back, the ANSWER that is taken and the message in it (O32). -/

namespace Sys2Proof.Machine

/-! ### A frame read back (R32, R190) -/

theorem spoiled_charOf (b : Byte) : spoiled (charOf b) = false := by
  simp [spoiled, framingError, parityError, charOf]

theorem any_spoiled_map_charOf (bytes : List Byte) : (bytes.map charOf).any spoiled = false := by
  simp [List.any_eq_false, spoiled_charOf]

theorem map_data_map_charOf (bytes : List Byte) : (bytes.map charOf).map RxChar.data = bytes := by
  rw [List.map_map]
  exact List.map_id bytes

theorem lineFrame_length (address kind : Nat) (body : List Byte) : (lineFrame address kind body).length = body.length + 6 := by
  simp [lineFrame, u8, crcBytes_length]

/-- R32, R190: the characters of a frame hold the frame. -/
theorem parseFrame_lineFrame {address kind : Nat} {body : List Byte} (ha : address < 256) (hk : kind < 256) (hb : body.length ≤ 40) :
    parseFrame ((lineFrame address kind body).map charOf) = some { address, kind, body } := by
  obtain ⟨crc, hcrc⟩ : ∃ crc, crcBytes (BitVec.ofNat 8 address :: BitVec.ofNat 8 kind :: BitVec.ofNat 8 body.length :: body) = crc := ⟨_, rfl⟩
  have hframe : lineFrame address kind body =
      0xC5#8 :: BitVec.ofNat 8 address :: BitVec.ofNat 8 kind :: BitVec.ofNat 8 body.length :: (body ++ crc) := by
    rw [← hcrc]
    rfl
  have hlen : (BitVec.ofNat 8 body.length).toNat = body.length := by simp; omega
  have htwo : crc.length = 2 := by rw [← hcrc, crcBytes_length]
  unfold parseFrame
  rw [any_spoiled_map_charOf, map_data_map_charOf, hframe]
  dsimp only
  rw [hlen, List.take_left, List.drop_left, hcrc, if_neg Bool.false_ne_true, if_pos ⟨rfl, hb, by simp [htwo], rfl⟩]
  simp only [BitVec.toNat_ofNat, Nat.mod_eq_of_lt ha, Nat.mod_eq_of_lt hk]

theorem parseFrame_answerChars (address : Byte) {body : List Byte} (hb : body.length ≤ 40) :
    parseFrame (answerChars address body) = some { address := address.toNat, kind := 0x11, body } :=
  parseFrame_lineFrame address.isLt (by decide) hb

theorem answerChars_length (address : Byte) (body : List Byte) : (answerChars address body).length = body.length + 6 := by
  rw [answerChars, List.length_map, lineFrame_length]

theorem good_answerChars (address : Byte) (body : List Byte) : ∀ c ∈ answerChars address body, spoiled c = false := by
  intro c hc
  obtain ⟨b, -, rfl⟩ := List.mem_map.mp hc
  exact spoiled_charOf b

/-! ### The ANSWER of a turn (R35) -/

/-- R32: a whole frame of good characters ends in the poll turn it begins in. -/
theorem Part.inTurn.goodFrame {p : Part} {slot : Nat} {carried : Option Carried} (hin : p.inTurn slot carried) {chars : List RxChar}
    (h1 : 1 ≤ chars.length) (h46 : chars.length ≤ 46) (hgood : ∀ c ∈ chars, spoiled c = false) :
    p.receiveFrame chars = p.frameOfTurn.judgeAnswer slot carried chars := by
  have ⟨hs, hturn, _, hrx⟩ := hin
  rw [Part.receiveFrame_eq hrx hs hin.sending h1 (by omega) (fun h => by omega), Part.collected, hin.firstChar,
    Part.foldl_countSpoiled_of_good _ hgood]
  have hpoll : p.frameOfTurn.line.turn = .poll slot carried := hturn
  have hclass : p.frameOfTurn.line.rxClass = .byTurn := rfl
  simp only [Part.judged, hclass, Part.judgeByTurn, hpoll]

theorem Part.judgeAnswer_valid (p : Part) {slot : Nat} (carried : Option Carried) {address : Byte} (ha : address.toNat = slot)
    {body : List Byte} (hb : body.length ≤ 40) :
    p.judgeAnswer slot carried (answerChars address body) = p.takeAnswer slot carried body := by
  simp only [Part.judgeAnswer, parseFrame_answerChars address hb, ha, and_self, if_true]

theorem Part.inTurn.answer {p : Part} {slot : Nat} {carried : Option Carried} (hin : p.inTurn slot carried) {address : Byte}
    (ha : address.toNat = slot) {body : List Byte} (hb : body.length ≤ 40) :
    p.receiveFrame (answerChars address body) = p.frameOfTurn.takeAnswer slot carried body := by
  have hlen := answerChars_length address body
  rw [hin.goodFrame (by omega) (by omega) (good_answerChars address body), Part.judgeAnswer_valid _ carried ha hb]

theorem Part.inTurn.emptyAnswer {p : Part} {slot : Nat} {carried : Option Carried} (hin : p.inTurn slot carried) {address : Byte}
    (ha : address.toNat = slot) : p.wholeFrame (answerChars address []) = (p.heard slot carried).turnOver := by
  rw [Part.wholeFrame, hin.answer ha (Nat.zero_le _)]
  rfl

/-- R35, R57: an ANSWER with a message acts as its message does, and the turn ends. -/
theorem Part.inTurn.message {p : Part} {slot : Nat} {carried : Option Carried} (hin : p.inTurn slot carried) {address : Byte}
    (ha : address.toNat = slot) (kind : Byte) {fields : List Byte} (hb : fields.length ≤ 39) :
    p.wholeFrame (answerChars address (kind :: fields)) = ((p.heard slot carried).takeMessage slot kind fields).turnOver := by
  rw [Part.wholeFrame, hin.answer ha (by rw [List.length_cons]; omega)]
  rfl

/-! ### What hearing an ANSWER writes (R35) -/

/-- R35: the slot that has answered. -/
def Slot.answered (x : Slot) : Slot := { x with misses := 0, state := if x.state = .silent then .active else x.state }

/-- R55: the store without the item its POLL carried. -/
def Store.delivered (st : Store) (carried : Option Carried) : Store :=
  match carried with
  | none => st
  | some c => removeCarried c st

/-- R35: the part in which the slot that answers is ACTIVE and has missed nothing. -/
def Part.present (p : Part) (slot : Nat) : Part :=
  if (p.slot slot).state = .silent then (p.mapSlot slot Slot.answered).raise .handset else p.mapSlot slot Slot.answered

theorem Part.hearAnswer_eq (p : Part) (slot : Nat) (carried : Option Carried) :
    p.hearAnswer slot carried = match carried with
      | none => p.present slot
      | some c => (p.present slot).mapStore slot (removeCarried c) := by
  unfold Part.hearAnswer Part.present Slot.answered
  cases carried <;> rfl

/-- What an ANSWER of one slot does before its message. -/
structure Part.hearing (p : Part) (slot : Nat) (carried : Option Carried) (q : Part) : Prop where
  only : q = { p with slots := q.slots, stores := q.stores, attn := q.attn }
  slotsLength : q.slots.length = p.slots.length
  storesLength : q.stores.length = p.stores.length
  ownSlot : p.slots.length = 16 → 1 ≤ slot → slot ≤ 16 → q.slot slot = (p.slot slot).answered
  ownStore : p.stores.length = 16 → 1 ≤ slot → slot ≤ 16 → q.store slot = (p.store slot).delivered carried
  otherSlots : 1 ≤ slot → ∀ n, 1 ≤ n → n ≠ slot → q.slot n = p.slot n
  otherStores : 1 ≤ slot → ∀ n, 1 ≤ n → n ≠ slot → q.store n = p.store n
  pending : q.attn.pending = if (p.slot slot).state = .silent then { p.attn.pending with handset := true } else p.attn.pending

theorem Part.present_hearing (p : Part) (slot : Nat) : p.hearing slot none (p.present slot) := by
  unfold Part.present
  split <;>
    exact ⟨rfl, List.length_modify .., rfl, fun hl h1 h16 => Part.slot_mapSlot_self _ hl h1 h16, fun _ _ _ => rfl,
      fun h1 n hn hne => p.slot_mapSlot_of_ne _ hne h1 hn, fun _ _ _ _ => rfl, by simp [*]; try rfl⟩

theorem Part.hearAnswer_hearing (p : Part) (slot : Nat) (carried : Option Carried) :
    p.hearing slot carried (p.hearAnswer slot carried) := by
  have h := p.present_hearing slot
  rw [Part.hearAnswer_eq]
  cases carried with
  | none => exact h
  | some c =>
    have hstores : (p.present slot).stores = p.stores := by unfold Part.present; split <;> rfl
    refine ⟨?_, h.slotsLength, (List.length_modify ..).trans h.storesLength, h.ownSlot, fun hl h1 h16 => ?_, h.otherSlots,
      fun h1 n hn hne => ?_, h.pending⟩
    · conv_lhs => rw [h.only]
      rfl
    · exact (Part.store_mapStore_self _ (h.storesLength.trans hl) h1 h16).trans (congrArg (removeCarried c) (Part.store_congr hstores slot))
    · exact ((p.present slot).store_mapStore_of_ne _ hne h1 hn).trans (Part.store_congr hstores n)

theorem Part.heard_hearing (p : Part) (slot : Nat) (carried : Option Carried) :
    p.frameOfTurn.hearing slot carried (p.heard slot carried) := Part.hearAnswer_hearing _ _ _

section
variable (p : Part) (slot : Nat) (carried : Option Carried)

@[simp] theorem Part.heard_book : (p.heard slot carried).book = p.book := by rw [(p.heard_hearing slot carried).only]; rfl
@[simp] theorem Part.heard_settings : (p.heard slot carried).settings = p.settings := by rw [(p.heard_hearing slot carried).only]; rfl
@[simp] theorem Part.heard_lib : (p.heard slot carried).lib = p.lib := by rw [(p.heard_hearing slot carried).only]; rfl
@[simp] theorem Part.heard_catalog : (p.heard slot carried).catalog = p.catalog := by rw [(p.heard_hearing slot carried).only]; rfl
@[simp] theorem Part.heard_play : (p.heard slot carried).play = p.play := by rw [(p.heard_hearing slot carried).only]; rfl
@[simp] theorem Part.heard_scorer : (p.heard slot carried).scorer = p.scorer := by rw [(p.heard_hearing slot carried).only]; rfl
@[simp] theorem Part.heard_line : (p.heard slot carried).line = p.frameOfTurn.line := by rw [(p.heard_hearing slot carried).only]

theorem Part.heard_pending : (p.heard slot carried).attn.pending =
    if (p.slot slot).state = .silent then { p.attn.pending with handset := true } else p.attn.pending :=
  (p.heard_hearing slot carried).pending

@[simp] theorem Part.heard_entry (ticket : Nat) : (p.heard slot carried).entry ticket = p.entry ticket := by
  rw [Part.entry, Part.entry, Part.heard_book]

@[simp] theorem Part.heard_catEntry (song : Nat) : (p.heard slot carried).catEntry song = p.catEntry song := by
  rw [Part.catEntry, Part.catEntry, Part.heard_catalog]

@[simp] theorem Part.heard_die (d : Nat) : (p.heard slot carried).die d = p.die d := by
  unfold Part.die
  rw [Part.heard_lib]

end

theorem Part.shaped.heard {p : Part} (h : p.shaped) (slot : Nat) (carried : Option Carried) : (p.heard slot carried).shaped := by
  obtain ⟨hslots, hstores, hseats, hchannels⟩ := h
  have hear := p.heard_hearing slot carried
  exact ⟨hear.slotsLength.trans hslots, hear.storesLength.trans hstores, by rw [Part.heard_scorer]; exact hseats,
    by rw [Part.heard_scorer]; exact hchannels⟩

/-! ### The form of a message (R57) -/

/-- R58 to R65: how many field bytes a message kind takes. -/
def messageLength : Nat → Option Nat
  | 1 => some 5 | 2 => some 3 | 3 => some 0 | 4 => some 2 | 5 => some 3 | 6 => some 2 | 7 => some 0
  | _ => none

/-- R58 to R65: the form of a message by its kind. -/
theorem messageOf_length {kind : Byte} {fields : List Byte} {m : Message} (h : messageOf kind fields = some m) :
    messageLength kind.toNat = some fields.length := by
  delta messageOf at h
  generalize kind.toNat = k at h ⊢
  match k, h with
  | 0, h => cases h
  | 1, h =>
    match fields, h with
    | [_, _, _, _, _], _ => rfl
  | 2, h =>
    match fields, h with
    | [_, _, _], _ => rfl
  | 3, h =>
    match fields, h with
    | [], _ => rfl
  | 4, h =>
    match fields, h with
    | [_, _], _ => rfl
  | 5, h =>
    match fields, h with
    | [_, _, _], _ => rfl
  | 6, h =>
    match fields, h with
    | [_, _], _ => rfl
  | 7, h =>
    match fields, h with
    | [], _ => rfl
  | _ + 8, h => cases h

theorem messageOf_eq_none_of_length {kind : Byte} {fields : List Byte} (h : messageLength kind.toNat ≠ some fields.length) :
    messageOf kind fields = none :=
  Option.eq_none_iff_forall_ne_some.mpr fun _ hm => h (messageOf_length hm)

theorem messageLength_eq_none {kind : Nat} (h : kind = 0 ∨ 7 < kind) : messageLength kind = none := by
  unfold messageLength
  split
  any_goals rfl
  all_goals omega

theorem messageOf_fields_le {kind : Byte} {fields : List Byte} {m : Message} (h : messageOf kind fields = some m) :
    fields.length ≤ 39 := by
  have hlen := messageOf_length h
  unfold messageLength at hlen
  split at hlen <;> first | (injection hlen; omega) | cases hlen

theorem Part.takeMessage_overlap {p : Part} {slot : Nat} (h : (p.store slot).reply ≠ .empty) (kind : Byte) (fields : List Byte) :
    p.takeMessage slot kind fields = p.mapSlot slot fun x => { x with overlaps := satInc 255 x.overlaps } := by
  unfold Part.takeMessage
  split
  · next he => exact absurd he h
  · rfl
  · rfl

theorem Part.takeMessage_badForm {p : Part} {slot : Nat} (h : (p.store slot).reply = .empty) {kind : Byte} {fields : List Byte}
    (hm : messageOf kind fields = none) : p.takeMessage slot kind fields = p.placeReply slot (.refused kind .badForm) := by
  simp only [Part.takeMessage, h, hm]

theorem Part.takeMessage_act {p : Part} {slot : Nat} (h : (p.store slot).reply = .empty) {kind : Byte} {fields : List Byte}
    {m : Message} (hm : messageOf kind fields = some m) : p.takeMessage slot kind fields = p.act slot m := by
  simp only [Part.takeMessage, h, hm]

/-- R35, R57: a well-formed message that finds no reply waiting acts, and the turn ends. -/
theorem Part.inTurn.acts {p : Part} {slot : Nat} {carried : Option Carried} (hin : p.inTurn slot carried) {address : Byte}
    (ha : address.toNat = slot) {kind : Nat} {fields : List Byte} {m : Message} (hm : messageOf (BitVec.ofNat 8 kind) fields = some m)
    (hr : ((p.heard slot carried).store slot).reply = .empty) :
    p.messageFrame address kind fields = ((p.heard slot carried).act slot m).turnOver := by
  have hframe : p.messageFrame address kind fields = p.wholeFrame (answerChars address (BitVec.ofNat 8 kind :: fields)) := rfl
  rw [hframe, hin.message ha _ (messageOf_fields_le hm), Part.takeMessage_act hr hm]

/-- R32: an ANSWER whose characters have all arrived ends in the turn in progress. -/
theorem Part.receivedAnswer {p : Part} {slot : Nat} {carried : Option Carried} (hturn : p.line.turn = .poll slot carried)
    {address : Byte} (hrx : p.line.rx = answerChars address []) (hclass : p.line.rxClass = .byTurn) (ha : address.toNat = slot) :
    p.receiveFrame (answerChars address []) = ((p.withRx []).hearAnswer slot carried).nextTurn := by
  have hbegun : p.line.rx ≠ [] := by
    rw [hrx]
    exact List.ne_nil_of_length_pos (by rw [answerChars_length]; omega)
  have hall : (answerChars address []).drop p.line.rx.length = [] := by rw [hrx, List.drop_length]
  unfold Part.receiveFrame
  rw [hall, List.foldl_nil, Part.receiveGap_of_begun hbegun, Part.frameEnds_eq, hrx]
  have hpoll : (p.withRx []).line.turn = .poll slot carried := hturn
  have hbyTurn : (p.withRx []).line.rxClass = .byTurn := hclass
  have hvalid := (p.withRx []).judgeAnswer_valid carried ha (body := []) (Nat.zero_le _)
  simp only [Part.judged, hbyTurn, Part.judgeByTurn, hpoll, hvalid]
  rfl

/-- Settles O32. -/
theorem answerIsTaken : Obligations.AnswerIsTaken := by
  have hexec : ∀ (address : Byte) (body : List Byte) (s : State),
      exec (.answer address body) s = .next { s with part := s.part.wholeFrame (answerChars address body) } := fun _ _ _ => rfl
  refine ⟨fun address slot carried s hin hshaped h1 h16 ha => ⟨?empty, ?heard, fun kind fields hb => ⟨fun hr => ?_, fun hr hm => ?_⟩⟩,
    fun kind fields => ⟨fun hk => ?_, fun length hk hlen => ?_⟩, fun address slot carried s hturn hrx hclass ha => ?begun⟩
  case empty => rw [hexec, hin.emptyAnswer ha]
  case heard =>
    obtain ⟨hslots, hstores, -⟩ := hshaped
    have hear := s.part.heard_hearing slot carried
    refine ⟨hear.ownSlot hslots h1 h16, (hear.ownStore hstores h1 h16).trans ?_, ?_, s.part.heard_book slot carried⟩
    · cases carried <;> rfl
    · rw [Part.heard_pending]
      by_cases hsilent : (s.part.slot slot).state = .silent <;> simp [hsilent]
  case begun => rw [hexec, Part.wholeFrame, Part.receivedAnswer hturn hrx hclass ha]; rfl
  · rw [hexec, hin.message ha kind hb, Part.takeMessage_overlap hr]
  · rw [hexec, hin.message ha kind hb, Part.takeMessage_badForm hr hm]
    rfl
  · exact messageOf_eq_none_of_length (by rw [messageLength_eq_none hk]; exact nofun)
  · refine messageOf_eq_none_of_length fun hc => hlen ?_
    simp only [List.mem_cons, Prod.mk.injEq, List.not_mem_nil, or_false] at hk
    rcases hk with ⟨rfl, rfl⟩ | ⟨rfl, rfl⟩ | ⟨rfl, rfl⟩ | ⟨rfl, rfl⟩ | ⟨rfl, rfl⟩ | ⟨rfl, rfl⟩ | ⟨rfl, rfl⟩ <;>
      exact (Option.some.inj hc).symm

end Sys2Proof.Machine
end

