-- ==== Sys2Proof/Proofs/AskFind.lean ====
section
/-! PROOFS. Proofs/AskFind.lean: the messages ASK, FIND and MINE (O33, O34). -/

namespace Sys2Proof.Machine

/-- R40, R48: an operation that keeps the lengths keeps the shape. -/
theorem Part.shaped.of_fixed {p q : Part} (h : p.shaped) (hf : q.frame.fixed = p.frame.fixed) : q.shaped := by
  obtain ⟨hslots, hstores, hseats, hchannels⟩ := h
  exact ⟨(congrArg Fixed.slots hf).trans hslots, (congrArg Fixed.stores hf).trans hstores, (congrArg Fixed.seats hf).trans hseats,
    (congrArg Fixed.channels hf).trans hchannels⟩

/-! ### Replies (R49) -/

theorem Part.placeReply_store {p : Part} (h : p.shaped) {slot : Nat} (h1 : 1 ≤ slot) (h16 : slot ≤ 16) (r : Reply) :
    (p.placeReply slot r).store slot = { p.store slot with reply := .held r } :=
  Part.store_mapStore_self (fun st => { st with reply := .held r }) h.2.1 h1 h16

theorem Part.placeReply_reply {p : Part} (h : p.shaped) {slot : Nat} (h1 : 1 ≤ slot) (h16 : slot ≤ 16) (r : Reply) :
    ((p.placeReply slot r).store slot).reply = .held r := by
  rw [Part.placeReply_store h h1 h16]

theorem Part.mapStore_mapStore (p : Part) (slot : Nat) (f g : Store → Store) :
    (p.mapStore slot f).mapStore slot g = p.mapStore slot fun st => g (f st) := by
  unfold Part.mapStore
  rw [List.modify_modify_eq]
  rfl

/-! ### FIND and MINE (R59, R61) -/

theorem Part.request_stores (p : Part) (d : Nat) (r : Request) : (p.request d r).stores = p.stores := by
  unfold Part.request Part.startOp Part.mapDie
  (repeat' split) <;> rfl

/-- R59: the reply slot after a FIND of a song whose die is not FAULTED. -/
theorem Part.takeFind_reply {p : Part} (h : p.shaped) {slot : Nat} (h1 : 1 ≤ slot) (h16 : slot ≤ 16) {song : Nat}
    (hdie : ∀ c, p.catEntry song = some c → c.state = .ready → (p.die c.current.die).state ≠ .faulted) :
    ((p.takeFind slot song).store slot).reply =
      if p.lib.state = .mounted then
        match p.catEntry song with
        | none => .held (.refused 2#8 .noSuchSong)
        | some e => if e.state = .ready then .waiting else .held (.songInfo (songInfoOf e [] []))
      else .held (.refused 2#8 .notMounted) := by
  unfold Part.takeFind
  by_cases hm : p.lib.state = .mounted
  · rw [if_pos hm, if_pos hm]
    cases hc : p.catEntry song with
    | none => exact Part.placeReply_reply h h1 h16 _
    | some e =>
      dsimp only
      by_cases hr : e.state = .ready
      · have hwell : p.dieFaulted e.current.die = false := by simpa [Part.dieFaulted] using hdie e hc hr
        rw [if_pos hr, if_pos hr, Part.findRead, hwell, if_neg Bool.false_ne_true, Part.store_congr (Part.request_stores _ _ _),
          Part.store_mapStore_self _ h.2.1 h1 h16]
      · rw [if_neg hr, if_neg hr]
        exact Part.placeReply_reply h h1 h16 _
  · rw [if_neg hm, if_neg hm]
    exact Part.placeReply_reply h h1 h16 _

theorem messageOf_find {b0 b1 b2 : Byte} (h : songInRange (ofU24 b0 b1 b2) = true) :
    messageOf (BitVec.ofNat 8 2) [b0, b1, b2] = some (.find (ofU24 b0 b1 b2)) := if_pos h

/-- Settles O34. -/
theorem findAndMineReply : Obligations.FindAndMineReply := by
  intro address slot carried s hin hshaped h1 h16 ha hr
  have hexec : ∀ fields, exec (.find address fields) s = .next { s with part := s.part.messageFrame address 2 fields } := fun _ => rfl
  have hmine : exec (.mine address []) s = .next { s with part := s.part.messageFrame address 3 [] } := rfl
  refine ⟨fun b0 b1 b2 hsong hdie => ?find, ?mine⟩
  case find =>
    refine ⟨(s.part.heard slot carried).takeFind slot (ofU24 b0 b1 b2), ?_, ?_, ?_⟩
    · rw [hexec, hin.acts ha (messageOf_find hsong) hr]
      rfl
    · rw [Part.takeFind_book, Part.heard_book]
    · rw [Part.takeFind_reply (hshaped.heard slot carried) h1 h16 (by simpa using hdie), Part.heard_lib, Part.heard_catEntry]
      cases s.part.catEntry (ofU24 b0 b1 b2) <;> rfl
  case mine =>
    rw [hmine, hin.acts ha (kind := 3) (m := .mine) rfl hr]
    have htake : (s.part.heard slot carried).act slot .mine =
        ((s.part.heard slot carried).placeReply slot (.tickets (ticketLines (s.part.heard slot carried).book.entries slot))).mapStore slot
          fun st => { st with position := .clear } := rfl
    rw [htake, Part.placeReply, Part.mapStore_mapStore, Part.heard_book]

/-! ### ASK (R58) -/

/-- R10: the part whose book holds the new entry, before pins and counts. -/
def Part.entered (p : Part) (a : AddInput) : Part :=
  let q := p.withEntries (insertWaiting p.book.entries (placement p.settings.orderMode p.book.entries a.origin a.front).2 (p.newEntry a))
  { q with book := { q.book with counter := nextTicket (issueTicket p.book) } }

theorem Part.insertNew_slot (p : Part) {a : AddInput} {n : Nat} (ho : a.origin = .slot n) :
    p.insertNew a = (((p.entered a).addPin a.song).mapSlot n fun x => { x with live := x.live + 1 }).raise .book := by
  obtain ⟨q, hq⟩ : ∃ q, p.entered a = q := ⟨_, rfl⟩
  have hnew : p.insertNew a = (match a.origin with
      | .desk => ((p.entered a).addPin a.song).mapLive a.origin (· + 1)
      | .slot _ => (((p.entered a).addPin a.song).mapLive a.origin (· + 1)).raise .book) := rfl
  rw [hnew, hq, ho]
  rfl

/-- R10, R11: beside the book, an add of a handset counts the entry in its slot, pins the song and raises BOOK. -/
theorem Part.insertNew_handset {p : Part} (h : p.shaped) {a : AddInput} {n : Nat} (ho : a.origin = .slot n) (h1 : 1 ≤ n) (h16 : n ≤ 16) :
    (p.insertNew a).slot n = { p.slot n with live := (p.slot n).live + 1 } ∧ (p.insertNew a).attn.pending.book = true ∧
      ∀ c, p.catEntry a.song = some c → (p.insertNew a).catEntry a.song = some { c with pins := c.pins + 1 } := by
  obtain ⟨q, hq⟩ : ∃ q, p.entered a = q := ⟨_, rfl⟩
  have hslots : q.slots = p.slots := by rw [← hq]; exact Part.withEntries_slots _ _
  have hcatalog : q.catalog = p.catalog := by rw [← hq]; exact Part.withEntries_catalog _ _
  have hcat : ∀ song, q.catEntry song = p.catEntry song := fun song => by rw [Part.catEntry, Part.catEntry, hcatalog]
  rw [Part.insertNew_slot p ho, hq]
  refine ⟨?_, rfl, fun c hc => ?_⟩
  · have hlen : (q.addPin a.song).slots.length = 16 := (congrArg List.length hslots).trans h.1
    rw [Part.slot_raise, Part.slot_mapSlot_self _ hlen h1 h16]
    have hslot : (q.addPin a.song).slot n = p.slot n := Part.slot_congr hslots n
    rw [hslot]
  · have hpin := Part.catEntry_mapCatEntry (p := q) (song := a.song) (f := fun c => { c with pins := c.pins + 1 }) (fun _ => rfl) a.song
    rw [if_pos rfl, hcat, hc] at hpin
    exact hpin

/-- Settles O33. -/
theorem askAddsEntry : Obligations.AskAddsEntry := by
  intro address fields slot song singers key carried s hin hshaped hwf h1 h16 ha hm hr
  obtain ⟨q, hq⟩ : ∃ q, s.part.heard slot carried = q := ⟨_, rfl⟩
  obtain ⟨a, hadd⟩ : ∃ a : AddInput, a = ⟨.slot slot, song, singers, key, 0, false⟩ := ⟨_, rfl⟩
  have horigin : a.origin = .slot slot := by rw [hadd]
  have hexec : exec (.ask address fields) s = .next { s with part := (q.takeAsk slot song singers key).turnOver } := by
    have hframe : exec (.ask address fields) s = .next { s with part := s.part.messageFrame address 1 fields } := rfl
    rw [hframe, hin.acts ha hm hr, hq]
    rfl
  have hbook : q.book = s.part.book := by rw [← hq, Part.heard_book]
  have hsettings : q.settings = s.part.settings := by rw [← hq, Part.heard_settings]
  have hq' : q.shaped := hq ▸ hshaped.heard slot carried
  rw [hexec, hq, ← hadd]
  refine ⟨fun cause hcause => ?refused, fun hnone place hplace => ?taken⟩
  case refused =>
    have htake : q.takeAsk slot song singers key = q.placeReply slot (.refused 1#8 cause) := by
      rw [Part.takeAsk, ← hadd, Part.add_of_cause hcause]
    rw [htake]
    rfl
  case taken =>
    have hposition := Part.insertNew_position (p := q) (hbook ▸ hwf) hnone
    have hpl : placement q.settings.orderMode q.book.entries a.origin a.front = place := by rw [hplace, hbook, hsettings, hadd]
    have htake : q.takeAsk slot song singers key = (q.insertNew a).placeReply slot (.taken (issueTicket q.book) (place.2 + 1)) := by
      rw [Part.takeAsk, ← hadd, Part.add_of_accepted hnone, hposition, hpl]
      rfl
    have hentered := q.insertNew_book a
    obtain ⟨hslot, hpending, hcat⟩ := Part.insertNew_handset hq' horigin h1 h16
    have hnew : (q.insertNew a).shaped := hq'.of_fixed (congrArg Frame.fixed (q.insertNew_frame a))
    have hear := (s.part.heard_hearing slot carried).ownSlot hshaped.1 h1 h16
    rw [hq] at hear
    rw [htake]
    refine ⟨_, rfl, ?_, ?_, ?_, ?_, ?_, hpending, fun c hc => ?_⟩
    · have hentries : ((q.insertNew a).placeReply slot (.taken (issueTicket q.book) (place.2 + 1))).book = (q.insertNew a).book := rfl
      rw [hentries, hentered, hpl, hbook, Part.newEntry, hpl, hbook, hadd]
      rfl
    · have hentries : ((q.insertNew a).placeReply slot (.taken (issueTicket q.book) (place.2 + 1))).book = (q.insertNew a).book := rfl
      rw [hentries, hentered, hbook]
    · rw [Part.placeReply_reply hnew h1 h16, hbook]
    · exact (congrArg Slot.live hslot).trans (by rw [hear]; rfl)
    · exact (congrArg Slot.misses hslot).trans (by rw [hear]; rfl)
    · have hsong : a.song = song := by rw [hadd]
      refine hsong ▸ hcat c ?_
      rw [← hq, Part.heard_catEntry, hsong, hc]

end Sys2Proof.Machine
end

