-- ==== Sys2Proof/Proofs/DropKey.lean ====
section
/-! PROOFS. Proofs/DropKey.lean: the messages DROP, KEY, JOIN and LEAVE (O35, O36). -/

namespace Sys2Proof.Machine

/-! ### The replies of the stores (R49) -/

theorem map_modify_of_keeps {α β : Type} (g : α → β) {f : α → α} (h : ∀ x, g (f x) = g x) (l : List α) (n : Nat) :
    (l.modify n f).map g = l.map g := by
  rw [List.ext_getElem?_iff]
  intro i
  simp only [List.getElem?_map, List.getElem?_modify]
  cases l[i]? with
  | none => rfl
  | some x => by_cases hi : n = i <;> simp [hi, h]

/-- The reply slots of the stores. -/
def Part.replies (p : Part) : List ReplySlot := p.stores.map Store.reply

theorem Part.replies_of_stores {p q : Part} (h : q.stores = p.stores) : q.replies = p.replies := congrArg (List.map Store.reply) h

theorem Part.reply_of_replies {p q : Part} (h : q.replies = p.replies) (n : Nat) : (q.store n).reply = (p.store n).reply := by
  have hreply : ∀ r : Part, (r.store n).reply = r.replies.getD (n - 1) Store.empty.reply := fun r => by
    simp only [Part.store, Part.replies, List.getD_eq_getElem?_getD, List.getElem?_map]
    cases r.stores[n - 1]? <;> rfl
  rw [hreply, hreply, h]

theorem Part.mapStore_replies (p : Part) (n : Nat) {f : Store → Store} (h : ∀ st, (f st).reply = st.reply) :
    (p.mapStore n f).replies = p.replies := map_modify_of_keeps Store.reply h p.stores (n - 1)

theorem Part.withEntries_replies (p : Part) (entries : List Entry) : (p.withEntries entries).replies = p.replies := by
  unfold Part.withEntries
  rw [foldl_keeps Part.replies Part.setPosition (fun q slot => q.mapStore_replies slot fun _ => rfl)]
  rfl

theorem Part.pushStruck_replies (p : Part) (slot : Nat) (item : StruckItem) : (p.pushStruck slot item).replies = p.replies := by
  unfold Part.pushStruck
  split
  · exact p.mapStore_replies slot fun _ => rfl
  · exact p.mapStore_replies slot fun _ => rfl

theorem Part.noticeStrike_replies (p : Part) (e : Entry) (reason : StrikeReason) : (p.noticeStrike e reason).replies = p.replies := by
  unfold Part.noticeStrike
  split
  · rfl
  · split
    · exact p.pushStruck_replies _ _
    · rfl

/-! ### The STRUCK item of a strike (R17) -/

/-- R17: the part with the entry out of the book, its pin and its count fallen, before the origin is told. -/
def Part.unlisted (p : Part) (e : Entry) : Part :=
  ((p.withEntries (withoutTicket p.book.entries e.ticket)).dropPin e.song).mapLive e.origin (· - 1)

theorem Part.strikeEntry_stores (p : Part) (e : Entry) {reason : StrikeReason} (hr : reason ≠ .cleared) (quiet : Bool) :
    (p.strikeEntry e reason quiet).stores = ((p.unlisted e).noticeStrike e reason).stores := by
  obtain ⟨q, hq⟩ : ∃ q, p.unlisted e = q := ⟨_, rfl⟩
  have hlisted : ((if reason = .cleared then { p with book := { p.book with entries := withoutTicket p.book.entries e.ticket } }
      else p.withEntries (withoutTicket p.book.entries e.ticket)).dropPin e.song).mapLive e.origin (· - 1) = q := by
    rw [if_neg hr, ← hq]
    rfl
  unfold Part.strikeEntry
  dsimp only
  rw [hlisted, hq]
  cases quiet <;> rfl

theorem Part.unlisted_replies (p : Part) (e : Entry) : (p.unlisted e).replies = p.replies := by
  have hstores : (p.unlisted e).stores = (p.withEntries (withoutTicket p.book.entries e.ticket)).stores := by
    unfold Part.unlisted
    cases e.origin <;> rfl
  exact (Part.replies_of_stores hstores).trans (p.withEntries_replies _)

theorem Part.strikeEntry_replies (p : Part) (e : Entry) {reason : StrikeReason} (hr : reason ≠ .cleared) (quiet : Bool) :
    (p.strikeEntry e reason quiet).replies = p.replies := by
  rw [Part.replies_of_stores (p.strikeEntry_stores e hr quiet), Part.noticeStrike_replies, Part.unlisted_replies]

theorem Part.pushStruck_last {p : Part} (hl : p.stores.length = 16) {slot : Nat} (h1 : 1 ≤ slot) (h16 : slot ≤ 16) (item : StruckItem) :
    ((p.pushStruck slot item).store slot).struck.getLast? = some item := by
  unfold Part.pushStruck
  split
  · rw [Part.store_mapStore_self _ hl h1 h16, List.getLast?_concat]
  · refine (congrArg (fun st : Store => st.struck.getLast?) (Part.store_mapStore_self _ hl h1 h16)).trans ?_
    rw [List.getLast?_concat]

theorem Part.unlisted_state (p : Part) (e : Entry) (n : Nat) : ((p.unlisted e).slot n).state = (p.slot n).state := by
  have hnoLive : (p.unlisted e).slots.map Slot.noLive = p.slots.map Slot.noLive := by
    rw [Part.unlisted, Part.mapLive_noLive]
    exact congrArg (List.map Slot.noLive) (p.withEntries_slots _)
  have hstate : ((p.unlisted e).slot n).noLive.state = (p.slot n).noLive.state := by rw [Part.slot_noLive hnoLive n]
  exact hstate

theorem Part.unlisted_frame (p : Part) (e : Entry) : (p.unlisted e).frame = p.frame := by
  unfold Part.unlisted
  simp

/-- R17: a strike that is told puts its item last in the struck list of the origin. -/
theorem Part.strikeEntry_last {p : Part} (h : p.shaped) {e : Entry} {slot : Nat} (ho : e.origin = .slot slot) (h1 : 1 ≤ slot)
    (h16 : slot ≤ 16) {reason : StrikeReason} (hg : givesStruckItem reason = true) (ha : (p.slot slot).state = .active) (quiet : Bool) :
    ((p.strikeEntry e reason quiet).store slot).struck.getLast? = some { ticket := e.ticket, reason } := by
  have hr : reason ≠ .cleared := by
    rintro rfl
    cases hg
  have hlen := (h.of_fixed (congrArg Frame.fixed (p.unlisted_frame e))).2.1
  have hstate := p.unlisted_state e slot
  rw [Part.store_congr (p.strikeEntry_stores e hr quiet)]
  have hpush : (p.unlisted e).noticeStrike e reason = (p.unlisted e).pushStruck slot { ticket := e.ticket, reason } := by
    unfold Part.noticeStrike
    rw [ho]
    simp [hg, hstate, ha]
  rw [hpush]
  exact Part.pushStruck_last hlen h1 h16 _

/-! ### DROP (R62) -/

theorem Part.loadGap_stores (p : Part) : p.loadGap.stores = p.stores := by
  unfold Part.loadGap
  split <;> rfl

/-- R121: the strike of the CUED entry writes to the stores what its strike from the book writes. -/
theorem Part.cueStrike_stores {p : Part} {e : Entry} {rest : List Entry} {song : HeldSong} (h : p.holds e rest song) {reason : StrikeReason}
    (hr : reason = .cancelled ∨ reason = .skipped) (quiet : Bool) :
    (p.cueStrike reason quiet).stores = (p.strikeEntry e reason quiet).stores := by
  have hview := Part.cueStrike_roomView p e song reason quiet h.entry h.song (Part.entry_of_first h.entries)
  have hafter : (p.uncued e song.song reason quiet).afterCueStrike reason = (p.uncued e song.song reason quiet).loadGap.raise .play := by
    rcases hr with rfl | rfl <;> rfl
  rw [hafter] at hview
  obtain ⟨-, -, -, -, -, -, -, -, -, -, -, -, hstores, -⟩ := Part.roomView_fields hview
  rw [hstores, Part.raise_stores, Part.loadGap_stores]
  rfl

theorem Part.scoreNotices_replies (p : Part) (e : Entry) : (p.scoreNotices e).replies = p.replies := by
  unfold Part.scoreNotices
  refine foldl_keeps Part.replies _ (fun q c => ?_) e.seats.zipIdx p
  cases c.1 with
  | none => rfl
  | some slot => exact q.mapStore_replies slot fun _ => rfl

theorem Part.readHandsets_stores (p : Part) : p.readHandsets.stores = p.stores := by
  unfold Part.readHandsets
  split <;> rfl

/-- R131: the end of a song leaves the replies. -/
theorem Part.endSong_replies {p : Part} {e : Entry} {rest : List Entry} {song : HeldSong} (h : p.holds e rest song) (kind : EndKind) :
    (p.endSong kind).replies = p.replies := by
  have hheld : p.heldBookEntry = some e := by simp [Part.heldBookEntry, h.entry, Part.entry_of_first h.entries]
  obtain ⟨lyric, hview⟩ := Part.endSong_roomView p e song kind hheld h.song
  obtain ⟨-, -, -, -, -, -, -, -, -, -, -, -, hstores, -⟩ := Part.roomView_fields hview
  rw [Part.raise_stores, Part.loadGap_stores] at hstores
  have hunplayed : (p.unplayed e song kind).stores = ((p.writeResult e.ticket song.song song.blk.edition kind).scoreNotices e).stores := by
    unfold Part.unplayed Part.retire Part.removeEntry
    cases e.origin <;> rfl
  calc (p.endSong kind).replies = (p.unplayed e song kind).replies := Part.replies_of_stores hstores
    _ = ((p.writeResult e.ticket song.song song.blk.edition kind).scoreNotices e).replies := Part.replies_of_stores hunplayed
    _ = (p.writeResult e.ticket song.song song.blk.edition kind).replies := Part.scoreNotices_replies _ e
    _ = p.replies := Part.replies_of_stores p.readHandsets_stores

/-- R62: what a DROP does to the entry of the handset that sends it. -/
structure Part.dropped (p : Part) (slot : Nat) (e : Entry) (u : Part) : Prop where
  replies : u.replies = p.replies
  raised : u.attn.pending.book = true
  entries : u.book.entries = withoutTicket p.book.entries e.ticket
  struck : e.state ≠ .playing → (p.slot slot).state = .active →
    (u.store slot).struck.getLast? = some { ticket := e.ticket, reason := if e.state = .waiting then .cancelled else .skipped }
  waiting : e.state = .waiting →
    u.book.lastStrike = some { ticket := e.ticket, song := e.song, origin := e.origin, reason := .cancelled } ∧ u.play = p.play
  cued : e.state = .cued → u.book.lastStrike = some { ticket := e.ticket, song := e.song, origin := e.origin, reason := .skipped } ∧
    u.play.entry = none ∧ u.attn.pending.play = true
  playing : e.state = .playing → u.play.entry = none ∧ u.attn.pending.play = true ∧
    (u.scorer.result.map fun r => (r.ticket, r.kind)) = some (e.ticket, .skipped)

theorem Part.dropEntry_dropped {p : Part} (h : p.shaped) (hc : p.cueWf) {slot : Nat} (h1 : 1 ≤ slot) (h16 : slot ≤ 16) {e : Entry}
    (he : p.entry e.ticket = some e) (ho : e.origin = .slot slot) : p.dropped slot e (p.dropEntry e) := by
  obtain ⟨hmem, -⟩ := Part.entry_mem he
  cases hs : e.state with
  | waiting =>
    have hdrop : p.dropEntry e = p.strikeEntry e .cancelled false := by simp only [Part.dropEntry, hs, Part.strike_of_entry he]
    have hbook := p.strikeEntry_book e .cancelled false
    rw [hdrop]
    constructor
    case replies => exact p.strikeEntry_replies e (by decide) false
    case raised => rw [Part.strikeEntry_pending]; rfl
    case entries => rw [hbook]
    case struck =>
      intro _ ha
      rw [if_pos hs]
      exact Part.strikeEntry_last h ho h1 h16 rfl ha false
    case waiting => exact fun _ => ⟨by rw [hbook], congrArg Song.play (p.strikeEntry_songView e .cancelled false)⟩
    case cued => exact fun hcued => by rw [hs] at hcued; cases hcued
    case playing => exact fun hplaying => by rw [hs] at hplaying; cases hplaying
  | cued =>
    have hdrop : p.dropEntry e = p.cueStrike .skipped false := by simp only [Part.dropEntry, hs]
    obtain ⟨rest, song, hh⟩ := hc.holds_of_not_waiting hmem (by simp [hs])
    obtain ⟨hbook, -, hentry, hpending⟩ := Part.cueStrike_gap hh (.inr rfl) false
    have hstores := Part.cueStrike_stores hh (.inr rfl) false
    rw [hdrop]
    constructor
    case replies => exact (Part.replies_of_stores hstores).trans (p.strikeEntry_replies e (by decide) false)
    case raised => rw [hpending]; simp
    case entries => rw [hbook]
    case struck =>
      intro _ ha
      rw [Part.store_congr hstores, if_neg (by simp [hs])]
      exact Part.strikeEntry_last h ho h1 h16 rfl ha false
    case waiting => exact fun hw => by rw [hs] at hw; cases hw
    case cued => exact fun _ => ⟨by rw [hbook], hentry, by rw [hpending]⟩
    case playing => exact fun hplaying => by rw [hs] at hplaying; cases hplaying
  | playing =>
    have hdrop : p.dropEntry e = p.endSong .skipped := by simp only [Part.dropEntry, hs]
    obtain ⟨rest, song, hh⟩ := hc.holds_of_not_waiting hmem (by simp [hs])
    obtain ⟨hbook, -, hentry, hpending, hresult⟩ := Part.endSong_gap hh .skipped
    rw [hdrop]
    constructor
    case replies => exact Part.endSong_replies hh .skipped
    case raised => rw [hpending]
    case entries => rw [hbook]
    case struck => exact fun hn => absurd hs hn
    case waiting => exact fun hw => by rw [hs] at hw; cases hw
    case cued => exact fun hcued => by rw [hs] at hcued; cases hcued
    case playing => exact fun _ => ⟨hentry, by rw [hpending], by rw [hresult, Part.writeResult_result]⟩

/-! ### The own entry of a handset (R62, R63) -/

theorem Part.ownEntry_refused {p : Part} {slot ticket : Nat} {cause : Cause}
    (h : (p.entry ticket = none ∧ cause = .noSuchTicket) ∨ (∃ e, p.entry ticket = some e ∧ e.origin ≠ .slot slot ∧ cause = .notYours)) :
    p.ownEntry slot ticket = .inl cause := by
  rcases h with ⟨hnone, rfl⟩ | ⟨e, he, ho, rfl⟩
  · simp only [Part.ownEntry, hnone]
  · simp only [Part.ownEntry, he, if_neg ho]

theorem Part.ownEntry_own {p : Part} {slot ticket : Nat} {e : Entry} (he : p.entry ticket = some e) (ho : e.origin = .slot slot) :
    p.ownEntry slot ticket = .inr e := by
  simp only [Part.ownEntry, he, if_pos ho]

theorem ofU16_le (b0 b1 : Byte) : ofU16 b0 b1 ≤ 65535 := by
  have h0 := b0.isLt
  have h1 := b1.isLt
  unfold ofU16
  omega

theorem ticketInRange_ofU16 {b0 b1 : Byte} (h : 1 ≤ ofU16 b0 b1) : ticketInRange (ofU16 b0 b1) = true := by
  have hle := ofU16_le b0 b1
  simp [ticketInRange, h, hle]

theorem messageOf_drop {b0 b1 : Byte} (h : 1 ≤ ofU16 b0 b1) :
    messageOf (BitVec.ofNat 8 4) [b0, b1] = some (.drop (ofU16 b0 b1)) := if_pos (ticketInRange_ofU16 h)

theorem messageOf_join {b0 b1 : Byte} (h : 1 ≤ ofU16 b0 b1) :
    messageOf (BitVec.ofNat 8 6) [b0, b1] = some (.join (ofU16 b0 b1)) := if_pos (ticketInRange_ofU16 h)

theorem messageOf_key {b0 b1 k : Byte} (h : 1 ≤ ofU16 b0 b1) (hlo : -7 ≤ k.toInt) (hhi : k.toInt ≤ 7) :
    messageOf (BitVec.ofNat 8 5) [b0, b1, k] = some (.key (ofU16 b0 b1) k.toInt) := by
  refine if_pos ?_
  rw [ticketInRange_ofU16 h]
  simp [keyInRange, hlo, hhi]

theorem Part.heard_cueWf {p : Part} (h : p.cueWf) (slot : Nat) (carried : Option Carried) : (p.heard slot carried).cueWf := by
  unfold Part.cueWf at h ⊢
  rw [Part.heard_play, Part.heard_book]
  exact h

/-- R35: a slot that has answered is ACTIVE. -/
theorem Slot.answered_active {x : Slot} (h : x.state = .active ∨ x.state = .silent) : x.answered.state = .active := by
  unfold Slot.answered
  rcases h with h | h <;> simp [h]

/-- R15: the entries with another key for one ticket. -/
theorem Part.writeKey_eq (p : Part) (ticket : Nat) (key : Int) :
    (p.writeKey ticket key).stores = p.stores ∧
      (p.writeKey ticket key).book = { p.book with entries := p.book.entries.map fun x => if x.ticket = ticket then { x with key } else x } ∧
      (p.writeKey ticket key).play = if p.play.entry = some ticket then { p.play with key } else p.play := by
  have hmap : (p.mapEntry ticket fun x => { x with key }).book =
      { p.book with entries := p.book.entries.map fun x => if x.ticket = ticket then { x with key } else x } := by
    unfold Part.mapEntry
    simp only [beq_iff_eq]
  obtain ⟨q, hq⟩ : ∃ q, p.mapEntry ticket (fun x => { x with key }) = q := ⟨_, rfl⟩
  have hplay : q.play = p.play := by rw [← hq, Part.mapEntry_play]
  have hstores : q.stores = p.stores := by rw [← hq, Part.mapEntry_stores]
  rw [hq] at hmap
  have hwrite : p.writeKey ticket key = if q.play.entry = some ticket then { q with play := { q.play with key } } else q := by
    rw [← hq]
    rfl
  rw [hwrite, hplay]
  by_cases hp : p.play.entry = some ticket
  · rw [if_pos hp, if_pos hp]
    exact ⟨hstores, hmap, rfl⟩
  · rw [if_neg hp, if_neg hp]
    exact ⟨hstores, hmap, hplay⟩

/-- Settles O35. -/
theorem dropAndKeyOwnEntry : Obligations.DropAndKeyOwnEntry := by
  intro address b0 b1 k slot carried s hin hshaped hc h1 h16 ha hticket hlo hhi hr
  obtain ⟨q, hq⟩ : ∃ q, s.part.heard slot carried = q := ⟨_, rfl⟩
  have hdrop : exec (.drop address [b0, b1]) s = .next { s with part := (q.takeDrop slot (ofU16 b0 b1)).turnOver } := by
    have hframe : exec (.drop address [b0, b1]) s = .next { s with part := s.part.messageFrame address 4 [b0, b1] } := rfl
    rw [hframe, hin.acts ha (messageOf_drop hticket) hr, hq]
    rfl
  have hkey : exec (.key address [b0, b1, k]) s = .next { s with part := (q.takeKey slot (ofU16 b0 b1) k.toInt).turnOver } := by
    have hframe : exec (.key address [b0, b1, k]) s = .next { s with part := s.part.messageFrame address 5 [b0, b1, k] } := rfl
    rw [hframe, hin.acts ha (messageOf_key hticket hlo hhi) hr, hq]
    rfl
  have hbook : q.book = s.part.book := by rw [← hq, Part.heard_book]
  have hplay : q.play = s.part.play := by rw [← hq, Part.heard_play]
  have hentry : q.entry (ofU16 b0 b1) = s.part.entry (ofU16 b0 b1) := by rw [← hq, Part.heard_entry]
  have hear := (s.part.heard_hearing slot carried).ownSlot hshaped.1 h1 h16
  rw [hq] at hear
  rw [hdrop, hkey, hq]
  refine ⟨fun cause hcause => ?refused, fun e he ho => ⟨?drop, ?key⟩⟩
  case refused =>
    have hown : q.ownEntry slot (ofU16 b0 b1) = .inl cause := Part.ownEntry_refused (by rw [hentry]; exact hcause)
    constructor
    · rw [Part.takeDrop, hown]
      rfl
    · rw [Part.takeKey, hown]
      rfl
  case drop =>
    have hown : q.ownEntry slot (ofU16 b0 b1) = .inr e := Part.ownEntry_own (hentry.trans he) ho
    obtain ⟨-, het⟩ := Part.entry_mem he
    have hq' : q.shaped := hq ▸ hshaped.heard slot carried
    obtain ⟨r, hrep⟩ : ∃ r, q.placeReply slot (.dropped (ofU16 b0 b1)) = r := ⟨_, rfl⟩
    have hr' : r.shaped := hq'.of_fixed (by rw [← hrep]; exact congrArg Frame.fixed (q.placeReply_frame slot _))
    have hrc : r.cueWf := by
      have hqc : q.cueWf := hq ▸ Part.heard_cueWf hc slot carried
      rw [← hrep]
      exact hqc
    have hre : r.entry e.ticket = some e := by
      rw [← hrep, het]
      exact hentry.trans he
    have hrbook : r.book = s.part.book := by rw [← hrep]; exact hbook
    have hrplay : r.play = s.part.play := by rw [← hrep]; exact hplay
    have hreply : (r.store slot).reply = .held (.dropped (ofU16 b0 b1)) := by rw [← hrep]; exact Part.placeReply_reply hq' h1 h16 _
    have hslot : r.slot slot = (s.part.slot slot).answered := by rw [← hrep]; exact hear
    have htake : q.takeDrop slot (ofU16 b0 b1) = r.dropEntry e := by simp only [Part.takeDrop, hown, hrep]
    have hd := Part.dropEntry_dropped hr' hrc h1 h16 hre ho
    rw [htake]
    refine ⟨r.dropEntry e, rfl, (Part.reply_of_replies hd.replies slot).trans hreply, hd.raised, ?_, fun hn hstate => ?_,
      fun hw => ?_, hd.cued, hd.playing⟩
    · rw [hd.entries, hrbook, het]
    · refine hd.struck hn ?_
      rw [hslot]
      exact Slot.answered_active hstate
    · rw [← hrplay]
      exact hd.waiting hw
  case key =>
    have hown : q.ownEntry slot (ofU16 b0 b1) = .inr e := Part.ownEntry_own (hentry.trans he) ho
    have hq' : q.shaped := hq ▸ hshaped.heard slot carried
    obtain ⟨r, hrep⟩ : ∃ r, q.placeReply slot (.keyed (ofU16 b0 b1) k.toInt) = r := ⟨_, rfl⟩
    have hrbook : r.book = s.part.book := by rw [← hrep]; exact hbook
    have hrplay : r.play = s.part.play := by rw [← hrep]; exact hplay
    have hreply : (r.store slot).reply = .held (.keyed (ofU16 b0 b1) k.toInt) := by
      rw [← hrep]
      exact Part.placeReply_reply hq' h1 h16 _
    have htake : q.takeKey slot (ofU16 b0 b1) k.toInt = (r.writeKey (ofU16 b0 b1) k.toInt).raise .book := by
      simp only [Part.takeKey, hown, hrep]
    obtain ⟨wstores, wbook, wplay⟩ := r.writeKey_eq (ofU16 b0 b1) k.toInt
    rw [htake]
    refine ⟨_, rfl, ?_, rfl, ?_, ?_⟩
    · rw [Part.store_raise, Part.store_congr wstores, hreply]
    · rw [Part.raise_book, wbook, hrbook]
    · rw [Part.raise_play, wplay, hrplay]

/-! ### JOIN (R12, R64) -/

/-- R12: the seats and their numbers. -/
theorem freeSeat_eq_none {e : Entry} (h : ∀ i, 1 ≤ i → e.seats[i]? ≠ some none) : freeSeat e = none := by
  rw [freeSeat, Option.map_eq_none_iff, List.find?_eq_none]
  rintro ⟨c, i⟩ hmem hc
  rw [List.mem_zipIdx_iff_getElem?] at hmem
  simp only [Bool.and_eq_true, beq_iff_eq, decide_eq_true_eq] at hc
  exact h i hc.2 (by rw [hmem, hc.1])

theorem freeSeat_eq_some {e : Entry} {i : Nat} (h1 : 1 ≤ i) (hi : e.seats[i]? = some none)
    (hlow : ∀ j, 1 ≤ j → j < i → e.seats[j]? ≠ some none) : freeSeat e = some i := by
  obtain ⟨hlt, hget⟩ := List.getElem?_eq_some_iff.mp hi
  have hfind : (e.seats.zipIdx).find? (fun c => c.1 == none && 1 ≤ c.2) = some (none, i) := by
    rw [List.find?_eq_some_iff_getElem]
    refine ⟨by simp [h1], i, by simpa using hlt, by simp [hget], fun j hj => ?_⟩
    have hjlt : j < e.seats.length := by omega
    simp only [List.getElem_zipIdx, Nat.zero_add, Bool.not_eq_true', Bool.and_eq_false_iff, beq_eq_false_iff_ne, decide_eq_false_iff_not]
    by_cases hj1 : 1 ≤ j
    · refine .inl fun hc => hlow j hj1 hj ?_
      rw [List.getElem?_eq_getElem hjlt, hc]
    · exact .inr hj1
  rw [freeSeat, hfind]
  rfl

theorem Part.joinCheck_refused {p : Part} {slot ticket : Nat} {cause : Cause}
    (h : (p.entry ticket = none ∧ cause = .noSuchTicket) ∨ ∃ e, p.entry ticket = some e ∧
      ((e.state = .playing ∧ cause = .tooLate) ∨ (e.state ≠ .playing ∧ some slot ∈ e.seats ∧ cause = .duplicate) ∨
        (e.state ≠ .playing ∧ some slot ∉ e.seats ∧ (∀ i, 1 ≤ i → e.seats[i]? ≠ some none) ∧ cause = .seatsFull))) :
    p.joinCheck slot ticket = .inl cause := by
  rcases h with ⟨hnone, rfl⟩ | ⟨e, he, ⟨hs, rfl⟩ | ⟨hs, hin, rfl⟩ | ⟨hs, hin, hfull, rfl⟩⟩
  · simp only [Part.joinCheck, hnone]
  · simp only [Part.joinCheck, he, if_pos hs]
  · simp only [Part.joinCheck, he, if_neg hs, List.contains_iff_mem, if_pos hin]
  · simp only [Part.joinCheck, he, if_neg hs, List.contains_iff_mem, if_neg hin, freeSeat_eq_none hfull]

theorem Part.joinCheck_free {p : Part} {slot ticket : Nat} {e : Entry} {i : Nat} (he : p.entry ticket = some e) (hs : e.state ≠ .playing)
    (hin : some slot ∉ e.seats) (h1 : 1 ≤ i) (hi : e.seats[i]? = some none) (hlow : ∀ j, 1 ≤ j → j < i → e.seats[j]? ≠ some none) :
    p.joinCheck slot ticket = .inr (e, i) := by
  simp only [Part.joinCheck, he, if_neg hs, List.contains_iff_mem, if_neg hin, freeSeat_eq_some h1 hi hlow]

theorem Part.setCued_replies (p : Part) (slot ticket : Nat) : (p.setCued slot ticket).replies = p.replies :=
  p.mapStore_replies slot (f := fun st => { st with cued := some ticket }) fun _ => rfl

/-- R12: what an accepted JOIN writes. -/
theorem Part.join_writes {p : Part} (h : p.shaped) {slot : Nat} (h1 : 1 ≤ slot) (h16 : slot ≤ 16) (e : Entry) (seat : Nat) :
    (p.join slot e seat).book = { p.book with entries := p.book.entries.map fun x =>
        if x.ticket = e.ticket then { x with seats := x.seats.set seat (some slot) } else x } ∧
      (p.join slot e seat).replies = p.replies ∧ (p.join slot e seat).attn.pending.book = true ∧
      (p.join slot e seat).slots = p.slots ∧ (e.state = .cued → ((p.join slot e seat).store slot).cued = some e.ticket) := by
  have hmap : (p.mapEntry e.ticket fun x => { x with seats := x.seats.set seat (some slot) }).book =
      { p.book with entries := p.book.entries.map fun x => if x.ticket = e.ticket then { x with seats := x.seats.set seat (some slot) } else x } := by
    unfold Part.mapEntry
    simp only [beq_iff_eq]
  obtain ⟨q, hq⟩ : ∃ q, (p.mapEntry e.ticket fun x => { x with seats := x.seats.set seat (some slot) }).raise .book = q := ⟨_, rfl⟩
  have hjoin : p.join slot e seat = if e.state = .cued then q.setCued slot e.ticket else q := by
    rw [← hq]
    rfl
  have hbook : q.book = (p.mapEntry e.ticket fun x => { x with seats := x.seats.set seat (some slot) }).book := by rw [← hq]; rfl
  have hstores : q.stores = p.stores := by rw [← hq]; rfl
  have hslots : q.slots = p.slots := by rw [← hq]; rfl
  have hpending : q.attn.pending.book = true := by rw [← hq]; rfl
  rw [← hmap, ← hbook, hjoin]
  by_cases hcued : e.state = .cued
  · rw [if_pos hcued]
    refine ⟨rfl, ?_, hpending, hslots, fun _ => ?_⟩
    · exact (q.setCued_replies slot e.ticket).trans (Part.replies_of_stores hstores)
    · rw [Part.setCued, Part.store_mapStore_self _ ((congrArg List.length hstores).trans h.2.1) h1 h16]
  · rw [if_neg hcued]
    exact ⟨rfl, Part.replies_of_stores hstores, hpending, hslots, fun hc => absurd hc hcued⟩

/-- Settles O36. -/
theorem joinAndLeave : Obligations.JoinAndLeave := by
  refine ⟨fun address b0 b1 slot carried s hin hshaped h1 h16 ha hticket hr => ?join,
    fun address slot carried s hin hshaped hc h1 h16 ha hr => ?leave⟩
  case join =>
    obtain ⟨q, hq⟩ : ∃ q, s.part.heard slot carried = q := ⟨_, rfl⟩
    have hexec : exec (.join address [b0, b1]) s = .next { s with part := (q.takeJoin slot (ofU16 b0 b1)).turnOver } := by
      have hframe : exec (.join address [b0, b1]) s = .next { s with part := s.part.messageFrame address 6 [b0, b1] } := rfl
      rw [hframe, hin.acts ha (messageOf_join hticket) hr, hq]
      rfl
    have hentry : q.entry (ofU16 b0 b1) = s.part.entry (ofU16 b0 b1) := by rw [← hq, Part.heard_entry]
    rw [hexec, hq]
    refine ⟨fun cause hcause => ?_, fun e i he hs hfree h1i hi hlow => ?_⟩
    · have hcheck : q.joinCheck slot (ofU16 b0 b1) = .inl cause := Part.joinCheck_refused (by rw [hentry]; exact hcause)
      rw [Part.takeJoin, hcheck]
      rfl
    · have hcheck := Part.joinCheck_free (hentry.trans he) hs hfree h1i hi hlow
      have hq' : q.shaped := hq ▸ hshaped.heard slot carried
      obtain ⟨-, het⟩ := Part.entry_mem he
      have hear := (s.part.heard_hearing slot carried).ownSlot hshaped.1 h1 h16
      rw [hq] at hear
      obtain ⟨r, hrep⟩ : ∃ r, q.placeReply slot (.seated (ofU16 b0 b1) i) = r := ⟨_, rfl⟩
      have hr' : r.shaped := hq'.of_fixed (by rw [← hrep]; exact congrArg Frame.fixed (q.placeReply_frame slot _))
      have hrbook : r.book = s.part.book := by rw [← hrep, ← s.part.heard_book slot carried, hq]; rfl
      have hreply : (r.store slot).reply = .held (.seated (ofU16 b0 b1) i) := by
        rw [← hrep]
        exact Part.placeReply_reply hq' h1 h16 _
      have hslot : r.slot slot = (s.part.slot slot).answered := by rw [← hrep]; exact hear
      have htake : q.takeJoin slot (ofU16 b0 b1) = r.join slot e i := by simp only [Part.takeJoin, hcheck, hrep]
      obtain ⟨jbook, jreplies, jpending, jslots, jcued⟩ := Part.join_writes hr' h1 h16 e i
      rw [htake]
      refine ⟨r.join slot e i, rfl, ?_, (Part.reply_of_replies jreplies slot).trans hreply, jpending, ?_, fun hcued => ?_⟩
      · rw [jbook, hrbook, het]
      · rw [Part.slot_congr jslots, hslot]
        rfl
      · rw [jcued hcued, het]
  case leave =>
    have hexec : exec (.leave address []) s = .next { s with part := ((s.part.heard slot carried).depart slot false).turnOver } := by
      have hframe : exec (.leave address []) s = .next { s with part := s.part.messageFrame address 7 [] } := rfl
      rw [hframe, hin.acts ha (kind := 7) (m := .leave) rfl hr]
      rfl
    have hwf := Part.heard_cueWf hc slot carried
    have hd := Part.depart_departed (hshaped.heard slot carried) hwf.2.1 h1 h16 false
    exact ⟨_, hexec, hd.ownSlot, hd.ownStore, hd.handset, by rw [hd.entries, Part.heard_book]⟩

end Sys2Proof.Machine
end

