-- ==== Sys2Proof/Proofs/OutsideFrames.lean ====
section
/-! PROOFS. Proofs/OutsideFrames.lean: frames outside a turn, claims, and breaks (O37, O38, O39). -/

namespace Sys2Proof.Machine

/-! ### Promotion that is not due (R114) -/

theorem Part.promoteIfDue_of_not {p : Part} (h : p.promotionDue = false) : p.promoteIfDue = p := by
  unfold Part.promoteIfDue
  rw [h]
  rfl

/-- R114: whether a promotion is due depends on the play context, the book and the library's state. -/
theorem Part.promotionDue_congr {p q : Part} (hp : q.play = p.play) (hb : q.book = p.book) (hl : q.lib = p.lib) :
    q.promotionDue = p.promotionDue := by
  unfold Part.promotionDue
  rw [hp, hb, hl]

/-! ### Frames in no turn (R32, R34) -/

theorem Part.wholeFrame_of_good {p : Part} {chars : List RxChar} (hrx : p.line.rx = []) (hs : p.line.state = .running)
    (ht : p.sending = false) (h1 : 1 ≤ chars.length) (h46 : chars.length ≤ 46) (hgood : ∀ c ∈ chars, spoiled c = false) :
    p.wholeFrame chars = (p.firstChar.judged chars).promoteIfDue := by
  rw [Part.wholeFrame, Part.receiveFrame_eq hrx hs ht h1 (by omega) (fun h => by omega), Part.collected,
    Part.foldl_countSpoiled_of_good _ hgood]

theorem Part.outsideFrame_between {p : Part} {chars : List RxChar} (hrx : p.line.rx = []) (hs : p.line.state = .running)
    (htx : p.line.tx.isSome = true) (h1 : 1 ≤ chars.length) (hgood : ∀ c ∈ chars, spoiled c = false) :
    p.outsideFrame chars = if p.line.afterMiss then p.countLate else p.countStray := by
  have hsending : p.sending = true := by simp [Part.sending, htx, hrx]
  have hne : chars ≠ [] := List.ne_nil_of_length_pos h1
  unfold Part.outsideFrame
  rw [if_pos ⟨hs, hsending, hne⟩, Part.frameBetween, Part.foldl_countSpoiled_of_good _ hgood]

theorem Part.outsideFrame_whole {p : Part} {chars : List RxChar} (ht : p.sending = false) : p.outsideFrame chars = p.wholeFrame chars := by
  unfold Part.outsideFrame
  exact if_neg fun h => by
    rw [ht] at h
    exact absurd h.2.1 Bool.false_ne_true

/-- R32, R34: in no turn a frame is late after a miss, else stray. -/
theorem Part.firstChar_judged {p : Part} (hturn : p.line.turn = .idleInterval ∨ p.line.turn = .none) (chars : List RxChar) :
    p.firstChar.judged chars = if p.line.afterMiss then p.firstChar.countLate else p.firstChar.countStray := by
  have hturn' : p.firstChar.line.turn = p.line.turn := rfl
  have hclass : p.firstChar.line.rxClass = if p.line.afterMiss then .late else .byTurn := by
    have hfirst : p.firstChar.line.rxClass = p.line.classNow := rfl
    rw [hfirst, Line.classNow]
    rcases hturn with hturn | hturn <;> rw [hturn]
  unfold Part.judged
  rw [hclass]
  cases p.line.afterMiss with
  | true => rfl
  | false =>
    have hstray : p.firstChar.judgeByTurn chars = p.firstChar.countStray := by
      unfold Part.judgeByTurn
      rw [hturn']
      rcases hturn with hturn | hturn <;> rw [hturn]
    exact hstray

/-- Settles O37. -/
theorem outsideFrameIsCounted : Obligations.OutsideFrameIsCounted := by
  intro chars s hs hrx h1 h46 hgood hwhere hdue
  have hlate : exec (.lateAnswer chars) s = .next { s with part := s.part.outsideFrame chars } := rfl
  have hstray : exec (.strayFrame chars) s = .next { s with part := s.part.outsideFrame chars } := rfl
  by_cases htx : s.part.line.tx.isSome = true
  · rw [hlate, hstray, Part.outsideFrame_between hrx hs htx h1 hgood]
    refine ⟨fun hmiss => ?_, fun hmiss => ?_⟩ <;>
      · rw [hmiss]
        exact ⟨_, rfl, rfl, rfl, rfl, rfl, rfl, rfl, rfl, rfl⟩
  · have hturn := hwhere.resolve_left htx
    have hsending : s.part.sending = false := by simp [Part.sending, htx]
    rw [hlate, hstray, Part.outsideFrame_whole hsending, Part.wholeFrame_of_good hrx hs hsending h1 h46 hgood,
      Part.firstChar_judged hturn chars]
    refine ⟨fun hmiss => ?_, fun hmiss => ?_⟩
    · rw [hmiss, if_pos rfl, Part.promoteIfDue_of_not (p := s.part.firstChar.countLate) hdue]
      exact ⟨_, rfl, rfl, rfl, rfl, rfl, rfl, rfl, rfl, rfl⟩
    · rw [hmiss, if_neg Bool.false_ne_true, Part.promoteIfDue_of_not (p := s.part.firstChar.countStray) hdue]
      exact ⟨_, rfl, rfl, rfl, rfl, rfl, rfl, rfl, rfl, rfl⟩

/-! ### Claims (R38, R39) -/

theorem find_slotNumbers_eq_some {f : Nat → Bool} {n : Nat} (h1 : 1 ≤ n) (h16 : n ≤ 16) (hf : f n = true)
    (hlow : ∀ m, 1 ≤ m → m < n → f m = false) : slotNumbers.find? f = some n := by
  have hsplit : slotNumbers = List.range' 1 (n - 1) ++ n :: List.range' (n + 1) (16 - n) := by
    have hall : slotNumbers = List.range' 1 16 := by decide
    have hrest : List.range' n (16 - n + 1) = n :: List.range' (n + 1) (16 - n) := List.range'_succ
    rw [hall, ← hrest]
    have happend := List.range'_append_1 (s := 1) (m := n - 1) (n := 16 - n + 1)
    rw [show 1 + (n - 1) = n by omega, show n - 1 + (16 - n + 1) = 16 by omega] at happend
    exact happend.symm
  rw [List.find?_eq_some_iff_append]
  refine ⟨hf, _, _, hsplit, fun m hm => ?_⟩
  obtain ⟨hm1, hmn⟩ := List.mem_range'_1.mp hm
  simpa using hlow m hm1 (by omega)

theorem find_slotNumbers_eq_none {f : Nat → Bool} (h : ∀ n, 1 ≤ n → n ≤ 16 → f n = false) : slotNumbers.find? f = none := by
  rw [List.find?_eq_none]
  intro n hn
  obtain ⟨h1, h16⟩ := mem_slotNumbers.mp hn
  simpa using h n h1 h16

theorem claimSerial_claimBody {serial : List Byte} (h : serial.length = 6) : claimSerial (claimBody serial) = some serial := by
  obtain ⟨a, b, c, d, e, f, rfl⟩ : ∃ a b c d e f, serial = [a, b, c, d, e, f] := by
    match serial, h with
    | [a, b, c, d, e, f], _ => exact ⟨a, b, c, d, e, f, rfl⟩
  exact if_pos ⟨rfl, rfl, rfl, rfl⟩

theorem claimBody_length {serial : List Byte} (h : serial.length = 6) : (claimBody serial).length = 22 := by
  simp [claimBody, h]

theorem validClaim_claim {serial : List Byte} (h : serial.length = 6) :
    validClaim (parseFrame ((lineFrame 0 0x12 (claimBody serial)).map charOf)) = some serial := by
  rw [parseFrame_lineFrame (by decide) (by decide) (by rw [claimBody_length h]; decide)]
  unfold validClaim
  dsimp only
  rw [if_pos ⟨rfl, rfl⟩, claimSerial_claimBody h]

/-- R39: a claim writes slots, stores and HANDSET alone. -/
theorem Part.decideClaim_keeps (p : Part) (serial : List Byte) :
    (p.decideClaim serial).1 = { p with
      slots := (p.decideClaim serial).1.slots, stores := (p.decideClaim serial).1.stores, attn := (p.decideClaim serial).1.attn } := by
  unfold Part.decideClaim Part.reclaimSlot Part.giveSlot
  (repeat' split) <;> rfl

/-- R37, R39: the line after a valid CLAIM, and the decision it keeps. -/
theorem Part.takeClaim_eq {p : Part} (serial : List Byte) (htx : p.line.tx = none) :
    p.takeClaim serial = { (p.decideClaim serial).1 with line := { p.line with
      turn := .none, reply := none, txNext := none
      tx := some { kind := .grant, address := 0, body := serial ++ u8 (p.decideClaim serial).2 } } } := by
  obtain ⟨q, hq⟩ : ∃ q, (p.decideClaim serial).1 = q := ⟨_, rfl⟩
  have hline : q.line = p.line := by rw [← hq, p.decideClaim_keeps]
  have htake : p.takeClaim serial = Part.sendFrame { q with line := { q.line with turn := .none, reply := none } }
      { kind := .grant, address := 0, body := serial ++ u8 (p.decideClaim serial).2 } := by
    rw [← hq]
    rfl
  have hidle : Part.sending { q with line := { q.line with turn := .none, reply := none } } = false := by
    simp [Part.sending, hline, htx]
  rw [htake, Part.sendFrame_of_idle hidle, hline, hq]

theorem Part.inWindow.sending {p : Part} (h : p.inWindow) : p.sending = false := by
  obtain ⟨-, -, htx, -⟩ := h
  rw [Part.sending, htx]
  rfl

/-- R38: the first character of a frame in a claim window lets REPLY run on. -/
def Part.inFrame (p : Part) : Part := { p with line := { p.line with rxClass := .byTurn } }

theorem Part.inWindow.firstChar {p : Part} (h : p.inWindow) : p.firstChar = p.inFrame := by
  obtain ⟨-, hturn, -, -⟩ := h
  simp only [Part.firstChar, Part.inFrame, Line.classNow, Line.replyAtFirst, hturn]

theorem Part.foldl_countSpoiled_of_window {p : Part} (h : p.line.turn = .claimWindow) (chars : List RxChar) :
    chars.foldl Part.countSpoiled p = p := by
  have hone : ∀ c, p.countSpoiled c = p := fun c => by simp only [Part.countSpoiled, h]
  induction chars with
  | nil => rfl
  | cons c cs ih => rw [List.foldl_cons, hone, ih]

/-- R38: a frame that ends in a claim window is judged by it. -/
theorem Part.inWindow.frame {p : Part} (h : p.inWindow) {chars : List RxChar} (h1 : 1 ≤ chars.length) (h47 : chars.length ≤ 47)
    (hrx : (p.inFrame.judgeClaim chars).line.rx = []) : p.receiveFrame chars = p.inFrame.judgeClaim chars := by
  have ⟨hs, hturn, _, hempty⟩ := h
  have hturn' : p.inFrame.line.turn = .claimWindow := hturn
  have hclass : p.inFrame.line.rxClass = .byTurn := rfl
  have hjudged : (p.collected chars).judged chars = p.inFrame.judgeClaim chars := by
    rw [Part.collected, h.firstChar, Part.foldl_countSpoiled_of_window hturn']
    simp only [Part.judged, hclass, Part.judgeByTurn, hturn']
  rw [← hjudged]
  exact Part.receiveFrame_eq hempty hs h.sending h1 h47 fun _ => by rw [hjudged, hrx]

theorem Part.inWindow.claim {p : Part} (h : p.inWindow) {serial : List Byte} (hserial : serial.length = 6) :
    p.receiveFrame ((lineFrame 0 0x12 (claimBody serial)).map charOf) = p.inFrame.takeClaim serial := by
  have ⟨_, _, htx, hrx⟩ := h
  have hlen : ((lineFrame 0 0x12 (claimBody serial)).map charOf).length = 28 := by
    rw [List.length_map, lineFrame_length, claimBody_length hserial]
  have hjudge : p.inFrame.judgeClaim ((lineFrame 0 0x12 (claimBody serial)).map charOf) = p.inFrame.takeClaim serial := by
    simp only [Part.judgeClaim, validClaim_claim hserial]
  have htx' : p.inFrame.line.tx = none := htx
  rw [← hjudge]
  refine h.frame (by omega) (by omega) ?_
  rw [hjudge, Part.takeClaim_eq serial htx']
  exact hrx

/-- R38: a frame that is no valid CLAIM is counted while REPLY runs. -/
theorem Part.judgeClaim_bad {p : Part} {chars : List RxChar} (h : validClaim (parseFrame chars) = none) (hr : p.line.reply.isSome = true) :
    p.judgeClaim chars = { p with line := { p.line with badClaims := satInc 255 p.line.badClaims } } := by
  obtain ⟨t, ht⟩ := Option.isSome_iff_exists.mp hr
  simp only [Part.judgeClaim, h, ht]

/-! ### The decision on a serial (R39) -/

theorem Part.slotOfSerial_eq_some {p : Part} {serial : List Byte} {slot : Nat} (h1 : 1 ≤ slot) (h16 : slot ≤ 16)
    (hs : (p.slot slot).serial = some serial) (hlow : ∀ n, 1 ≤ n → n < slot → (p.slot n).serial ≠ some serial) :
    p.slotOfSerial serial = some slot :=
  find_slotNumbers_eq_some h1 h16 (by simp [hs]) fun m hm hlt => by simp [hlow m hm hlt]

theorem Part.slotOfSerial_eq_none {p : Part} {serial : List Byte} (h : ∀ n, 1 ≤ n → n ≤ 16 → (p.slot n).serial ≠ some serial) :
    p.slotOfSerial serial = none :=
  find_slotNumbers_eq_none fun n h1 h16 => by simp [h n h1 h16]

theorem Part.lowestFreeSlot_eq_some {p : Part} {slot : Nat} (h1 : 1 ≤ slot) (h16 : slot ≤ 16) (hs : (p.slot slot).state = .free)
    (hlow : ∀ n, 1 ≤ n → n < slot → (p.slot n).state ≠ .free) : p.lowestFreeSlot = some slot :=
  find_slotNumbers_eq_some h1 h16 (by simp [hs]) fun m hm hlt => by simp [hlow m hm hlt]

theorem Part.lowestFreeSlot_eq_none {p : Part} (h : ∀ n, 1 ≤ n → n ≤ 16 → (p.slot n).state ≠ .free) : p.lowestFreeSlot = none :=
  find_slotNumbers_eq_none fun n h1 h16 => by simp [h n h1 h16]

theorem Part.decideClaim_barred {p : Part} {serial : List Byte} {n : Nat} (h : p.slotOfSerial serial = some n)
    (hb : (p.slot n).state = .barred) : p.decideClaim serial = (p, 0x81) := by
  simp only [Part.decideClaim, h, if_pos hb]

theorem Part.decideClaim_reclaim {p : Part} {serial : List Byte} {n : Nat} (h : p.slotOfSerial serial = some n)
    (hb : (p.slot n).state ≠ .barred) : p.decideClaim serial = (p.reclaimSlot n, n) := by
  simp only [Part.decideClaim, h, if_neg hb]

theorem Part.decideClaim_give {p : Part} {serial : List Byte} {n : Nat} (h : p.slotOfSerial serial = none)
    (hf : p.lowestFreeSlot = some n) : p.decideClaim serial = (p.giveSlot n serial, n) := by
  simp only [Part.decideClaim, h, hf]

theorem Part.decideClaim_full {p : Part} {serial : List Byte} (h : p.slotOfSerial serial = none) (hf : p.lowestFreeSlot = none) :
    p.decideClaim serial = (p, 0x80) := by
  simp only [Part.decideClaim, h, hf]

/-- R39: what a re-claim writes. -/
theorem Part.reclaimSlot_writes {p : Part} (hl : p.slots.length = 16) {n : Nat} (h1 : 1 ≤ n) (h16 : n ≤ 16) :
    (p.reclaimSlot n).stores = p.stores ∧ (p.reclaimSlot n).slot n = (p.slot n).answered ∧
      (p.reclaimSlot n).attn.pending.handset = (p.attn.pending.handset || (p.slot n).state == .silent) := by
  unfold Part.reclaimSlot
  by_cases hs : (p.slot n).state = .silent
  · rw [if_pos hs]
    refine ⟨rfl, ?_, ?_⟩
    · rw [Part.slot_raise, Part.slot_mapSlot_self _ hl h1 h16]
      simp only [Slot.answered, hs, if_true]
    · rw [hs]
      simp [SourceSet.put]
  · rw [if_neg hs]
    refine ⟨rfl, ?_, ?_⟩
    · rw [Part.slot_mapSlot_self _ hl h1 h16]
      simp only [Slot.answered, if_neg hs]
    · simp [hs]

theorem Part.giveSlot_writes {p : Part} (hl : p.slots.length = 16) (hl' : p.stores.length = 16) {n : Nat} (h1 : 1 ≤ n) (h16 : n ≤ 16)
    (serial : List Byte) :
    (p.giveSlot n serial).slot n = { Slot.reset with state := .active, serial := some serial } ∧
      (p.giveSlot n serial).store n = Store.empty ∧ (p.giveSlot n serial).attn.pending.handset = true :=
  ⟨Part.slot_mapSlot_self (fun _ => { Slot.reset with state := .active, serial := some serial }) hl h1 h16,
    Part.store_mapStore_self (fun _ => Store.empty) hl' h1 h16, rfl⟩

/-- Settles O38. -/
theorem claimIsDecided : Obligations.ClaimIsDecided := by
  intro s hin ⟨hl, hl', _⟩ hdue
  have ⟨_, _, htx, hrx⟩ := hin
  refine ⟨fun serial hserial => ?claim, fun chars h1 h47 hbad hreply => ?bad⟩
  case claim =>
    obtain ⟨p, hp⟩ : ∃ p, s.part.inFrame = p := ⟨_, rfl⟩
    have hslot : ∀ n, p.slot n = s.part.slot n := fun n => by rw [← hp]; rfl
    have hslots : p.slots = s.part.slots := by rw [← hp]; rfl
    have hstores : p.stores = s.part.stores := by rw [← hp]; rfl
    have hattn : p.attn = s.part.attn := by rw [← hp]; rfl
    have hlen : p.slots.length = 16 := by rw [hslots]; exact hl
    have hlen' : p.stores.length = 16 := by rw [hstores]; exact hl'
    have htake := Part.takeClaim_eq (p := p) serial (by rw [← hp]; exact htx)
    obtain ⟨d, hd⟩ : ∃ d, p.decideClaim serial = d := ⟨_, rfl⟩
    have hkeeps := p.decideClaim_keeps serial
    rw [hd] at hkeeps htake
    have hplay : d.1.play = s.part.play := by rw [hkeeps, ← hp]; rfl
    have hbook : d.1.book = s.part.book := by rw [hkeeps, ← hp]; rfl
    have hlib : d.1.lib = s.part.lib := by rw [hkeeps, ← hp]; rfl
    have hexec : exec (.claim serial) s = .next { s with part := { d.1 with line := { p.line with
        turn := .none, reply := none, txNext := none
        tx := some { kind := .grant, address := 0, body := serial ++ u8 d.2 } } } } := by
      have hframe : exec (.claim serial) s = .next { s with part :=
        (s.part.receiveFrame ((lineFrame 0 0x12 (claimBody serial)).map charOf)).promoteIfDue } := rfl
      rw [hframe, hin.claim hserial, hp, htake, Part.promoteIfDue_of_not]
      rw [← hdue]
      exact Part.promotionDue_congr hplay hbook hlib
    refine ⟨_, BitVec.ofNat 8 d.2, hexec, rfl, rfl, rfl, hbook, fun slot h1 h16 hs hlow => ⟨fun hb => ?_, fun hb => ?_⟩,
      fun hno => ⟨fun slot h1 h16 hfree hlow => ?_, fun hfull => ?_⟩⟩
    · have hfound := Part.slotOfSerial_eq_some (p := p) h1 h16 (by rw [hslot, hs]) (by simpa only [hslot] using hlow)
      rw [← hd, Part.decideClaim_barred hfound (by rw [hslot, hb])]
      exact ⟨rfl, hslots, hstores⟩
    · have hfound := Part.slotOfSerial_eq_some (p := p) h1 h16 (by rw [hslot, hs]) (by simpa only [hslot] using hlow)
      obtain ⟨wstores, wslot, whandset⟩ := Part.reclaimSlot_writes hlen h1 h16
      rw [← hd, Part.decideClaim_reclaim hfound (by rw [hslot]; exact hb)]
      rw [hslot] at wslot whandset
      rw [hattn] at whandset
      exact ⟨rfl, wstores.trans hstores, wslot, whandset⟩
    · have hnone := Part.slotOfSerial_eq_none (p := p) (serial := serial) (by simpa only [hslot] using hno)
      have hfound := Part.lowestFreeSlot_eq_some (p := p) h1 h16 (by rw [hslot, hfree]) (by simpa only [hslot] using hlow)
      rw [← hd, Part.decideClaim_give hnone hfound]
      obtain ⟨wslot, wstore, whandset⟩ := Part.giveSlot_writes hlen hlen' h1 h16 serial
      exact ⟨rfl, wslot, wstore, whandset⟩
    · have hnone := Part.slotOfSerial_eq_none (p := p) (serial := serial) (by simpa only [hslot] using hno)
      have hfull' := Part.lowestFreeSlot_eq_none (p := p) (by simpa only [hslot] using hfull)
      rw [← hd, Part.decideClaim_full hnone hfull']
      exact ⟨rfl, hslots, hstores⟩
  case bad =>
    have hjudge := Part.judgeClaim_bad (p := s.part.inFrame) hbad hreply
    have hframe : exec (.badClaim chars) s = .next { s with part := (s.part.receiveFrame chars).promoteIfDue } := rfl
    obtain ⟨u, hu⟩ : ∃ u : Part, { s.part.inFrame with line := { s.part.inFrame.line with
        badClaims := satInc 255 s.part.inFrame.line.badClaims } } = u := ⟨_, rfl⟩
    have hquiet : u.promotionDue = false := by rw [← hu]; exact hdue
    rw [hframe, hin.frame h1 h47 (by rw [hjudge]; exact hrx), hjudge, hu, Part.promoteIfDue_of_not hquiet]
    subst hu
    exact ⟨_, rfl, rfl, rfl, rfl, rfl⟩

/-! ### Breaks (R30, R31) -/

/-- Settles O39. -/
theorem breakAndItsEnd : Obligations.BreakAndItsEnd := by
  intro s
  refine ⟨fun hs ht => ?begins, fun hs => ?ends⟩
  case begins =>
    obtain ⟨q, hq⟩ : ∃ q, s.part.abandonTurn = q := ⟨_, rfl⟩
    have hbreak : s.part.breakBegins = Part.raise { q with line := { q.line with
        tx := none, txNext := none, state := .broken, rx := [], breaks := satInc 255 q.line.breaks } } .line := by
      rw [← hq]
      exact if_pos ⟨hs, ht⟩
    have hexec : exec .lineBreak s = .next { s with part := s.part.breakBegins } := rfl
    obtain ⟨hturn, hround, -, hreply, -⟩ := s.part.abandonTurn_fields
    have hsteps := s.part.abandonTurn_stepsLine
    have hcounts := s.part.abandonTurn_counts
    rw [hq] at hturn hround hreply hsteps hcounts
    simp only [Line.counts, Prod.mk.injEq] at hcounts
    obtain ⟨-, hstrays, -, -, hbreaks⟩ := hcounts
    have hattn : q.attn = s.part.attn := by rw [hsteps]
    rw [hexec, hbreak]
    refine ⟨_, rfl, rfl, hturn, hreply, rfl, rfl, congrArg (satInc 255) hbreaks, hstrays, hround, ?_, ?_, ?_⟩
    · rw [hsteps]
      rfl
    · rw [hsteps]
      rfl
    · exact congrArg (fun a : Attention => a.pending.put .line true) hattn
  case ends =>
    have hend : s.part.breakEnds = s.part.endBreak := if_pos hs
    have hexec : exec .breakEnd s = .next { s with part := s.part.breakEnds } := rfl
    rw [hexec, hend]
    rfl

end Sys2Proof.Machine
end

