-- ==== Sys2Proof/Proofs/Catalog.lean ====
section
/-! PROOFS. Proofs/Catalog.lean: the catalog a mount forms, LIST SONGS and LIBRARY STATUS (O42, O44). -/

namespace Sys2Proof.Machine

/-! ### The order of candidates (R73) -/

theorem beats_iff (a b : Candidate) :
    beats a b = true ↔ a.header.song = b.header.song ∧ (b.header.edition < a.header.edition ∨
      a.header.edition = b.header.edition ∧ (a.die < b.die ∨ a.die = b.die ∧ a.block < b.block)) := by
  simp [beats]

theorem not_beats_self (a : Candidate) : beats a a = false := by
  rw [Bool.eq_false_iff, ne_eq, beats_iff]
  omega

theorem beats_trans {a b c : Candidate} (hab : beats a b = true) (hbc : beats b c = true) : beats a c = true := by
  rw [beats_iff] at *
  omega

/-- R73: among the candidates of a song one is beaten by none. -/
theorem exists_unbeaten {all : List Candidate} {song : Nat} (h : ∃ c ∈ all, c.header.song = song) :
    ∃ m ∈ all, m.header.song = song ∧ ∀ a ∈ all, beats a m = false := by
  induction all with
  | nil =>
    obtain ⟨c, hc, -⟩ := h
    cases hc
  | cons x xs ih =>
    by_cases hxs : ∃ c ∈ xs, c.header.song = song
    · obtain ⟨m, hm, hsong, hbest⟩ := ih hxs
      cases hx : beats x m with
      | false =>
        refine ⟨m, List.mem_cons_of_mem x hm, hsong, fun a ha => ?_⟩
        rcases List.mem_cons.mp ha with rfl | ha
        · exact hx
        · exact hbest a ha
      | true =>
        have hxsong : x.header.song = song := ((beats_iff x m).mp hx).1.trans hsong
        refine ⟨x, List.mem_cons_self, hxsong, fun a ha => ?_⟩
        rcases List.mem_cons.mp ha with rfl | ha
        · exact not_beats_self _
        · rw [Bool.eq_false_iff]
          intro hax
          have ham := hbest a ha
          rw [beats_trans hax hx] at ham
          cases ham
    · obtain ⟨c, hc, hsong⟩ := h
      have hcx : c = x := by
        rcases List.mem_cons.mp hc with rfl | hc
        · rfl
        · exact absurd ⟨c, hc, hsong⟩ hxs
      subst hcx
      refine ⟨c, List.mem_cons_self, hsong, fun a ha => ?_⟩
      rcases List.mem_cons.mp ha with rfl | ha
      · exact not_beats_self _
      · rw [Bool.eq_false_iff]
        intro hac
        exact hxs ⟨a, ha, ((beats_iff a c).mp hac).1.trans hsong⟩

theorem mem_keptCandidates {all : List Candidate} {c : Candidate} :
    c ∈ keptCandidates all ↔ c ∈ all ∧ ∀ a ∈ all, beats a c = false := by
  simp [keptCandidates]

/-! ### The candidates of a die (R72) -/

theorem mem_candidatesOf {d : Nat} {judged : List Judgement} {c : Candidate} :
    c ∈ candidatesOf d judged ↔ c.die = d ∧ judged[c.block]? = some (.candidate c.header) := by
  simp only [candidatesOf, List.mem_filterMap, Prod.exists, List.mem_zipIdx_iff_getElem?]
  constructor
  · rintro ⟨j, block, hj, hc⟩
    cases j with
    | candidate header =>
      cases hc
      exact ⟨rfl, hj⟩
    | bad => cases hc
    | free => cases hc
    | reclaim => cases hc
  · rintro ⟨rfl, hj⟩
    exact ⟨.candidate c.header, c.block, hj, rfl⟩

/-- Two candidates of one list lie on different blocks. -/
def Candidate.apart (a b : Candidate) : Prop := a.die ≠ b.die ∨ a.block ≠ b.block

theorem candidatesOf_apart (d : Nat) (judged : List Judgement) : (candidatesOf d judged).Pairwise Candidate.apart := by
  have hindex : judged.zipIdx.Pairwise fun x y => x.2 < y.2 := by
    have hsorted : (judged.zipIdx.map Prod.snd).Pairwise (· < ·) := by
      rw [List.zipIdx_map_snd]
      exact List.pairwise_lt_range'
    exact List.pairwise_map.mp hsorted
  rw [candidatesOf, List.pairwise_filterMap]
  refine hindex.imp fun {x y} hlt a ha b hb => .inr ?_
  obtain ⟨j, k⟩ := x
  obtain ⟨j', k'⟩ := y
  have hblock : ∀ (j : Judgement) (k : Nat) (c : Candidate), (match j with
      | .candidate header => some { header, die := d, block := k }
      | .bad => none
      | .free => none
      | .reclaim => none) = some c → c.block = k := by
    intro j k c hc
    cases j <;> cases hc
    rfl
  rw [hblock j k a ha, hblock j' k' b hb]
  exact Nat.ne_of_lt hlt

theorem candidates_apart (judged0 judged1 : List Judgement) :
    (candidatesOf 0 judged0 ++ candidatesOf 1 judged1).Pairwise Candidate.apart := by
  rw [List.pairwise_append]
  refine ⟨candidatesOf_apart 0 judged0, candidatesOf_apart 1 judged1, fun a ha b hb => .inl ?_⟩
  rw [(mem_candidatesOf.mp ha).1, (mem_candidatesOf.mp hb).1]
  decide

/-- R73: one candidate is kept for a song. -/
theorem keptCandidates_songs {all : List Candidate} (h : all.Pairwise Candidate.apart) :
    (keptCandidates all).Pairwise fun a b => a.header.song ≠ b.header.song := by
  refine (h.filter _).imp_of_mem fun {a b} ha hb hapart hsong => ?_
  obtain ⟨haa, hab⟩ := mem_keptCandidates.mp ha
  obtain ⟨hbb, hba⟩ := mem_keptCandidates.mp hb
  have h1 := hab b hbb
  have h2 := hba a haa
  rw [Bool.eq_false_iff, ne_eq, beats_iff] at h1 h2
  rcases hapart with hdie | hblock <;> omega

/-! ### The catalog of kept candidates (R66, R74) -/

theorem insertEntry_perm (e : CatEntry) (l : List CatEntry) : (insertEntry e l).Perm (e :: l) := by
  induction l with
  | nil => exact List.Perm.refl _
  | cons x xs ih =>
    rw [insertEntry]
    split
    · exact List.Perm.refl _
    · exact (ih.cons x).trans (List.Perm.swap e x xs)

theorem insertEntry_sorted {e : CatEntry} {l : List CatEntry} (h : l.Pairwise fun a b => a.song < b.song) (hne : ∀ x ∈ l, x.song ≠ e.song) :
    (insertEntry e l).Pairwise fun a b => a.song < b.song := by
  induction l with
  | nil => exact List.pairwise_singleton ..
  | cons x xs ih =>
    obtain ⟨hx, hxs⟩ := List.pairwise_cons.mp h
    rw [insertEntry]
    split
    · next hlt =>
      refine List.pairwise_cons.mpr ⟨fun y hy => ?_, h⟩
      rcases List.mem_cons.mp hy with rfl | hy
      · exact hlt
      · exact hlt.trans (hx y hy)
    · next hge =>
      refine List.pairwise_cons.mpr ⟨fun y hy => ?_, ih hxs fun y hy => hne y (List.mem_cons_of_mem x hy)⟩
      rcases List.mem_cons.mp ((insertEntry_perm e xs).mem_iff.mp hy) with rfl | hy
      · have hxe := hne x List.mem_cons_self
        omega
      · exact hx y hy

theorem foldl_insertEntry_perm (kept : List Candidate) (cat : List CatEntry) :
    (kept.foldl (fun cat c => insertEntry (entryOf c) cat) cat).Perm (kept.map entryOf ++ cat) := by
  induction kept generalizing cat with
  | nil => exact List.Perm.refl _
  | cons c cs ih =>
    rw [List.foldl_cons, List.map_cons, List.cons_append]
    exact (ih _).trans (((insertEntry_perm (entryOf c) cat).append_left _).trans List.perm_middle)

theorem mem_catalogOf {kept : List Candidate} {e : CatEntry} : e ∈ catalogOf kept ↔ ∃ c ∈ kept, entryOf c = e := by
  rw [catalogOf, (foldl_insertEntry_perm kept []).mem_iff, List.append_nil, List.mem_map]

theorem entryOf_song (c : Candidate) : (entryOf c).song = c.header.song := rfl

theorem foldl_insertEntry_sorted {kept : List Candidate} {cat : List CatEntry} (h : kept.Pairwise fun a b => a.header.song ≠ b.header.song)
    (hcat : cat.Pairwise fun a b => a.song < b.song) (hne : ∀ c ∈ kept, ∀ x ∈ cat, x.song ≠ c.header.song) :
    (kept.foldl (fun cat c => insertEntry (entryOf c) cat) cat).Pairwise fun a b => a.song < b.song := by
  induction kept generalizing cat with
  | nil => exact hcat
  | cons c cs ih =>
    obtain ⟨hc, hcs⟩ := List.pairwise_cons.mp h
    refine ih hcs (insertEntry_sorted hcat (hne c List.mem_cons_self)) fun b hb x hx => ?_
    rcases List.mem_cons.mp ((insertEntry_perm (entryOf c) cat).mem_iff.mp hx) with rfl | hx
    · exact hc b hb
    · exact hne b (List.mem_cons_of_mem c hb) x hx

/-- Settles O42. -/
theorem mountedCatalogIsSorted : Obligations.MountedCatalogIsSorted := by
  rintro judged0 judged1 all rfl
  have hsongs := keptCandidates_songs (candidates_apart judged0 judged1)
  refine ⟨foldl_insertEntry_sorted hsongs List.Pairwise.nil (fun _ _ _ hx => by cases hx), fun c hc => ?_, fun e he => ?_,
    fun c hc => ?_⟩
  · obtain ⟨m, hm, hsong, hbest⟩ := exists_unbeaten ⟨c, hc, rfl⟩
    exact ⟨entryOf m, mem_catalogOf.mpr ⟨m, mem_keptCandidates.mpr ⟨hm, hbest⟩, rfl⟩, hsong⟩
  · obtain ⟨c, hc, rfl⟩ := mem_catalogOf.mp he
    exact ⟨c, hc, rfl⟩
  · obtain ⟨hall, hbest⟩ := mem_keptCandidates.mp hc
    refine ⟨hall, fun a ha hsong => ?_⟩
    have hnot := hbest a ha
    rw [Bool.eq_false_iff, ne_eq, beats_iff] at hnot
    omega

/-! ### LIST SONGS and LIBRARY STATUS (R78, R109) -/

/-- Settles O44. -/
theorem listSongsAndLibraryStatus : Obligations.ListSongsAndLibraryStatus := by
  refine ⟨fun tag b0 b1 b2 count s h => ?list, fun tag s h => ⟨exec_ok (body := cmdLibraryStatus []) (fun _ => rfl) h rfl,
    exec_ok (body := cmdLibraryStatus [1#8]) (fun _ => rfl) h rfl⟩⟩
  have hoffers : Instr.offers (.listSongs tag [b0, b1, b2, count]) tag (cmdListSongs [b0, b1, b2, count]) := fun _ => rfl
  have hcmd : cmdListSongs [b0, b1, b2, count] s.part =
      if !(songInRange (ofU24 b0 b1 b2) && 1 ≤ count.toNat && count.toNat ≤ 32) then (s.part, .refused .badForm)
      else if s.part.lib.state != .mounted then (s.part, .refused .notMounted)
      else (s.part, .ok (s.part.songList (ofU24 b0 b1 b2) count.toNat)) := rfl
  refine ⟨fun hsong h1 h32 => ?_, fun hbad => exec_refused hoffers h ?_⟩
  · have hform : (!(songInRange (ofU24 b0 b1 b2) && 1 ≤ count.toNat && count.toNat ≤ 32)) = false := by simp [hsong, h1, h32]
    rw [hform, if_neg Bool.false_ne_true] at hcmd
    refine ⟨fun hm => exec_ok hoffers h ?_, fun hm => exec_refused hoffers h ?_⟩
    · rw [hcmd, if_neg (by simp [hm])]
    · rw [hcmd, if_pos (by simp [hm])]
  · rw [hcmd, if_pos]
    rcases hbad with hbad | hbad | hbad
    · simp [hbad]
    · simp; omega
    · simp; omega

end Sys2Proof.Machine
end

