-- ==== Sys2Proof/Proofs/Dies.lean ====
section
/-! PROOFS. Proofs/Dies.lean: the dies, their requests and their identification (O40). -/

namespace Sys2Proof.Machine

/-! ### Answers other than OK (R176) -/

section
variable {i : Instr} {tag : Byte} {body : Part → Part × CmdResult} {s : State}

theorem exec_accepted (hi : Instr.offers i tag body) (h : s.part.ready) {u : Part} (hb : body s.part = (u, .accepted)) :
    exec i s = .next (State.answered { s with part := u } tag .accepted []) := by
  rw [exec_of_offers hi h, hb]
  rfl

theorem exec_wait (hi : Instr.offers i tag body) (h : s.part.ready) (hb : body s.part = (s.part, .wait)) :
    exec i s = .next (s.answered tag .wait []) := by
  rw [exec_of_offers hi h, hb]
  rfl

end

/-! ### One die and the other (R93) -/

theorem Part.die_zero (p : Part) : p.die 0 = p.lib.die0 := rfl
theorem Part.die_one (p : Part) : p.die 1 = p.lib.die1 := rfl

theorem Part.mapDie_zero (p : Part) (f : Die → Die) : p.mapDie 0 f = { p with lib := { p.lib with die0 := f p.lib.die0 } } := rfl
theorem Part.mapDie_one (p : Part) (f : Die → Die) : p.mapDie 1 f = { p with lib := { p.lib with die1 := f p.lib.die1 } } := rfl

theorem Part.mapDie_mapDie (p : Part) (d : Nat) (f g : Die → Die) : (p.mapDie d f).mapDie d g = p.mapDie d fun x => g (f x) := by
  unfold Part.mapDie
  split <;> rfl

theorem Part.mapDie_congr (p : Part) (d : Nat) {f g : Die → Die} (h : f (p.die d) = g (p.die d)) : p.mapDie d f = p.mapDie d g := by
  unfold Part.mapDie
  unfold Part.die at h
  split <;> simp_all

theorem Part.mapDie_id (p : Part) (d : Nat) : (p.mapDie d fun x => x) = p := by
  unfold Part.mapDie
  split <;> rfl

/-- Two die positions that differ. -/
theorem Part.mapDie_die_of_ne (p : Part) {d e : Nat} (f : Die → Die) (h : ¬(d = 0 ↔ e = 0)) : (p.mapDie d f).die e = p.die e := by
  unfold Part.mapDie Part.die
  by_cases hd : d = 0 <;> by_cases he : e = 0 <;> simp [hd, he] at h ⊢

theorem Part.die_congr {p q : Part} (h : q.lib = p.lib) (d : Nat) : q.die d = p.die d := by
  unfold Part.die
  rw [h]

/-! ### What the arbiter leaves (R101) -/

/-- A die but for what the arbiter and an operation write: its state, the operation in progress, its watch and the waiting requests. -/
def Die.unscheduled (x : Die) : Die := { x with state := .unidentified, op := none, watch := none, waiting := [] }

/-- What the arbiter leaves of the library, the catalog and the install record. -/
def Part.shelf (p : Part) : Library × List CatEntry × Option Install :=
  ({ p.lib with die0 := p.lib.die0.unscheduled, die1 := p.lib.die1.unscheduled }, p.catalog, p.install)

theorem Part.mapDie_shelf (p : Part) (d : Nat) {f : Die → Die} (h : ∀ x, (f x).unscheduled = x.unscheduled) :
    (p.mapDie d f).shelf = p.shelf := by
  unfold Part.mapDie Part.shelf
  split <;> simp only [h]

theorem Part.shelf_of_lib {p q : Part} (hl : q.lib = p.lib) (hc : q.catalog = p.catalog) (hi : q.install = p.install) :
    q.shelf = p.shelf := by
  unfold Part.shelf
  rw [hl, hc, hi]

/-- The fields of the library that the arbiter leaves. -/
structure Part.sameShelf (p q : Part) : Prop where
  state : q.lib.state = p.lib.state
  reclaim : q.lib.reclaim = p.lib.reclaim
  programMark : q.lib.programMark = p.lib.programMark
  libwp : q.lib.libwp = p.lib.libwp
  lastOperation : q.lib.lastOperation = p.lib.lastOperation
  lastFault : q.lib.lastFault = p.lib.lastFault
  faultCount : q.lib.faultCount = p.lib.faultCount
  catalog : q.catalog = p.catalog
  install : q.install = p.install
  dies : ∀ d, (q.die d).unscheduled = (p.die d).unscheduled

theorem Part.sameShelf_of_shelf {p q : Part} (h : q.shelf = p.shelf) : p.sameShelf q := by
  simp only [Part.shelf, Prod.mk.injEq, Library.mk.injEq] at h
  obtain ⟨⟨hs, h0, h1, hr, hm, hw, ho, hf, hn⟩, hc, hi⟩ := h
  refine ⟨hs, hr, hm, hw, ho, hf, hn, hc, hi, fun d => ?_⟩
  unfold Part.die
  split
  · exact h0
  · exact h1

theorem Part.sameShelf.map {p q : Part} (h : p.sameShelf q) (d : Nat) : (q.die d).map = (p.die d).map := by
  have hall : (q.die d).unscheduled.map = (p.die d).unscheduled.map := by rw [h.dies d]
  exact hall

theorem Part.sameShelf.scan {p q : Part} (h : p.sameShelf q) (d : Nat) : (q.die d).scan = (p.die d).scan := by
  have hall : (q.die d).unscheduled.scan = (p.die d).unscheduled.scan := by rw [h.dies d]
  exact hall

theorem Part.sameShelf.judged {p q : Part} (h : p.sameShelf q) (d : Nat) : (q.die d).judged = (p.die d).judged := by
  have hall : (q.die d).unscheduled.judged = (p.die d).unscheduled.judged := by rw [h.dies d]
  exact hall

theorem Part.sameShelf.identifying {p q : Part} (h : p.sameShelf q) (d : Nat) : (q.die d).identifying = (p.die d).identifying := by
  have hall : (q.die d).unscheduled.identifying = (p.die d).unscheduled.identifying := by rw [h.dies d]
  exact hall

section
variable (p : Part) (d : Nat)

@[simp] theorem Part.startOp_shelf (r : Request) : (p.startOp d r).shelf = p.shelf := p.mapDie_shelf d fun _ => rfl
@[simp] theorem Part.opEnds_shelf : (p.opEnds d).shelf = p.shelf := p.mapDie_shelf d fun _ => rfl
@[simp] theorem Part.giveUp_shelf (mine : Requester → Bool) : (p.giveUp d mine).shelf = p.shelf := p.mapDie_shelf d fun _ => rfl

@[simp] theorem Part.request_shelf (r : Request) : (p.request d r).shelf = p.shelf := by
  unfold Part.request
  split
  · split
    · exact p.startOp_shelf d r
    · exact p.mapDie_shelf d fun _ => rfl
  · exact p.mapDie_shelf d fun _ => rfl
  all_goals rfl

@[simp] theorem Part.grant_shelf : (p.grant d).shelf = p.shelf := by
  unfold Part.grant
  split
  · exact (Part.startOp_shelf _ d _).trans (p.mapDie_shelf d fun _ => rfl)
  · split
    · split
      · exact p.startOp_shelf d _
      · exact p.mapDie_shelf d fun _ => rfl
    · exact p.mapDie_shelf d fun _ => rfl

@[simp] theorem Part.grantIfIdle_shelf : (p.grantIfIdle d).shelf = p.shelf := by
  unfold Part.grantIfIdle
  split
  · exact p.grant_shelf d
  · rfl

end

/-! ### Requests (R101) -/

section
variable {p : Part} {d : Nat} {r : Request}

theorem Part.request_idle (h : (p.die d).state = .idle) (hr : mayStart p.lib.libwp r) : p.request d r = p.startOp d r := by
  simp only [Part.request, h, (eligible_iff p.lib.libwp r).mpr hr, if_true]

theorem Part.request_held (h : (p.die d).state = .idle) (hr : ¬mayStart p.lib.libwp r) :
    p.request d r = p.mapDie d fun x => { x with waiting := x.waiting ++ [r] } := by
  have hel : eligible p.lib.libwp r = false := by rw [Bool.eq_false_iff]; exact mt (eligible_iff _ _).mp hr
  simp only [Part.request, h, hel, Bool.false_eq_true, if_false]

theorem Part.request_busy (h : (p.die d).state = .busy) :
    p.request d r = p.mapDie d fun x => { x with waiting := x.waiting ++ [r] } := by
  simp only [Part.request, h]

theorem Part.request_closed (hi : (p.die d).state ≠ .idle) (hb : (p.die d).state ≠ .busy) : p.request d r = p := by
  unfold Part.request
  split
  · next h => exact absurd h hi
  · next h => exact absurd h hb
  all_goals rfl

theorem Part.startOp_die (p : Part) (d : Nat) (r : Request) :
    (p.startOp d r).die d = { p.die d with state := .busy, op := some r, watch := some 960 } := p.mapDie_die d _

end

/-! ### Identification (R71, R94) -/

/-- R72: the scan read of page 0 of block 0. -/
def firstScan : Request := { requester := .scan, block := 0, page := 0, data := [], givenUp := false }

/-- R72: a die that begins its scan. -/
def Die.scanning (x : Die) : Die :=
  { x with scan := .header 0, judged := [], state := .busy, op := some firstScan, watch := some 960 }

theorem Die.scanning_begun (x : Die) : x.scanning.scanBegun := ⟨rfl, rfl, rfl, rfl, rfl⟩

/-- R72: a present die begins its scan. -/
def Die.scanIfIdle (x : Die) : Die := if x.state = .idle then x.scanning else x

theorem Part.beginScan_eq (p : Part) (d : Nat) : p.beginScan d = p.mapDie d Die.scanIfIdle := by
  by_cases h : (p.die d).state = .idle
  · have hread : mayStart (p.mapDie d fun x => { x with scan := .header 0, judged := [] }).lib.libwp firstScan := .inl (by decide)
    have hidle : ((p.mapDie d fun x => { x with scan := .header 0, judged := [] }).die d).state = .idle := by
      rw [Part.mapDie_die]
      exact h
    have hbegin : p.beginScan d = (p.mapDie d fun x => { x with scan := .header 0, judged := [] }).request d firstScan := if_pos h
    rw [hbegin, Part.request_idle hidle hread, Part.startOp, Part.mapDie_mapDie]
    exact p.mapDie_congr d (if_pos (c := (p.die d).state = .idle) h).symm
  · have hbegin : p.beginScan d = p := if_neg h
    rw [hbegin, p.mapDie_congr d (f := Die.scanIfIdle) (g := fun x => x) (if_neg h), Part.mapDie_id]

theorem Part.beginScans_of_identifying {p : Part} (h : p.lib.die0.identifying ≠ none ∨ p.lib.die1.identifying ≠ none) :
    p.beginScans = p := by
  refine if_pos ?_
  simpa [Option.isSome_iff_ne_none] using h

theorem Part.beginScans_of_identified {p : Part} (h0 : p.lib.die0.identifying = none) (h1 : p.lib.die1.identifying = none) :
    p.beginScans = (p.beginScan 0).beginScan 1 := if_neg (by simp [h0, h1])

/-- R72: the scans of the present dies. -/
theorem Part.beginScans_lib {p : Part} (h0 : p.lib.die0.identifying = none) (h1 : p.lib.die1.identifying = none) :
    p.beginScans.lib = { p.lib with die0 := p.lib.die0.scanIfIdle, die1 := p.lib.die1.scanIfIdle } := by
  rw [Part.beginScans_of_identified h0 h1, Part.beginScan_eq, Part.beginScan_eq]
  rfl

theorem Die.scanIfIdle_of_idle {x : Die} (h : x.state = .idle) : x.scanIfIdle.scanBegun := by
  rw [Die.scanIfIdle, if_pos h]
  exact x.scanning_begun

theorem Die.scanIfIdle_of_absent {x : Die} (h : x.state = .absent) : x.scanIfIdle = x := if_neg (by rw [h]; decide)

/-- R94: a position whose identification has ended. -/
def Die.placed (x : Die) (present : Bool) : Die :=
  { x with identifying := none, watch := none, state := if present then .idle else .absent }

theorem Part.identified_present {p : Part} {d : Nat} {present : Bool} (hm : p.lib.state = .mounting) (h : ¬(d = 0 ∧ present = false)) :
    p.identified d present = (p.mapDie d (·.placed present)).beginScans := by
  have hstate : (p.mapDie d (·.placed present)).lib.state = .mounting := (p.mapDie_libState d _).trans hm
  have hident : p.identified d present = if (p.mapDie d (·.placed present)).lib.state = .mounting
      then if d = 0 ∧ present = false then (p.mapDie d (·.placed present)).failMount else (p.mapDie d (·.placed present)).beginScans
      else p.mapDie d (·.placed present) := rfl
  rw [hident, if_pos hstate, if_neg h]

theorem Part.identified_absent0 {p : Part} (hm : p.lib.state = .mounting) :
    p.identified 0 false = (p.mapDie 0 (·.placed false)).failMount := by
  have hident : p.identified 0 false = if p.lib.state = .mounting then (p.mapDie 0 (·.placed false)).failMount
      else p.mapDie 0 (·.placed false) := rfl
  rw [hident, if_pos hm]

theorem geometryOk_iff (g : Geometry) : geometryOk g = true ↔ g = ⟨2048, 64, 2048, 64⟩ := by
  obtain ⟨a, b, c, d⟩ := g
  simp [geometryOk, Config.blocksPerDie, Config.pagesPerBlock, Config.pageBytes, Config.spareBytes, and_assoc]

theorem geometryOk_eq (g : Geometry) : geometryOk g = decide (g = ⟨2048, 64, 2048, 64⟩) := by
  rw [Bool.eq_iff_iff, geometryOk_iff, decide_eq_true_iff]

theorem Part.identifies_geometry {p : Part} {d : Nat} (h : (p.die d).identifying ≠ none) (g : Geometry) :
    p.identifies d (.geometry g) = p.identified d (geometryOk g) := by
  unfold Part.identifies
  cases hi : (p.die d).identifying with
  | none => exact absurd hi h
  | some step => cases step <;> rfl

theorem Part.identifies_none {p : Part} {d : Nat} (h : (p.die d).identifying = none) (report : IdentReport) :
    p.identifies d report = p := by
  unfold Part.identifies
  rw [h]

theorem Part.identifies_ready {p : Part} {d : Nat} (h : (p.die d).identifying = some .reset) :
    p.identifies d .ready = p.mapDie d fun x => { x with identifying := some .identityRead, watch := some 960 } := by
  unfold Part.identifies
  rw [h]
  rfl

theorem Part.identifies_not_reset {p : Part} {d : Nat} (h : (p.die d).identifying ≠ some .reset) : p.identifies d .ready = p := by
  unfold Part.identifies
  cases hi : (p.die d).identifying with
  | none => rfl
  | some step =>
    cases step with
    | reset => exact absurd hi h
    | identityRead => rfl

theorem exec_identification (d : Fin 2) (report : IdentReport) (s : State) :
    exec (.identification d report) s = .next { s with part := s.part.identifies d report } := rfl

/-- Settles O40. -/
theorem mountAndIdentification : Obligations.MountAndIdentification := by
  refine ⟨fun tag s h => ?mount, fun d s => ?report, fun g s hm hi => ?first, fun g s hm hi => ?second⟩
  case mount =>
    have hoffers : Instr.offers (.mount tag []) tag (cmdMount []) := fun _ => rfl
    refine ⟨fun hu => exec_accepted hoffers h (if_pos hu), fun hu => exec_refused hoffers h (if_neg hu)⟩
  case report =>
    refine ⟨fun hi => ?_, fun hi => ?_, fun g hi => ?_⟩
    · rw [exec_identification, Part.identifies_ready hi]
    · rw [exec_identification, Part.identifies_not_reset hi]
    · rw [exec_identification, Part.identifies_none hi]
  case first =>
    rw [exec_identification]
    have hident : s.part.identifies 0 (.geometry g) = s.part.identified 0 (geometryOk g) := Part.identifies_geometry (d := 0) hi g
    refine ⟨fun hg hi1 => ?_, fun hg hi1 => ?_, fun hg => ?_⟩
    · have hscans : (s.part.mapDie 0 (·.placed true)).beginScans = s.part.mapDie 0 (·.placed true) :=
        Part.beginScans_of_identifying (.inr hi1)
      have hpart : s.part.identifies ((0 : Fin 2) : Nat) (.geometry g) = s.part.mapDie 0 (·.placed true) := by
        rw [← hscans, ← Part.identified_present hm (by simp), ← (geometryOk_iff g).mpr hg]
        exact hident
      rw [hpart]
      rfl
    · have hpart : s.part.identifies ((0 : Fin 2) : Nat) (.geometry g) = (s.part.mapDie 0 (·.placed true)).beginScans := by
        rw [← Part.identified_present hm (by simp), ← (geometryOk_iff g).mpr hg]
        exact hident
      have hdies := Part.beginScans_lib (p := s.part.mapDie 0 (·.placed true)) rfl hi1
      rw [hpart]
      refine ⟨_, rfl, ?_, fun h1 => ?_, fun h1 => ?_⟩ <;> rw [hdies]
      · exact Die.scanIfIdle_of_idle rfl
      · exact Die.scanIfIdle_of_idle h1
      · exact Die.scanIfIdle_of_absent h1
    · have hpart : s.part.identifies ((0 : Fin 2) : Nat) (.geometry g) = (s.part.mapDie 0 (·.placed false)).failMount := by
        have hbad : geometryOk g = false := by rw [Bool.eq_false_iff]; exact mt (geometryOk_iff g).mp hg
        rw [← Part.identified_absent0 hm, ← hbad]
        exact hident
      rw [hpart]
      exact ⟨_, rfl, rfl, rfl, rfl, rfl⟩
  case second =>
    have hpart : s.part.identifies ((1 : Fin 2) : Nat) (.geometry g) = (s.part.mapDie 1 (·.placed (geometryOk g))).beginScans := by
      rw [← Part.identified_present hm (by simp)]
      exact Part.identifies_geometry (d := 1) hi g
    rw [exec_identification, hpart, geometryOk_eq]
    refine ⟨fun hi0 => ?_, fun hi0 h0 => ?_⟩
    · rw [Part.beginScans_of_identifying (p := s.part.mapDie 1 _) (.inl hi0)]
      simp only [Part.mapDie_one, Die.placed, decide_eq_true_eq]
    · have hdies := Part.beginScans_lib (p := s.part.mapDie 1 (·.placed (decide (g = ⟨2048, 64, 2048, 64⟩)))) hi0 rfl
      refine ⟨_, rfl, ?_, ?_, fun hg => ?_, fun hg => ?_⟩ <;> rw [hdies]
      · exact hm
      · exact Die.scanIfIdle_of_idle h0
      · rw [decide_eq_true hg]
        exact Die.scanIfIdle_of_idle rfl
      · rw [decide_eq_false hg]
        rfl

end Sys2Proof.Machine
end

