-- ==== Sys2Proof/Proofs/MountScan.lean ====
section
/-! PROOFS. Proofs/MountScan.lean: the ends of reads and erases, a promotion beside the library, and the scan of a mount (O41). -/

namespace Sys2Proof.Machine

/-! ### The end of an operation (R95, R101) -/

section
variable {p : Part} {d : Nat} {kind : Requester → Bool} {r : Request}

theorem Part.readCompletes_of_op {read : PageRead} {act : Request → Part → Part} (hop : (p.die d).op = some r) (hk : kind r.requester = true)
    (hg : r.givenUp = false) :
    p.readCompletes d kind read act = (act r ((p.opEnds d).pageReadEffects d r.block (readOutcome read))).opDone d := by
  have hrun : p.runningOp d kind = some r := by simp [Part.runningOp, hop, hk, Option.filter]
  simp only [Part.readCompletes, hrun, hg, Bool.false_eq_true, if_false]

theorem Part.readCompletes_of_givenUp {read : PageRead} {act : Request → Part → Part} (hop : (p.die d).op = some r)
    (hk : kind r.requester = true) (hg : r.givenUp = true) :
    p.readCompletes d kind read act = ((p.opEnds d).pageReadEffects d r.block (readOutcome read)).opDone d := by
  have hrun : p.runningOp d kind = some r := by simp [Part.runningOp, hop, hk, Option.filter]
  simp only [Part.readCompletes, hrun, hg, if_true]

theorem Part.eraseCompletes_of_op {act : Request → Part → Part} (hop : (p.die d).op = some r) (hk : kind r.requester = true) :
    p.eraseCompletes d kind act = (act r (p.opEnds d)).opDone d := by
  have hrun : p.runningOp d kind = some r := by simp [Part.runningOp, hop, hk, Option.filter]
  simp only [Part.eraseCompletes, hrun]

end

theorem Part.opEnds_die (p : Part) (d : Nat) : (p.opEnds d).die d = { p.die d with op := none, watch := none } := p.mapDie_die d _

/-- R96: the effects of a page read on the library are a fault alone. -/
theorem Part.pageReadEffects_lib (p : Part) (d b : Nat) (outcome : ReadOutcome) :
    (p.pageReadEffects d b outcome).lib = { p.lib with
      lastFault := (p.pageReadEffects d b outcome).lib.lastFault, faultCount := (p.pageReadEffects d b outcome).lib.faultCount } := by
  cases outcome <;> rfl

theorem Part.pageReadEffects_die (p : Part) (d b e : Nat) (outcome : ReadOutcome) : (p.pageReadEffects d b outcome).die e = p.die e := by
  unfold Part.die
  rw [p.pageReadEffects_lib]

/-! ### A promotion beside the library (R114, R115) -/

@[simp] theorem Part.withEntries_shelf (p : Part) (entries : List Entry) : (p.withEntries entries).shelf = p.shelf := by
  unfold Part.withEntries
  exact foldl_keeps Part.shelf Part.setPosition (fun _ _ => rfl) _ _

@[simp] theorem Part.cueNotices_shelf (p : Part) (e : Entry) : (p.cueNotices e).shelf = p.shelf := by
  unfold Part.cueNotices
  exact foldl_keeps Part.shelf (fun q slot => q.setCued slot e.ticket) (fun _ _ => rfl) _ _

@[simp] theorem Part.readerStart_shelf (p : Part) (blk : SongBlock) : (p.readerStart blk).shelf = p.shelf := by
  unfold Part.readerStart Part.requestStream
  dsimp only
  rw [Part.request_shelf, Part.request_shelf]
  rfl

theorem Part.promote_shelf (p : Part) (e : Entry) (blk : SongBlock) : (p.promote e blk).shelf = p.shelf := by
  obtain ⟨q, hq⟩ : ∃ q, p.withEntries (p.book.entries.map fun x => if x.ticket == e.ticket then { x with state := .cued } else x) = q := ⟨_, rfl⟩
  have hpromote : p.promote e blk = (((((q.raise .book).takeCue e blk).armSeats e.singers blk.parts e.seats).cueNotices e).raise .play
      |>.readerStart blk).promotionCards.resetRows := by
    rw [← hq]
    rfl
  have hcards : ∀ x : Part, x.promotionCards.resetRows.shelf = x.shelf := fun _ => rfl
  have hraise : ∀ (x : Part) (src : Source), (x.raise src).shelf = x.shelf := fun _ _ => rfl
  have harm : ∀ x : Part, (x.armSeats e.singers blk.parts e.seats).shelf = x.shelf := fun _ => rfl
  have hcue : ∀ x : Part, (x.takeCue e blk).shelf = x.shelf := fun _ => rfl
  rw [hpromote, hcards, Part.readerStart_shelf, hraise, Part.cueNotices_shelf, harm, hcue, hraise, ← hq, Part.withEntries_shelf]

/-- R114: the promotion that is due is one, or nothing. -/
theorem Part.promoteIfDue_cases (p : Part) : p.promoteIfDue = p ∨ ∃ e blk, p.promoteIfDue = p.promote e blk := by
  unfold Part.promoteIfDue
  split
  · split
    · exact .inl rfl
    · split
      · exact .inl rfl
      · exact .inr ⟨_, _, rfl⟩
  · exact .inl rfl

@[simp] theorem Part.promoteIfDue_shelf (p : Part) : p.promoteIfDue.shelf = p.shelf := by
  obtain h | ⟨e, blk, h⟩ := p.promoteIfDue_cases <;> rw [h]
  exact p.promote_shelf e blk

theorem Part.request_attn (p : Part) (d : Nat) (r : Request) : (p.request d r).attn = p.attn := by
  obtain ⟨-, -, -, hattn, -⟩ := Part.roomView_fields (p.request_roomView d r)
  exact hattn

theorem Part.grant_attn (p : Part) (d : Nat) : (p.grant d).attn = p.attn := by
  obtain ⟨-, -, -, hattn, -⟩ := Part.roomView_fields (p.grant_roomView d)
  exact hattn

theorem Part.cueNotices_attn (p : Part) (e : Entry) : (p.cueNotices e).attn = p.attn := by
  unfold Part.cueNotices
  exact foldl_keeps Part.attn (fun q slot => q.setCued slot e.ticket) (fun _ _ => rfl) _ _

/-- R115: a promotion raises BOOK and PLAY. -/
theorem Part.promote_pending (p : Part) (e : Entry) (blk : SongBlock) :
    (p.promote e blk).attn.pending = { p.attn.pending with book := true, play := true } := by
  have hstart : ∀ x : Part, (x.readerStart blk).attn = x.attn := fun x => by
    unfold Part.readerStart Part.requestStream
    rw [Part.request_attn, Part.request_attn]
  obtain ⟨q, hq⟩ : ∃ q, p.withEntries (p.book.entries.map fun x => if x.ticket == e.ticket then { x with state := .cued } else x) = q := ⟨_, rfl⟩
  have hattn : q.attn = p.attn := by rw [← hq, Part.withEntries_attn]
  have hpromote : (p.promote e blk).attn =
      (((((q.raise .book).takeCue e blk).armSeats e.singers blk.parts e.seats).cueNotices e).raise .play |>.readerStart blk).attn := by
    rw [← hq]
    rfl
  rw [hpromote, hstart, Part.raise_attn, Part.cueNotices_attn]
  rw [← hattn]
  rfl

theorem Part.promoteIfDue_library (p : Part) : p.promoteIfDue.attn.pending.library = p.attn.pending.library := by
  obtain h | ⟨e, blk, h⟩ := p.promoteIfDue_cases <;> rw [h]
  rw [p.promote_pending]

@[simp] theorem Part.opDone_shelf (p : Part) (d : Nat) : (p.opDone d).shelf = p.shelf := by
  rw [Part.opDone, Part.promoteIfDue_shelf, Part.grant_shelf]

theorem Part.opDone_library (p : Part) (d : Nat) : (p.opDone d).attn.pending.library = p.attn.pending.library := by
  rw [Part.opDone, Part.promoteIfDue_library, Part.grant_attn]

/-! ### The judgement of a block (R72, Table 4-3) -/

theorem judgePage0_bad {read : PageRead} (h : read.marker ≠ 0xFF#8) : judgePage0 read = .inl .bad := by
  simp [judgePage0, readFactoryBad, h]

theorem judgePage0_good {read : PageRead} (h : read.marker = 0xFF#8) :
    judgePage0 read = match (readData read).bind validHeader with
      | none => .inl .free
      | some h => .inr h := by
  simp only [judgePage0, readFactoryBad, h, bne_self_eq_false, Bool.false_eq_true, if_false] <;> rfl

/-- R72: a scan read that calls for another read of a BUSY die with nothing waiting: the arbiter grants it. -/
theorem Part.nextScan {p : Part} {d : Nat} (hm : p.lib.state ≠ .mounted) (hb : (p.die d).state = .busy) (hw : (p.die d).waiting = [])
    {r : Request} (hr : r.requester = .scan) :
    ((p.request d r).opDone d).die d = { p.die d with state := .busy, op := some r, watch := some 960, waiting := [] } := by
  have hrequest := Part.request_busy (r := r) hb
  have hdie : (p.request d r).die d = { p.die d with waiting := [] ++ [r] } := by rw [hrequest, Part.mapDie_die, hw]
  have hstate : ((p.request d r).grant d).lib.state = p.lib.state :=
    (Part.sameShelf_of_shelf (((p.request d r).grant_shelf d).trans (p.request_shelf d r))).state
  have hquiet : ((p.request d r).grant d).promotionDue = false := by
    rw [Bool.eq_false_iff, ne_eq, Part.promotionDue_iff, hstate]
    exact fun h => hm h.2.2.1
  have hclass : requestClass r.requester = 3 := by rw [hr]; rfl
  obtain ⟨hchosen, -⟩ := (p.request d r).grant_granted d
  rw [Part.opDone, Part.promoteIfDue_of_not hquiet,
    hchosen r [] [] (by rw [hdie]) (by omega) (.inl (by omega)) (fun _ h => by cases h) (fun _ h => by cases h), hdie]
  rfl

/-! ### The end of the mount (R73, R74) -/

/-- The judgements of a die that was scanned to its end. -/
def Die.found (x : Die) : List Judgement := if x.scan = .done then x.judged else []

/-- R73: the candidates a mount keeps. -/
def Part.kept (p : Part) : List Candidate := keptCandidates (candidatesOf 0 p.lib.die0.found ++ candidatesOf 1 p.lib.die1.found)

/-- R74: what the end of a mount writes. -/
structure Part.mountedFrom (p q : Part) : Prop where
  state : q.lib.state = .mounted
  catalog : q.catalog = catalogOf p.kept
  map0 : (q.die 0).map = (mountDie p.kept 0 p.lib.die0).map
  map1 : (q.die 1).map = (mountDie p.kept 1 p.lib.die1).map
  reclaim : q.lib.reclaim = reclaimOf 0 ((q.die 0).map.getD []) ++ reclaimOf 1 ((q.die 1).map.getD [])
  lastOperation : q.lib.lastOperation = some { kind := .mount, song := none, ending := .done }
  library : q.attn.pending.library = true

theorem Part.mountedFrom.of_shelf {p q u : Part} (h : p.mountedFrom q) (hs : u.shelf = q.shelf)
    (ha : u.attn.pending.library = q.attn.pending.library) : p.mountedFrom u := by
  have hsame := Part.sameShelf_of_shelf hs
  exact ⟨hsame.state.trans h.state, hsame.catalog.trans h.catalog, (hsame.map 0).trans h.map0, (hsame.map 1).trans h.map1,
    by rw [hsame.reclaim, hsame.map, hsame.map, h.reclaim], hsame.lastOperation.trans h.lastOperation, ha.trans h.library⟩

theorem Part.grantIfIdle_attn (p : Part) (d : Nat) : (p.grantIfIdle d).attn = p.attn := by
  unfold Part.grantIfIdle
  split
  · exact p.grant_attn d
  · rfl

theorem Part.completeMount_mountedFrom (p : Part) : p.mountedFrom p.completeMount := by
  obtain ⟨q, hq⟩ : ∃ q : Part, Part.raise (Part.operationEnds { p with
      catalog := catalogOf p.kept
      lib := { p.lib with
        die0 := mountDie p.kept 0 p.lib.die0, die1 := mountDie p.kept 1 p.lib.die1, state := .mounted,
        reclaim := reclaimOf 0 ((mountDie p.kept 0 p.lib.die0).map.getD []) ++ reclaimOf 1 ((mountDie p.kept 1 p.lib.die1).map.getD []) } }
      .mount none .done) .library = q := ⟨_, rfl⟩
  have hcomplete : p.completeMount = (q.grantIfIdle 0).grantIfIdle 1 := by
    rw [← hq]
    rfl
  have hfrom : p.mountedFrom q := by
    rw [← hq]
    exact ⟨rfl, rfl, rfl, rfl, rfl, rfl, rfl⟩
  rw [hcomplete]
  exact hfrom.of_shelf (by simp) (by rw [Part.grantIfIdle_attn, Part.grantIfIdle_attn])

theorem mountDie_map {x : Die} (h : x.scan = .done) (kept : List Candidate) (d : Nat) :
    (mountDie kept d x).map = some (mapOf kept d x.found) := by
  simp only [mountDie, Die.found, h, if_true]

/-! ### The block maps of a mount (R74) -/

theorem mapOf_getElem? {kept : List Candidate} {d block : Nat} {judged : List Judgement} {j : Judgement} (h : judged[block]? = some j) :
    (mapOf kept d judged)[block]? = some (judgedState kept d (j, block)) := by
  simp [mapOf, h]

theorem mem_reclaimOf {map : List BlockState} {block : Nat} (d : Nat) (h : map[block]? = some .reclaim) : (d, block) ∈ reclaimOf d map := by
  simp only [reclaimOf, List.mem_map, List.mem_filter, beq_iff_eq]
  exact ⟨(.reclaim, block), ⟨List.mem_zipIdx_iff_getElem?.mpr h, rfl⟩, rfl⟩

theorem judgedState_candidate (kept : List Candidate) (d block : Nat) (h : HeaderFields) :
    judgedState kept d (.candidate h, block) = if (∃ c ∈ kept, c.die = d ∧ c.block = block) then .song else .reclaim := by
  have hany : (kept.any fun c => c.die == d && c.block == block) = decide (∃ c ∈ kept, c.die = d ∧ c.block = block) := by
    rw [Bool.eq_iff_iff]
    simp
  simp only [judgedState, hany, decide_eq_true_eq]

/-! ### The scan (R72) -/

/-- R72, R96: a die whose scan read has ended, before its block is judged. -/
theorem Part.scanRead_die (p : Part) (d b : Nat) (outcome : ReadOutcome) :
    ((p.opEnds d).pageReadEffects d b outcome).die d = { p.die d with op := none, watch := none } := by
  rw [Part.pageReadEffects_die, Part.opEnds_die]

theorem Part.scanRead_shelf (p : Part) (d b : Nat) (outcome : ReadOutcome) :
    ((p.opEnds d).pageReadEffects d b outcome).lib.state = p.lib.state ∧
      ∀ e, (((p.opEnds d).pageReadEffects d b outcome).die e).unscheduled = (p.die e).unscheduled := by
  have hsame := Part.sameShelf_of_shelf (p.opEnds_shelf d)
  refine ⟨?_, fun e => ?_⟩
  · rw [Part.pageReadEffects_lib]
    exact hsame.state
  · rw [Part.pageReadEffects_die]
    exact hsame.dies e

theorem Part.judgeBlock_next (p : Part) (d : Nat) {block : Nat} (h : block + 1 < 2048) (j : Judgement) :
    p.judgeBlock d block j = (p.mapDie d fun x => { x with judged := x.judged ++ [j], scan := .header (block + 1) }).request d
      { requester := .scan, block := block + 1, page := 0, data := [], givenUp := false } := if_pos h

theorem Part.judgeBlock_last (p : Part) (d : Nat) (j : Judgement) :
    p.judgeBlock d 2047 j = (p.mapDie d fun x => { x with judged := x.judged ++ [j], scan := .done }).mountIfScanned := rfl

/-- R72: a scan read settles its block. -/
theorem Part.scanArrives_settles {p : Part} {d block : Nat} {read : PageRead} {j : Judgement} (r : Request)
    (h : (p.die d).scan = .header block ∧ judgePage0 read = .inl j ∨ ∃ h, (p.die d).scan = .closing block h ∧ judgeClosing h read = j) :
    Part.scanArrives d read r p = p.judgeBlock d block j := by
  unfold Part.scanArrives
  rcases h with ⟨hs, hj⟩ | ⟨f, hs, rfl⟩
  · rw [hs]
    dsimp only
    rw [hj]
  · rw [hs]

theorem Part.scanArrives_closing {p : Part} {d block : Nat} {read : PageRead} {f : HeaderFields} (r : Request)
    (hs : (p.die d).scan = .header block) (hj : judgePage0 read = .inr f) :
    Part.scanArrives d read r p = (p.mapDie d fun x => { x with scan := .closing block f }).request d
      { requester := .scan, block := block, page := f.pages + 1, data := [], givenUp := false } := by
  unfold Part.scanArrives
  rw [hs]
  dsimp only
  rw [hj]
  rfl

theorem exec_mountScanReadComplete (d : Fin 2) (read : PageRead) (s : State) : exec (.mountScanReadComplete d read) s =
    .next { s with part := s.part.readCompletes d (· == .scan) read (Part.scanArrives d read) } := rfl

/-- R73, R75: the mount completes when the present dies are scanned. -/
theorem Part.mountIfScanned_done {p : Part} (hm : p.lib.state = .mounting) (h0 : p.lib.die0.scan = .done)
    (h1 : p.lib.die1.scan = .done ∨ p.lib.die1.state = .absent ∨ p.lib.die1.state = .faulted) : p.mountIfScanned = p.completeMount := by
  refine if_pos ⟨hm, h0, ?_⟩
  rcases h1 with h | h | h <;> simp [h]

/-- Settles O41. -/
theorem scanReadJudgesBlock : Obligations.ScanReadJudgesBlock := by
  refine ⟨fun d r read j s hm hop hreq hgiven hw hb => ?scan, fun read => ?page0, fun h read => ?closing, fun kept d judged => ?maps⟩
  case page0 =>
    refine ⟨judgePage0_bad, fun hg hd => ?_, fun page hg hd hv => ?_, fun page f hg hd hv => ?_⟩ <;> rw [judgePage0_good hg, hd]
    · rfl
    · rw [Option.bind_some, hv]
    · rw [Option.bind_some, hv]
  case closing =>
    refine ⟨fun hd => ?_, fun page hd => ?_⟩ <;> simp only [judgeClosing, hd]
  case maps =>
    refine ⟨by simp [mapOf], fun block j hj => ?_⟩
    have hget := mapOf_getElem? (kept := kept) (d := d) hj
    refine ⟨fun h => ?_, fun h => ?_, fun h => ?_, fun f h => ?_⟩
    · rw [hget, h]; rfl
    · rw [hget, h]; rfl
    · rw [h] at hget
      exact ⟨hget, mem_reclaimOf d hget⟩
    · rw [h, judgedState_candidate] at hget
      refine ⟨fun hkept => ?_, fun hkept => ?_⟩
      · rw [hget, if_pos hkept]
      · rw [if_neg hkept] at hget
        exact ⟨hget, mem_reclaimOf d hget⟩
  case scan =>
    obtain ⟨q, hq⟩ : ∃ q, (s.part.opEnds d).pageReadEffects d r.block (readOutcome read) = q := ⟨_, rfl⟩
    have hdie : q.die d = { s.part.die d with op := none, watch := none } := by rw [← hq, Part.scanRead_die]
    obtain ⟨hstate, hothers⟩ := s.part.scanRead_shelf d r.block (readOutcome read)
    rw [hq] at hstate hothers
    rw [hm] at hstate
    have hscan : (q.die d).scan = (s.part.die d).scan := by rw [hdie]
    have hexec : exec (.mountScanReadComplete d read) s = .next { s with part := (Part.scanArrives d read r q).opDone d } := by
      rw [exec_mountScanReadComplete, Part.readCompletes_of_op hop (by rw [hreq]; rfl) hgiven, hq]
    have hmap : ∀ f : Die → Die, (q.mapDie d f).lib.state ≠ .mounted := fun f => by
      rw [Part.mapDie_libState, hstate]
      decide
    rw [hexec]
    refine ⟨fun block hblock hsettles => ?_, fun block f hheader hj => ?_, fun hsettles hdone0 hdone1 judged kept hjudged hkept => ?_⟩
    · rw [Part.scanArrives_settles r (by rw [hscan]; exact hsettles), q.judgeBlock_next d hblock]
      have hnext := Part.nextScan (d := d) (r := { requester := .scan, block := block + 1, page := 0, data := [], givenUp := false })
        (hmap fun x => { x with judged := x.judged ++ [j], scan := .header (block + 1) }) (by rw [Part.mapDie_die, hdie]; exact hb)
        (by rw [Part.mapDie_die, hdie]; exact hw) rfl
      refine ⟨_, rfl, ?_, ?_, ?_⟩ <;> rw [hnext, Part.mapDie_die, hdie]
    · rw [Part.scanArrives_closing r (by rw [hscan]; exact hheader) hj]
      have hnext := Part.nextScan (d := d) (r := { requester := .scan, block := block, page := f.pages + 1, data := [], givenUp := false })
        (hmap fun x => { x with scan := .closing block f }) (by rw [Part.mapDie_die, hdie]; exact hb)
        (by rw [Part.mapDie_die, hdie]; exact hw) rfl
      refine ⟨_, rfl, ?_, ?_, ?_⟩ <;> rw [hnext, Part.mapDie_die, hdie]
    · rw [Part.scanArrives_settles r (by rw [hscan]; exact hsettles), q.judgeBlock_last d]
      obtain ⟨m, hm'⟩ : ∃ m, (q.mapDie d fun x => { x with judged := x.judged ++ [j], scan := .done }) = m := ⟨_, rfl⟩
      have hown : m.die d = { s.part.die d with op := none, watch := none, judged := (s.part.die d).judged ++ [j], scan := .done } := by
        rw [← hm', Part.mapDie_die, hdie]
      have hother : ∀ e : Fin 2, e ≠ d → m.die e = s.part.die e := fun e he => by
        have hne : ¬((d : Nat) = 0 ↔ (e : Nat) = 0) := by omega
        rw [← hm', Part.mapDie_die_of_ne _ _ hne, ← hq, Part.pageReadEffects_die, Part.opEnds, Part.mapDie_die_of_ne _ _ hne]
      have hfound : ∀ e : Fin 2, (m.die e).found = judged e := fun e => by
        rw [hjudged e]
        by_cases he : e = d
        · subst he
          rw [hown, if_pos rfl]
          rfl
        · rw [hother e he, if_neg he]
          rfl
      have hdone : ∀ e : Fin 2, e = d ∨ (s.part.die e).scan = .done → (m.die e).scan = .done := fun e he => by
        by_cases hd : e = d
        · subst hd
          rw [hown]
        · rw [hother e hd]
          exact he.resolve_left hd
      have hscanned1 : d = 0 → m.die 1 = s.part.die 1 := fun hd => hother 1 (by rw [hd]; decide)
      have h0 : (m.die 0).scan = .done := hdone 0 (by
        obtain rfl | rfl : d = 0 ∨ d = 1 := by omega
        · exact .inl rfl
        · exact .inr (hdone1 rfl))
      have h1 : (m.die 1).scan = .done ∨ (m.die 1).state = .absent ∨ (m.die 1).state = .faulted := by
        obtain rfl | rfl : d = 0 ∨ d = 1 := by omega
        · rw [hscanned1 rfl]
          exact hdone0 rfl
        · exact .inl (hdone 1 (.inl rfl))
      have hmounting : m.lib.state = .mounting := by rw [← hm', Part.mapDie_libState, hstate]
      have hkept' : m.kept = kept := by rw [hkept, ← hfound 0, ← hfound 1]; rfl
      rw [hm', Part.mountIfScanned_done hmounting h0 h1]
      have hfrom := m.completeMount_mountedFrom.of_shelf (m.completeMount.opDone_shelf d) (m.completeMount.opDone_library d)
      have hmaps : ∀ e : Fin 2, ((m.completeMount.opDone d).die e).map = (mountDie m.kept e (m.die e)).map := fun e => by
        obtain rfl | rfl : e = 0 ∨ e = 1 := by omega
        · exact hfrom.map0
        · exact hfrom.map1
      refine ⟨_, rfl, hfrom.state, by rw [hfrom.catalog, hkept'], fun e he => ?_, hfrom.reclaim, hfrom.lastOperation, hfrom.library⟩
      rw [hmaps, mountDie_map (hdone e he), hfound, hkept']

end Sys2Proof.Machine
end

