-- ==== Sys2Proof/Proofs/Lookup.lean ====
section
/-! PROOFS. Proofs/Lookup.lean: LOOK UP SONG and the lookup reads (O43). -/

namespace Sys2Proof.Machine

/-! ### Replies beside a promotion (R115) -/

theorem Part.cueNotices_replies (p : Part) (e : Entry) : (p.cueNotices e).replies = p.replies := by
  unfold Part.cueNotices
  exact foldl_keeps Part.replies (fun q slot => q.setCued slot e.ticket) (fun q slot => q.setCued_replies slot e.ticket) _ _

theorem Part.request_stores_replies (p : Part) (d : Nat) (r : Request) : (p.request d r).replies = p.replies :=
  Part.replies_of_stores (p.request_stores d r)

theorem Part.promote_replies (p : Part) (e : Entry) (blk : SongBlock) : (p.promote e blk).replies = p.replies := by
  obtain ⟨q, hq⟩ : ∃ q, p.withEntries (p.book.entries.map fun x => if x.ticket == e.ticket then { x with state := .cued } else x) = q := ⟨_, rfl⟩
  have hstart : ∀ x : Part, (x.readerStart blk).replies = x.replies := fun x => by
    unfold Part.readerStart Part.requestStream
    rw [Part.request_stores_replies, Part.request_stores_replies]
    rfl
  have hpromote : (p.promote e blk).replies =
      (((((q.raise .book).takeCue e blk).armSeats e.singers blk.parts e.seats).cueNotices e).raise .play |>.readerStart blk).replies := by
    rw [← hq]
    rfl
  have hraise : ∀ (x : Part) (src : Source), (x.raise src).replies = x.replies := fun _ _ => rfl
  rw [hpromote, hstart, hraise, Part.cueNotices_replies]
  have harm : (((q.raise .book).takeCue e blk).armSeats e.singers blk.parts e.seats).replies = q.replies := rfl
  rw [harm, ← hq, Part.withEntries_replies]

theorem Part.promoteIfDue_replies (p : Part) : p.promoteIfDue.replies = p.replies := by
  obtain h | ⟨e, blk, h⟩ := p.promoteIfDue_cases <;> rw [h]
  exact p.promote_replies e blk

theorem Part.opDone_replies (p : Part) (d : Nat) : (p.opDone d).replies = p.replies := by
  obtain ⟨-, -, -, -, -, -, -, -, -, -, -, -, hstores, -⟩ := Part.roomView_fields (p.grant_roomView d)
  rw [Part.opDone, Part.promoteIfDue_replies]
  exact Part.replies_of_stores hstores

/-! ### The entry of a page read (R96) -/

/-- A change of entries that keeps their songs. -/
theorem catEntry_of_catalog_map {p q : Part} {f : CatEntry → CatEntry} (h : q.catalog = p.catalog.map f) (hf : ∀ e, (f e).song = e.song)
    (song : Nat) : q.catEntry song = (p.catEntry song).map f := by
  have hsong : ((fun e : CatEntry => e.song == song) ∘ f) = fun e => e.song == song := by
    funext e
    simp [hf]
  rw [Part.catEntry, h, List.find?_map, hsong]
  rfl

theorem markHealth_song (outcome : ReadOutcome) (e : CatEntry) : (markHealth outcome e).song = e.song := by
  unfold markHealth
  (repeat' split) <;> rfl

theorem Part.pageReadEffects_catalog (p : Part) (d b : Nat) (outcome : ReadOutcome) :
    (p.pageReadEffects d b outcome).catalog =
      p.catalog.map fun e => if e.current.die == d && e.current.block == b then markHealth outcome e else e := by
  cases outcome <;> rfl

/-- R96: the entry whose block was read takes the health of the read. -/
theorem Part.pageReadEffects_catEntry {p : Part} {d b song : Nat} {e : CatEntry} (outcome : ReadOutcome) (h : p.catEntry song = some e)
    (hd : e.current.die = d) (hb : e.current.block = b) :
    (p.pageReadEffects d b outcome).catEntry song = some (markHealth outcome e) := by
  rw [catEntry_of_catalog_map (p.pageReadEffects_catalog d b outcome), h, Option.map_some]
  · simp [hd, hb]
  · intro x
    split
    · exact markHealth_song outcome x
    · rfl

/-! ### LOOK UP SONG (R76, R77) -/

theorem songInRange_iff (song : Nat) : songInRange song = true ↔ 1 ≤ song ∧ song ≤ 999999 := by
  simp [songInRange]

/-- R77: the lookup read of LOOK UP SONG. -/
def portRead (block : Nat) : Request := { requester := .lookupPort, block, page := 0, data := [], givenUp := false }

/-- R101: a read that an IDLE or BUSY die is asked for starts or waits. -/
theorem Part.request_read {p : Part} {d : Nat} {r : Request} (hr : requestClass r.requester ≤ 3)
    (h : (p.die d).state = .idle ∨ (p.die d).state = .busy) :
    ((p.request d r).die d).op = some r ∨ r ∈ ((p.request d r).die d).waiting := by
  rcases h with h | h
  · left
    rw [Part.request_idle h (.inl hr), Part.startOp_die]
  · right
    rw [Part.request_busy h, Part.mapDie_die]
    simp

theorem exec_executing {i : Instr} {tag : Byte} {body : Part → Part × CmdResult} {s : State} (hi : Instr.offers i tag body)
    (h : s.part.ready) {u : Part} {song : Nat} (hb : body s.part = (u, .executing song)) :
    exec i s = .next { s with part := (u.finish tag (.executing song)).quietSdo } := by
  rw [exec_of_offers hi h, hb]

theorem exec_lookupReadComplete (d : Fin 2) (read : PageRead) (s : State) : exec (.lookupReadComplete d read) s =
    .next { s with part := s.part.readCompletes d isLookup read (Part.lookupEnds (readData read)) } := rfl

theorem Part.lookupAnswered_entry {p : Part} {c : LookupCommand} {e : CatEntry} (hc : p.port.lookup = some c) (he : p.catEntry c.song = some e)
    (page : Option (List Byte)) : p.lookupAnswered page = p.answer c.tag .ok (lookupBytes e page) := by
  simp only [Part.lookupAnswered, hc, he]

theorem Part.findAnswered_entry {p : Part} {slot song : Nat} {e : CatEntry} (he : p.catEntry song = some e) (page : Option (List Byte)) :
    p.findAnswered slot song page = p.placeReply slot (.songInfo (match page with
      | none => songInfoOf e [] []
      | some data => songInfoOf e (titleTagOf data) (artistTagOf data))) := by
  cases page <;> simp only [Part.findAnswered, he]

theorem Part.opDone_port_eq (p : Part) (d : Nat) : (p.opDone d).port = p.port := p.opDone_port d

/-- Settles O43. -/
theorem lookUpSongWaitsForRead : Obligations.LookUpSongWaitsForRead := by
  have hcmd : ∀ (b0 b1 b2 : Byte) (p : Part), cmdLookUpSong [b0, b1, b2] p =
      if !songInRange (ofU24 b0 b1 b2) then (p, .refused .badForm)
      else if p.lib.state != .mounted then (p, .refused .notMounted)
      else match p.catEntry (ofU24 b0 b1 b2) with
        | none => (p, .refused .noSuchSong)
        | some e =>
          if e.state == .ready && !p.dieFaulted e.current.die then
            (p.request e.current.die (portRead e.current.block), .executing (ofU24 b0 b1 b2))
          else (p, .ok (lookupBytes e none)) := fun _ _ _ _ => rfl
  have hoffers : ∀ (tag b0 b1 b2 : Byte), Instr.offers (.lookUpSong tag [b0, b1, b2]) tag (cmdLookUpSong [b0, b1, b2]) := fun _ _ _ _ _ => rfl
  refine ⟨fun tag b0 b1 b2 s h hsong => ?form, songInRange_iff, fun tag b0 b1 b2 s h hsong => ?command, fun d read r e s hop hg hd hb => ?read⟩
  case form => exact exec_refused (hoffers tag b0 b1 b2) h (by rw [hcmd, hsong]; rfl)
  case command =>
    have hcmd := hcmd b0 b1 b2 s.part
    rw [hsong, Bool.not_true, if_neg Bool.false_ne_true] at hcmd
    refine ⟨fun hm => exec_refused (hoffers tag b0 b1 b2) h ?_, fun hm hc => exec_refused (hoffers tag b0 b1 b2) h ?_, fun e hm hc => ?_⟩
    · rw [hcmd, if_pos (by simp [hm])]
    · rw [hcmd, if_neg (by simp [hm]), hc]
    · rw [if_neg (by simp [hm]), hc] at hcmd
      refine ⟨fun hr => exec_ok (hoffers tag b0 b1 b2) h ?_, fun hr hdie => ?_⟩
      · exact hcmd.trans (if_neg (by simp [hr]))
      · have hwell : s.part.dieFaulted e.current.die = false := by rcases hdie with hdie | hdie <;> simp [Part.dieFaulted, hdie]
        have hexec := exec_executing (hoffers tag b0 b1 b2) h (hcmd.trans (if_pos (by simp [hr, hwell])))
        have hsame := Part.sameShelf_of_shelf (s.part.request_shelf e.current.die (portRead e.current.block))
        refine ⟨_, hexec, rfl, rfl, rfl, hsame.catalog, ?_⟩
        rintro _ rfl
        exact Part.request_read (r := portRead e.current.block) (show 2 ≤ 3 by decide) hdie
  case read =>
    obtain ⟨q, hq⟩ : ∃ q, (s.part.opEnds d).pageReadEffects d r.block (readOutcome read) = q := ⟨_, rfl⟩
    have hentry : ∀ song, s.part.catEntry song = some e → q.catEntry song = some (markHealth (readOutcome read) e) := fun song he => by
      have hsame := Part.sameShelf_of_shelf (s.part.opEnds_shelf d)
      have he' : (s.part.opEnds d).catEntry song = some e := by rw [Part.catEntry, hsame.catalog]; exact he
      rw [← hq, Part.pageReadEffects_catEntry _ he' hd hb]
    have hframe : q.frame = s.part.frame := by rw [← hq, Part.pageReadEffects_frame, Part.opEnds_frame]
    have hexec : ∀ hk : isLookup r.requester = true, exec (.lookupReadComplete d read) s =
        .next { s with part := (Part.lookupEnds (readData read) r q).opDone d } := fun hk => by
      rw [exec_lookupReadComplete, Part.readCompletes_of_op hop hk hg, hq]
    refine ⟨fun c hreq hc he => ?port, fun slot song hreq he hshaped h1 h16 => ?slot⟩
    case port =>
      have hlookup : q.port.lookup = some c := (congrArg (fun f : Frame => f.port.lookup) hframe).trans hc
      have hends : Part.lookupEnds (readData read) r q =
          q.answer c.tag .ok (lookupBytes (markHealth (readOutcome read) e) (readData read)) := by
        simp only [Part.lookupEnds, hreq, Part.lookupAnswered_entry hlookup (hentry c.song he)]
      refine ⟨_, hexec (by rw [hreq]; rfl), ?_, fun hu => ?_⟩
      · unfold State.hasAnswer
        dsimp only
        rw [Part.opDone_port_eq, hends]
        exact ⟨rfl, rfl⟩
      · refine (Part.opDone_library _ d).trans ?_
        rw [hends, ← hq, hu]
        rfl
    case slot =>
      have hends : Part.lookupEnds (readData read) r q = q.placeReply slot (.songInfo (match readData read with
          | none => songInfoOf (markHealth (readOutcome read) e) [] []
          | some data => songInfoOf (markHealth (readOutcome read) e) (titleTagOf data) (artistTagOf data))) := by
        simp only [Part.lookupEnds, hreq, Part.findAnswered_entry (hentry song he)]
      have hq' : q.shaped := hshaped.of_fixed (congrArg Frame.fixed hframe)
      refine ⟨_, _, hexec (by rw [hreq]; rfl), ?_, rfl⟩
      refine (Part.reply_of_replies (Part.opDone_replies _ d) slot).trans ?_
      rw [hends, Part.placeReply_reply hq' h1 h16] <;> cases readData read <;> rfl

end Sys2Proof.Machine
end

