-- ==== Sys2Proof/Proofs/Install.lean ====
section
/-! PROOFS. Proofs/Install.lean: the install commands and the operations they request (O45, O46). -/

namespace Sys2Proof.Machine

/-! ### Blocks and the reclaim list (R104, R106) -/

theorem Part.setBlock_map (p : Part) (d b : Nat) (st : BlockState) :
    ((p.setBlock d b st).die d).map = (p.die d).map.map fun m => m.set b st := by
  rw [Part.setBlock, Part.mapDie_die]

/-- A block of a map is not of what a die's state depends on. -/
theorem Part.setBlock_state (p : Part) (d b e : Nat) (st : BlockState) : ((p.setBlock d b st).die e).state = (p.die e).state := by
  unfold Part.setBlock Part.mapDie Part.die
  by_cases hd : d = 0 <;> by_cases he : e = 0 <;> simp [hd, he]

/-- What an operation on the library leaves of the rest of the part. -/
structure Part.besideLib (p q : Part) : Prop where
  book : q.book = p.book
  attn : q.attn = p.attn
  play : q.play = p.play
  catalog : q.catalog = p.catalog

theorem Part.besideLib.trans {p q r : Part} (h : p.besideLib q) (h' : q.besideLib r) : p.besideLib r :=
  ⟨h'.book.trans h.book, h'.attn.trans h.attn, h'.play.trans h.play, h'.catalog.trans h.catalog⟩

theorem Part.besideLib_refl (p : Part) : p.besideLib p := ⟨rfl, rfl, rfl, rfl⟩

theorem Part.mapDie_besideLib (p : Part) (d : Nat) (f : Die → Die) : p.besideLib (p.mapDie d f) :=
  ⟨p.mapDie_book d f, p.mapDie_attn d f, p.mapDie_play d f, p.mapDie_catalog d f⟩

theorem Part.request_besideLib (p : Part) (d : Nat) (r : Request) : p.besideLib (p.request d r) := by
  unfold Part.request
  split
  · split <;> exact p.mapDie_besideLib d _
  · exact p.mapDie_besideLib d _
  all_goals exact p.besideLib_refl

theorem Part.grant_besideLib (p : Part) (d : Nat) : p.besideLib (p.grant d) := by
  unfold Part.grant
  split
  · exact (p.mapDie_besideLib d _).trans (Part.mapDie_besideLib _ d _)
  · split
    · split <;> exact p.mapDie_besideLib d _
    · exact p.mapDie_besideLib d _

theorem Part.grantIfIdle_besideLib (p : Part) (d : Nat) : p.besideLib (p.grantIfIdle d) := by
  unfold Part.grantIfIdle
  split
  · exact p.grant_besideLib d
  · exact p.besideLib_refl

theorem Part.reclaimJoin_besideLib (p : Part) (d b : Nat) : p.besideLib (p.reclaimJoin d b) := by
  unfold Part.reclaimJoin
  dsimp only
  split
  · exact p.mapDie_besideLib d _
  · exact (p.mapDie_besideLib d _).trans ⟨rfl, rfl, rfl, rfl⟩

theorem Part.reclaimPush_besideLib (p : Part) (d b : Nat) : p.besideLib (p.reclaimPush d b) :=
  (p.reclaimJoin_besideLib d b).trans (Part.grantIfIdle_besideLib _ d)

theorem Part.setBlock_lib (p : Part) (d b : Nat) (st : BlockState) : (p.setBlock d b st).lib.reclaim = p.lib.reclaim ∧
    (p.setBlock d b st).lib.lastOperation = p.lib.lastOperation ∧ (p.setBlock d b st).install = p.install := by
  unfold Part.setBlock Part.mapDie
  split <;> exact ⟨rfl, rfl, rfl⟩

theorem Part.reclaimJoin_lib (p : Part) (d b : Nat) : (d, b) ∈ (p.reclaimJoin d b).lib.reclaim ∧
    (p.reclaimJoin d b).lib.lastOperation = p.lib.lastOperation ∧ (p.reclaimJoin d b).install = p.install := by
  obtain ⟨q, hq⟩ : ∃ q, p.setBlock d b .reclaim = q := ⟨_, rfl⟩
  obtain ⟨-, hlast, hinstall⟩ := p.setBlock_lib d b .reclaim
  have hjoin : p.reclaimJoin d b = if q.lib.reclaim.contains (d, b) then q
      else { q with lib := { q.lib with reclaim := q.lib.reclaim ++ [(d, b)] } } := by
    rw [← hq]
    rfl
  rw [hq] at hlast hinstall
  rw [hjoin]
  by_cases hc : q.lib.reclaim.contains (d, b) = true
  · rw [if_pos hc]
    exact ⟨List.contains_iff_mem.mp hc, hlast, hinstall⟩
  · rw [if_neg hc]
    exact ⟨by simp, hlast, hinstall⟩

/-- R106: a block pushed on the reclaim list stands in it. -/
theorem Part.reclaimPush_lib (p : Part) (d b : Nat) : (d, b) ∈ (p.reclaimPush d b).lib.reclaim ∧
    (p.reclaimPush d b).lib.lastOperation = p.lib.lastOperation ∧ (p.reclaimPush d b).install = p.install := by
  have hsame := Part.sameShelf_of_shelf ((p.reclaimJoin d b).grantIfIdle_shelf d)
  obtain ⟨hmem, hlast, hinstall⟩ := p.reclaimJoin_lib d b
  exact ⟨hsame.reclaim.symm ▸ hmem, hsame.lastOperation.trans hlast, hsame.install.trans hinstall⟩

/-! ### The next install operation (R82) -/

theorem Part.dieFaulted_eq_false {p : Part} {d : Nat} (h : (p.die d).state ≠ .faulted) : p.dieFaulted d = false := by
  simpa [Part.dieFaulted] using h

/-- R82: an operation requested of a die that is not FAULTED is in flight. -/
theorem Part.installRequest_eq {p : Part} {r : Install} (h : (p.die r.target.die).state ≠ .faulted) (op : InstallOp) (page : Nat)
    (data : List Byte) :
    p.installRequest r op page data = ({ p with install := some { r with inFlight := some op } } : Part).request r.target.die
      { requester := .install op, block := r.target.block, page, data, givenUp := false } := by
  have hwell : ({ p with install := some { r with inFlight := some op } } : Part).dieFaulted r.target.die = false :=
    Part.dieFaulted_eq_false h
  exact if_neg (by rw [hwell]; exact Bool.false_ne_true)

/-- What requesting an install operation leaves. -/
structure Part.requested (p : Part) (r : Install) (op : Option InstallOp) (q : Part) : Prop where
  install : q.install = some { r with inFlight := op }
  beside : p.besideLib q
  programMark : q.lib.programMark = p.lib.programMark
  dies : ∀ d, (q.die d).unscheduled = (p.die d).unscheduled

theorem Part.installRequest_requested {p : Part} {r : Install} (h : (p.die r.target.die).state ≠ .faulted) (op : InstallOp) (page : Nat)
    (data : List Byte) : p.requested r (some op) (p.installRequest r op page data) := by
  obtain ⟨q, hq⟩ : ∃ q : Part, { p with install := some { r with inFlight := some op } } = q := ⟨_, rfl⟩
  have hbeside : p.besideLib q := by rw [← hq]; exact ⟨rfl, rfl, rfl, rfl⟩
  have hinstall : q.install = some { r with inFlight := some op } := by rw [← hq]
  have hlib : q.lib = p.lib := by rw [← hq]
  rw [Part.installRequest_eq h, hq]
  obtain ⟨x, hx⟩ : ∃ x : Request, x = { requester := .install op, block := r.target.block, page, data, givenUp := false } := ⟨_, rfl⟩
  rw [← hx]
  have hsame := Part.sameShelf_of_shelf (q.request_shelf r.target.die x)
  exact ⟨hsame.install.trans hinstall, hbeside.trans (q.request_besideLib _ x), by rw [hsame.programMark, hlib],
    fun d => (hsame.dies d).trans (congrArg Die.unscheduled (Part.die_congr hlib d))⟩

/-- R82: the operation that is requested next, by the program mark. -/
def nextOp (mark : Nat) (r : Install) : Option InstallOp :=
  if mark = 0 then some (.program 0)
  else if mark ≤ r.target.pages then if r.buffered = [] then none else some (.program mark)
  else if r.closing then some (.program mark) else none

theorem Part.installProceed_inFlight {p : Part} {r : Install} (hi : p.install = some r) (hf : r.inFlight.isSome = true) :
    p.installProceed = p := by
  obtain ⟨op, hop⟩ := Option.isSome_iff_exists.mp hf
  simp only [Part.installProceed, hi, hop]

/-- R82: with nothing in flight the next operation is requested when it may be. -/
theorem Part.installProceed_requested {p : Part} {r : Install} (hi : p.install = some r) (hf : r.inFlight = none)
    (hd : (p.die r.target.die).state ≠ .faulted) : p.requested r (nextOp p.lib.programMark r) p.installProceed := by
  have hkeep : p.requested r none p := ⟨by rw [hi, ← hf], p.besideLib_refl, rfl, fun _ => rfl⟩
  have hproceed : p.installProceed =
      if p.lib.programMark = 0 then p.installRequest r (.program 0) 0 (headerPage r)
      else if p.lib.programMark ≤ r.target.pages then
        match r.buffered with
        | [] => p
        | data :: _ => p.installRequest r (.program p.lib.programMark) p.lib.programMark data
      else if r.closing then p.installRequest r (.program p.lib.programMark) p.lib.programMark (closingPage r) else p := by
    simp only [Part.installProceed, hi, hf] <;> rfl
  rw [hproceed, nextOp]
  by_cases h0 : p.lib.programMark = 0
  · rw [if_pos h0, if_pos h0]
    exact Part.installRequest_requested hd _ _ _
  · rw [if_neg h0, if_neg h0]
    by_cases hk : p.lib.programMark ≤ r.target.pages
    · rw [if_pos hk, if_pos hk]
      cases hb : r.buffered with
      | nil =>
        rw [if_pos rfl]
        exact hkeep
      | cons data rest =>
        rw [if_neg (by simp)]
        exact Part.installRequest_requested hd _ _ _
    · rw [if_neg hk, if_neg hk]
      cases r.closing with
      | true => exact Part.installRequest_requested hd _ _ _
      | false => exact hkeep

/-! ### INSTALL BEGIN (R80, R81) -/

theorem chooseDie_free {held : Option Nat} {free0 free1 d : Nat} (h : chooseDie held free0 free1 = some d) :
    (d = 0 ∧ 0 < free0) ∨ (d = 1 ∧ 0 < free1) := by
  unfold chooseDie at h
  split at h
  · cases h
  · split at h
    · cases h; omega
    · split at h
      · cases h; omega
      · split at h <;> cases h <;> omega

theorem usableFree_pos {x : Die} (h : 0 < usableFree x) : x.state ≠ .faulted := by
  intro hf
  simp [usableFree, hf] at h

theorem Part.installDie_not_faulted {p : Part} {d : Nat} (h : p.installDie = some d) : (p.die d).state ≠ .faulted := by
  obtain ⟨rfl, hfree⟩ | ⟨rfl, hfree⟩ := chooseDie_free h
  · exact usableFree_pos hfree
  · exact usableFree_pos hfree

theorem installInRange_iff (a : InstallParams) : installInRange a = true ↔
    1 ≤ a.song ∧ a.song ≤ 999999 ∧ 1 ≤ a.pages ∧ a.pages ≤ 62 ∧ 1000 ≤ a.duration ∧ a.duration ≤ 1200000 ∧ 1 ≤ a.parts ∧
      a.parts ≤ 4 ∧ a.glyphs.length ≤ 32 ∧ ∀ g ∈ a.glyphs, g ≤ 2047 := by
  simp [installInRange, songInRange, and_assoc]

/-- Table 4-4: the checks of INSTALL BEGIN in their order. -/
theorem Part.installCheck_eq (p : Part) (a : InstallParams) : p.installCheck a =
    if !installInRange a then some .badForm
    else if p.lib.state != .mounted then some .notMounted
    else if p.install.isSome then some .busy
    else if !p.lib.libwp then some .protectedLow
    else (p.catEntry a.song).bind installEntryCheck := rfl

theorem installEntryCheck_eq (e : CatEntry) : installEntryCheck e =
    if e.state = .offline then some .offline
    else if e.successor.isSome || e.state == .withdrawing then some .pending
    else if 255 ≤ e.current.edition then some .limit else none := rfl

/-- Settles O45. -/
theorem installBeginOpensRecord : Obligations.InstallBeginOpensRecord := by
  refine ⟨fun tag params a s h ha => ?begin, fun held free0 free1 => ?choose, fun p a => ⟨installInRange_iff a, fun hr => ?_, fun hr => ?check⟩⟩
  case begin =>
    have hoffers : Instr.offers (.installBegin tag params) tag (cmdInstallBegin params) := fun _ => rfl
    have hcmd : cmdInstallBegin params s.part = match s.part.installCheck a with
        | some cause => (s.part, .refused cause)
        | none => match s.part.installDie with
          | none => (s.part, .refused .noSpace)
          | some d => (s.part.installOpen a d, .ok (u8 (s.part.installEdition a.song) ++ u8 d ++ u16 (s.part.lowestFree d))) := by
      rw [cmdInstallBegin, ha]
      rfl
    refine ⟨fun cause hc => exec_refused hoffers h (by rw [hcmd, hc]), fun hc hd => exec_refused hoffers h (by rw [hcmd, hc, hd]), ?_⟩
    rintro d edition block hc hd rfl hedition
    have hed : s.part.installEdition a.song = edition := by
      rw [hedition]
      unfold Part.installEdition
      cases s.part.catEntry a.song <;> rfl
    refine ⟨s.part.installOpen a d, exec_ok hoffers h (by rw [hcmd, hc, hd, hed]), ?_⟩
    have hstate : ((s.part.setBlock d (s.part.lowestFree d) .filling).die
        (s.part.installRecord a d (s.part.lowestFree d)).target.die).state ≠ .faulted := by
      rw [Part.setBlock_state]
      exact Part.installDie_not_faulted hd
    have hreq := Part.installRequest_requested hstate .erase 0 []
    have hbeside := (s.part.mapDie_besideLib d fun x => { x with map := x.map.map fun m => m.set (s.part.lowestFree d) .filling }).trans hreq.beside
    refine ⟨?_, ?_, hbeside.catalog, hbeside.attn, hbeside.book⟩
    · rw [← hed]
      exact hreq.install
    · have hmap : ((s.part.installOpen a d).die d).unscheduled.map =
          ((s.part.setBlock d (s.part.lowestFree d) .filling).die d).unscheduled.map := congrArg (fun x : Die => x.map) (hreq.dies d)
      exact hmap.trans (s.part.setBlock_map d _ _)
  case choose =>
    unfold chooseDie
    refine ⟨fun h0 h1 => ?_, fun hh h1 => ?_, fun hh h0 => ?_, fun hh h1 h0 => ?_, fun hh h0 h1 => ?_, fun hh h => ?_⟩
    · rw [if_pos ⟨h0, h1⟩]
    · rw [if_neg (by omega), if_pos ⟨hh, h1⟩]
    · rw [if_neg (by omega), if_neg (by simp [hh]), if_pos ⟨hh, h0⟩]
    · rw [if_neg (by omega), if_neg (by omega), if_neg (by simp [hh]), if_neg (by omega)]
    · rw [if_neg (by omega), if_neg (by simp [hh]), if_neg (by omega), if_pos (by omega)]
    · rw [if_neg (by omega), if_neg (by simp [hh]), if_neg (by simp [hh])]
  · rw [Part.installCheck_eq, hr]
    rfl
  case check =>
    rw [Part.installCheck_eq, hr, Bool.not_true, if_neg Bool.false_ne_true]
    refine ⟨fun hm => by rw [if_pos (by simp [hm])], fun hm => ?_⟩
    rw [if_neg (by simp [hm])]
    refine ⟨fun hi => by rw [if_pos (Option.isSome_iff_ne_none.mpr hi)], fun hi => ?_⟩
    rw [hi, if_neg (by simp)]
    refine ⟨fun hw => by rw [hw]; rfl, fun hw => ?_⟩
    rw [hw, if_neg (by simp)]
    refine ⟨fun hc => by rw [hc]; rfl, fun e hc => ?_⟩
    rw [hc, Option.bind_some, installEntryCheck_eq]
    refine ⟨fun ho => if_pos ho, fun ho => ?_⟩
    rw [if_neg ho]
    refine ⟨fun hp => if_pos ?_, fun hs hw' => if_neg (by simp [hs, hw'])⟩
    rcases hp with hp | hp
    · simp [Option.isSome_iff_ne_none.mpr hp]
    · simp [hp]

/-! ### INSTALL PAGE, INSTALL CLOSE and INSTALL ABANDON (R83, R84, R87) -/

/-- R82: the install goes on after a command has written its record. -/
theorem Part.installGoesOn {p : Part} {r : Install} (hd : (p.die r.target.die).state ≠ .faulted) :
    ∃ op, p.requested r op ({ p with install := some r } : Part).installProceed ∧
      (r.inFlight = none → op = nextOp p.lib.programMark r) ∧
      (r.inFlight.isSome = true → (({ p with install := some r } : Part).installProceed).lib = p.lib) := by
  obtain ⟨q, hq⟩ : ∃ q : Part, { p with install := some r } = q := ⟨_, rfl⟩
  have hi : q.install = some r := by rw [← hq]
  have hlib : q.lib = p.lib := by rw [← hq]
  have hbeside : p.besideLib q := by rw [← hq]; exact ⟨rfl, rfl, rfl, rfl⟩
  have hdie : ∀ d, q.die d = p.die d := Part.die_congr hlib
  rw [hq]
  cases hf : r.inFlight with
  | some op =>
    rw [Part.installProceed_inFlight hi (by rw [hf]; rfl)]
    exact ⟨some op, ⟨by rw [hi, ← hf], hbeside, by rw [hlib], fun d => by rw [hdie]⟩, (by intro hc; cases hc), fun _ => hlib⟩
  | none =>
    have hreq := Part.installProceed_requested hi hf (by rw [hdie]; exact hd)
    refine ⟨nextOp p.lib.programMark r, ⟨by rw [hreq.install, hlib], hbeside.trans hreq.beside, by rw [hreq.programMark, hlib],
      fun d => by rw [hreq.dies, hdie]⟩, fun _ => rfl, (by intro hc; cases hc)⟩

theorem cmdInstallPage_eq {index : Byte} {data : List Byte} (h : data.length = 2048) (p : Part) :
    cmdInstallPage (index :: data) p =
      if index.toNat < 1 || 62 < index.toNat then (p, .refused .badForm)
      else match p.install with
        | none => (p, .refused .noInstall)
        | some r =>
          if r.closing || index.toNat != r.nextPage || r.target.pages < index.toNat then (p, .refused .order)
          else if 2 ≤ r.buffered.length then (p, .wait)
          else ({ p with install := some { r with nextPage := index.toNat + 1, buffered := r.buffered ++ [data] } }.installProceed, .ok []) := by
  have hform : pageParams (index :: data) = some (index.toNat, data) := if_pos h
  rw [cmdInstallPage, hform]
  rfl

theorem cmdInstallClose_eq (p : Part) : cmdInstallClose [] p = match p.install with
    | none => (p, .refused .noInstall)
    | some r =>
      if r.closing || r.nextPage != r.target.pages + 1 then (p, .refused .order)
      else ({ p with install := some { r with closing := true } }.installProceed, .accepted) := rfl

theorem cmdInstallAbandon_eq (p : Part) : cmdInstallAbandon [] p = match p.install with
    | none => (p, .refused .noInstall)
    | some r => if p.closingInProgress r then (p, .refused .busy) else (p.abandonInstall r, .ok []) := rfl

/-- R87: what giving the install up writes. -/
theorem Part.abandonInstall_writes (p : Part) (r : Install) :
    (p.abandonInstall r).install = none ∧
      (p.abandonInstall r).lib.lastOperation = some { kind := .install, song := some r.song, ending := .abandoned } ∧
      (r.target.die, r.target.block) ∈ (p.abandonInstall r).lib.reclaim ∧ p.besideLib (p.abandonInstall r) := by
  obtain ⟨q, hq⟩ : ∃ q, (({ p with install := none } : Part).giveUp r.target.die installRequester).operationEnds .install (some r.song) .abandoned = q :=
    ⟨_, rfl⟩
  have habandon : p.abandonInstall r = q.reclaimPush r.target.die r.target.block := by rw [← hq]; rfl
  have hgive := Part.mapDie_besideLib ({ p with install := none } : Part) r.target.die fun x =>
    { x with
      waiting := x.waiting.filter fun r => !installRequester r.requester
      op := x.op.map fun r => if installRequester r.requester then { r with givenUp := true } else r }
  have hbeside : p.besideLib q := by
    rw [← hq]
    exact ⟨hgive.book, hgive.attn, hgive.play, hgive.catalog⟩
  have hinstall : q.install = none := by
    rw [← hq]
    exact (Part.sameShelf_of_shelf (Part.giveUp_shelf ({ p with install := none } : Part) r.target.die installRequester)).install
  have hlast : q.lib.lastOperation = some { kind := .install, song := some r.song, ending := .abandoned } := by rw [← hq]; rfl
  obtain ⟨hmem, hop, hins⟩ := q.reclaimPush_lib r.target.die r.target.block
  rw [habandon]
  exact ⟨hins.trans hinstall, hop.trans hlast, hmem, hbeside.trans (q.reclaimPush_besideLib _ _)⟩

/-- Settles O46. -/
theorem installPageCloseAbandon : Obligations.InstallPageCloseAbandon := by
  have hpage : ∀ (tag index : Byte) (data : List Byte), Instr.offers (.installPage tag (index :: data)) tag (cmdInstallPage (index :: data)) :=
    fun _ _ _ _ => rfl
  have hclose : ∀ tag : Byte, Instr.offers (.installClose tag []) tag (cmdInstallClose []) := fun _ _ => rfl
  have habandon : ∀ tag : Byte, Instr.offers (.installAbandon tag []) tag (cmdInstallAbandon []) := fun _ _ => rfl
  refine ⟨fun tag index data s h hdata hout => exec_refused (hpage tag index data) h ?_,
    fun tag index data s h hdata h1 h62 => ⟨fun hnone => ⟨?_, ?_, ?_⟩, fun r hr => ?record⟩⟩
  · rw [cmdInstallPage_eq hdata, if_pos (by simpa using hout)]
  · exact exec_refused (hpage tag index data) h (by rw [cmdInstallPage_eq hdata, if_neg (by simp; omega), hnone])
  · exact exec_refused (hclose tag) h (by rw [cmdInstallClose_eq, hnone])
  · exact exec_refused (habandon tag) h (by rw [cmdInstallAbandon_eq, hnone])
  case record =>
    have hcmdPage := cmdInstallPage_eq (index := index) hdata s.part
    rw [if_neg (by simp; omega), hr] at hcmdPage
    have hcmdClose := cmdInstallClose_eq s.part
    rw [hr] at hcmdClose
    have hcmdAbandon := cmdInstallAbandon_eq s.part
    rw [hr] at hcmdAbandon
    refine ⟨fun hbad => ?_, fun hc hi hp hd => ⟨fun hfull => ?_, fun hroom => ?_⟩, fun hbad => ?_, fun hc hn hd => ?_, fun hc => ?_,
      fun hc => ?_⟩
    · exact exec_refused (hpage tag index data) h (hcmdPage.trans (if_pos (by simpa [or_assoc] using hbad)))
    · exact exec_wait (hpage tag index data) h (hcmdPage.trans ((if_neg (by simp [hc, hi]; omega)).trans (if_pos hfull)))
    · obtain ⟨op, hreq, -, hflight⟩ := Part.installGoesOn (p := s.part)
        (r := { r with nextPage := index.toNat + 1, buffered := r.buffered ++ [data] }) hd
      refine ⟨_, exec_ok (hpage tag index data) h (hcmdPage.trans ((if_neg (by simp [hc, hi]; omega)).trans (if_neg (by omega)))), ?_, ?_,
        hreq.beside.book, hreq.beside.attn, hflight⟩ <;> rw [hreq.install] <;> rfl
    · exact exec_refused (hclose tag) h (hcmdClose.trans (if_pos (by simpa using hbad)))
    · obtain ⟨op, hreq, hop, -⟩ := Part.installGoesOn (p := s.part) (r := { r with closing := true }) hd
      refine ⟨_, exec_accepted (hclose tag) h (hcmdClose.trans (if_neg (by simp [hc, hn]))), ?_, hreq.beside.catalog, hreq.beside.attn,
        fun hf hm => ?_⟩
      · rw [hreq.install]
        rfl
      · rw [hreq.install, hop hf, hm, nextOp, if_neg (by omega), if_neg (by simp)]
        rfl
    · exact exec_refused (habandon tag) h (hcmdAbandon.trans (if_pos hc))
    · obtain ⟨hinstall, hlast, hmem, hbeside⟩ := s.part.abandonInstall_writes r
      exact ⟨_, exec_ok (habandon tag) h (hcmdAbandon.trans (if_neg (by rw [hc]; exact Bool.false_ne_true))), hinstall, hlast, hmem,
        hbeside.catalog, hbeside.attn⟩

end Sys2Proof.Machine
end

