-- ==== Sys2Proof/Proofs/InstallEnds.lean ====
section
/-! PROOFS. Proofs/InstallEnds.lean: the ends of the install operations and the switch of a song's block (O47). -/

namespace Sys2Proof.Machine

/-! ### The library beside a die (R93, R104) -/

/-- A part of a die that a change does not write. -/
theorem Part.mapDie_view {α : Type} (view : Die → α) (p : Part) (d e : Nat) {f : Die → Die} (h : ∀ x, view (f x) = view x) :
    view ((p.mapDie d f).die e) = view (p.die e) := by
  unfold Part.mapDie Part.die
  by_cases hd : d = 0 <;> by_cases he : e = 0 <;> simp [hd, he, h]

/-- A change of a die writes the dies alone. -/
theorem Part.mapDie_only (p : Part) (d : Nat) (f : Die → Die) :
    p.mapDie d f = { p with lib := { p.lib with die0 := (p.mapDie d f).lib.die0, die1 := (p.mapDie d f).lib.die1 } } := by
  unfold Part.mapDie
  split <;> rfl

/-- R104: a block's state is all that `setBlock` writes. -/
theorem Part.setBlock_only (p : Part) (d b : Nat) (st : BlockState) :
    p.setBlock d b st =
      { p with lib := { p.lib with die0 := (p.setBlock d b st).lib.die0, die1 := (p.setBlock d b st).lib.die1 } } :=
  p.mapDie_only d _

/-! ### The catalog beside the pin counts (R69) -/

/-- R69: a catalog entry beside its pin count. -/
def CatEntry.unpinned (e : CatEntry) : CatEntry := { e with pins := 0 }

/-- The catalog beside its pin counts. -/
def Part.unpinned (p : Part) : List CatEntry := p.catalog.map CatEntry.unpinned

theorem Part.unpinned_of_catalog {p q : Part} (h : q.catalog = p.catalog) : q.unpinned = p.unpinned := congrArg (List.map CatEntry.unpinned) h

theorem Part.catEntry_unpinned (p : Part) (song : Nat) :
    (p.catEntry song).map CatEntry.unpinned = p.unpinned.find? fun e => e.song == song := by
  rw [Part.unpinned, List.find?_map]
  rfl

/-- The entry of a song in a catalog that differs in pin counts alone. -/
theorem Part.catEntry_of_unpinned {p q : Part} (h : q.unpinned = p.unpinned) {song : Nat} {e : CatEntry} (he : p.catEntry song = some e) :
    ∃ x, q.catEntry song = some x ∧ x.unpinned = e.unpinned := by
  have hmap : (q.catEntry song).map CatEntry.unpinned = some e.unpinned := by
    rw [Part.catEntry_unpinned, h, ← Part.catEntry_unpinned, he]
    rfl
  exact Option.map_eq_some_iff.mp hmap

theorem Part.dropPin_unpinned (p : Part) (song : Nat) : (p.dropPin song).unpinned = p.unpinned := by
  have hkeep : CatEntry.unpinned ∘ (fun e : CatEntry => if e.song == song then { e with pins := e.pins - 1 } else e) = CatEntry.unpinned := by
    funext e
    by_cases he : e.song = song <;> simp [he, CatEntry.unpinned]
  rw [Part.unpinned, Part.dropPin, Part.mapCatEntry, List.map_map, hkeep]
  rfl

/-- R17, R69: a strike changes the catalog in a pin count alone. -/
theorem Part.strikeEntry_unpinned (p : Part) (e : Entry) (reason : StrikeReason) (quiet : Bool) :
    (p.strikeEntry e reason quiet).unpinned = p.unpinned := by
  obtain ⟨q, hq⟩ : ∃ q, (if reason = .cleared then ({ p with book := { p.book with entries := withoutTicket p.book.entries e.ticket } } : Part)
      else p.withEntries (withoutTicket p.book.entries e.ticket)) = q := ⟨_, rfl⟩
  have hcatalog : q.catalog = p.catalog := by
    rw [← hq]
    split
    · rfl
    · exact p.withEntries_catalog _
  have hstrike : (p.strikeEntry e reason quiet).catalog = (((q.dropPin e.song).mapLive e.origin (· - 1)).noticeStrike e reason).catalog := by
    rw [← hq]
    cases quiet <;> rfl
  rw [Part.unpinned_of_catalog (hstrike.trans ((Part.noticeStrike_catalog _ _ _).trans (Part.mapLive_catalog _ _ _))), Part.dropPin_unpinned,
    Part.unpinned_of_catalog hcatalog]

theorem Part.strike_unpinned (p : Part) (ticket : Nat) (reason : StrikeReason) (quiet : Bool) :
    (p.strike ticket reason quiet).unpinned = p.unpinned := by
  unfold Part.strike
  split
  · rfl
  · exact p.strikeEntry_unpinned _ _ _

theorem Part.retire_unpinned (p : Part) (e : Entry) : (p.retire e).unpinned = p.unpinned :=
  (Part.unpinned_of_catalog (Part.mapLive_catalog _ _ _)).trans (Part.dropPin_unpinned _ _)

theorem Part.scoreNotices_catalog (p : Part) (e : Entry) : (p.scoreNotices e).catalog = p.catalog := by
  unfold Part.scoreNotices
  refine foldl_keeps Part.catalog _ (fun q c => ?_) _ _
  cases c.1 <;> rfl

/-! ### The release of a song (R85, R88) -/

theorem Part.switchTo_of_faulted {p : Part} {song : Nat} {blk : SongBlock} {e : CatEntry} (h : p.catEntry song = some e)
    (hf : (p.die e.current.die).state = .faulted) : p.switchTo song blk = p.mapCatEntry song (switchEntry blk) := by
  simp only [Part.switchTo, h]
  exact if_pos hf

theorem Part.switchTo_of_not_faulted {p : Part} {song : Nat} {blk : SongBlock} {e : CatEntry} (h : p.catEntry song = some e)
    (hf : (p.die e.current.die).state ≠ .faulted) :
    p.switchTo song blk = (p.mapCatEntry song (switchEntry blk)).reclaimPush e.current.die e.current.block := by
  simp only [Part.switchTo, h]
  exact if_neg hf

/-- R88: what the switch of a song's block writes. -/
structure Part.switched (p : Part) (song : Nat) (blk : SongBlock) (e : CatEntry) (q : Part) : Prop where
  entry : q.catEntry song = some (switchEntry blk e)
  attn : q.attn = p.attn
  lastOperation : q.lib.lastOperation = p.lib.lastOperation
  install : q.install = p.install
  reclaimed : (p.die e.current.die).state ≠ .faulted → (e.current.die, e.current.block) ∈ q.lib.reclaim
  kept : (p.die e.current.die).state = .faulted → q.lib.reclaim = p.lib.reclaim

theorem Part.switchTo_switched {p : Part} {song : Nat} {e : CatEntry} (h : p.catEntry song = some e) (blk : SongBlock) :
    p.switched song blk e (p.switchTo song blk) := by
  have hentry : (p.mapCatEntry song (switchEntry blk)).catEntry song = some (switchEntry blk e) := by
    rw [Part.catEntry_mapCatEntry (f := switchEntry blk) (fun _ => rfl), if_pos rfl, h]
    rfl
  by_cases hf : (p.die e.current.die).state = .faulted
  · rw [Part.switchTo_of_faulted h hf]
    exact ⟨hentry, rfl, rfl, rfl, fun hn => absurd hf hn, fun _ => rfl⟩
  · rw [Part.switchTo_of_not_faulted h hf]
    have hbeside := (p.mapCatEntry song (switchEntry blk)).reclaimPush_besideLib e.current.die e.current.block
    obtain ⟨hmem, hlast, hinstall⟩ := (p.mapCatEntry song (switchEntry blk)).reclaimPush_lib e.current.die e.current.block
    exact ⟨by rw [Part.catEntry, hbeside.catalog]; exact hentry, hbeside.attn, hlast, hinstall, fun _ => hmem, fun hc => absurd hc hf⟩

theorem Part.release_of_none {p : Part} {song : Nat} (h : (p.catEntry song).bind CatEntry.successor = none) : p.release song = p := by
  simp only [Part.release, h]

theorem Part.release_of_successor {p : Part} {song : Nat} {e : CatEntry} {blk : SongBlock} (h : p.catEntry song = some e)
    (hs : e.successor = some blk) : p.release song = p.switchTo song blk := by
  simp only [Part.release, h, Option.bind_some, hs]

theorem Part.loadGap_shelf (p : Part) : p.loadGap.shelf = p.shelf := by
  unfold Part.loadGap
  split <;> rfl

theorem Part.showCard_shelf (p : Part) (seats : List SeatResult) : (p.showCard seats).shelf = p.shelf := by
  unfold Part.showCard
  dsimp only
  split <;> rfl

theorem Part.endDisplay_shelf (p : Part) : p.endDisplay.shelf = p.shelf := by
  unfold Part.endDisplay
  dsimp only
  split
  · exact Part.showCard_shelf _ _
  · rfl

theorem Part.readerEmpty_shelf (p : Part) : p.readerEmpty.shelf = p.shelf :=
  (Part.giveUp_shelf _ 1 (· == .stream)).trans (Part.giveUp_shelf _ 0 (· == .stream))

/-- R121, R88: a CUED entry is struck, and its song released. -/
theorem Part.cueStrike_release {p : Part} {e : Entry} {rest : List Entry} {song : HeldSong} (h : p.holds e rest song) (reason : StrikeReason)
    (quiet : Bool) : ∃ q : Part, q.unpinned = p.unpinned ∧ (p.cueStrike reason quiet).shelf = (q.release song.song).shelf := by
  obtain ⟨q, hq⟩ : ∃ q, ((p.strike e.ticket reason quiet).letGo e.ticket song.song (.struck reason)).readerEmpty.idleSeats.titleDown = q := ⟨_, rfl⟩
  have hstrike : p.cueStrike reason quiet = (q.release song.song).afterCueStrike reason := by
    simp only [Part.cueStrike, h.entry, h.song, hq]
  have hafter : ∀ x : Part, (x.afterCueStrike reason).shelf = x.shelf := fun x => by
    cases reason with
    | cancelled => exact x.loadGap_shelf
    | skipped => exact x.loadGap_shelf
    | damaged | cleared | withdrawn | left | barred => rfl
  refine ⟨q, ?_, by rw [hstrike, hafter]⟩
  have hcatalog : q.catalog = (p.strike e.ticket reason quiet).catalog := by
    rw [← hq]
    exact (Part.sameShelf_of_shelf (Part.readerEmpty_shelf _)).catalog
  rw [Part.unpinned_of_catalog hcatalog, Part.strike_unpinned]

/-- R131, R88: a song ends, and is released. -/
theorem Part.endSong_release {p : Part} {e : Entry} {rest : List Entry} {song : HeldSong} (h : p.holds e rest song) (kind : EndKind) :
    ∃ q : Part, q.unpinned = p.unpinned ∧ (p.endSong kind).shelf = (q.release song.song).shelf := by
  have hheld : p.heldBookEntry = some e := by simp [Part.heldBookEntry, h.entry, Part.entry_of_first h.entries]
  obtain ⟨q, hq⟩ : ∃ q, (((p.writeResult e.ticket song.song song.blk.edition kind).scoreNotices e).retire e).doneSeats = q := ⟨_, rfl⟩
  have hend : p.endSong kind = (((q.release song.song).readerEmpty.endDisplay.letGo e.ticket song.song (.ended kind)).loadGap).raise .play := by
    simp only [Part.endSong, hheld, h.song, hq]
  have hafter : ∀ x : Part, ((x.readerEmpty.endDisplay.letGo e.ticket song.song (.ended kind)).loadGap.raise .play).shelf = x.shelf := fun x => by
    have hgap := (x.readerEmpty.endDisplay.letGo e.ticket song.song (.ended kind)).loadGap_shelf
    exact hgap.trans ((Part.endDisplay_shelf _).trans x.readerEmpty_shelf)
  refine ⟨q, ?_, by rw [hend, hafter]⟩
  have hcatalog : q.catalog = (((p.writeResult e.ticket song.song song.blk.edition kind).scoreNotices e).retire e).catalog := by rw [← hq]; rfl
  rw [Part.unpinned_of_catalog hcatalog, Part.retire_unpinned]
  have hwrite : (p.writeResult e.ticket song.song song.blk.edition kind).catalog = p.catalog := by
    simp only [Part.writeResult, Part.readHandsets, hheld]
    rfl
  exact Part.unpinned_of_catalog ((Part.scoreNotices_catalog _ e).trans hwrite)

/-! ### The install's operations (R82, R85, R86) -/

theorem exec_installProgramComplete (d : Fin 2) (pass : Bool) (s : State) : exec (.installProgramComplete d pass) s =
    .next { s with part := s.part.eraseCompletes d installRequester fun r q => q.installOpEnds d pass r } := rfl

/-- R82: after an operation the next one of the record is requested when it may be. -/
theorem Part.installNext_requested {p : Part} {r : Install} (hd : (p.die r.target.die).state ≠ .faulted) :
    p.requested r (nextOp p.lib.programMark r) (p.installNext r) := by
  obtain ⟨q, hq⟩ : ∃ q : Part, { p with install := some { r with inFlight := none } } = q := ⟨_, rfl⟩
  have hnext : p.installNext r = q.installProceed := by rw [← hq]; rfl
  have hi : q.install = some { r with inFlight := none } := by rw [← hq]
  have hlib : q.lib = p.lib := by rw [← hq]
  have hbeside : p.besideLib q := by rw [← hq]; exact ⟨rfl, rfl, rfl, rfl⟩
  have hreq := Part.installProceed_requested hi rfl (by rw [Part.die_congr hlib]; exact hd)
  rw [hlib] at hreq
  rw [hnext]
  exact ⟨hreq.install, hbeside.trans hreq.beside, by rw [hreq.programMark, hlib], fun d => by rw [hreq.dies, Part.die_congr hlib]⟩

/-- R82, R97: the program that follows page k's. -/
theorem nextOp_succ {k : Nat} {r : Install} (hk : k ≤ r.target.pages) : nextOp (k + 1) r =
    if (k < r.target.pages ∧ r.buffered ≠ []) ∨ (k = r.target.pages ∧ r.closing = true) then some (.program (k + 1)) else none := by
  rw [nextOp, if_neg (by omega)]
  by_cases hlt : k < r.target.pages
  · have hne : k ≠ r.target.pages := by omega
    rw [if_pos (by omega)]
    by_cases hb : r.buffered = [] <;> simp [hb, hlt, hne]
  · have heq : k = r.target.pages := by omega
    rw [if_neg (by omega)]
    by_cases hc : r.closing = true <;> simp [hc, heq]

/-- R66: an entry that joins the catalog is the one its song finds. -/
theorem find?_insertEntry {l : List CatEntry} {e : CatEntry} (h : l.find? (fun x => x.song == e.song) = none) :
    (insertEntry e l).find? (fun x => x.song == e.song) = some e := by
  induction l with
  | nil => simp [insertEntry]
  | cons x rest ih =>
    rw [List.find?_cons] at h
    have hx : (x.song == e.song) = false := by
      by_contra hc
      rw [Bool.not_eq_false] at hc
      simp [hc] at h
    rw [hx] at h
    rw [insertEntry]
    split
    · simp
    · rw [List.find?_cons, hx]
      exact ih h

/-- R85: the song of a finished install takes its new block. -/
def Part.takesBlock (p : Part) (r : Install) : Part :=
  match p.catEntry r.song with
  | none => { p with catalog := insertEntry (Machine.newEntry r.song r.target) p.catalog }
  | some _ =>
    if p.holdsSong r.song then p.mapCatEntry r.song fun e => { e with successor := some r.target }
    else p.switchTo r.song r.target

/-- R85: the block of a finished install is a SONG block. -/
def Part.closedBlock (p : Part) (r : Install) : Part := { p with install := none }.setBlock r.target.die r.target.block .song

theorem Part.installCompletes_eq (p : Part) (r : Install) :
    p.installCompletes r = (((p.closedBlock r).takesBlock r).operationEnds .install (some r.song) .done).raise .library := rfl

theorem Part.takesBlock_new {p : Part} {r : Install} (h : p.catEntry r.song = none) :
    (p.takesBlock r).catEntry r.song = some (Machine.newEntry r.song r.target) ∧ (p.takesBlock r).lib = p.lib ∧ (p.takesBlock r).install = p.install := by
  have htakes : p.takesBlock r = { p with catalog := insertEntry (Machine.newEntry r.song r.target) p.catalog } := by
    simp only [Part.takesBlock, h]
  rw [htakes]
  exact ⟨find?_insertEntry (e := Machine.newEntry r.song r.target) h, rfl, rfl⟩

theorem Part.takesBlock_held {p : Part} {r : Install} {e : CatEntry} (h : p.catEntry r.song = some e) (hs : p.holdsSong r.song = true) :
    (p.takesBlock r).catEntry r.song = some { e with successor := some r.target } ∧ (p.takesBlock r).lib = p.lib ∧
      (p.takesBlock r).install = p.install := by
  have htakes : p.takesBlock r = p.mapCatEntry r.song fun e => { e with successor := some r.target } := by
    simp only [Part.takesBlock, h, hs, if_true]
  rw [htakes, Part.catEntry_mapCatEntry (f := fun e => { e with successor := some r.target }) (fun _ => rfl), if_pos rfl, h]
  exact ⟨rfl, rfl, rfl⟩

theorem Part.takesBlock_free {p : Part} {r : Install} {e : CatEntry} (h : p.catEntry r.song = some e) (hs : p.holdsSong r.song = false) :
    p.takesBlock r = p.switchTo r.song r.target := by
  simp only [Part.takesBlock, h, hs, Bool.false_eq_true, if_false]

/-- R85: the catalog and the library beside the block that has closed. -/
theorem Part.closedBlock_fields (p : Part) (r : Install) :
    (p.closedBlock r).install = none ∧ (p.closedBlock r).catalog = p.catalog ∧ (p.closedBlock r).play = p.play ∧
      (p.closedBlock r).lib.reclaim = p.lib.reclaim ∧ (∀ e, ((p.closedBlock r).die e).state = (p.die e).state) ∧
      ((p.closedBlock r).die r.target.die).map = (p.die r.target.die).map.map fun m => m.set r.target.block .song := by
  obtain ⟨q, hq⟩ : ∃ q : Part, { p with install := none } = q := ⟨_, rfl⟩
  have hclosed : p.closedBlock r = q.setBlock r.target.die r.target.block .song := by rw [← hq]; rfl
  have hlib : q.lib = p.lib := by rw [← hq]
  obtain ⟨hreclaim, -, hinstall⟩ := q.setBlock_lib r.target.die r.target.block .song
  have hbeside := q.mapDie_besideLib r.target.die fun x => { x with map := x.map.map fun m => m.set r.target.block .song }
  rw [hclosed]
  exact ⟨hinstall.trans (by rw [← hq]), hbeside.catalog.trans (by rw [← hq]), hbeside.play.trans (by rw [← hq]), by rw [hreclaim, hlib],
    fun e => by rw [Part.setBlock_state, Part.die_congr hlib], by rw [Part.setBlock_map, Part.die_congr hlib]⟩

/-- R85: the closing program's PASS. -/
theorem Part.installCompletes_writes (p : Part) (r : Install) :
    (p.installCompletes r).install = none ∧ (p.installCompletes r).attn.pending.library = true ∧
      (p.installCompletes r).lib.lastOperation = some { kind := .install, song := some r.song, ending := .done } ∧
      (p.catEntry r.song = none → (p.installCompletes r).catEntry r.song = some (Machine.newEntry r.song r.target) ∧
        ((p.installCompletes r).die r.target.die).map = (p.die r.target.die).map.map (fun m => m.set r.target.block .song)) ∧
      (∀ e, p.catEntry r.song = some e → p.holdsSong r.song = true →
        (p.installCompletes r).catEntry r.song = some { e with successor := some r.target } ∧
        (p.installCompletes r).lib.reclaim = p.lib.reclaim ∧
        ((p.installCompletes r).die r.target.die).map = (p.die r.target.die).map.map (fun m => m.set r.target.block .song)) ∧
      ∀ e, p.catEntry r.song = some e → p.holdsSong r.song = false →
        (p.installCompletes r).catEntry r.song = some (switchEntry r.target e) ∧
        ((p.die e.current.die).state ≠ .faulted → (e.current.die, e.current.block) ∈ (p.installCompletes r).lib.reclaim) ∧
        ((p.die e.current.die).state = .faulted → (p.installCompletes r).lib.reclaim = p.lib.reclaim) := by
  obtain ⟨hinstall, hcatalog, hplay, hreclaim, hstate, hmap⟩ := p.closedBlock_fields r
  obtain ⟨q, hq⟩ : ∃ q, p.closedBlock r = q := ⟨_, rfl⟩
  rw [hq] at hinstall hcatalog hplay hreclaim hstate hmap
  have hentry : ∀ song, q.catEntry song = p.catEntry song := fun song => by rw [Part.catEntry, Part.catEntry, hcatalog]
  have hholds : q.holdsSong r.song = p.holdsSong r.song := by rw [Part.holdsSong, Part.holdsSong, hplay]
  obtain ⟨w, hw⟩ : ∃ w, q.takesBlock r = w := ⟨_, rfl⟩
  have hdone : p.installCompletes r = (w.operationEnds .install (some r.song) .done).raise .library := by rw [Part.installCompletes_eq, hq, hw]
  have hkeeps : w.install = none := by
    rw [← hw, ← hinstall]
    cases he : q.catEntry r.song with
    | none => exact (Part.takesBlock_new he).2.2
    | some e =>
      cases hs : q.holdsSong r.song with
      | true => exact (Part.takesBlock_held he hs).2.2
      | false => exact (Part.takesBlock_free he hs).symm ▸ (Part.switchTo_switched he r.target).install
  rw [hdone]
  refine ⟨hkeeps, rfl, rfl, fun hnone => ?_, fun e he hs => ?_, fun e he hs => ?_⟩
  · obtain ⟨hnew, hlib, -⟩ := Part.takesBlock_new (p := q) (r := r) (by rw [hentry, hnone])
    rw [hw] at hnew hlib
    exact ⟨hnew, (congrArg Die.map (Part.die_congr hlib r.target.die)).trans hmap⟩
  · obtain ⟨hheld, hlib, -⟩ := Part.takesBlock_held (p := q) (r := r) (by rw [hentry, he]) (by rw [hholds, hs])
    rw [hw] at hheld hlib
    exact ⟨hheld, (congrArg Library.reclaim hlib).trans hreclaim, (congrArg Die.map (Part.die_congr hlib r.target.die)).trans hmap⟩
  · have hswitch := Part.switchTo_switched (p := q) (song := r.song) (by rw [hentry, he]) r.target
    rw [← Part.takesBlock_free (by rw [hentry, he]) (by rw [hholds, hs]), hw] at hswitch
    refine ⟨hswitch.entry, fun hn => hswitch.reclaimed (by rw [hstate]; exact hn), fun hf => ?_⟩
    exact (hswitch.kept (by rw [hstate]; exact hf)).trans hreclaim

/-- R86: an operation of the install that fails makes its block BAD and ends the install. -/
theorem Part.installOpFails_writes {p : Part} {r : Install} {x : Request} (d : Nat) (op : InstallOp) (hi : p.install = some r)
    (hg : x.givenUp = false) :
    (p.installOpFails d x op).install = none ∧ (p.installOpFails d x op).catalog = p.catalog ∧
      ((p.installOpFails d x op).die d).map = (p.die d).map.map (fun m => m.set x.block .bad) ∧
      (p.installOpFails d x op).attn.pending.library = true ∧
      (p.installOpFails d x op).lib.faultCount = satInc 255 p.lib.faultCount ∧
      (p.installOpFails d x op).lib.lastFault = some { kind := (failOf op).1, die := d, block := x.block } ∧
      (p.installOpFails d x op).lib.lastOperation = some { kind := .install, song := some r.song, ending := (failOf op).2 } := by
  obtain ⟨q, hq⟩ : ∃ q, p.recordFault (failOf op).1 d x.block = q := ⟨_, rfl⟩
  obtain ⟨w, hw⟩ : ∃ w, q.setBlock d x.block .bad = w := ⟨_, rfl⟩
  have honly := q.setBlock_only d x.block .bad
  rw [hw] at honly
  have hinstall : w.install = some r := by rw [honly, ← hq]; exact hi
  have hcatalog : w.catalog = p.catalog := by rw [honly, ← hq]; rfl
  have hcount : w.lib.faultCount = satInc 255 p.lib.faultCount := by rw [honly, ← hq]; rfl
  have hfault : w.lib.lastFault = some { kind := (failOf op).1, die := d, block := x.block } := by rw [honly, ← hq]; rfl
  have hmap : (w.die d).map = (p.die d).map.map (fun m => m.set x.block .bad) := by rw [← hw, Part.setBlock_map, ← hq]; rfl
  have hfails : p.installOpFails d x op = ({ w with install := none }.operationEnds .install (some r.song) (failOf op).2).raise .library := by
    have hfail : p.installOpFails d x op = w.installFails (failOf op).2 := by
      rw [← hw, ← hq]
      exact if_neg (by rw [hg]; exact Bool.false_ne_true)
    rw [hfail]
    simp only [Part.installFails, hinstall]
  rw [hfails]
  exact ⟨rfl, hcatalog, hmap, rfl, hcount, hfault, rfl⟩

/-- Settles O47. -/
theorem installOperationEnds : Obligations.InstallOperationEnds := by
  refine ⟨fun d x op r s hop hbusy hreq hgiven hi hd hb => ?ends, fun p song => ⟨Part.release_of_none, fun e blk he hs => ?release⟩,
    fun tag ticket song e blk s h hc hticket hsong he hs => ?skip⟩
  case ends =>
    obtain ⟨q, hq⟩ : ∃ q, s.part.opEnds d = q := ⟨_, rfl⟩
    have hsame := Part.sameShelf_of_shelf (s.part.opEnds_shelf d)
    have hbeside := s.part.mapDie_besideLib d fun x => { x with op := none, watch := none }
    have hstate : ∀ e, (q.die e).state = (s.part.die e).state := fun e => by rw [← hq]; exact s.part.mapDie_view Die.state d e fun _ => rfl
    rw [Part.opEnds] at hq
    rw [hq] at hbeside
    rw [Part.opEnds, hq] at hsame
    have hinstall : q.install = some r := hsame.install.trans hi
    have hwell : (q.die r.target.die).state ≠ .faulted := by
      rw [hstate, hd, hbusy]
      decide
    have hentry : ∀ song, q.catEntry song = s.part.catEntry song := fun song => by rw [Part.catEntry, Part.catEntry, hbeside.catalog]
    have hholds : q.holdsSong r.song = ((s.part.play.song.map HeldSong.song) == some r.song) := by rw [Part.holdsSong, hbeside.play]
    have hexec : ∀ pass, exec (.installProgramComplete d pass) s = .next { s with part := (q.installOpEnds d pass x).opDone d } := fun pass => by
      rw [exec_installProgramComplete, Part.eraseCompletes_of_op hop (by rw [hreq]; rfl), Part.opEnds, hq]
    have hpass : q.installOpEnds d true x = q.installPassed r op := by
      simp only [Part.installOpEnds, hreq, hinstall, hgiven, if_true, Bool.false_eq_true, if_false]
    have hfail : q.installOpEnds d false x = q.installOpFails d x op := by
      simp only [Part.installOpEnds, hreq, hinstall, Bool.false_eq_true, if_false]
    refine ⟨fun herase => ?erased, fun k buffered hprogram hk hmark hbuffered => ?programmed, fun hclosing => ?closed, ?failed⟩
    case erased =>
      have hpassed : q.installPassed r op = (q.setMark 0).installNext r := by rw [herase]; rfl
      have hnext := Part.installNext_requested (p := q.setMark 0) (r := r) hwell
      have hdone := Part.sameShelf_of_shelf (((q.setMark 0).installNext r).opDone_shelf d)
      refine ⟨_, hexec true, ?_, ?_⟩ <;> rw [hpass, hpassed]
      · exact hdone.programMark.trans hnext.programMark
      · exact hdone.install.trans hnext.install
    case programmed =>
      obtain ⟨w, hw⟩ : ∃ w, q.setMark (k + 1) = w := ⟨_, rfl⟩
      have hpassed : q.installPassed r op = w.installNext (dropProgrammed r k) := by
        rw [hprogram, ← hw]
        refine (if_neg (by omega)).trans ?_
        rw [hsame.programMark, hmark]
      have hnext := Part.installNext_requested (p := w) (r := dropProgrammed r k) (by rw [← hw]; exact hwell)
      have hwmark : w.lib.programMark = k + 1 := by rw [← hw]; rfl
      have hwcatalog : w.catalog = s.part.catalog := by rw [← hw]; exact hbeside.catalog
      have hdone := Part.sameShelf_of_shelf ((w.installNext (dropProgrammed r k)).opDone_shelf d)
      have hdrop : dropProgrammed r k = { r with buffered := buffered } := by rw [hbuffered]; rfl
      refine ⟨_, hexec true, ?_, ?_, ?_⟩ <;> rw [hpass, hpassed]
      · rw [hdone.programMark, hnext.programMark, hwmark]
      · rw [hdone.catalog, hnext.beside.catalog, hwcatalog]
      · rw [hdone.install, hnext.install, hwmark, hdrop, nextOp_succ (r := { r with buffered := buffered }) hk]
    case closed =>
      obtain ⟨w, hw⟩ : ∃ w, q.setMark (q.lib.programMark + 1) = w := ⟨_, rfl⟩
      have hpassed : q.installPassed r op = w.installCompletes r := by
        rw [hclosing, ← hw]
        exact if_pos rfl
      have hwentry : ∀ song, w.catEntry song = s.part.catEntry song := fun song => by rw [← hw]; exact hentry song
      have hwholds : w.holdsSong r.song = ((s.part.play.song.map HeldSong.song) == some r.song) := by rw [← hw]; exact hholds
      have hwstate : ∀ e, (w.die e).state = (s.part.die e).state := fun e => by rw [← hw]; exact hstate e
      have hwmap : (w.die d).map = (s.part.die d).map := by rw [← hw]; exact hsame.map d
      have hwreclaim : w.lib.reclaim = s.part.lib.reclaim := by rw [← hw]; exact hsame.reclaim
      obtain ⟨hnone, hraised, hlast, hnew, hheld, hfree⟩ := w.installCompletes_writes r
      have hdone := Part.sameShelf_of_shelf ((w.installCompletes r).opDone_shelf d)
      have hfound : ∀ song, ((w.installCompletes r).opDone d).catEntry song = (w.installCompletes r).catEntry song := fun song => by
        rw [Part.catEntry, Part.catEntry, hdone.catalog]
      refine ⟨_, hexec true, ?_⟩
      rw [hpass, hpassed, hdone.install, hdone.lastOperation, Part.opDone_library, hfound, hdone.reclaim, hdone.map]
      refine ⟨hnone, hraised, hlast, fun hsong => ?_, fun e he hs => ?_, fun e he hs => ?_⟩
      · obtain ⟨hx, hm⟩ := hnew (by rw [hwentry, hsong])
        rw [hd, hwmap] at hm
        exact ⟨hx, hm⟩
      · obtain ⟨hx, hr, hm⟩ := hheld e (by rw [hwentry, he]) (by rw [hwholds, hs]; simp)
        rw [hd, hwmap] at hm
        exact ⟨hx, hr.trans hwreclaim, hm⟩
      · obtain ⟨hx, hr, hf⟩ := hfree e (by rw [hwentry, he]) (by rw [hwholds]; simpa using hs)
        rw [hwstate] at hr hf
        exact ⟨hx, hr, fun hc => (hf hc).trans hwreclaim⟩
    case failed =>
      obtain ⟨hnone, hcatalog, hmap, hraised, hcount, hfault, hlast⟩ := Part.installOpFails_writes (x := x) d op hinstall hgiven
      have hdone := Part.sameShelf_of_shelf ((q.installOpFails d x op).opDone_shelf d)
      have hkind : failOf op = (if op = .erase then .erase else .program, if op = .erase then .failedErase else .failedProgram) := by
        cases op with
        | erase => rfl
        | program k => rw [if_neg (by simp), if_neg (by simp)]; rfl
      refine ⟨_, hexec false, ?_⟩
      rw [hfail, hdone.install, hdone.map, hdone.catalog, Part.opDone_library, hdone.faultCount, hdone.lastFault, hdone.lastOperation, hmap,
        hcatalog, hcount, hfault, hlast, hsame.map, hsame.faultCount, hb, hkind]
      exact ⟨hnone, rfl, hbeside.catalog, hraised, rfl, rfl, rfl⟩
  case release =>
    have hswitch := Part.switchTo_switched he blk
    rw [Part.release_of_successor he hs]
    exact ⟨hswitch.entry, hswitch.attn, hswitch.lastOperation, hswitch.reclaimed, hswitch.kept⟩
  case skip =>
    have hoffers : Instr.offers (.skip tag []) tag (cmdSkip []) := fun _ => rfl
    obtain ⟨x, rest, held, hx, -⟩ := hc.holds_of_entry hticket
    obtain rfl : song = held := Option.some.inj (hsong.symm.trans hx.song)
    have hreleased : ∀ {q u v : Part}, q.unpinned = s.part.unpinned → u.shelf = (q.release song.song).shelf → v.shelf = u.shelf →
        (v.catEntry song.song).map (fun x => (x.current, x.successor, x.weak, x.damaged)) = some (blk, none, false, false) := by
      intro q u v hq hu hv
      obtain ⟨y, hy, hsuccessor⟩ := Part.catEntry_of_unpinned hq he
      have hys : y.successor = some blk := (congrArg CatEntry.successor hsuccessor).trans hs
      have hcatalog : v.catalog = (q.switchTo song.song blk).catalog := by
        rw [← Part.release_of_successor hy hys]
        exact (Part.sameShelf_of_shelf (hv.trans hu)).catalog
      have hfound : v.catEntry song.song = (q.switchTo song.song blk).catEntry song.song := by rw [Part.catEntry, Part.catEntry, hcatalog]
      rw [hfound, (Part.switchTo_switched hy blk).entry]
      rfl
    obtain ⟨q, hq, hcue⟩ := Part.cueStrike_release hx .skipped false
    obtain ⟨w, hw, hend⟩ := Part.endSong_release hx .skipped
    obtain ⟨hidle, hgap⟩ := hx.state
    cases hstate : s.part.play.state with
    | idle => exact absurd hstate hidle
    | gap => exact absurd hstate hgap
    | staging | holding =>
      exact ⟨_, exec_okThenPromote hoffers h (by simp only [cmdSkip, takesNone, withForm_some, hstate]; rfl),
        hreleased hq hcue (Part.promoteIfDue_shelf _)⟩
    | running | paused =>
      exact ⟨_, exec_okThenPromote hoffers h (by simp only [cmdSkip, takesNone, withForm_some, hstate]; rfl),
        hreleased hw hend (Part.promoteIfDue_shelf _)⟩

end Sys2Proof.Machine
end

