-- ==== Sys2Proof/Proofs/Withdraw.lean ====
section
/-! PROOFS. Proofs/Withdraw.lean: WITHDRAW SONG, and the ends of the withdraw and reclaim erases (O48). -/

namespace Sys2Proof.Machine

/-! ### WITHDRAW SONG (R89) -/

theorem Part.catEntry_song {p : Part} {song : Nat} {e : CatEntry} (h : p.catEntry song = some e) : e.song = song := by
  simpa using List.find?_some h

theorem Part.strikeWaiting_unpinned (p : Part) (which : Entry → Bool) (reason : StrikeReason) (quiet : Bool) :
    (p.strikeWaiting which reason quiet).unpinned = p.unpinned :=
  foldl_keeps Part.unpinned _ (fun q (e : Entry) => q.strike_unpinned e.ticket reason quiet) _ p

/-- R89: the checks of WITHDRAW SONG in their order. -/
theorem Part.withdrawCheck_eq (p : Part) (e : CatEntry) : p.withdrawCheck e =
    if e.state = .offline then some .offline
    else if (p.play.song.map HeldSong.song) = some e.song ∨ e.successor ≠ none then some .inUse
    else if e.state = .withdrawing ∨ (p.install.map Install.song) = some e.song then some .pending
    else if p.lib.libwp then none else some .protectedLow := by
  have hinstall : (p.install.any fun r => r.song == e.song) = true ↔ (p.install.map Install.song) = some e.song := by
    cases p.install <;> simp
  simp only [Part.withdrawCheck, Part.holdsSong, Bool.or_eq_true, beq_iff_eq, hinstall, Option.isSome_iff_ne_none]
  cases p.lib.libwp <;> rfl

/-- R89: the erase that WITHDRAW SONG requests. -/
def withdrawErase (song block : Nat) : Request := { requester := .withdraw song, block, page := 0, data := [], givenUp := false }

/-- R89: what an accepted WITHDRAW SONG writes, its die not FAULTED. -/
theorem Part.withdraw_writes {p : Part} {e : CatEntry} {song : Nat} (hc : p.cueWf) (he : p.catEntry song = some e)
    (hw : p.lib.libwp = true) (hf : (p.die e.current.die).state ≠ .faulted) :
    (p.withdraw e).book.entries = p.book.entries.filter (fun x => !(x.state == .waiting && x.song == e.song)) ∧
      ((p.withdraw e).catEntry e.song).map CatEntry.state = some .withdrawing ∧ (p.withdraw e).play = p.play ∧
      ((p.die e.current.die).state = .idle →
        ((p.withdraw e).die e.current.die).op = some (withdrawErase e.song e.current.block)) ∧
      ((p.die e.current.die).state = .busy →
        ((p.withdraw e).die e.current.die).op = (p.die e.current.die).op ∧
        ((p.withdraw e).die e.current.die).waiting = (p.die e.current.die).waiting ++ [withdrawErase e.song e.current.block]) := by
  obtain ⟨-, hnodup, -⟩ := hc
  obtain ⟨q, hq⟩ : ∃ q, p.strikeWaiting (fun x => x.song == e.song) .withdrawn false = q := ⟨_, rfl⟩
  have hview : q.songView = p.songView := by rw [← hq, Part.strikeWaiting_songView]
  have hplay : q.play = p.play := congrArg Song.play hview
  have hlib : q.lib = p.lib := congrArg Song.lib hview
  have hentries : q.book.entries = p.book.entries.filter (fun x => !(x.state == .waiting && x.song == e.song)) := by
    rw [← hq, Part.strikeWaiting_entries hnodup]
  obtain ⟨x, hx, -⟩ := Part.catEntry_of_unpinned (q := q) (by rw [← hq, Part.strikeWaiting_unpinned]) he
  obtain ⟨w, hm⟩ : ∃ w, q.mapCatEntry e.song (fun x => { x with state := .withdrawing }) = w := ⟨_, rfl⟩
  have hwell : q.dieFaulted e.current.die = false := Part.dieFaulted_eq_false (by rw [Part.die_congr hlib]; exact hf)
  have hwithdraw : p.withdraw e = w.request e.current.die (withdrawErase e.song e.current.block) := by
    rw [← hm, ← hq]
    exact if_neg (by rw [hq, hwell]; exact Bool.false_ne_true)
  have hdie : w.die e.current.die = p.die e.current.die := Part.die_congr (by rw [← hm]; exact hlib) _
  have hlow : w.lib.libwp = true := by rw [← hm]; exact (congrArg Library.libwp hlib).trans hw
  have hfound : w.catEntry e.song = some { x with state := .withdrawing } := by
    rw [← hm, Part.catEntry_mapCatEntry (f := fun x => { x with state := .withdrawing }) (fun _ => rfl), if_pos rfl, Part.catEntry_song he, hx]
    rfl
  have hbeside := w.request_besideLib e.current.die (withdrawErase e.song e.current.block)
  rw [hwithdraw]
  refine ⟨?_, ?_, ?_, fun hidle => ?_, fun hbusy => ?_⟩
  · rw [hbeside.book, ← hm]
    exact hentries
  · rw [Part.catEntry, hbeside.catalog]
    exact congrArg (Option.map CatEntry.state) hfound
  · rw [hbeside.play, ← hm]
    exact hplay
  · rw [Part.request_idle (by rw [hdie]; exact hidle) (.inr hlow), Part.startOp_die]
  · rw [Part.request_busy (by rw [hdie]; exact hbusy), Part.mapDie_die, hdie]
    exact ⟨rfl, rfl⟩

/-! ### The ends of erases (R90, R106) -/

theorem Part.catEntry_removeCatEntry (p : Part) (song : Nat) : (p.removeCatEntry song).catEntry song = none := by
  simp [Part.catEntry, Part.removeCatEntry]

/-- R90: a block whose erase has ended. -/
def erasedState (pass : Bool) : BlockState := if pass then .free else .bad

/-- R90: the end of a withdraw erase. -/
theorem Part.withdrawEnds_writes (p : Part) (d : Nat) (pass : Bool) {r : Request} {song : Nat} (hr : r.requester = .withdraw song) :
    (Part.withdrawEnds d pass r p).catEntry song = none ∧
      ((Part.withdrawEnds d pass r p).die d).map = (p.die d).map.map (fun m => m.set r.block (erasedState pass)) ∧
      (Part.withdrawEnds d pass r p).attn.pending.library = true ∧
      (Part.withdrawEnds d pass r p).lib.lastOperation =
        some { kind := .withdraw, song := some song, ending := if pass then .done else .failedErase } ∧
      (Part.withdrawEnds d pass r p).lib.faultCount = (if pass then p.lib.faultCount else satInc 255 p.lib.faultCount) := by
  obtain ⟨q, hq⟩ : ∃ q, q = if pass then p else p.recordFault .erase d r.block := ⟨_, rfl⟩
  obtain ⟨w, hw⟩ : ∃ w, (q.removeCatEntry song).setBlock d r.block (erasedState pass) = w := ⟨_, rfl⟩
  have hends : Part.withdrawEnds d pass r p =
      (w.operationEnds .withdraw (some song) (if pass then .done else .failedErase)).raise .library := by
    simp only [Part.withdrawEnds, hr]
    rw [← hw, hq]
    cases pass <;> rfl
  have honly := (q.removeCatEntry song).setBlock_only d r.block (erasedState pass)
  rw [hw] at honly
  have hdies : ∀ e, (q.removeCatEntry song).die e = p.die e := fun e => by
    rw [hq]
    cases pass <;> rfl
  rw [hends]
  refine ⟨?_, ?_, rfl, rfl, ?_⟩
  · have hcatalog : w.catalog = (q.removeCatEntry song).catalog := by rw [honly]
    have hnone := q.catEntry_removeCatEntry song
    rw [Part.catEntry, ← hcatalog] at hnone
    exact hnone
  · have hmap := (q.removeCatEntry song).setBlock_map d r.block (erasedState pass)
    rw [hw, hdies] at hmap
    exact hmap
  · have hcount : w.lib.faultCount = q.lib.faultCount := by rw [honly]; rfl
    refine hcount.trans ?_
    rw [hq]
    cases pass <;> rfl

/-- R106: the end of a reclaim erase. -/
theorem Part.reclaimEnds_writes (p : Part) (d : Nat) (pass : Bool) (r : Request) :
    (Part.reclaimEnds d pass r p).lib.reclaim = p.lib.reclaim.filter (fun x => x != (d, r.block)) ∧
      ((Part.reclaimEnds d pass r p).die d).map = (p.die d).map.map (fun m => m.set r.block (erasedState pass)) ∧
      (Part.reclaimEnds d pass r p).lib.faultCount = (if pass then p.lib.faultCount else satInc 255 p.lib.faultCount) ∧
      (pass = false → (Part.reclaimEnds d pass r p).attn.pending.library = true) := by
  obtain ⟨w, hw⟩ : ∃ w, (p.reclaimLeave d r.block).setBlock d r.block (erasedState pass) = w := ⟨_, rfl⟩
  have hends : Part.reclaimEnds d pass r p = if pass then w else w.recordFault .erase d r.block := by
    rw [← hw]
    cases pass <;> rfl
  have honly := (p.reclaimLeave d r.block).setBlock_only d r.block (erasedState pass)
  rw [hw] at honly
  have hreclaim : w.lib.reclaim = p.lib.reclaim.filter (fun x => x != (d, r.block)) := by rw [honly]; rfl
  have hcount : w.lib.faultCount = p.lib.faultCount := by rw [honly]; rfl
  have hmap : (w.die d).map = (p.die d).map.map (fun m => m.set r.block (erasedState pass)) := by
    rw [← hw]
    exact (p.reclaimLeave d r.block).setBlock_map d r.block (erasedState pass)
  rw [hends]
  cases pass with
  | true => exact ⟨hreclaim, hmap, hcount, fun h => by cases h⟩
  | false => exact ⟨hreclaim, hmap, congrArg (satInc 255) hcount, fun _ => rfl⟩

theorem exec_withdrawEraseComplete (d : Fin 2) (pass : Bool) (s : State) : exec (.withdrawEraseComplete d pass) s =
    .next { s with part := s.part.eraseCompletes d isWithdraw (Part.withdrawEnds d pass) } := rfl

theorem exec_reclaimEraseComplete (d : Fin 2) (pass : Bool) (s : State) : exec (.reclaimEraseComplete d pass) s =
    .next { s with part := s.part.eraseCompletes d (· == .reclaim) (Part.reclaimEnds d pass) } := rfl

/-- Settles O48. -/
theorem withdrawAndReclaim : Obligations.WithdrawAndReclaim := by
  have hoffers : ∀ (tag b0 b1 b2 : Byte), Instr.offers (.withdrawSong tag [b0, b1, b2]) tag (cmdWithdrawSong [b0, b1, b2]) :=
    fun _ _ _ _ _ => rfl
  have hcmd : ∀ (b0 b1 b2 : Byte) (p : Part), cmdWithdrawSong [b0, b1, b2] p =
      if !songInRange (ofU24 b0 b1 b2) then (p, .refused .badForm)
      else if p.lib.state != .mounted then (p, .refused .notMounted)
      else match p.catEntry (ofU24 b0 b1 b2) with
        | none => (p, .refused .noSuchSong)
        | some e => match p.withdrawCheck e with
          | some cause => (p, .refused cause)
          | none => (p.withdraw e, .accepted) := fun _ _ _ _ => rfl
  refine ⟨fun tag b0 b1 b2 s h => ⟨fun hr => ?_, fun hr hm => ?_, fun hr hm hn => ?_⟩,
    fun tag b0 b1 b2 e s h hc hr hm he => ⟨fun cause hcause => ?_, fun hnone hf => ?accepted⟩, fun p e => ?checks,
    fun d pass r s hop => ⟨fun song hreq => ?withdrawn, fun hreq => ?reclaimed⟩⟩
  · exact exec_refused (hoffers tag b0 b1 b2) h (by rw [hcmd, hr]; rfl)
  · exact exec_refused (hoffers tag b0 b1 b2) h (by rw [hcmd, hr, Bool.not_true, if_neg Bool.false_ne_true, if_pos (by simpa using hm)])
  · exact exec_refused (hoffers tag b0 b1 b2) h (by rw [hcmd, hr, hm, hn]; rfl)
  · exact exec_refused (hoffers tag b0 b1 b2) h (by rw [hcmd, hr, hm, he]; simp [hcause])
  case accepted =>
    have hlow : s.part.lib.libwp = true := by
      by_contra hlow
      rw [Part.withdrawCheck_eq, if_neg hlow] at hnone
      split_ifs at hnone
    obtain ⟨hentries, hstate, hplay, hidle, hbusy⟩ := Part.withdraw_writes hc he hlow hf
    refine ⟨s.part.withdraw e, exec_accepted (hoffers tag b0 b1 b2) h (by rw [hcmd, hr, hm, he]; simp [hnone]), hentries, hstate, hplay, ?_⟩
    rintro _ rfl
    exact ⟨hidle, hbusy⟩
  case checks =>
    rw [Part.withdrawCheck_eq]
    refine ⟨fun ho => if_pos ho, fun ho => ⟨fun hu => ?_, fun hp hs => ⟨fun hpend => ?_, fun hw hi => ?_⟩⟩⟩
    · rw [if_neg ho, if_pos hu]
    · rw [if_neg ho, if_neg (by simp [hp, hs]), if_pos hpend]
    · rw [if_neg ho, if_neg (by simp [hp, hs]), if_neg (by simp [hw, hi])]
  case withdrawn =>
    have hsame := Part.sameShelf_of_shelf (s.part.opEnds_shelf d)
    obtain ⟨hnone, hmap, hraised, hlast, hcount⟩ := (s.part.opEnds d).withdrawEnds_writes d pass hreq
    have hdone := Part.sameShelf_of_shelf ((Part.withdrawEnds d pass r (s.part.opEnds d)).opDone_shelf d)
    refine ⟨_, by rw [exec_withdrawEraseComplete, Part.eraseCompletes_of_op hop (by rw [hreq]; rfl)], ?_, ?_, ?_, ?_, ?_⟩
    · rw [Part.catEntry, hdone.catalog]
      exact hnone
    · rw [hdone.map, hmap, hsame.map]
      rfl
    · rw [Part.opDone_library, hraised]
    · rw [hdone.lastOperation, hlast]
    · rw [hdone.faultCount, hcount, hsame.faultCount]
  case reclaimed =>
    have hsame := Part.sameShelf_of_shelf (s.part.opEnds_shelf d)
    obtain ⟨hreclaim, hmap, hcount, hraised⟩ := (s.part.opEnds d).reclaimEnds_writes d pass r
    have hdone := Part.sameShelf_of_shelf ((Part.reclaimEnds d pass r (s.part.opEnds d)).opDone_shelf d)
    refine ⟨_, by rw [exec_reclaimEraseComplete, Part.eraseCompletes_of_op hop (by rw [hreq]; rfl)], ?_, ?_, ?_, fun hp => ?_⟩
    · rw [hdone.reclaim, hreclaim, hsame.reclaim]
    · rw [hdone.map, hmap, hsame.map]
      rfl
    · rw [hdone.faultCount, hcount, hsame.faultCount]
    · rw [Part.opDone_library, hraised hp]

end Sys2Proof.Machine
end

