-- ==== Sys2Proof/Proofs/Promotion.lean ====
section
/-! PROOFS. Proofs/Promotion.lean: what a promotion writes (O50). -/

namespace Sys2Proof.Machine

/-! ### The parts that the operations of a promotion write (R51, R101, R116) -/

/-- A request of a die is a change of that die. -/
theorem Part.request_eq_mapDie (p : Part) (d : Nat) (r : Request) : ∃ f, p.request d r = p.mapDie d f := by
  unfold Part.request
  split
  · split
    · exact ⟨_, rfl⟩
    · exact ⟨_, rfl⟩
  · exact ⟨_, rfl⟩
  all_goals exact ⟨fun x => x, (p.mapDie_id d).symm⟩

/-- A grant of a die is a change of that die. -/
theorem Part.grant_eq_mapDie (p : Part) (d : Nat) : ∃ f, p.grant d = p.mapDie d f := by
  unfold Part.grant
  split
  · exact ⟨_, p.mapDie_mapDie d _ _⟩
  · split
    · split
      · exact ⟨_, rfl⟩
      · exact ⟨_, rfl⟩
    · exact ⟨_, rfl⟩

theorem Part.request_only (p : Part) (d : Nat) (r : Request) : p.request d r = { p with lib := (p.request d r).lib } := by
  obtain ⟨f, hf⟩ := p.request_eq_mapDie d r
  rw [hf]
  unfold Part.mapDie
  split <;> rfl

theorem Part.requestStream_only (p : Part) (blk : SongBlock) (page : Nat) :
    p.requestStream blk page = { p with lib := (p.requestStream blk page).lib } := p.request_only _ _

/-- R116: the reader of a promoted song. -/
def Reader.started : Reader :=
  { Reader.reset with state := .fetching, buf0 := .requested 0, buf1 := .requested 1, nextFetch := 2 }

theorem Part.readerStart_only (p : Part) (blk : SongBlock) :
    p.readerStart blk = { p with reader := Reader.started, lib := (p.readerStart blk).lib } := by
  obtain ⟨q, hq⟩ : ∃ q : Part, { p with reader := Reader.started } = q := ⟨_, rfl⟩
  have hstart : p.readerStart blk = (q.requestStream blk 0).requestStream blk 1 := by rw [← hq]; rfl
  rw [hstart, Part.requestStream_only, q.requestStream_only, ← hq]

theorem Part.cueNotices_only (p : Part) (e : Entry) : p.cueNotices e = { p with stores := (p.cueNotices e).stores } := by
  have hkeep : ({ p.cueNotices e with stores := [] } : Part) = { p with stores := [] } := by
    unfold Part.cueNotices
    exact foldl_keeps (fun q : Part => ({ q with stores := [] } : Part)) (fun q slot => q.setCued slot e.ticket) (fun _ _ => rfl) _ p
  have hback := congrArg (fun q : Part => ({ q with stores := (p.cueNotices e).stores } : Part)) hkeep
  exact hback

theorem Part.withEntries_only (p : Part) (entries : List Entry) :
    p.withEntries entries = { p with book := { p.book with entries := entries }, stores := (p.withEntries entries).stores } := by
  have hkeep : ({ p.withEntries entries with stores := [] } : Part) = { p with book := { p.book with entries := entries }, stores := [] } := by
    unfold Part.withEntries
    exact foldl_keeps (fun q : Part => ({ q with stores := [] } : Part)) Part.setPosition (fun _ _ => rfl) _ _
  exact (congrArg (fun q : Part => ({ q with stores := (p.withEntries entries).stores } : Part)) hkeep)

/-! ### A promotion (R115) -/

/-- R115: the entries of a book whose entry of a ticket is promoted. -/
def cuedEntries (entries : List Entry) (ticket : Nat) : List Entry :=
  entries.map fun x => if x.ticket == ticket then { x with state := .cued } else x

/-- R115, stages 1 to 5: a promotion before the reader starts. -/
def Part.cueing (p : Part) (e : Entry) (blk : SongBlock) : Part :=
  (((((p.withEntries (cuedEntries p.book.entries e.ticket)).raise .book).takeCue e blk).armSeats e.singers blk.parts e.seats).cueNotices e).raise
    .play

theorem Part.promote_eq (p : Part) (e : Entry) (blk : SongBlock) :
    p.promote e blk = ((p.cueing e blk).readerStart blk).promotionCards.resetRows := rfl

/-- R115 stage 2: the play context of a promoted entry. -/
def Part.cuedPlay (p : Part) (e : Entry) (blk : SongBlock) : Play :=
  { p.play with
    state := .staging, entry := some e.ticket, song := some { song := e.song, blk }, time := 0, tempo := e.tempo, key := e.key,
    cueHold := p.settings.holdTime, startPending := false, lateLines := 0, unknownWindows := 0, damagedPages := 0, skippedRecords := 0,
    firstUnderrun := false }

/-- R115 stage 3: a seat of a promoted entry. -/
def armedSeat (e : Entry) (blk : SongBlock) (i : Nat) (s : Seat) : Seat :=
  if i < e.singers then { zeroSeat s with state := .armed, part := i % blk.parts, handset := e.seats.getD i none }
  else { zeroSeat s with state := .idle }

theorem Part.cueing_only (p : Part) (e : Entry) (blk : SongBlock) : p.cueing e blk = { p with
    book := { p.book with entries := cuedEntries p.book.entries e.ticket }
    attn := { p.attn with pending := (p.attn.pending.put .book true).put .play true }
    play := p.cuedPlay e blk
    scorer := { p.scorer with seats := p.scorer.seats.mapIdx (armedSeat e blk) }
    stores := (p.cueing e blk).stores } := by
  obtain ⟨q, hq⟩ : ∃ q, (((p.withEntries (cuedEntries p.book.entries e.ticket)).raise .book).takeCue e blk).armSeats e.singers blk.parts e.seats = q :=
    ⟨_, rfl⟩
  have hcueing : p.cueing e blk = (q.cueNotices e).raise .play := by rw [← hq]; rfl
  rw [hcueing, q.cueNotices_only, ← hq, p.withEntries_only]
  rfl

theorem Part.promote_only (p : Part) (e : Entry) (blk : SongBlock) : p.promote e blk = { p with
    book := { p.book with entries := cuedEntries p.book.entries e.ticket }
    attn := { p.attn with pending := (p.attn.pending.put .book true).put .play true }
    play := p.cuedPlay e blk
    reader := Reader.started
    scorer := { p.scorer with seats := p.scorer.seats.mapIdx (armedSeat e blk) }
    lyric := { p.lyric with row0 := Row.reset, row1 := Row.reset, card := { shown := false, groups := [] }, cardTimer := none,
                            title := { shown := true, content := none } }
    stores := (p.cueing e blk).stores
    lib := ((p.cueing e blk).readerStart blk).lib } := by
  rw [Part.promote_eq, Part.readerStart_only, p.cueing_only]
  rfl

/-- R51: cued notices of a ticket, set one after the other. -/
theorem foldl_setCued_store (slots : List Nat) {p : Part} (hl : p.stores.length = 16) (ticket : Nat) {slot : Nat} (h1 : 1 ≤ slot)
    (h16 : slot ≤ 16) (h : slot ∈ slots ∨ (p.store slot).cued = some ticket) :
    ((slots.foldl (fun q n => q.setCued n ticket) p).store slot).cued = some ticket := by
  induction slots generalizing p with
  | nil => exact h.resolve_left (by simp)
  | cons n slots ih =>
    refine ih (by simpa [Part.setCued, Part.mapStore] using hl) ?_
    by_cases hn : n - 1 = slot - 1
    · refine .inr ?_
      have hset : (p.setCued n ticket).store slot = (p.setCued slot ticket).store slot := by
        rw [Part.setCued, Part.setCued, Part.mapStore, Part.mapStore, hn]
      rw [hset, Part.setCued, Part.store_mapStore_self _ hl h1 h16]
    · refine h.imp (fun hmem => (List.mem_cons.mp hmem).resolve_left fun hc => hn (by rw [hc])) fun hc => ?_
      have hother : (p.setCued n ticket).store slot = p.store slot := getD_modify_of_ne p.stores _ Store.empty (by omega)
      rw [hother, hc]

theorem Part.withEntries_stores_length (p : Part) (entries : List Entry) : (p.withEntries entries).stores.length = p.stores.length :=
  foldl_keeps (fun x : Part => x.stores.length) Part.setPosition (fun x n => by simp [Part.setPosition, Part.mapStore]) _ _

/-- R51, R115: the slots with a seat claim on the promoted entry take its ticket. -/
theorem Part.cueing_store {p : Part} (h : p.stores.length = 16) (e : Entry) (blk : SongBlock) {slot : Nat} (h1 : 1 ≤ slot) (h16 : slot ≤ 16)
    (hs : some slot ∈ e.seats) : ((p.cueing e blk).store slot).cued = some e.ticket := by
  obtain ⟨q, hq⟩ : ∃ q, (((p.withEntries (cuedEntries p.book.entries e.ticket)).raise .book).takeCue e blk).armSeats e.singers blk.parts e.seats = q :=
    ⟨_, rfl⟩
  have hlength : q.stores.length = 16 := by
    rw [← hq]
    exact (p.withEntries_stores_length _).trans h
  have hnotices : (p.cueing e blk).store slot = (q.cueNotices e).store slot := by rw [← hq]; rfl
  rw [hnotices]
  exact foldl_setCued_store _ hlength e.ticket h1 h16 (.inl (List.mem_filterMap.mpr ⟨some slot, hs, rfl⟩))

/-- R116, R119: a fetch of a page of a song. -/
def streamFetch (block page : Nat) : Request := { requester := .stream, block, page, data := [], givenUp := false }

/-- R116: the reader of a song on an IDLE die has pages 0 and 1 fetched. -/
theorem Part.readerStart_die {p : Part} {blk : SongBlock} (h : (p.die blk.die).state = .idle) :
    ((p.readerStart blk).die blk.die).op = some (streamFetch blk.block 0) ∧
      ((p.readerStart blk).die blk.die).waiting = (p.die blk.die).waiting ++ [streamFetch blk.block 1] := by
  obtain ⟨q, hq⟩ : ∃ q : Part, { p with reader := Reader.started } = q := ⟨_, rfl⟩
  have hdie : q.die blk.die = p.die blk.die := Part.die_congr (by rw [← hq]) _
  obtain ⟨w, hw⟩ : ∃ w, q.requestStream blk 0 = w := ⟨_, rfl⟩
  have hstart : p.readerStart blk = w.request blk.die (streamFetch blk.block 1) := by rw [← hw, ← hq]; rfl
  have hfirst : w.die blk.die = { p.die blk.die with state := .busy, op := some (streamFetch blk.block 0), watch := some 960 } := by
    rw [← hw, ← hdie]
    have hrequest : q.requestStream blk 0 = q.startOp blk.die (streamFetch blk.block 0) :=
      Part.request_idle (r := streamFetch blk.block 0) (by rw [hdie]; exact h) (.inl (show 1 ≤ 3 by decide))
    rw [hrequest, Part.startOp_die]
  rw [hstart, Part.request_busy (by rw [hfirst]), Part.mapDie_die, hfirst]
  exact ⟨rfl, rfl⟩

theorem Part.promoteIfDue_first {p : Part} {e : Entry} {rest : List Entry} {c : CatEntry} (h : p.promotionDue = true)
    (hw : waitingEntries p.book.entries = e :: rest) (hc : p.catEntry e.song = some c) : p.promoteIfDue = p.promote e c.current := by
  simp only [Part.promoteIfDue, h, hw, hc, if_true]

theorem Part.seat_mapIdx {p q : Part} {f : Nat → Seat → Seat} (hq : q.scorer.seats = p.scorer.seats.mapIdx f) {i : Nat}
    (h : i < p.scorer.seats.length) : q.seat i = f i (p.seat i) := by
  simp [Part.seat, hq, h]

/-- Settles O50. -/
theorem promotionCuesFirstWaiting : Obligations.PromotionCuesFirstWaiting := by
  refine ⟨fun p => ⟨?due, Part.promoteIfDue_of_not⟩, fun p u e rest c hshaped hdue hw hc hu => ?promoted⟩
  case due =>
    rw [Part.promotionDue_iff]
    simp only [waitingEntries, ne_eq, List.filter_eq_nil_iff, beq_iff_eq, not_forall, not_not, exists_prop]
  case promoted =>
    obtain ⟨-, hstores, hseats, -⟩ := hshaped
    have honly := p.promote_only e c.current
    rw [← Part.promoteIfDue_first hdue hw hc, ← hu] at honly
    have hseat : ∀ i, i < 4 → u.seat i = armedSeat e c.current i (p.seat i) := fun i hi =>
      Part.seat_mapIdx (f := armedSeat e c.current) (by rw [honly]) (by omega)
    refine ⟨⟨?_, ?_⟩, ⟨?_, ?_⟩, fun i hi => ⟨?_, fun hs => ?_, fun hs => ?_⟩, fun slot h1 h16 hs => ?_, ⟨?_, fun hidle => ?_⟩, ?_⟩
    · rw [honly]
      simp only [cuedEntries, beq_iff_eq]
    · rw [honly]
      rfl
    · rw [honly]
      rfl
    · rw [honly]
    · rw [hseat i hi, armedSeat]
      split <;> rfl
    · rw [hseat i hi, armedSeat, if_pos hs]
      exact ⟨rfl, rfl, rfl, rfl, rfl, rfl⟩
    · rw [hseat i hi, armedSeat, if_neg (by omega)]
    · have hstore : u.store slot = (p.cueing e c.current).store slot := Part.store_congr (by rw [honly]) slot
      rw [hstore]
      exact Part.cueing_store hstores e c.current h1 h16 hs
    · rw [honly]
      rfl
    · have hcueing : (p.cueing e c.current).die c.current.die = p.die c.current.die := Part.die_congr (by rw [p.cueing_only]) _
      have hdie : u.die c.current.die = ((p.cueing e c.current).readerStart c.current).die c.current.die := Part.die_congr (by rw [honly]) _
      rw [hdie, ← hcueing]
      exact Part.readerStart_die (by rw [hcueing]; exact hidle)
    · rw [honly]

end Sys2Proof.Machine
end

