-- ==== Sys2Proof/Proofs/DieFault.lean ====
section
/-! PROOFS. Proofs/DieFault.lean: the die watch, LIBWP_N and the grants at a completion (O49). -/

namespace Sys2Proof.Machine

/-! ### A die that has stopped (R107) -/

/-- What runs on a die and waits for it. -/
def Die.run (x : Die) : DieState × Option Request × List Request × Timer := (x.state, x.op, x.waiting, x.watch)

/-- R107: die d has stopped, the entries on it are OFFLINE, no successor lies on it, and the fault count stands at a value. -/
structure Part.fallen (d n : Nat) (p : Part) : Prop where
  run : (p.die d).run = (.faulted, none, [], none)
  offline : ∀ e ∈ p.unpinned, e.current.die = d → e.state = .offline
  successors : ∀ e ∈ p.unpinned, ∀ b, e.successor = some b → b.die ≠ d
  count : p.lib.faultCount = n

section
variable {d n : Nat} {p q : Part}

theorem Part.fallen.state (h : p.fallen d n) : (p.die d).state = .faulted := congrArg Prod.fst h.run

theorem Part.fallen.of_lib (h : p.fallen d n) (hl : q.lib = p.lib) (hu : q.unpinned = p.unpinned) : q.fallen d n :=
  ⟨by rw [Part.die_congr hl, h.run], by rw [hu]; exact h.offline, by rw [hu]; exact h.successors, by rw [hl, h.count]⟩

theorem Part.die_of_same {e : Nat} (h : d = 0 ↔ e = 0) (p : Part) : p.die e = p.die d := by
  unfold Part.die
  by_cases hd : d = 0
  · rw [if_pos hd, if_pos (h.mp hd)]
  · rw [if_neg hd, if_neg (mt h.mpr hd)]

/-- A change of the other die. -/
theorem Part.fallen.mapDie (h : p.fallen d n) {e : Nat} (he : ¬(e = 0 ↔ d = 0)) (f : Die → Die) : (p.mapDie e f).fallen d n := by
  have hcatalog := (p.mapDie_besideLib e f).catalog
  have hcount : (p.mapDie e f).lib.faultCount = p.lib.faultCount := by rw [p.mapDie_only]
  exact ⟨by rw [Part.mapDie_die_of_ne _ _ he, h.run], by rw [Part.unpinned_of_catalog hcatalog]; exact h.offline,
    by rw [Part.unpinned_of_catalog hcatalog]; exact h.successors, by rw [hcount, h.count]⟩

/-- A change that keeps what runs on the dies. -/
theorem Part.fallen.mapDie_run (h : p.fallen d n) (e : Nat) {f : Die → Die} (hf : ∀ x, x.run = (.faulted, none, [], none) → (f x).run = x.run) :
    (p.mapDie e f).fallen d n := by
  by_cases he : e = 0 ↔ d = 0
  · have hcatalog := (p.mapDie_besideLib e f).catalog
    have hcount : (p.mapDie e f).lib.faultCount = p.lib.faultCount := by rw [p.mapDie_only]
    refine ⟨?_, by rw [Part.unpinned_of_catalog hcatalog]; exact h.offline, by rw [Part.unpinned_of_catalog hcatalog]; exact h.successors,
      by rw [hcount, h.count]⟩
    have hdie : p.die e = p.die d := Part.die_of_same he.symm p
    rw [Part.die_of_same he, Part.mapDie_die, hf _ (by rw [hdie, h.run]), hdie, h.run]
  · exact h.mapDie he f

theorem Part.fallen.giveUp (h : p.fallen d n) (e : Nat) (mine : Requester → Bool) : (p.giveUp e mine).fallen d n := by
  refine h.mapDie_run e fun x hx => ?_
  obtain ⟨hs, ho, hw, ht⟩ : x.state = .faulted ∧ x.op = none ∧ x.waiting = [] ∧ x.watch = none := by
    simpa [Die.run] using hx
  simp [Die.run, ho, hw]

theorem Part.fallen.request (h : p.fallen d n) (e : Nat) (r : Request) : (p.request e r).fallen d n := by
  by_cases he : e = 0 ↔ d = 0
  · have hstate : (p.die e).state = .faulted := by rw [Part.die_of_same he.symm, h.state]
    rw [Part.request_closed (by rw [hstate]; decide) (by rw [hstate]; decide)]
    exact h
  · obtain ⟨f, hf⟩ := p.request_eq_mapDie e r
    rw [hf]
    exact h.mapDie he f

theorem Part.fallen.grantIfIdle (h : p.fallen d n) (e : Nat) : (p.grantIfIdle e).fallen d n := by
  unfold Part.grantIfIdle
  split
  · next hidle =>
    have he : ¬(e = 0 ↔ d = 0) := fun he => by
      rw [Part.die_of_same he.symm, h.state] at hidle
      cases hidle
    obtain ⟨f, hf⟩ := p.grant_eq_mapDie e
    rw [hf]
    exact h.mapDie he f
  · exact h

theorem Part.fallen.reclaimJoin (h : p.fallen d n) (e b : Nat) : (p.reclaimJoin e b).fallen d n := by
  have hset : (p.setBlock e b .reclaim).fallen d n := h.mapDie_run e fun _ _ => rfl
  unfold Part.reclaimJoin
  dsimp only
  split
  · exact hset
  · exact ⟨hset.run, hset.offline, hset.successors, hset.count⟩

/-- R88: the switch of a song to a block on the other die. -/
theorem Part.fallen.switchTo (h : p.fallen d n) (song : Nat) {blk : SongBlock} (hb : blk.die ≠ d) : (p.switchTo song blk).fallen d n := by
  have hmap : (p.mapCatEntry song (switchEntry blk)).fallen d n := by
    have hmem : ∀ e ∈ (p.mapCatEntry song (switchEntry blk)).unpinned, e ∈ p.unpinned ∨ (e.current = blk ∧ e.successor = none) := by
      intro e he
      obtain ⟨y, hy, rfl⟩ := List.mem_map.mp he
      obtain ⟨x, hx, rfl⟩ := List.mem_map.mp hy
      by_cases hs : (x.song == song) = true
      · rw [if_pos hs]
        exact .inr ⟨rfl, rfl⟩
      · rw [if_neg hs]
        exact .inl (List.mem_map.mpr ⟨x, hx, rfl⟩)
    refine ⟨h.run, fun e he hd => ?_, fun e he b hs => ?_, h.count⟩
    · rcases hmem e he with hold | ⟨hblk, -⟩
      · exact h.offline e hold hd
      · exact absurd (by rw [← hblk, hd]) hb
    · rcases hmem e he with hold | ⟨-, hnone⟩
      · exact h.successors e hold b hs
      · rw [hnone] at hs
        cases hs
  cases he : p.catEntry song with
  | none =>
    have hself : p.switchTo song blk = p := by simp only [Part.switchTo, he]
    rw [hself]
    exact h
  | some e =>
    by_cases hf : (p.die e.current.die).state = .faulted
    · rw [Part.switchTo_of_faulted he hf]
      exact hmap
    · rw [Part.switchTo_of_not_faulted he hf]
      exact (hmap.reclaimJoin _ _).grantIfIdle _

theorem Part.fallen.release (h : p.fallen d n) (song : Nat) : (p.release song).fallen d n := by
  cases he : p.catEntry song with
  | none =>
    rw [Part.release_of_none (by rw [he]; rfl)]
    exact h
  | some e =>
    cases hs : e.successor with
    | none =>
      rw [Part.release_of_none (by rw [he]; exact hs)]
      exact h
    | some blk =>
      rw [Part.release_of_successor he hs]
      have hmem : e.unpinned ∈ p.unpinned := List.mem_map.mpr ⟨e, List.mem_of_find?_eq_some he, rfl⟩
      exact h.switchTo song (h.successors _ hmem blk hs)

theorem Part.fallen.readerEmpty (h : p.fallen d n) : p.readerEmpty.fallen d n :=
  ((h.giveUp 0 (· == .stream)).giveUp 1 (· == .stream)).of_lib rfl rfl

theorem Part.fallen.strike (h : p.fallen d n) (ticket : Nat) (reason : StrikeReason) (quiet : Bool) : (p.strike ticket reason quiet).fallen d n :=
  h.of_lib (congrArg Song.lib (p.strike_songView ticket reason quiet)) (p.strike_unpinned ticket reason quiet)

theorem Part.afterCueStrike_lib (p : Part) (reason : StrikeReason) :
    (p.afterCueStrike reason).lib = p.lib ∧ (p.afterCueStrike reason).catalog = p.catalog := by
  have hgap : p.loadGap.lib = p.lib ∧ p.loadGap.catalog = p.catalog := by
    unfold Part.loadGap
    split <;> exact ⟨rfl, rfl⟩
  cases reason with
  | cancelled | skipped => exact hgap
  | damaged | cleared | withdrawn | left | barred => exact ⟨rfl, rfl⟩

theorem Part.fallen.cueStrike (h : p.fallen d n) (reason : StrikeReason) (quiet : Bool) : (p.cueStrike reason quiet).fallen d n := by
  unfold Part.cueStrike
  split
  · next ticket song _ _ =>
    obtain ⟨hlib, hcatalog⟩ := Part.afterCueStrike_lib
      (((((p.strike ticket reason quiet).letGo ticket song.song (.struck reason)).readerEmpty).idleSeats.titleDown).release song.song) reason
    have hlet : ((p.strike ticket reason quiet).letGo ticket song.song (.struck reason)).fallen d n := (h.strike _ _ _).of_lib rfl rfl
    have hdown : (((p.strike ticket reason quiet).letGo ticket song.song (.struck reason)).readerEmpty.idleSeats.titleDown).fallen d n :=
      hlet.readerEmpty.of_lib rfl rfl
    exact (hdown.release song.song).of_lib hlib (Part.unpinned_of_catalog hcatalog)
  · exact h

theorem Part.endDisplay_lib (p : Part) : p.endDisplay.lib = p.lib ∧ p.endDisplay.catalog = p.catalog := by
  have hcard : ∀ (x : Part) seats, (x.showCard seats).lib = x.lib ∧ (x.showCard seats).catalog = x.catalog := fun x seats => by
    unfold Part.showCard
    dsimp only
    split <;> exact ⟨rfl, rfl⟩
  unfold Part.endDisplay
  dsimp only
  split
  · exact hcard _ _
  · exact ⟨rfl, rfl⟩

theorem Part.fallen.endSong (h : p.fallen d n) (kind : EndKind) : (p.endSong kind).fallen d n := by
  unfold Part.endSong
  split
  · next e song _ _ =>
    obtain ⟨w, hw⟩ : ∃ w, p.writeResult e.ticket song.song song.blk.edition kind = w := ⟨_, rfl⟩
    have hwrite : w.lib = p.lib ∧ w.catalog = p.catalog := by
      rw [← hw]
      unfold Part.writeResult Part.readHandsets
      cases p.heldBookEntry <;> exact ⟨rfl, rfl⟩
    have hnotices : (w.scoreNotices e).lib = w.lib := by rw [Part.scoreNotices_eq]
    have hretire : ∀ x : Part, (x.retire e).lib = x.lib := fun x => by
      unfold Part.retire Part.removeEntry Part.mapLive
      split <;> rfl
    have hdone : ((w.scoreNotices e).retire e).doneSeats.fallen d n :=
      h.of_lib ((hretire _).trans (hnotices.trans hwrite.1))
        ((Part.retire_unpinned _ e).trans (Part.unpinned_of_catalog ((Part.scoreNotices_catalog w e).trans hwrite.2)))
    obtain ⟨hlib, hcatalog⟩ := (((w.scoreNotices e).retire e).doneSeats.release song.song).readerEmpty.endDisplay_lib
    have hempty := (hdone.release song.song).readerEmpty.of_lib hlib (Part.unpinned_of_catalog hcatalog)
    have hgap : ∀ x : Part, (x.loadGap.raise .play).lib = x.lib ∧ (x.loadGap.raise .play).catalog = x.catalog := fun x => by
      unfold Part.loadGap
      split <;> exact ⟨rfl, rfl⟩
    rw [hw]
    obtain ⟨hl, hc⟩ := hgap ((((w.scoreNotices e).retire e).doneSeats.release song.song).readerEmpty.endDisplay.letGo e.ticket song.song (.ended kind))
    exact hempty.of_lib hl (Part.unpinned_of_catalog hc)
  · exact h

theorem Part.fallen.promoteIfDue (h : p.fallen d n) : p.promoteIfDue.fallen d n := by
  obtain hp | ⟨e, blk, hp⟩ := p.promoteIfDue_cases <;> rw [hp]
  · exact h
  · have hcueing : (p.cueing e blk).fallen d n := h.of_lib (by rw [p.cueing_only]) (by rw [p.cueing_only]; rfl)
    have hstart : ((p.cueing e blk).readerStart blk).fallen d n :=
      ((hcueing.of_lib (q := { p.cueing e blk with reader := Reader.started }) rfl rfl).request _ _).request _ _
    rw [Part.promote_eq]
    exact hstart.of_lib rfl rfl

end

/-! ### A die fault while MOUNTED (R91, R107) -/

theorem Part.dieStops_die (p : Part) (d : Nat) :
    (p.dieStops d).die d = { p.die d with state := .faulted, op := none, waiting := [], watch := none } := p.mapDie_die d _

/-- R91, R107: the catalog has acted on a fault of a die. -/
theorem Part.catalogFaults_fallen (p : Part) (d : Nat) : ((p.dieStops d).catalogFaults d).fallen d p.lib.faultCount := by
  obtain ⟨q, hq⟩ : ∃ q : Part, { p.dieStops d with catalog := (p.dieStops d).catalog.map (offlineEntry d) } = q := ⟨_, rfl⟩
  have hbase : q.fallen d p.lib.faultCount := by
    have hlib : q.lib = (p.dieStops d).lib := by rw [← hq]
    have hmem : ∀ e ∈ q.unpinned, ∃ x : CatEntry, e = (offlineEntry d x).unpinned := fun e he => by
      rw [← hq] at he
      obtain ⟨y, hy, rfl⟩ := List.mem_map.mp he
      obtain ⟨x, -, rfl⟩ := List.mem_map.mp hy
      exact ⟨x, rfl⟩
    refine ⟨?_, fun e he hd => ?_, fun e he b hs => ?_, ?_⟩
    · rw [Part.die_congr hlib, Part.dieStops_die]
      rfl
    · obtain ⟨x, rfl⟩ := hmem e he
      exact if_pos hd
    · obtain ⟨x, rfl⟩ := hmem e he
      have hsome : (x.successor.filter fun b => b.die != d) = some b := hs
      simpa using (Option.filter_eq_some_iff.mp hsome).2
    · rw [hlib, Part.dieStops, Part.mapDie_only]
  have hfaults : (p.dieStops d).catalogFaults d =
      (fillingBlock d (p.dieStops d).install ++ successorBlocks d (p.dieStops d).catalog).foldl (fun x b => x.reclaimJoin d b) q := by
    rw [← hq]
    rfl
  rw [hfaults]
  exact List.foldlRecOn _ _ hbase fun x hx b _ => hx.reclaimJoin d b

theorem Part.catalogFaults_besideLib (p : Part) (d : Nat) :
    ({ p with catalog := p.catalog.map (offlineEntry d) } : Part).besideLib (p.catalogFaults d) := by
  unfold Part.catalogFaults
  dsimp only
  exact List.foldlRecOn _ _ (Part.besideLib_refl _) fun x hx b _ => hx.trans (x.reclaimJoin_besideLib d b)

/-- What the end of a request by a die fault leaves: the book, the play context, the catalog, and the library beside the last operation. -/
def Part.beneath (p : Part) : Book × Play × List CatEntry × Library := (p.book, p.play, p.catalog, { p.lib with lastOperation := none })

theorem Part.installFails_beneath (p : Part) (ending : OperationEnd) : (p.installFails ending).beneath = p.beneath := by
  unfold Part.installFails
  split <;> rfl

theorem Part.endedByFault_beneath (p : Part) (r : Request) : (p.endedByFault r).beneath = p.beneath := by
  unfold Part.endedByFault
  split
  · rfl
  · cases r.requester with
    | lookupSlot slot song =>
      cases he : p.catEntry song <;> simp only [Part.findAnswered, he] <;> rfl
    | lookupPort =>
      cases hl : p.port.lookup with
      | none => simp only [Part.lookupAnswered, hl]
      | some c => cases he : p.catEntry c.song <;> simp only [Part.lookupAnswered, hl, he] <;> rfl
    | install op => exact p.installFails_beneath _
    | withdraw song | stream | scan | reclaim => rfl

theorem Part.installOnDieFails_beneath (p : Part) (d : Nat) : (p.installOnDieFails d).beneath = p.beneath := by
  unfold Part.installOnDieFails
  split
  · exact p.installFails_beneath _
  · rfl

theorem Part.fallen.of_beneath {d n : Nat} {p q : Part} (h : p.fallen d n) (hb : q.beneath = p.beneath) : q.fallen d n := by
  obtain ⟨-, -, hcatalog, hlib⟩ : q.book = p.book ∧ q.play = p.play ∧ q.catalog = p.catalog ∧
      ({ q.lib with lastOperation := none } : Library) = { p.lib with lastOperation := none } := by
    simpa only [Part.beneath, Prod.mk.injEq] using hb
  have hdie : q.die d = p.die d := by
    have h0 := congrArg Library.die0 hlib
    have h1 := congrArg Library.die1 hlib
    unfold Part.die
    split
    · exact h0
    · exact h1
  exact ⟨by rw [hdie, h.run], by rw [Part.unpinned_of_catalog hcatalog]; exact h.offline,
    by rw [Part.unpinned_of_catalog hcatalog]; exact h.successors, (congrArg Library.faultCount hlib).trans h.count⟩

/-- R107: the part once the catalog and the requests have ended with a faulted die. -/
def Part.offlined (p : Part) (d : Nat) (ended : List Request) : Part :=
  (ended.foldl Part.endedByFault ((p.dieStops d).catalogFaults d)).installOnDieFails d

theorem Part.mountedFault_eq (p : Part) (d block : Nat) (ended : List Request) : p.mountedFault d block ended =
    ((((p.offlined d ended).playFaults d).strikeWaiting (p.offlined d ended).namesOffline .damaged false).recordFault .die d block).promoteIfDue :=
  rfl

theorem Part.offlined_fields (p : Part) (d : Nat) (ended : List Request) :
    (p.offlined d ended).fallen d p.lib.faultCount ∧ (p.offlined d ended).book = p.book ∧ (p.offlined d ended).play = p.play ∧
      (p.offlined d ended).catalog = p.catalog.map (offlineEntry d) := by
  have hbeneath : (p.offlined d ended).beneath = ((p.dieStops d).catalogFaults d).beneath :=
    (Part.installOnDieFails_beneath _ d).trans (foldl_keeps Part.beneath Part.endedByFault Part.endedByFault_beneath _ _)
  have hbeside := (p.dieStops d).catalogFaults_besideLib d
  have hstops := p.mapDie_besideLib d fun x => { x with state := .faulted, op := none, waiting := [], watch := none }
  obtain ⟨hbook, hplay, hcatalog, -⟩ : (p.offlined d ended).book = _ ∧ (p.offlined d ended).play = _ ∧ (p.offlined d ended).catalog = _ ∧
      ({ (p.offlined d ended).lib with lastOperation := none } : Library) = _ := by
    simpa only [Part.beneath, Prod.mk.injEq] using hbeneath
  refine ⟨(p.catalogFaults_fallen d).of_beneath hbeneath, hbook.trans (hbeside.book.trans hstops.book), hplay.trans (hbeside.play.trans hstops.play),
    hcatalog.trans (hbeside.catalog.trans ?_)⟩
  exact congrArg (List.map (offlineEntry d)) hstops.catalog

/-- R107 step 4: an entry whose song lies on the die is one that the fault strikes. -/
theorem Part.namesOffline_of_die {p q : Part} {d : Nat} (h : q.catalog = p.catalog.map (offlineEntry d)) {x : Entry} {c : CatEntry}
    (hc : p.catEntry x.song = some c) (hd : c.current.die = d) : q.namesOffline x = true := by
  have hentry : q.catEntry x.song = some (offlineEntry d c) := by
    rw [catEntry_of_catalog_map h (fun _ => rfl), hc]
    rfl
  have hstate : (offlineEntry d c).state = .offline := if_pos hd
  simp [Part.namesOffline, hentry, hstate]

theorem Part.loadGap_book (p : Part) : p.loadGap.book = p.book := by
  obtain ⟨-, -, hbook, -⟩ := p.loadGap_fields
  exact hbook

theorem Part.letGo_book (p : Part) (ticket song : Nat) (ending : PlayEnd) : (p.letGo ticket song ending).book = p.book := rfl

theorem Part.afterCueStrike_book (p : Part) (reason : StrikeReason) : (p.afterCueStrike reason).book = p.book := by
  cases reason with
  | cancelled | skipped => exact p.loadGap_book
  | damaged | cleared | withdrawn | left | barred => rfl

theorem Part.cueStrike_entries (p : Part) (reason : StrikeReason) (quiet : Bool) :
    (p.cueStrike reason quiet).book.entries = p.book.entries ∨
      ∃ ticket, (p.cueStrike reason quiet).book.entries = withoutTicket p.book.entries ticket := by
  unfold Part.cueStrike
  split
  · next ticket song _ _ =>
    refine .inr ⟨ticket, ?_⟩
    simp [Part.afterCueStrike_book, Part.letGo_book, Part.strike_entries]
  · exact .inl rfl

theorem Part.endSong_entries (p : Part) (kind : EndKind) :
    (p.endSong kind).book.entries = p.book.entries ∨ ∃ ticket, (p.endSong kind).book.entries = withoutTicket p.book.entries ticket := by
  unfold Part.endSong
  split
  · next e song _ _ =>
    refine .inr ⟨e.ticket, ?_⟩
    simp [Part.loadGap_book, Part.letGo_book, Part.doneSeats, Part.retire, Part.removeEntry]
  · exact .inl rfl

theorem Part.playFaults_entries (p : Part) (d : Nat) :
    (p.playFaults d).book.entries = p.book.entries ∨ ∃ ticket, (p.playFaults d).book.entries = withoutTicket p.book.entries ticket := by
  unfold Part.playFaults
  split
  · split
    · exact p.endSong_entries .damaged
    · exact p.cueStrike_entries .damaged false
  · exact .inl rfl

/-- R18, R107: the WAITING entries that name a song on the die leave the book. -/
theorem Part.strikeWaiting_leaves {p q : Part} {which : Entry → Bool} (reason : StrikeReason) (quiet : Bool)
    (hq : q.book.entries = p.book.entries ∨ ∃ ticket, q.book.entries = withoutTicket p.book.entries ticket) {x : Entry}
    (hx : x ∈ p.book.entries) (hw : x.state = .waiting) (hs : which x = true) :
    ∀ y ∈ (q.strikeWaiting which reason quiet).book.entries, y.ticket ≠ x.ticket := by
  intro y hy ht
  rw [Part.strikeWaiting, foldl_strike_entries, List.mem_filter, decide_eq_true_eq] at hy
  obtain ⟨hy, hstruck⟩ := hy
  have hgone : x ∉ q.book.entries := fun hmem => by
    refine hstruck (List.mem_map.mpr ⟨x, ?_, ht.symm⟩)
    simp [waitingEntries, hmem, hw, hs]
  rcases hq with hq | ⟨ticket, hq⟩
  · exact hgone (hq ▸ hx)
  · rw [hq, withoutTicket, List.mem_filter, not_and] at hgone
    rw [hq, withoutTicket, List.mem_filter] at hy
    have hticket : x.ticket = ticket := by simpa using hgone hx
    simp [ht, hticket] at hy

theorem Part.cueStrike_lastOutcome {p : Part} {e : Entry} {song : HeldSong} (hp : p.play.entry = some e.ticket) (hs : p.play.song = some song)
    (he : p.entry e.ticket = some e) (reason : StrikeReason) (quiet : Bool) :
    (p.cueStrike reason quiet).play.lastOutcome = some { ticket := e.ticket, song := song.song, ending := .struck reason } := by
  obtain ⟨-, -, -, -, -, hplay, -⟩ := Part.roomView_fields (Part.cueStrike_roomView p e song reason quiet hp hs he)
  have hgap : (p.uncued e song.song reason quiet).loadGap.play.lastOutcome = (p.uncued e song.song reason quiet).play.lastOutcome := by
    unfold Part.loadGap
    split <;> rfl
  have hlet : (p.uncued e song.song reason quiet).play.lastOutcome = some { ticket := e.ticket, song := song.song, ending := .struck reason } := rfl
  rw [hplay]
  cases reason with
  | cancelled | skipped => exact hgap.trans hlet
  | damaged | cleared | withdrawn | left | barred => exact hlet

theorem Part.endSong_lastOutcome {p : Part} {e : Entry} {song : HeldSong} (hp : p.play.entry = some e.ticket) (hs : p.play.song = some song)
    (he : p.entry e.ticket = some e) (kind : EndKind) :
    (p.endSong kind).play.lastOutcome = some { ticket := e.ticket, song := song.song, ending := .ended kind } := by
  have hheld : p.heldBookEntry = some e := by simp [Part.heldBookEntry, hp, he]
  obtain ⟨lyric, hview⟩ := Part.endSong_roomView p e song kind hheld hs
  obtain ⟨-, -, -, -, -, hplay, -⟩ := Part.roomView_fields hview
  rw [hplay, Part.raise_play]
  unfold Part.loadGap
  split <;> rfl

theorem Part.promoteIfDue_lastOutcome (p : Part) : p.promoteIfDue.play.lastOutcome = p.play.lastOutcome := by
  obtain h | ⟨e, blk, h⟩ := p.promoteIfDue_cases <;> rw [h]
  rw [p.promote_only]
  rfl

theorem Part.promoteIfDue_tickets (p : Part) : p.promoteIfDue.book.entries.map Entry.ticket = p.book.entries.map Entry.ticket := by
  obtain h | ⟨e, blk, h⟩ := p.promoteIfDue_cases <;> rw [h]
  rw [Part.promote_book, List.map_map]
  refine List.map_congr_left fun x _ => ?_
  simp only [Function.comp]
  split <;> rfl

/-- R107: what a fault of a die leaves while the library is MOUNTED. -/
theorem Part.mountedFault_writes (p : Part) (d block : Nat) (ended : List Request) :
    (p.mountedFault d block ended).fallen d (satInc 255 p.lib.faultCount) ∧ (p.mountedFault d block ended).attn.pending.library = true ∧
      (p.mountedFault d block ended).lib.lastFault = some { kind := .die, die := d, block } ∧
      (∀ x ∈ p.book.entries, x.state = .waiting → (∃ c, p.catEntry x.song = some c ∧ c.current.die = d) →
        ∀ y ∈ (p.mountedFault d block ended).book.entries, y.ticket ≠ x.ticket) ∧
      ∀ e rest song, p.holds e rest song → song.blk.die = d →
        (p.mountedFault d block ended).play.lastOutcome =
          some { ticket := e.ticket, song := song.song, ending := if p.playing then .ended .damaged else .struck .damaged } := by
  obtain ⟨hfallen, hbook, hplay, hcatalog⟩ := p.offlined_fields d ended
  obtain ⟨c, hc⟩ : ∃ c, p.offlined d ended = c := ⟨_, rfl⟩
  rw [hc] at hfallen hbook hplay hcatalog
  obtain ⟨q, hq⟩ : ∃ q, (c.playFaults d).strikeWaiting c.namesOffline .damaged false = q := ⟨_, rfl⟩
  have hfault : p.mountedFault d block ended = (q.recordFault .die d block).promoteIfDue := by rw [Part.mountedFault_eq, hc, hq]
  have hview : q.songView = (c.playFaults d).songView := by rw [← hq, Part.strikeWaiting_songView]
  have hplayed : (c.playFaults d).fallen d p.lib.faultCount := by
    unfold Part.playFaults
    split
    · split
      · exact hfallen.endSong _
      · exact hfallen.cueStrike _ _
    · exact hfallen
  have hstruck : q.fallen d p.lib.faultCount := hplayed.of_lib (congrArg Song.lib hview) (by rw [← hq, Part.strikeWaiting_unpinned])
  have hsame := Part.sameShelf_of_shelf (q.recordFault .die d block).promoteIfDue_shelf
  rw [hfault]
  refine ⟨?_, ?_, hsame.lastFault, fun x hx hw hon y hy => ?_, fun e rest song h hd => ?_⟩
  · have hrecord : (q.recordFault .die d block).fallen d (satInc 255 p.lib.faultCount) :=
      ⟨hstruck.run, hstruck.offline, hstruck.successors, congrArg (satInc 255) hstruck.count⟩
    exact hrecord.promoteIfDue
  · rw [Part.promoteIfDue_library]
    rfl
  · obtain ⟨cat, hcat, hdie⟩ := hon
    have htickets := (q.recordFault .die d block).promoteIfDue_tickets
    have hmem : y.ticket ∈ q.book.entries.map Entry.ticket := htickets ▸ List.mem_map.mpr ⟨y, hy, rfl⟩
    obtain ⟨z, hz, hzt⟩ := List.mem_map.mp hmem
    rw [← hzt]
    have hleft := c.playFaults_entries d
    rw [hbook] at hleft
    exact Part.strikeWaiting_leaves (p := p) .damaged false hleft hx hw (Part.namesOffline_of_die hcatalog hcat hdie) z (hq ▸ hz)
  · have hentry : c.play.entry = some e.ticket := by rw [hplay, h.entry]
    have hsong : c.play.song = some song := by rw [hplay, h.song]
    have hfirst : c.entry e.ticket = some e := Part.entry_of_first (by rw [hbook]; exact h.entries)
    have hon : (c.play.song.any fun x => x.blk.die == d) = true := by simp [hsong, hd]
    have hplaying : c.playing = p.playing := by rw [Part.playing, hplay]; rfl
    rw [Part.promoteIfDue_lastOutcome]
    refine (congrArg (fun x : Song => x.play.lastOutcome) hview).trans ?_
    have hfaults : c.playFaults d = if p.playing then c.endSong .damaged else c.cueStrike .damaged false := by
      rw [← hplaying]
      exact if_pos hon
    rw [hfaults]
    cases p.playing with
    | true => exact Part.endSong_lastOutcome hentry hsong hfirst .damaged
    | false => exact Part.cueStrike_lastOutcome hentry hsong hfirst .damaged false

/-! ### A die fault while MOUNTING (R75) -/

/-- R75: with die 1 FAULTED the mount completes. -/
theorem Part.completeMount_faulted {p : Part} (h : p.lib.die1.state = .faulted) :
    p.completeMount.lib.die1.state = .faulted ∧ p.completeMount.lib.lastFault = p.lib.lastFault := by
  obtain ⟨q, hq⟩ : ∃ q : Part, Part.raise (Part.operationEnds { p with
      catalog := catalogOf p.kept
      lib := { p.lib with
        die0 := mountDie p.kept 0 p.lib.die0, die1 := mountDie p.kept 1 p.lib.die1, state := .mounted,
        reclaim := reclaimOf 0 ((mountDie p.kept 0 p.lib.die0).map.getD []) ++ reclaimOf 1 ((mountDie p.kept 1 p.lib.die1).map.getD []) } }
      .mount none .done) .library = q := ⟨_, rfl⟩
  have hcomplete : p.completeMount = (q.grantIfIdle 0).grantIfIdle 1 := by
    rw [← hq]
    rfl
  have hstate : (q.die 1).state = .faulted := by
    have hdie : q.die 1 = mountDie p.kept 1 p.lib.die1 := by rw [← hq]; rfl
    rw [hdie, mountDie]
    split <;> exact h
  have hfault : q.lib.lastFault = p.lib.lastFault := by rw [← hq]; rfl
  obtain ⟨hother, -⟩ := q.grantIfIdle_others 0 1 (by decide) (by decide) (by decide)
  have hkept : (q.grantIfIdle 0).grantIfIdle 1 = q.grantIfIdle 0 := if_neg (by rw [hother, hstate]; decide)
  rw [hcomplete, hkept]
  refine ⟨?_, (Part.sameShelf_of_shelf (q.grantIfIdle_shelf 0)).lastFault.trans hfault⟩
  exact (congrArg Die.state hother).trans hstate

/-- R75: a fault of die 1 while MOUNTING. -/
theorem Part.mountingFault_one {p : Part} (hm : p.lib.state = .mounting) (block : Nat) :
    (p.mountingFault 1 block).lib.die1.state = .faulted ∧
      (p.mountingFault 1 block).lib.lastFault = some { kind := .die, die := 1, block } ∧ (p.mountingFault 1 block).attn.pending.library = true ∧
      (p.mountingFault 1 block).lib.state = if p.lib.die0.scan = .done then .mounted else .mounting := by
  obtain ⟨q, hq⟩ : ∃ q, ((p.dieStops 1).recordFault .die 1 block).mapDie 1 (fun x => { x with scan := .notScanning, judged := [] }) = q := ⟨_, rfl⟩
  have hfault : p.mountingFault 1 block = q.mountIfScanned := by rw [← hq]; rfl
  have hstate : q.lib.state = .mounting := by rw [← hq]; exact hm
  have hdie1 : q.lib.die1.state = .faulted := by rw [← hq]; rfl
  have hdie0 : q.lib.die0.scan = p.lib.die0.scan := by rw [← hq]; rfl
  have hlast : q.lib.lastFault = some { kind := .die, die := 1, block } := by rw [← hq]; rfl
  have hraised : q.attn.pending.library = true := by rw [← hq]; rfl
  rw [hfault]
  by_cases hdone : p.lib.die0.scan = .done
  · obtain ⟨hfaulted, hkept⟩ := Part.completeMount_faulted hdie1
    have hfrom := q.completeMount_mountedFrom
    rw [Part.mountIfScanned_done hstate (by rw [hdie0]; exact hdone) (.inr (.inr hdie1)), if_pos hdone]
    exact ⟨hfaulted, hkept.trans hlast, hfrom.library, hfrom.state⟩
  · have hquiet : q.mountIfScanned = q := if_neg fun h => hdone (hdie0 ▸ h.2.1)
    rw [hquiet, if_neg hdone]
    exact ⟨hdie1, hlast, hraised, hstate⟩

/-! ### The events (R99, R101, R103) -/

theorem exec_dieWatchExpiry (d : Fin 2) (s : State) : exec (.dieWatchExpiry d) s = .next { s with part := s.part.watchExpiry d } := rfl

theorem exec_watchExpiry_of {d : Fin 2} {s : State} {u : Part} (h : s.part.watchExpiry d = u) :
    exec (.dieWatchExpiry d) s = .next { s with part := u } := by rw [exec_dieWatchExpiry, h]

theorem Part.watchExpiry_of_op {p : Part} {d : Nat} {r : Request} (hw : lastTick (p.die d).watch = true) (hi : (p.die d).identifying = none)
    (hop : (p.die d).op = some r) : p.watchExpiry d = p.dieFaults d r := by
  rw [Part.watchExpiry, Part.expireAt_due 1 (fun q => (q.die d).watch) (fun q => q.watchExpires d) p hw]
  simp only [Part.watchExpires, hi, hop, Option.isSome_none, Bool.false_eq_true, if_false]

theorem Part.watchExpiry_of_identifying {p : Part} {d : Nat} (hw : lastTick (p.die d).watch = true) (hi : (p.die d).identifying ≠ none) :
    p.watchExpiry d = p.identified d false := by
  rw [Part.watchExpiry, Part.expireAt_due 1 (fun q => (q.die d).watch) (fun q => q.watchExpires d) p hw]
  exact if_pos (Option.isSome_iff_ne_none.mpr hi)

theorem Part.watchExpiry_quiet {p : Part} {d : Nat} (hw : lastTick (p.die d).watch = false) : p.watchExpiry d = p :=
  Part.expireAt_quiet _ _ _ _ hw

/-- R101: the choice of the arbiter turns on the die, LIBWP_N, the library's state and the reclaim list alone. -/
theorem Part.granted_congr {p q : Part} {d : Nat} {x : Die} (hd : q.die d = p.die d) (hw : q.lib.libwp = p.lib.libwp)
    (hs : q.lib.state = p.lib.state) (hr : q.lib.reclaim = p.lib.reclaim) (h : q.granted d x) : p.granted d x := by
  unfold Part.granted at h ⊢
  rwa [hd, hw, hs, hr] at h

/-- What a promotion turns on. -/
theorem Part.promotionDue_of_same {p q : Part} (hp : q.play = p.play) (hb : q.book = p.book) (hl : q.lib.state = p.lib.state) :
    q.promotionDue = p.promotionDue := by
  unfold Part.promotionDue
  rw [hp, hb, hl]

/-- R101: at the end of an operation with no promotion due the arbiter grants. -/
theorem Part.opDone_granted {p q : Part} {d : Nat} (h : p.promotionDue = false) (hp : q.play = p.play) (hb : q.book = p.book)
    (hl : q.lib.state = p.lib.state) : q.granted d ((q.opDone d).die d) := by
  have hbeside := q.grant_besideLib d
  have hnone : (q.grant d).promotionDue = false := by
    rw [Part.promotionDue_of_same (hbeside.play.trans hp) (hbeside.book.trans hb) ((q.grant_libState d).trans hl), h]
  rw [Part.opDone, Part.promoteIfDue_of_not hnone]
  exact q.grant_granted d

theorem Part.withdrawEnds_beside (p : Part) (d : Nat) (pass : Bool) {r : Request} {song : Nat} (hr : r.requester = .withdraw song) :
    (Part.withdrawEnds d pass r p).play = p.play ∧ (Part.withdrawEnds d pass r p).book = p.book ∧
      (Part.withdrawEnds d pass r p).lib.state = p.lib.state := by
  cases pass
  all_goals
    simp only [Part.withdrawEnds, hr, if_true, Bool.false_eq_true, if_false]
    rw [Part.setBlock_only]
    exact ⟨rfl, rfl, rfl⟩

theorem Part.reclaimEnds_beside (p : Part) (d : Nat) (pass : Bool) (r : Request) :
    (Part.reclaimEnds d pass r p).play = p.play ∧ (Part.reclaimEnds d pass r p).book = p.book ∧
      (Part.reclaimEnds d pass r p).lib.state = p.lib.state := by
  cases pass
  all_goals
    simp only [Part.reclaimEnds, if_true, Bool.false_eq_true, if_false]
    rw [Part.setBlock_only]
    exact ⟨rfl, rfl, rfl⟩

theorem exec_libwpChange (high : Bool) (s : State) : exec (.libwpChange high) s = .next { s with part := s.part.protectChanges high } := rfl

/-- R103: at a rise of LIBWP_N each IDLE die grants. -/
theorem Part.protectChanges_rise {p : Part} (h : p.lib.libwp = false) :
    p.protectChanges true = (({ p with lib := { p.lib with libwp := true } } : Part).grantIfIdle 0).grantIfIdle 1 := by
  unfold Part.protectChanges
  rw [h]
  rfl

/-- R101, R103: both dies of a part at a rise of LIBWP_N. -/
theorem Part.grantBoth (p : Part) (d : Fin 2) :
    ((p.grantIfIdle 0).grantIfIdle 1).lib.libwp = p.lib.libwp ∧ ((p.grantIfIdle 0).grantIfIdle 1).attn = p.attn ∧
      ((p.grantIfIdle 0).grantIfIdle 1).book = p.book ∧
      ((p.die d).state ≠ .idle → ((p.grantIfIdle 0).grantIfIdle 1).die d = p.die d) ∧
      ((p.die d).state = .idle → p.granted d (((p.grantIfIdle 0).grantIfIdle 1).die d)) := by
  obtain ⟨hother1, hreclaim, hstate, hlibwp, hattn, hbook⟩ := p.grantIfIdle_others 0 1 (by decide) (by decide) (by decide)
  obtain ⟨hother0, -, -, hlibwp', hattn', hbook'⟩ := (p.grantIfIdle 0).grantIfIdle_others 1 0 (by decide) (by decide) (by decide)
  refine ⟨hlibwp'.trans hlibwp, hattn'.trans hattn, hbook'.trans hbook, ?_⟩
  obtain rfl | rfl : d = 0 ∨ d = 1 := by omega
  · have hdie : ((p.grantIfIdle 0).grantIfIdle 1).die ((0 : Fin 2) : Nat) = (p.grantIfIdle 0).die 0 := hother0
    rw [hdie]
    refine ⟨fun hn => congrArg (fun q : Part => q.die 0) (if_neg hn), fun hi => ?_⟩
    have hgrant : p.grantIfIdle 0 = p.grant 0 := if_pos hi
    rw [hgrant]
    exact p.grant_granted 0
  · refine ⟨fun hn => ?_, fun hi => ?_⟩
    · have hkept : (p.grantIfIdle 0).grantIfIdle 1 = p.grantIfIdle 0 := if_neg (by rw [hother1]; exact hn)
      rw [hkept]
      exact hother1
    · have hgrant : (p.grantIfIdle 0).grantIfIdle 1 = (p.grantIfIdle 0).grant 1 := if_pos (by rw [hother1]; exact hi)
      rw [hgrant]
      exact Part.granted_congr hother1 hlibwp hstate hreclaim ((p.grantIfIdle 0).grant_granted 1)

theorem exec_streamFetchComplete (d : Fin 2) (read : PageRead) (s : State) : exec (.streamFetchComplete d read) s =
    .next { s with part := s.part.readCompletes d (· == .stream) read (Part.streamArrives read) } := rfl

/-- R71: the watch of the identification of a die expires. -/
theorem Part.identified_absent1 {p : Part} (hm : p.lib.state = .mounting) :
    p.identified 1 false = (p.mapDie 1 (·.placed false)).beginScans := Part.identified_present hm (by simp)

/-- Settles O49. -/
theorem dieWatchAndProtect : Obligations.DieWatchAndProtect := by
  refine ⟨fun d r s hw hi hop => ⟨fun hm => ?mounted, fun hm hd => ?mounting0, fun hm hd => ?mounting1, fun hm => ?failed⟩, fun d s hw => ?quiet,
    fun s hm hi hw => ⟨fun h0 => ?waits, fun h0 hidle => ?scans⟩, fun s hm hi hw => ?absent0, fun s => ?low, fun d s hlow => ?rise,
    fun d r p => ⟨fun hidle => ⟨fun hr => ?_, fun hr => ?_⟩, fun hbusy => ?_, fun hi hb => Part.request_closed hi hb⟩,
    fun d r s hop hdue => ⟨fun read hreq hgiven => ?stream, fun pass song hreq => ?withdraw, fun pass hreq => ?reclaim⟩⟩
  case mounted =>
    have hpart : s.part.watchExpiry d = s.part.mountedFault d r.block (r :: (s.part.die d).waiting) := by
      rw [Part.watchExpiry_of_op hw hi hop]
      simp only [Part.dieFaults, hm]
    obtain ⟨hfallen, hraised, hlast, hstruck, hout⟩ := s.part.mountedFault_writes d r.block (r :: (s.part.die d).waiting)
    obtain ⟨u, hu⟩ : ∃ u, s.part.mountedFault d r.block (r :: (s.part.die d).waiting) = u := ⟨_, rfl⟩
    rw [hu] at hpart hfallen hraised hlast hstruck hout
    obtain ⟨hstate, hnone, hempty, hstopped⟩ : (u.die d).state = .faulted ∧ (u.die d).op = none ∧ (u.die d).waiting = [] ∧ (u.die d).watch = none := by
      simpa [Die.run] using hfallen.run
    refine ⟨u, by rw [exec_dieWatchExpiry, hpart], hstate, hnone, hempty, hstopped, fun e he hd => ?_, hraised, hlast, hfallen.count, hstruck,
      fun ticket song hc hticket hsong hd => ?_⟩
    · exact hfallen.offline e.unpinned (List.mem_map.mpr ⟨e, he, rfl⟩) hd
    · obtain ⟨e, rest, held, h, rfl⟩ := hc.holds_of_entry hticket
      obtain rfl : song = held := Option.some.inj (hsong.symm.trans h.song)
      exact hout e rest song h hd
  case mounting0 =>
    subst hd
    have hpart : s.part.watchExpiry 0 = s.part.mountingFault 0 r.block := by
      rw [Part.watchExpiry_of_op (d := 0) hw hi hop]
      simp only [Part.dieFaults, hm]
    exact ⟨_, exec_watchExpiry_of (d := 0) hpart, rfl, rfl, rfl, rfl, rfl⟩
  case mounting1 =>
    subst hd
    have hpart : s.part.watchExpiry 1 = s.part.mountingFault 1 r.block := by
      rw [Part.watchExpiry_of_op (d := 1) hw hi hop]
      simp only [Part.dieFaults, hm]
    exact ⟨_, exec_watchExpiry_of (d := 1) hpart, Part.mountingFault_one hm r.block⟩
  case failed =>
    have hpart : s.part.watchExpiry d = (s.part.dieStops d).recordFault .die d r.block := by
      rw [Part.watchExpiry_of_op hw hi hop]
      simp only [Part.dieFaults, hm]
    refine ⟨(s.part.dieStops d).recordFault .die d r.block, by rw [exec_dieWatchExpiry, hpart], ?_, ?_, rfl, rfl, ?_, ?_⟩
    · exact congrArg Die.state (s.part.dieStops_die d)
    · exact (s.part.mapDie_libState d _).trans hm
    · exact s.part.mapDie_book d _
    · exact s.part.mapDie_catalog d _
  case quiet => rw [exec_dieWatchExpiry, Part.watchExpiry_quiet hw]
  case waits =>
    have hpart : s.part.watchExpiry 1 = s.part.mapDie 1 (·.placed false) := by
      rw [Part.watchExpiry_of_identifying (d := 1) hw hi, Part.identified_absent1 hm]
      exact Part.beginScans_of_identifying (.inl h0)
    exact exec_watchExpiry_of (d := 1) hpart
  case scans =>
    have hpart : s.part.watchExpiry 1 = (s.part.mapDie 1 (·.placed false)).beginScans := by
      rw [Part.watchExpiry_of_identifying (d := 1) hw hi, Part.identified_absent1 hm]
    have hlib := Part.beginScans_lib (p := s.part.mapDie 1 (·.placed false)) h0 rfl
    refine ⟨_, exec_watchExpiry_of (d := 1) hpart, ?_, ?_⟩
    · rw [hlib]
      exact congrArg Die.state (Die.scanIfIdle_of_absent (x := s.part.lib.die1.placed false) rfl)
    · rw [hlib]
      exact Die.scanIfIdle_of_idle hidle
  case absent0 =>
    have hpart : s.part.watchExpiry 0 = (s.part.mapDie 0 (·.placed false)).failMount := by
      rw [Part.watchExpiry_of_identifying (d := 0) hw hi, Part.identified_absent0 hm]
    exact ⟨_, exec_watchExpiry_of (d := 0) hpart, rfl, rfl, rfl, rfl⟩
  case low => rfl
  case rise =>
    obtain ⟨hlibwp, hattn, hbook, hkept, hgranted⟩ := ({ s.part with lib := { s.part.lib with libwp := true } } : Part).grantBoth d
    exact ⟨_, by rw [exec_libwpChange, Part.protectChanges_rise hlow], hlibwp, hattn, hbook, hkept, hgranted⟩
  · rw [Part.request_idle hidle hr, Part.startOp_die]
  · rw [Part.request_held hidle hr, Part.mapDie_die]
  · rw [Part.request_busy hbusy, Part.mapDie_die]
  case stream =>
    obtain ⟨q, hq⟩ : ∃ q, (s.part.opEnds d).pageReadEffects d r.block (readOutcome read) = q := ⟨_, rfl⟩
    have hends := s.part.mapDie_besideLib d fun x => { x with op := none, watch := none }
    have hsame := Part.sameShelf_of_shelf (s.part.opEnds_shelf d)
    have hlib := (s.part.opEnds d).pageReadEffects_lib d r.block (readOutcome read)
    rw [hq] at hlib
    have hplay : q.play = (s.part.opEnds d).play := by rw [← hq]; cases readOutcome read <;> rfl
    have hbook : q.book = (s.part.opEnds d).book := by rw [← hq]; exact Part.pageReadEffects_book _ _ _ _
    have hstate : q.lib.state = (s.part.opEnds d).lib.state := by rw [hlib]
    have hgranted := Part.opDone_granted (d := d) hdue (hplay.trans hends.play) (hbook.trans hends.book) (hstate.trans hsame.state)
    refine ⟨_, by rw [exec_streamFetchComplete, Part.readCompletes_of_givenUp hop (by rw [hreq]; rfl) hgiven, hq], ?_⟩
    refine Part.granted_congr ?_ (by rw [hlib]) (by rw [hlib]) (by rw [hlib]) hgranted
    rw [← hq, Part.pageReadEffects_die]
  case withdraw =>
    have hends := s.part.mapDie_besideLib d fun x => { x with op := none, watch := none }
    have hsame := Part.sameShelf_of_shelf (s.part.opEnds_shelf d)
    obtain ⟨hplay, hbook, hstate⟩ := (s.part.opEnds d).withdrawEnds_beside d pass hreq
    exact ⟨_, by rw [exec_withdrawEraseComplete, Part.eraseCompletes_of_op hop (by rw [hreq]; rfl)],
      Part.opDone_granted hdue (hplay.trans hends.play) (hbook.trans hends.book) (hstate.trans hsame.state)⟩
  case reclaim =>
    have hends := s.part.mapDie_besideLib d fun x => { x with op := none, watch := none }
    have hsame := Part.sameShelf_of_shelf (s.part.opEnds_shelf d)
    obtain ⟨hplay, hbook, hstate⟩ := (s.part.opEnds d).reclaimEnds_beside d pass r
    exact ⟨_, by rw [exec_reclaimEraseComplete, Part.eraseCompletes_of_op hop (by rw [hreq]; rfl)],
      Part.opDone_granted hdue (hplay.trans hends.play) (hbook.trans hends.book) (hstate.trans hsame.state)⟩

end Sys2Proof.Machine
end

