-- ==== Sys2Proof/Proofs/PlayCommands.lean ====
section
/-! PROOFS. Proofs/PlayCommands.lean: PLAY STATUS, PAUSE, RESUME, NEXT NOW and GAP, and an audio frame at which one timer expires (O51). -/

namespace Sys2Proof.Machine

/-! ### The play context and the window beside a promotion (R114) -/

/-- R115: a promotion leaves the timers of the play context, and the window. -/
theorem Part.promoteIfDue_cue (p : Part) : p.promoteIfDue.play.hold = p.play.hold ∧ p.promoteIfDue.play.gap = p.play.gap ∧
    p.promoteIfDue.scorer.window = p.scorer.window ∧
    (p.promoteIfDue.play.state = p.play.state ∨ p.play.state = .idle ∧ p.promoteIfDue.play.state = .staging) := by
  by_cases hdue : p.promotionDue = true
  · obtain ⟨hidle, -⟩ := p.promotionDue_iff.mp hdue
    obtain h | ⟨e, blk, h⟩ := p.promoteIfDue_cases <;> rw [h]
    · exact ⟨rfl, rfl, rfl, .inl rfl⟩
    · rw [p.promote_only]
      exact ⟨rfl, rfl, rfl, .inr ⟨hidle, rfl⟩⟩
  · rw [Part.promoteIfDue_of_not (Bool.not_eq_true _ ▸ hdue)]
    exact ⟨rfl, rfl, rfl, .inl rfl⟩

theorem Part.promoteIfDue_of_state {p : Part} (h : p.play.state ≠ .idle) : p.promoteIfDue = p := by
  refine Part.promoteIfDue_of_not ?_
  rw [Bool.eq_false_iff, ne_eq, Part.promotionDue_iff]
  exact fun hdue => h hdue.1

/-! ### An audio frame that ends no window (R127, R155) -/

/-- R155: a frame joins the window. -/
def Part.withSample (p : Part) (f : AudioFrame) : Part := { p with scorer := { p.scorer with window := f :: p.scorer.window } }

theorem exec_audioFrame (f : AudioFrame) (s : State) : exec (.audioFrame f) s = .next { s with part := s.part.audioFrame f } := rfl

/-- R127, R128: an audio frame at which song time does not move. -/
theorem Part.audioFrame_still {p : Part} (f : AudioFrame) (h : p.play.state ≠ .running) (hw : p.timePasses.scorer.window.length + 1 < 480) :
    p.audioFrame f = (p.timePasses.withSample f).promoteIfDue := by
  have hrunning : (p.play.state == PlayState.running) = false := by simpa using h
  have hframe : p.audioFrame f = (if Config.windowFrames ≤ (if p.play.state == .running then (p.timePasses.withSample f).advance
      else p.timePasses.withSample f).scorer.window.length then (if p.play.state == .running then (p.timePasses.withSample f).advance
      else p.timePasses.withSample f).windowEnds else (if p.play.state == .running then (p.timePasses.withSample f).advance
      else p.timePasses.withSample f)).promoteIfDue := rfl
  rw [hframe, hrunning, if_neg Bool.false_ne_true, if_neg]
  show ¬480 ≤ (p.timePasses.withSample f).scorer.window.length
  simp only [Part.withSample, List.length_cons]
  omega

/-! ### The timers at an audio frame (R113) -/

theorem Part.expireAt_zero_quiet {p : Part} (timer : Part → Timer) (expiry : Part → Part) (h : (timer p).any (fun k => k ≤ 0) = false) :
    p.expireAt 0 timer expiry = p := Part.expireAt_quiet 0 timer expiry p h

theorem Part.quiet_iff (p : Part) : p.quiet = true ↔ lastTick p.lib.die0.watch = false ∧ lastTick p.lib.die1.watch = false ∧
    lastTick p.line.reply = false ∧ lastTick p.lyric.watch = false ∧ lastTick p.lyric.cardTimer = false ∧ lastTick p.play.hold = false ∧
    lastTick p.play.gap = false := by
  simp [Part.quiet, expiries, Part.die]

/-- R113: of a part that is quiet but for HOLD and GAP those alone may expire at an audio frame. -/
theorem Part.timePasses_play {p : Part} (h0 : lastTick p.lib.die0.watch = false) (h1 : lastTick p.lib.die1.watch = false)
    (hr : lastTick p.line.reply = false) (hv : lastTick p.lyric.watch = false) (hc : lastTick p.lyric.cardTimer = false) :
    p.timePasses = (p.tick.expireAt 0 (fun q => q.play.hold) Part.holdExpires).expireAt 0 (fun q => q.play.gap) Part.gapExpires := by
  simp only [Part.timePasses, expiries, List.foldl_cons, List.foldl_nil]
  rw [Part.expireAt_zero_quiet (p := p.tick) (fun q => (q.die 0).watch) _ (tickTimer_quiet _ h0),
    Part.expireAt_zero_quiet (p := p.tick) (fun q => (q.die 1).watch) _ (tickTimer_quiet _ h1),
    Part.expireAt_zero_quiet (p := p.tick) (fun q => q.line.reply) _ (tickTimer_quiet _ hr),
    Part.expireAt_zero_quiet (p := p.tick) (fun q => q.lyric.watch) _ (tickTimer_quiet _ hv),
    Part.expireAt_zero_quiet (p := p.tick) (fun q => q.lyric.cardTimer) _ (tickTimer_quiet _ hc)]

/-- R132: GAP alone expires at an audio frame. -/
theorem Part.timePasses_gap {p : Part} (hg : p.play.gap = some 1) (hq : Part.quiet { p with play := { p.play with gap := none } } = true) :
    p.timePasses = p.tick.gapExpires := by
  obtain ⟨h0, h1, hr, hv, hc, hh, -⟩ := (Part.quiet_iff _).mp hq
  rw [Part.timePasses_play (p := p) h0 h1 hr hv hc, Part.expireAt_zero_quiet (p := p.tick) (fun q => q.play.hold) _ (tickTimer_quiet _ hh)]
  refine Part.expireAt_due 0 (fun q => q.play.gap) Part.gapExpires p.tick ?_
  have htick : p.tick.play.gap = some 0 := congrArg tickTimer hg
  rw [htick]
  rfl

/-! ### GAP (R132) -/

/-- R132: GAP has expired, before a promotion. -/
def Part.gapEnded (p : Part) : Part := { p with play := { p.play with state := .idle, gap := none } }

theorem Part.gapExpires_eq {p : Part} (h : p.play.state = .gap) : p.gapExpires = p.gapEnded.promoteIfDue := by
  have hexpire : p.gapExpire = p.gapEnded := if_pos h
  rw [Part.gapExpires, hexpire]

/-- Settles O51. -/
theorem playStatusPauseAndNext : Obligations.PlayStatusPauseAndNext := by
  refine fun tag s => ⟨fun h => ⟨?status, ⟨fun hr => ?_, fun hr => ?_⟩, ⟨fun hp => ?_, fun hp => ?_⟩, fun hg => ?_, fun hg => ?_⟩,
    fun hg ht => ?expiry, fun ht => ?quiet, fun f hg ht hw hq => ?frame⟩
  case status =>
    have hoffers : Instr.offers (.playStatus tag []) tag (cmdPlayStatus []) := fun _ => rfl
    exact exec_ok hoffers h rfl
  · have hoffers : Instr.offers (.pause tag []) tag (cmdPause []) := fun _ => rfl
    exact exec_ok hoffers h (if_pos hr)
  · have hoffers : Instr.offers (.pause tag []) tag (cmdPause []) := fun _ => rfl
    exact exec_refused hoffers h (if_neg hr)
  · have hoffers : Instr.offers (.resume tag []) tag (cmdResume []) := fun _ => rfl
    exact exec_ok hoffers h (if_pos hp)
  · have hoffers : Instr.offers (.resume tag []) tag (cmdResume []) := fun _ => rfl
    exact exec_refused hoffers h (if_neg hp)
  · have hoffers : Instr.offers (.nextNow tag []) tag (cmdNextNow []) := fun _ => rfl
    have hexpire : s.part.gapExpire = s.part.gapEnded := if_pos hg
    have hcmd : cmdNextNow [] s.part = thenPromote (s.part.gapExpire, .ok []) := if_pos hg
    exact exec_okThenPromote hoffers h (hcmd.trans (by rw [hexpire]; rfl))
  · have hoffers : Instr.offers (.nextNow tag []) tag (cmdNextNow []) := fun _ => rfl
    exact exec_refused hoffers h (if_neg hg)
  case expiry =>
    have hdue : s.part.gapExpiry = s.part.gapEnded.promoteIfDue :=
      (Part.expireAt_due 1 (fun q => q.play.gap) Part.gapExpires s.part ht).trans (Part.gapExpires_eq hg)
    have hexec : exec .gapExpiry s = .next { s with part := s.part.gapExpiry } := rfl
    rw [hexec, hdue]
    rfl
  case quiet =>
    have hstill : s.part.gapExpiry = s.part := Part.expireAt_quiet 1 (fun q => q.play.gap) Part.gapExpires s.part ht
    have hexec : exec .gapExpiry s = .next { s with part := s.part.gapExpiry } := rfl
    rw [hexec, hstill]
  case frame =>
    have htime : s.part.timePasses = s.part.tick.gapEnded.promoteIfDue := by
      rw [Part.timePasses_gap ht hq, Part.gapExpires_eq (p := s.part.tick) hg]
    obtain ⟨-, hgap, hwindow, hstate⟩ := s.part.tick.gapEnded.promoteIfDue_cue
    have hshort : s.part.timePasses.scorer.window.length + 1 < 480 := by
      rw [htime, hwindow]
      exact hw
    have hframe := Part.audioFrame_still f (by rw [hg]; decide) hshort
    obtain ⟨-, hgap', -, hstate'⟩ := (s.part.timePasses.withSample f).promoteIfDue_cue
    rw [← hframe] at hgap' hstate'
    refine ⟨_, exec_audioFrame f s, ?_, ?_⟩
    · refine hgap'.trans ?_
      have hnone : s.part.timePasses.play.gap = none := by rw [htime, hgap]; rfl
      exact hnone
    · have hidle : s.part.timePasses.play.state = .idle ∨ s.part.timePasses.play.state = .staging := by
        rw [htime]
        exact hstate.imp_right fun h => h.2
      rcases hstate' with hstate' | ⟨-, hstate'⟩
      · exact hidle.imp hstate'.trans hstate'.trans
      · exact .inr hstate'

end Sys2Proof.Machine
end

