-- ==== Sys2Proof/Proofs/CueCommands.lean ====
section
/-! PROOFS. Proofs/CueCommands.lean: START, SKIP, EXTEND HOLD and HOLD (O52). -/

namespace Sys2Proof.Machine

/-! ### Strikes do not read the play context (R17) -/

/-- The part with its play context changed. -/
def Part.withPlay (x : Play) (p : Part) : Part := { p with play := x }

theorem Part.withEntries_withPlay (p : Part) (x : Play) (entries : List Entry) :
    (p.withPlay x).withEntries entries = (p.withEntries entries).withPlay x := by
  unfold Part.withEntries
  exact List.foldl_hom (g₁ := Part.setPosition) (g₂ := Part.setPosition)
    (init := ({ p with book := { p.book with entries := entries } } : Part)) (Part.withPlay x) fun _ _ => rfl

theorem Part.pushStruck_withPlay (p : Part) (x : Play) (slot : Nat) (item : StruckItem) :
    (p.withPlay x).pushStruck slot item = (p.pushStruck slot item).withPlay x := by
  have hstore : (p.withPlay x).store slot = p.store slot := rfl
  unfold Part.pushStruck
  rw [hstore]
  by_cases hroom : (p.store slot).struck.length < Config.struckCapacity
  · rw [if_pos hroom, if_pos hroom]
    rfl
  · rw [if_neg hroom, if_neg hroom]
    rfl

theorem Part.noticeStrike_withPlay (p : Part) (x : Play) (e : Entry) (reason : StrikeReason) :
    (p.withPlay x).noticeStrike e reason = (p.noticeStrike e reason).withPlay x := by
  unfold Part.noticeStrike
  cases e.origin with
  | desk => rfl
  | slot n =>
    dsimp only
    rw [Part.pushStruck_withPlay]
    exact (apply_ite (Part.withPlay x) _ _ _).symm

theorem Part.mapLive_withPlay (p : Part) (x : Play) (o : Origin) (f : Nat → Nat) : (p.withPlay x).mapLive o f = (p.mapLive o f).withPlay x := by
  cases o <;> rfl

theorem Part.strikeEntry_withPlay (p : Part) (x : Play) (e : Entry) (reason : StrikeReason) (quiet : Bool) :
    (p.withPlay x).strikeEntry e reason quiet = (p.strikeEntry e reason quiet).withPlay x := by
  obtain ⟨q, hq⟩ : ∃ q, (if reason = .cleared then ({ p with book := { p.book with entries := withoutTicket p.book.entries e.ticket } } : Part)
      else p.withEntries (withoutTicket p.book.entries e.ticket)) = q := ⟨_, rfl⟩
  have hq' : (if reason = .cleared then
        ({ p.withPlay x with book := { p.book with entries := withoutTicket p.book.entries e.ticket } } : Part)
      else (p.withPlay x).withEntries (withoutTicket p.book.entries e.ticket)) = q.withPlay x := by
    rw [← hq, Part.withEntries_withPlay]
    by_cases hc : reason = .cleared
    · rw [if_pos hc, if_pos hc]
      rfl
    · rw [if_neg hc, if_neg hc]
  have hnotice : (((q.withPlay x).dropPin e.song).mapLive e.origin (· - 1)).noticeStrike e reason =
      (((q.dropPin e.song).mapLive e.origin (· - 1)).noticeStrike e reason).withPlay x := by
    rw [← Part.noticeStrike_withPlay, ← Part.mapLive_withPlay]
    rfl
  unfold Part.strikeEntry
  dsimp only
  rw [hq]
  have hbook : (p.withPlay x).book = p.book := rfl
  rw [hbook, hq', hnotice]
  cases quiet <;> rfl

theorem Part.strike_withPlay (p : Part) (x : Play) (ticket : Nat) (reason : StrikeReason) (quiet : Bool) :
    (p.withPlay x).strike ticket reason quiet = (p.strike ticket reason quiet).withPlay x := by
  have hentry : (p.withPlay x).entry ticket = p.entry ticket := rfl
  unfold Part.strike
  rw [hentry]
  cases p.entry ticket with
  | none => rfl
  | some e => exact p.strikeEntry_withPlay x e reason quiet

theorem Part.cueStrike_eq {p : Part} {ticket : Nat} {song : HeldSong} (hp : p.play.entry = some ticket) (hs : p.play.song = some song)
    (reason : StrikeReason) (quiet : Bool) : p.cueStrike reason quiet =
      (((((p.strike ticket reason quiet).letGo ticket song.song (.struck reason)).readerEmpty.idleSeats.titleDown).release song.song).afterCueStrike
        reason) := by
  simp only [Part.cueStrike, hp, hs]

/-- R121: a strike of the CUED entry stops HOLD, wherever it stands. -/
theorem Part.cueStrike_withHold (p : Part) (t : Timer) (reason : StrikeReason) (quiet : Bool) {ticket : Nat} {song : HeldSong}
    (hp : p.play.entry = some ticket) (hs : p.play.song = some song) :
    (p.withPlay { p.play with hold := t }).cueStrike reason quiet = p.cueStrike reason quiet := by
  have hp' : (p.withPlay { p.play with hold := t }).play.entry = some ticket := hp
  have hs' : (p.withPlay { p.play with hold := t }).play.song = some song := hs
  have hplay : (p.strike ticket reason quiet).play = p.play := congrArg Song.play (p.strike_songView ticket reason quiet)
  have hlet : ((p.withPlay { p.play with hold := t }).strike ticket reason quiet).letGo ticket song.song (.struck reason) =
      (p.strike ticket reason quiet).letGo ticket song.song (.struck reason) := by
    rw [Part.strike_withPlay]
    unfold Part.letGo Part.withPlay
    rw [hplay]
  rw [Part.cueStrike_eq hp hs, Part.cueStrike_eq hp' hs', hlet]

/-! ### START (R124, R127) -/

/-- R127: the play context's entry is PLAYING and its ARMED seats SING. -/
def Part.started (p : Part) (ticket : Nat) : Part := { p with
  play := { p.play with state := .running, hold := none, startPending := false }
  book := { p.book with entries := p.book.entries.map fun x => if x.ticket = ticket then { x with state := .playing } else x }
  scorer := { p.scorer with seats := p.scorer.seats.map fun (x : Seat) => if x.state = .armed then { x with state := .singing } else x }
  attn := { p.attn with pending := { p.attn.pending with play := true } } }

theorem Part.enterRunning_eq {p : Part} {ticket : Nat} (h : p.play.entry = some ticket) : p.enterRunning = p.started ticket := by
  have hseats : (p.scorer.seats.mapIdx fun _ s => if s.state = .armed then { s with state := .singing } else s) =
      p.scorer.seats.map fun (x : Seat) => if x.state = .armed then { x with state := .singing } else x := by
    rw [List.mapIdx_eq_zipIdx_map]
    conv_rhs => rw [← List.zipIdx_map_fst 0 p.scorer.seats]
    rw [List.map_map]
    rfl
  unfold Part.enterRunning Part.startSeats Part.mapSeats Part.mapEntry Part.raise Part.started
  simp only [h, hseats, beq_iff_eq]
  rfl

theorem Part.enterRunning_withHold {p : Part} (t : Timer) : (p.withPlay { p.play with hold := t }).enterRunning = p.enterRunning ∨ p.play.entry = none := by
  cases h : p.play.entry with
  | none => exact .inr rfl
  | some ticket =>
    have h' : (p.withPlay { p.play with hold := t }).play.entry = some ticket := h
    left
    rw [Part.enterRunning_eq h, Part.enterRunning_eq h']
    rfl

/-! ### HOLD (R125) -/

theorem Part.holdExpire_start {p : Part} (h : p.play.state = .holding) (ha : p.settings.holdAction = .start) : p.holdExpire = p.enterRunning := by
  simp only [Part.holdExpire, h, ha, if_true]

theorem Part.holdExpire_skip {p : Part} (h : p.play.state = .holding) (ha : p.settings.holdAction = .skip) :
    p.holdExpire = p.cueStrike .skipped false := by
  simp only [Part.holdExpire, h, ha, if_true]

/-- R123, R125: HOLD is loaded in HOLDING. -/
theorem Part.loadHold_holding {p : Part} (h : p.play.state = .holding) {seconds : Nat} (hs : seconds ≠ 0) :
    p.loadHold seconds = p.withPlay { p.play with hold := some (1000 * seconds * 48) } := by
  unfold Part.loadHold
  dsimp only
  rw [if_neg hs, ← h]
  rfl

theorem Part.loadHold_zero {p : Part} (h : p.play.state = .holding) : p.loadHold 0 = (p.withPlay { p.play with hold := some 0 }).holdExpire := by
  unfold Part.loadHold
  dsimp only
  rw [if_pos rfl, ← h]
  rfl

/-! ### A strike that loads GAP (R121, R132) -/

/-- R112, R121: GAP as a strike or an end of a song loads it. -/
def Part.gapTimer (p : Part) : Timer := if p.settings.gapTime = 0 then none else some (1000 * p.settings.gapTime * 48)

theorem Part.loadGap_eq (p : Part) : p.loadGap = p.withPlay { p.play with
    state := if p.settings.gapTime = 0 then .idle else .gap, gap := p.gapTimer } := by
  unfold Part.loadGap Part.gapTimer
  by_cases hg : p.settings.gapTime = 0
  · rw [if_pos hg, if_pos hg, if_pos hg]
    rfl
  · rw [if_neg hg, if_neg hg, if_neg hg]
    rfl

/-- R121: what a strike of the CUED entry that loads GAP leaves of the play context, the reader, the seats and the cards. -/
theorem Part.cueStrike_loadsGap {p : Part} {e : Entry} {rest : List Entry} {song : HeldSong} (h : p.holds e rest song) {reason : StrikeReason}
    (hr : reason = .cancelled ∨ reason = .skipped) (quiet : Bool) :
    (p.cueStrike reason quiet).play = { p.play with
      state := if p.settings.gapTime = 0 then .idle else .gap, entry := none, song := none, hold := none, startPending := false
      gap := p.gapTimer
      lastOutcome := some { ticket := e.ticket, song := song.song, ending := .struck reason } } ∧
    (p.cueStrike reason quiet).reader = Reader.reset ∧
    (p.cueStrike reason quiet).scorer = { p.scorer with seats := p.scorer.seats.mapIdx fun _ s => { s with state := .idle } } ∧
    (p.cueStrike reason quiet).lyric = { p.lyric with title := { shown := false, content := none } } := by
  have hview := Part.cueStrike_roomView p e song reason quiet h.entry h.song (Part.entry_of_first h.entries)
  have hafter : (p.uncued e song.song reason quiet).afterCueStrike reason = (p.uncued e song.song reason quiet).loadGap.raise .play := by
    rcases hr with rfl | rfl <;> rfl
  rw [hafter, Part.loadGap_eq] at hview
  obtain ⟨-, -, -, -, -, hplay, hreader, hlyric, -, hscorer, -⟩ := Part.roomView_fields hview
  have hsong := p.strikeEntry_songView e reason quiet
  have hset : (p.uncued e song.song reason quiet).settings = p.settings := congrArg Song.settings hsong
  have hold : (p.strikeEntry e reason quiet).play = p.play := congrArg Song.play hsong
  have hsc : (p.strikeEntry e reason quiet).scorer = p.scorer := congrArg Song.scorer hsong
  have hly : (p.strikeEntry e reason quiet).lyric = p.lyric := congrArg Song.lyric hsong
  have hlet : (p.uncued e song.song reason quiet).play = { p.play with
      entry := none, song := none, hold := none, startPending := false
      lastOutcome := some { ticket := e.ticket, song := song.song, ending := .struck reason } } := by
    rw [← hold]
    rfl
  refine ⟨?_, hreader, ?_, ?_⟩
  · have hloaded : (p.cueStrike reason quiet).play = { (p.uncued e song.song reason quiet).play with
        state := if (p.uncued e song.song reason quiet).settings.gapTime = 0 then .idle else .gap
        gap := (p.uncued e song.song reason quiet).gapTimer } := hplay
    rw [hloaded, hlet, Part.gapTimer, hset]
    rfl
  · refine hscorer.trans ?_
    rw [← hsc]
    rfl
  · refine hlyric.trans ?_
    rw [← hly]
    rfl

/-! ### HOLD at an audio frame (R113, R125, R127) -/

theorem Part.gapExpires_cue (p : Part) : p.gapExpires.play.hold = p.play.hold ∧ p.gapExpires.scorer.window = p.scorer.window ∧
    (p.gapExpires.play.state = p.play.state ∨ p.gapExpires.play.state = .idle ∨ p.gapExpires.play.state = .staging) := by
  by_cases hg : p.play.state = .gap
  · obtain ⟨hhold, -, hwindow, hstate⟩ := p.gapEnded.promoteIfDue_cue
    rw [Part.gapExpires_eq hg]
    exact ⟨hhold, hwindow, .inr (hstate.imp_right fun h => h.2)⟩
  · have hsame : p.gapExpire = p := if_neg hg
    obtain ⟨hhold, -, hwindow, hstate⟩ := p.promoteIfDue_cue
    rw [Part.gapExpires, hsame]
    exact ⟨hhold, hwindow, hstate.imp_right fun h => .inr h.2⟩

theorem Part.gapExpires_of_running {p : Part} (h : p.play.state = .running) : p.gapExpires = p := by
  have hsame : p.gapExpire = p := if_neg (by rw [h]; decide)
  rw [Part.gapExpires, hsame, Part.promoteIfDue_of_state (by rw [h]; decide)]

/-- What HOLD's expiry at an audio frame leaves. -/
structure Part.holdGone (p q : Part) : Prop where
  hold : q.play.hold = none
  state : q.play.state ≠ .holding
  window : q.scorer.window = p.scorer.window
  started : p.settings.holdAction = .start → q.play.state = .running ∧ q.play.time = p.play.time

theorem Part.holdGone.gapExpires {p q : Part} (h : p.holdGone q) : p.holdGone q.gapExpires := by
  obtain ⟨hhold, hwindow, hstate⟩ := q.gapExpires_cue
  refine ⟨hhold.trans h.hold, ?_, hwindow.trans h.window, fun ha => ?_⟩
  · rcases hstate with hs | hs | hs <;> rw [hs]
    · exact h.state
    · decide
    · decide
  · obtain ⟨hrunning, htime⟩ := h.started ha
    rw [Part.gapExpires_of_running hrunning]
    exact ⟨hrunning, htime⟩

theorem Part.holdGone.promoteIfDue {p q : Part} (h : p.holdGone q) : p.holdGone q.promoteIfDue := by
  obtain ⟨hhold, -, hwindow, hstate⟩ := q.promoteIfDue_cue
  refine ⟨hhold.trans h.hold, ?_, hwindow.trans h.window, fun ha => ?_⟩
  · rcases hstate with hs | ⟨-, hs⟩ <;> rw [hs]
    · exact h.state
    · decide
  · obtain ⟨hrunning, htime⟩ := h.started ha
    rw [Part.promoteIfDue_of_state (by rw [hrunning]; decide)]
    exact ⟨hrunning, htime⟩

theorem Part.holds.holdExpires {p : Part} {e : Entry} {rest : List Entry} {song : HeldSong} (h : p.holds e rest song)
    (hs : p.play.state = .holding) : p.holdGone p.holdExpires := by
  rw [Part.holdExpires]
  cases ha : p.settings.holdAction with
  | start =>
    rw [Part.holdExpire_start hs ha, Part.enterRunning_eq h.entry]
    have hstarted : p.holdGone (p.started e.ticket) := ⟨rfl, by simp [Part.started], rfl, fun _ => ⟨rfl, rfl⟩⟩
    exact hstarted.promoteIfDue
  | skip =>
    rw [Part.holdExpire_skip hs ha]
    obtain ⟨hplay, -, hscorer, -⟩ := Part.cueStrike_loadsGap h (reason := .skipped) (.inr rfl) false
    have hgone : p.holdGone (p.cueStrike .skipped false) := by
      refine ⟨by rw [hplay], ?_, by rw [hscorer], fun hc => by rw [ha] at hc; cases hc⟩
      rw [hplay]
      dsimp only
      split <;> decide
    exact hgone.promoteIfDue

theorem Part.holds.tick {p : Part} {e : Entry} {rest : List Entry} {song : HeldSong} (h : p.holds e rest song) : p.tick.holds e rest song :=
  ⟨h.entries, h.waiting, h.entry, h.song, congrArg tickTimer h.gap, h.state, h.mark⟩

/-- R127: HOLD expires at an audio frame. -/
theorem Part.holds.timePasses {p : Part} {e : Entry} {rest : List Entry} {song : HeldSong} (h : p.holds e rest song)
    (hs : p.play.state = .holding) (ht : p.play.hold = some 1)
    (hq : Part.quiet { p with play := { p.play with hold := none } } = true) : p.holdGone p.timePasses := by
  obtain ⟨h0, h1, hr, hv, hc, -, -⟩ := (Part.quiet_iff _).mp hq
  have hdue : p.tick.expireAt 0 (fun q => q.play.hold) Part.holdExpires = p.tick.holdExpires := by
    refine Part.expireAt_due 0 (fun q => q.play.hold) Part.holdExpires p.tick ?_
    have htick : p.tick.play.hold = some 0 := congrArg tickTimer ht
    rw [htick]
    rfl
  have hgone := h.tick.holdExpires hs
  have hbase : p.holdGone p.tick.holdExpires := ⟨hgone.hold, hgone.state, hgone.window, hgone.started⟩
  rw [Part.timePasses_play (p := p) h0 h1 hr hv hc, hdue]
  unfold Part.expireAt
  split
  · exact hbase.gapExpires
  · exact hbase

/-- Settles O52. -/
theorem cueIsStartedOrStruck : Obligations.CueIsStartedOrStruck := by
  have hstart : ∀ tag : Byte, Instr.offers (.start tag []) tag (cmdStart []) := fun _ _ => rfl
  have hskip : ∀ tag : Byte, Instr.offers (.skip tag []) tag (cmdSkip []) := fun _ _ => rfl
  have hextend : ∀ tag b : Byte, Instr.offers (.extendHold tag [b]) tag (cmdExtendHold [b]) := fun _ _ _ => rfl
  have hcmdExtend : ∀ (b : Byte) (p : Part), cmdExtendHold [b] p = if 120 < b.toNat then (p, .refused .badForm)
      else if p.play.state = .holding then thenPromote (p.loadHold b.toNat, .ok []) else (p, .refused .notCued) := fun _ _ => rfl
  have hcmdSkip : ∀ {p : Part}, p.play.state = .staging ∨ p.play.state = .holding →
      cmdSkip [] p = thenPromote (p.cueStrike .skipped false, .ok []) := fun {p} h => by
    rcases h with h | h <;> simp only [cmdSkip, takesNone, withForm_some, h]
  have hcmdEnd : ∀ {p : Part}, p.play.state = .running ∨ p.play.state = .paused → cmdSkip [] p = thenPromote (p.endSong .skipped, .ok []) :=
    fun {p} h => by rcases h with h | h <;> simp only [cmdSkip, takesNone, withForm_some, h]
  refine fun tag s hc => ⟨fun h => ⟨fun hs => ?staging, fun hs hh => ?notCued, fun hs => ?noSkip,
    fun b => ⟨fun hb => ?_, fun hb hs => ?_, fun h1 hb hs => ?extend⟩, fun hs => ?zero⟩,
    fun ticket song hticket hsong => ⟨fun hs u hu => ⟨fun h => ?begin, fun ha ht => ?expires⟩, fun hs => ?strike, fun hs h => ?ends⟩, fun ht => ?quiet,
    fun f hs ht hw hq => ?frame⟩
  case staging => exact exec_ok (hstart tag) h (by simp only [cmdStart, takesNone, withForm_some, hs])
  case notCued =>
    refine exec_refused (hstart tag) h ?_
    cases hstate : s.part.play.state with
    | staging => exact absurd hstate hs
    | holding => exact absurd hstate hh
    | idle | gap | running | paused => simp only [cmdStart, takesNone, withForm_some, hstate]
  case noSkip =>
    refine exec_refused (hskip tag) h ?_
    rcases hs with hs | hs <;> simp only [cmdSkip, takesNone, withForm_some, hs]
  · exact exec_refused (hextend tag b) h (by rw [hcmdExtend, if_pos hb])
  · exact exec_refused (hextend tag b) h (by rw [hcmdExtend, if_neg (by omega), if_neg hs])
  case extend =>
    have hload := Part.loadHold_holding hs (seconds := b.toNat) (by omega)
    have hkept : (s.part.loadHold b.toNat).promoteIfDue = s.part.withPlay { s.part.play with hold := some (b.toNat * 1000 * 48) } := by
      rw [hload, Part.promoteIfDue_of_state (by rw [Part.withPlay]; simp [hs]), Nat.mul_comm 1000]
    exact exec_ok (hextend tag b) h (by rw [hcmdExtend, if_neg (by omega), if_pos hs, thenPromote, hkept]; rfl)
  case zero =>
    have hcmd : cmdExtendHold [0#8] s.part = thenPromote (s.part.loadHold 0, .ok []) := by
      rw [hcmdExtend, if_neg (by decide), if_pos hs]
      rfl
    obtain ⟨hidle, hgap⟩ : s.part.play.state ≠ .idle ∧ s.part.play.state ≠ .gap := by rw [hs]; decide
    obtain ⟨⟨hentry, hheld, -⟩, -⟩ := hc
    obtain ⟨ticket, hticket⟩ := Option.isSome_iff_exists.mp (hentry.mpr ⟨hidle, hgap⟩)
    obtain ⟨song, hsong⟩ := Option.isSome_iff_exists.mp (hheld.trans (by rw [hticket]; rfl))
    obtain ⟨w, hw⟩ : ∃ w, s.part.withPlay { s.part.play with hold := some 0 } = w := ⟨_, rfl⟩
    have hwstate : w.play.state = .holding := by rw [← hw]; exact hs
    have hwaction : w.settings.holdAction = s.part.settings.holdAction := by rw [← hw]; rfl
    have hload : s.part.loadHold 0 = w.holdExpire := by rw [Part.loadHold_zero hs, hw]
    cases ha : s.part.settings.holdAction with
    | start =>
      have hrun : w.holdExpire = s.part.enterRunning := by
        rw [Part.holdExpire_start hwstate (hwaction.trans ha), ← hw]
        exact (Part.enterRunning_withHold (some 0)).resolve_right (by rw [hticket]; simp)
      have hbegin : cmdStart [] s.part = (s.part.enterRunning, .ok []) := by simp only [cmdStart, takesNone, withForm_some, hs]
      rw [if_pos rfl, exec_ok (hstart tag) h hbegin]
      refine exec_ok (hextend tag 0#8) h ?_
      rw [hcmd, hload, hrun, thenPromote, Part.promoteIfDue_of_state]
      rw [Part.enterRunning_eq hticket]
      exact nofun
    | skip =>
      have hstrike : w.holdExpire = s.part.cueStrike .skipped false := by
        rw [Part.holdExpire_skip hwstate (hwaction.trans ha), ← hw]
        exact s.part.cueStrike_withHold (some 0) .skipped false hticket hsong
      rw [if_neg (by decide), exec_okThenPromote (hskip tag) h (hcmdSkip (.inr hs))]
      exact exec_okThenPromote (hextend tag 0#8) h (by rw [hcmd, hload, hstrike])
  case begin =>
    have hrun : s.part.enterRunning = u := by rw [Part.enterRunning_eq hticket, hu]; rfl
    exact exec_ok (hstart tag) h (by simp only [cmdStart, takesNone, withForm_some, hs, hrun])
  case expires =>
    have hrun : s.part.enterRunning = u := by rw [Part.enterRunning_eq hticket, hu]; rfl
    have hdue : s.part.holdExpiry = s.part.holdExpires := Part.expireAt_due 1 (fun q => q.play.hold) Part.holdExpires s.part ht
    have hexec : exec .holdExpiry s = .next { s with part := s.part.holdExpiry } := rfl
    rw [hexec, hdue, Part.holdExpires, Part.holdExpire_start hs ha, hrun, Part.promoteIfDue_of_state (by rw [hu]; exact nofun)]
  case strike =>
    obtain ⟨e, rest, held, hh, rfl⟩ := hc.holds_of_entry hticket
    obtain rfl : song = held := Option.some.inj (hsong.symm.trans hh.song)
    obtain ⟨hplay, hreader, hscorer, hlyric⟩ := Part.cueStrike_loadsGap hh (reason := .skipped) (.inr rfl) false
    obtain ⟨hbook, -, -, hpending⟩ := Part.cueStrike_gap hh (reason := .skipped) (.inr rfl) false
    refine ⟨s.part.cueStrike .skipped false, fun h => exec_okThenPromote (hskip tag) h (hcmdSkip hs), fun hh ha ht => ?_, by rw [hbook],
      by rw [hbook]; rfl, by rw [hbook], by rw [hplay]; exact ⟨rfl, rfl, rfl, rfl, rfl, rfl, rfl⟩, hreader, ?_, by rw [hscorer], by rw [hlyric],
      by rw [hpending]; simp⟩
    · have hdue : s.part.holdExpiry = s.part.holdExpires := Part.expireAt_due 1 (fun q => q.play.hold) Part.holdExpires s.part ht
      have hexec : exec .holdExpiry s = .next { s with part := s.part.holdExpiry } := rfl
      rw [hexec, hdue, Part.holdExpires, Part.holdExpire_skip hh ha]
    · rw [hscorer]
      intro x hx
      obtain ⟨i, hi, rfl⟩ := List.mem_mapIdx.mp hx
      rfl
  case ends =>
    obtain ⟨e, rest, held, hh, rfl⟩ := hc.holds_of_entry hticket
    obtain rfl : song = held := Option.some.inj (hsong.symm.trans hh.song)
    obtain ⟨hbook, hstate, hnone, hpending, hresult⟩ := Part.endSong_gap hh .skipped
    have hheld : s.part.heldBookEntry = some e := by simp [Part.heldBookEntry, hh.entry, Part.entry_of_first hh.entries]
    obtain ⟨lyric, hview⟩ := Part.endSong_roomView s.part e song .skipped hheld hsong
    rw [Part.loadGap_eq] at hview
    obtain ⟨-, -, -, -, -, -, hreader, -⟩ := Part.roomView_fields hview
    exact ⟨s.part.endSong .skipped, exec_okThenPromote (hskip tag) h (hcmdEnd hs), by rw [hbook], by rw [hbook], hstate, hnone,
      Part.endSong_lastOutcome hticket hsong (Part.entry_of_first hh.entries) .skipped, by rw [hresult]; rfl, hreader, hpending⟩
  case quiet =>
    have hstill : s.part.holdExpiry = s.part := Part.expireAt_quiet 1 (fun q => q.play.hold) Part.holdExpires s.part ht
    have hexec : exec .holdExpiry s = .next { s with part := s.part.holdExpiry } := rfl
    rw [hexec, hstill]
  case frame =>
    obtain ⟨hidle, hgap⟩ : s.part.play.state ≠ .idle ∧ s.part.play.state ≠ .gap := by rw [hs]; decide
    obtain ⟨ticket, hticket⟩ := Option.isSome_iff_exists.mp (hc.1.1.mpr ⟨hidle, hgap⟩)
    obtain ⟨e, rest, song, hh, -⟩ := hc.holds_of_entry hticket
    have hgone := hh.timePasses hs ht hq
    have hsampled : (s.part.withSample f).holdGone (s.part.timePasses.withSample f) :=
      ⟨hgone.hold, hgone.state, congrArg (f :: ·) hgone.window, hgone.started⟩
    have hframe := Part.audioFrame_still f (by rw [hs]; decide) (by rw [hgone.window]; exact hw)
    rw [exec_audioFrame, hframe]
    exact ⟨_, rfl, hsampled.promoteIfDue.hold, hsampled.promoteIfDue.state, hsampled.promoteIfDue.started⟩

end Sys2Proof.Machine
end

