-- ==== Sys2Proof/Proofs/Pace.lean ====
section
/-! PROOFS. Proofs/Pace.lean: the reader and the rows move no song time, and rows of a reader that is not STALLED change its lines alone. -/

namespace Sys2Proof.Machine

/-! ### The reader and song time (R116 to R118) -/

/-- The play context beside its counts of late lines and skipped records. -/
def Play.uncounted (x : Play) : Play := { x with lateLines := 0, skippedRecords := 0, firstUnderrun := false }

/-- What the examination of records and the rows leave of a part. -/
def Part.paced (p : Part) : Bystander × Play := (p.bystander, p.play.uncounted)

/-- What the examination of records leaves of a part. -/
def Part.ahead (p : Part) : (Bystander × Play) × Lyric × (Library × List CatEntry × Option Install) × SourceSet :=
  (p.paced, p.lyric, p.shelf, p.attn.pending.put .play true)

theorem Part.countLateLine_ahead (p : Part) : p.countLateLine.ahead = p.ahead := by
  unfold Part.countLateLine Part.underrun
  split <;> rfl

theorem Part.placeLine_ahead (p : Part) (l : LineRecord) : (p.placeLine l).ahead = p.ahead := by
  unfold Part.placeLine
  dsimp only
  split
  · rw [Part.countLateLine_ahead]
    rfl
  · rfl

theorem Part.place_ahead {p q : Part} {r : Record} (h : p.place r = some q) : q.ahead = p.ahead := by
  cases r with
  | line l =>
    simp only [Part.place] at h
    split at h
    · cases h
      exact p.placeLine_ahead l
    · cases h
  | note part number start stop =>
    simp only [Part.place] at h
    split at h
    · cases h
      rfl
    · split at h
      · cases h
        rfl
      · cases h
  | beat time =>
    simp only [Part.place] at h
    split at h
    · cases h
      rfl
    · split at h
      · cases h
        rfl
      · cases h

theorem Part.placeOrHold_ahead (p : Part) (r : Record) : (p.placeOrHold r).ahead = p.ahead := by
  unfold Part.placeOrHold
  split
  · next q hq => exact Part.place_ahead hq
  · rfl

theorem Part.takeRecord_ahead (p : Part) (r : Record) : (p.takeRecord r).ahead = p.ahead := by
  unfold Part.takeRecord
  split
  · rfl
  · exact Part.placeOrHold_ahead _ r

theorem Part.request_ahead (p : Part) (d : Nat) (r : Request) : (p.request d r).ahead = p.ahead := by
  have hshelf := p.request_shelf d r
  unfold Part.ahead
  rw [hshelf, p.request_only]
  rfl

theorem Part.refill_ahead (p : Part) (blk : SongBlock) (first : Bool) : (p.refill blk first).ahead = p.ahead := by
  unfold Part.refill
  split
  · exact Part.request_ahead _ _ _
  · rfl

theorem Part.decodeOne_ahead (p : Part) (blk : SongBlock) (first : Bool) (k : Nat) (data : List Byte) (offset : Nat) :
    (p.decodeOne blk first k data offset).ahead = p.ahead := by
  unfold Part.decodeOne
  split
  · exact p.refill_ahead blk first
  · exact p.countSkipped.refill_ahead blk first
  · rfl
  · exact (Part.takeRecord_ahead _ _).trans rfl

theorem Part.readerStep_ahead {p q : Part} {blk : SongBlock} (h : p.readerStep blk = some q) : q.ahead = p.ahead := by
  unfold Part.readerStep at h
  (repeat' split at h) <;> cases h
  any_goals rfl
  all_goals exact Part.decodeOne_ahead _ _ _ _ _ _

theorem Part.readerLoop_ahead (blk : SongBlock) (fuel : Nat) (p : Part) : (Part.readerLoop blk fuel p).ahead = p.ahead := by
  induction fuel generalizing p with
  | zero => rfl
  | succ fuel ih =>
    unfold Part.readerLoop
    split
    · split
      · next q hq => exact (ih q).trans (Part.readerStep_ahead hq)
      · rfl
    · rfl

theorem Part.readerRun_ahead (p : Part) : p.readerRun.ahead = p.ahead := by
  unfold Part.readerRun
  split
  · rfl
  · exact Part.readerLoop_ahead _ _ p

theorem Part.readerResume_ahead (p : Part) : p.readerResume.ahead = p.ahead := by
  unfold Part.readerResume
  split
  · split
    · rfl
    · next q hq =>
      have hplace : q.ahead = p.ahead := Part.place_ahead hq
      exact (Part.readerRun_ahead _).trans hplace
  · rfl

theorem Part.readerResume_paced (p : Part) : p.readerResume.paced = p.paced := congrArg Prod.fst p.readerResume_ahead

/-- R118: a reader that is not STALLED has nothing to go on with. -/
theorem Part.readerResume_of_not_stalled {p : Part} (h : p.reader.state ≠ .stalled) : p.readerResume = p := by
  unfold Part.readerResume
  split
  · next hs _ => exact absurd hs h
  · rfl

/-! ### The rows and song time (R141 to R144) -/

/-- The lyric display beside its rows, the title card, the counts of layouts and the plane. -/
def Lyric.still (x : Lyric) : Lyric :=
  { x with row0 := Row.reset, row1 := Row.reset, title := { shown := false, content := none }, missing := 0, truncated := 0, plane := [] }

/-- What the rows leave of a part. -/
def Part.onAir (p : Part) : (Bystander × Play) × Lyric × SourceSet := (p.paced, p.lyric.still, p.attn.pending.put .play true)

theorem Part.readerResume_onAir (p : Part) : p.readerResume.onAir = p.onAir :=
  congrArg (fun x => (x.1, x.2.1.still, x.2.2.2)) p.readerResume_ahead

theorem Part.retireLine_onAir (p : Part) (ordinal : Nat) : (p.retireLine ordinal).onAir = p.onAir := by
  unfold Part.retireLine
  exact Part.readerResume_onAir _

theorem Part.setRow_onAir (p : Part) (upper : Bool) (r : Row) : (p.setRow upper r).onAir = p.onAir := by
  cases upper <;> rfl

theorem Part.clearRow_onAir (p : Part) (upper : Bool) (q : QueuedLine) : (p.clearRow upper q).onAir = p.onAir :=
  (Part.retireLine_onAir _ _).trans (p.setRow_onAir upper _)

theorem Part.takeLine_onAir (p : Part) (upper : Bool) (q : QueuedLine) : (p.takeLine upper q).onAir = p.onAir := by
  unfold Part.takeLine
  cases upper <;> (dsimp only; split <;> rfl)

theorem Part.rowStep_onAir (p : Part) (upper : Bool) : (p.rowStep upper).1.onAir = p.onAir := by
  unfold Part.rowStep
  (repeat' split)
  · exact p.clearRow_onAir upper _
  · exact p.setRow_onAir upper _
  · exact p.takeLine_onAir upper _
  · rfl
  · rfl

theorem Part.rowLoop_onAir (upper : Bool) (fuel : Nat) (p : Part) : (Part.rowLoop upper fuel p).onAir = p.onAir := by
  induction fuel generalizing p with
  | zero => rfl
  | succ fuel ih =>
    have hstep := p.rowStep_onAir upper
    unfold Part.rowLoop
    split
    · next q hq => exact (ih q).trans (by rw [hq] at hstep; exact hstep)
    · next q hq => rw [hq] at hstep; exact hstep

theorem Part.rowsUp_onAir (p : Part) : p.rowsUp.onAir = p.onAir := (Part.rowLoop_onAir false 1024 _).trans (p.rowLoop_onAir true 1024)

theorem Part.nudgeRowStep_onAir (p : Part) (upper : Bool) : (p.nudgeRowStep upper).1.onAir = p.onAir := by
  unfold Part.nudgeRowStep
  (repeat' split)
  · exact p.clearRow_onAir upper _
  · rfl
  · exact p.clearRow_onAir upper _
  · rfl
  · rfl

theorem Part.nudgeRowLoop_onAir (upper : Bool) (fuel : Nat) (p : Part) : (Part.nudgeRowLoop upper fuel p).onAir = p.onAir := by
  induction fuel generalizing p with
  | zero => rfl
  | succ fuel ih =>
    have hstep := p.nudgeRowStep_onAir upper
    unfold Part.nudgeRowLoop
    split
    · next q hq => exact (ih q).trans (by rw [hq] at hstep; exact hstep)
    · next q hq => rw [hq] at hstep; exact hstep

theorem Part.nudgeRows_onAir (p : Part) : p.nudgeRows.onAir = p.onAir :=
  (Part.nudgeRowLoop_onAir false 1024 _).trans (p.nudgeRowLoop_onAir true 1024)

theorem Part.nudgeRows_paced (p : Part) : p.nudgeRows.paced = p.paced := congrArg Prod.fst p.nudgeRows_onAir

/-! ### The rows of a reader that is not STALLED (R143) -/

/-- The reader beside its lines. -/
def Reader.unlined (r : Reader) : Reader := { r with lines := [] }

theorem Part.retireLine_of_not_stalled {p : Part} (h : p.reader.state ≠ .stalled) (ordinal : Nat) : p.retireLine ordinal =
    { p with reader := { p.reader with lines := p.reader.lines.filter fun q => q.ordinal != ordinal } } :=
  Part.readerResume_of_not_stalled h

theorem Part.clearRow_unlined {p : Part} (h : p.reader.state ≠ .stalled) (upper : Bool) (q : QueuedLine) :
    (p.clearRow upper q).reader.unlined = p.reader.unlined := by
  have hrow : (p.setRow upper (emptyRow (p.clearTime q))).reader = p.reader := Part.setRow_reader _ _ _
  rw [Part.clearRow, Part.retireLine_of_not_stalled (by rw [hrow]; exact h)]
  rw [hrow]
  rfl

theorem Reader.state_of_unlined {r x : Reader} (h : x.unlined = r.unlined) : x.state = r.state := by
  have hstate : x.unlined.state = r.unlined.state := by rw [h]
  exact hstate

theorem Part.nudgeRowStep_unlined {p : Part} (h : p.reader.state ≠ .stalled) (upper : Bool) :
    (p.nudgeRowStep upper).1.reader.unlined = p.reader.unlined := by
  unfold Part.nudgeRowStep
  (repeat' split)
  · exact Part.clearRow_unlined h upper _
  · rfl
  · exact Part.clearRow_unlined h upper _
  · rfl
  · rfl

theorem Part.nudgeRowLoop_unlined (upper : Bool) (fuel : Nat) {p : Part} (h : p.reader.state ≠ .stalled) :
    (Part.nudgeRowLoop upper fuel p).reader.unlined = p.reader.unlined := by
  induction fuel generalizing p with
  | zero => rfl
  | succ fuel ih =>
    have hstep := Part.nudgeRowStep_unlined h upper
    unfold Part.nudgeRowLoop
    split
    · next q hq =>
      rw [hq] at hstep
      exact (ih (by rw [Reader.state_of_unlined hstep]; exact h)).trans hstep
    · next q hq =>
      rw [hq] at hstep
      exact hstep

/-- R144: a forward NUDGE of a reader that is not STALLED changes its lines alone. -/
theorem Part.nudgeRows_unlined {p : Part} (h : p.reader.state ≠ .stalled) : p.nudgeRows.reader.unlined = p.reader.unlined := by
  have hupper := Part.nudgeRowLoop_unlined true 1024 h
  exact (Part.nudgeRowLoop_unlined false 1024 (by rw [Reader.state_of_unlined hupper]; exact h)).trans hupper

end Sys2Proof.Machine
end

