-- ==== Sys2Proof/Proofs/SongClock.lean ====
section
/-! PROOFS. Proofs/SongClock.lean: the song clock, NUDGE, the scores and the end of a song (O53). -/

namespace Sys2Proof.Machine

/-! ### A part that a change moves no song time of -/

/-- The fields of a part that the view `paced` holds. -/
structure Part.samePace (p q : Part) : Prop where
  settings : q.settings = p.settings
  display : q.display = p.display
  book : q.book = p.book
  stores : q.stores = p.stores
  scorer : q.scorer = p.scorer
  state : q.play.state = p.play.state
  entry : q.play.entry = p.play.entry
  song : q.play.song = p.play.song
  time : q.play.time = p.play.time
  gap : q.play.gap = p.play.gap

theorem Part.samePace_of_paced {p q : Part} (h : q.paced = p.paced) : p.samePace q := by
  have hby : q.bystander = p.bystander := congrArg Prod.fst h
  have hplay : q.play.uncounted = p.play.uncounted := congrArg Prod.snd h
  have hstate : q.play.uncounted.state = p.play.uncounted.state := by rw [hplay]
  have hentry : q.play.uncounted.entry = p.play.uncounted.entry := by rw [hplay]
  have hsong : q.play.uncounted.song = p.play.uncounted.song := by rw [hplay]
  have htime : q.play.uncounted.time = p.play.uncounted.time := by rw [hplay]
  have hgap : q.play.uncounted.gap = p.play.uncounted.gap := by rw [hplay]
  exact ⟨congrArg Bystander.settings hby, congrArg Bystander.display hby, congrArg Bystander.book hby, congrArg Bystander.stores hby,
    congrArg Bystander.scorer hby, hstate, hentry, hsong, htime, hgap⟩

theorem Part.samePace.durationSteps {p q : Part} (h : p.samePace q) : q.durationSteps = p.durationSteps := by
  unfold Part.durationSteps
  rw [h.song]

theorem Part.samePace.holds {p q : Part} (hs : p.samePace q) {e : Entry} {rest : List Entry} {song : HeldSong} (h : p.holds e rest song) :
    q.holds e rest song :=
  ⟨by rw [hs.book]; exact h.entries, h.waiting, hs.entry.trans h.entry, hs.song.trans h.song, hs.gap.trans h.gap, by rw [hs.state]; exact h.state,
    by rw [hs.state]; exact h.mark⟩

theorem Part.durationSteps_of_song {p : Part} {song : HeldSong} (h : p.play.song = some song) : p.durationSteps = song.blk.duration * 1200 := by
  unfold Part.durationSteps
  rw [h]

/-! ### The end of a song (R131) -/

/-- R131: what the end of a song leaves of the play context and the scorer. -/
theorem Part.endSong_writes {p : Part} {e : Entry} {song : HeldSong} (he : p.heldBookEntry = some e) (hs : p.play.song = some song)
    (kind : EndKind) :
    (p.endSong kind).play.time = p.play.time ∧ (p.endSong kind).scorer = (((p.writeResult e.ticket song.song song.blk.edition kind).scoreNotices e).doneSeats).scorer ∧
      (p.endSong kind).stores = ((p.writeResult e.ticket song.song song.blk.edition kind).scoreNotices e).stores := by
  obtain ⟨lyric, hview⟩ := Part.endSong_roomView p e song kind he hs
  rw [Part.loadGap_eq] at hview
  obtain ⟨-, -, -, -, -, hplay, -, -, -, hscorer, -, -, hstores, -⟩ := Part.roomView_fields hview
  have hlive : ∀ x : Part, (x.retire e).scorer = x.scorer ∧ (x.retire e).stores = x.stores := fun x => by
    unfold Part.retire Part.removeEntry Part.mapLive
    split <;> exact ⟨rfl, rfl⟩
  obtain ⟨w, hw⟩ : ∃ w, (p.writeResult e.ticket song.song song.blk.edition kind).scoreNotices e = w := ⟨_, rfl⟩
  obtain ⟨hlivescorer, hlivestores⟩ := hlive w
  rw [hw]
  refine ⟨?_, ?_, ?_⟩
  · have htime : (p.unplayed e song kind).play.time = p.play.time := by rw [Part.unplayed_play]
    exact (congrArg Play.time hplay).trans htime
  · have hdone : (p.unplayed e song kind).scorer = w.doneSeats.scorer := by
      rw [← hw] at hlivescorer ⊢
      simp only [Part.unplayed, Part.letGo, Part.doneSeats, Part.mapSeats, hlivescorer]
    exact hscorer.trans hdone
  · have hkept : (p.unplayed e song kind).stores = w.stores := by
      rw [← hlivestores, ← hw]
      rfl
    exact hstores.trans hkept

/-- R169: the result record of a song's end. -/
def Part.endResult (p : Part) (ticket song edition : Nat) (kind : EndKind) : ResultRecord :=
  { ticket, song, edition, kind, seats := p.readHandsets.scorer.seats.map seatResult, unread := true,
    previousUnread := (p.scorer.result.map ResultRecord.unread).getD false }

theorem Part.writeResult_scorer (p : Part) (ticket song edition : Nat) (kind : EndKind) :
    (p.writeResult ticket song edition kind).scorer =
      { p.readHandsets.scorer with result := some (p.endResult ticket song edition kind) } := by
  obtain ⟨q, hq⟩ : ∃ q, p.readHandsets = q := ⟨_, rfl⟩
  have hresult : q.scorer.result = p.scorer.result := by rw [← hq, Part.readHandsets_result]
  unfold Part.writeResult Part.endResult
  rw [hq, ← hresult]
  cases hr : q.scorer.result <;> simp only [hr] <;> rfl

/-- R155, R157: the window and the channels of a scorer. -/
def Scorer.mics (x : Scorer) : List AudioFrame × List Channel := (x.window, x.channels)

theorem Part.endSong_mics {p : Part} (kind : EndKind) : (p.endSong kind).scorer.mics = p.scorer.mics := by
  cases he : p.heldBookEntry with
  | none =>
    have hself : p.endSong kind = p := by simp only [Part.endSong, he]
    rw [hself]
  | some e =>
    cases hs : p.play.song with
    | none =>
      have hself : p.endSong kind = p := by simp only [Part.endSong, he, hs]
      rw [hself]
    | some song =>
      obtain ⟨-, hscorer, -⟩ := Part.endSong_writes he hs kind
      have hnotices : ((p.writeResult e.ticket song.song song.blk.edition kind).scoreNotices e).scorer =
          (p.writeResult e.ticket song.song song.blk.edition kind).scorer := by rw [Part.scoreNotices_eq]
      have hread : p.readHandsets.scorer.mics = p.scorer.mics := by
        unfold Part.readHandsets
        split <;> rfl
      rw [hscorer]
      refine (congrArg Scorer.mics hnotices).trans ?_
      rw [Part.writeResult_scorer]
      exact hread

theorem Part.endSong_window {p : Part} (kind : EndKind) : (p.endSong kind).scorer.window = p.scorer.window :=
  congrArg Prod.fst (Part.endSong_mics kind)

/-! ### The song clock (R128) -/

/-- R128: a part whose song time stands at a value, its NOTEs and BEATs gone on, before the song may end. -/
def Part.atTime (p : Part) (time : Nat) : Part := ({ p with play := { p.play with time := time } } : Part).retireNotes.dropBeats.readerResume

theorem Part.advance_running {p : Part} (h : p.play.state = .running) :
    p.advance = (p.atTime (min (p.play.time + (25 + p.play.tempo).toNat) p.durationSteps)).endIfReached := if_pos h

theorem Part.retireNotes_eq (p : Part) : p.retireNotes = { p with
    reader := { p.reader with notes := p.reader.notes.filter fun n => !p.reached n.stop }
    scorer := ((p.reader.notes.filter fun n => p.reached n.stop).foldl (fun p n => p.mapSeats (scoreSeat n)) p).scorer } := by
  obtain ⟨q, hq⟩ : ∃ q, (p.reader.notes.filter fun n => p.reached n.stop).foldl (fun p n => p.mapSeats (scoreSeat n)) p = q := ⟨_, rfl⟩
  have hkeep : ({ q with scorer := p.scorer } : Part) = p := by
    rw [← hq]
    exact foldl_keeps (fun x : Part => ({ x with scorer := p.scorer } : Part)) (fun x n => x.mapSeats (scoreSeat n)) (fun _ _ => rfl) _ p
  have hback := congrArg (fun x : Part => ({ x with scorer := q.scorer } : Part)) hkeep
  have hq' : q = { p with scorer := q.scorer } := hback
  have hretire : p.retireNotes = { q with reader := { q.reader with notes := q.reader.notes.filter fun n => !q.reached n.stop } } := by
    rw [← hq]
    rfl
  rw [hretire, hq, hq']
  rfl

theorem Part.retireNotes_mics (p : Part) : p.retireNotes.scorer.mics = p.scorer.mics := by
  rw [Part.retireNotes_eq]
  exact foldl_keeps (fun x : Part => x.scorer.mics) (fun x n => x.mapSeats (scoreSeat n)) (fun _ _ => rfl) _ p

theorem Part.retireNotes_window (p : Part) : p.retireNotes.scorer.window = p.scorer.window := congrArg Prod.fst p.retireNotes_mics

/-- The NOTEs, or the BEATs, that song time has not reached. -/
theorem Part.not_reached (p : Part) (ms : Nat) : (!p.reached ms) = decide (p.play.time < ms * 1200) := by
  rw [Part.reached, ← decide_not]
  exact decide_eq_decide.mpr Nat.not_le

/-- R128: what stands at a song time. -/
theorem Part.atTime_fields (p : Part) (time : Nat) :
    (p.atTime time).book = p.book ∧ (p.atTime time).settings = p.settings ∧ (p.atTime time).play.state = p.play.state ∧
      (p.atTime time).play.entry = p.play.entry ∧ (p.atTime time).play.song = p.play.song ∧ (p.atTime time).play.time = time ∧
      (p.atTime time).play.gap = p.play.gap ∧ (p.atTime time).scorer.window = p.scorer.window := by
  obtain ⟨q, hq⟩ : ∃ q : Part, { p with play := { p.play with time := time } } = q := ⟨_, rfl⟩
  have hpace := Part.samePace_of_paced q.retireNotes.dropBeats.readerResume_paced
  have hat : p.atTime time = q.retireNotes.dropBeats.readerResume := by rw [← hq]; rfl
  have hretire : q.retireNotes.book = q.book ∧ q.retireNotes.settings = q.settings ∧ q.retireNotes.play = q.play := by
    rw [Part.retireNotes_eq]
    exact ⟨rfl, rfl, rfl⟩
  obtain ⟨hbook, hset, hplay⟩ := hretire
  have hplay' : q.retireNotes.dropBeats.play = q.play := hplay
  have hwindow : q.retireNotes.dropBeats.scorer.window = q.scorer.window := q.retireNotes_window
  rw [hat, hpace.book, hpace.settings, hpace.state, hpace.entry, hpace.song, hpace.time, hpace.gap, hpace.scorer, hplay', hwindow]
  refine ⟨hbook.trans ?_, hset.trans ?_, ?_, ?_, ?_, ?_, ?_, ?_⟩ <;> rw [← hq]

/-- R128: the reader at a song time, when it is not STALLED. -/
theorem Part.atTime_reader {p : Part} (h : p.reader.state ≠ .stalled) (time : Nat) : (p.atTime time).reader = { p.reader with
    notes := p.reader.notes.filter fun n => time < n.stop * 1200
    beats := p.reader.beats.filter fun b => time < b * 1200 } := by
  obtain ⟨q, hq⟩ : ∃ q : Part, { p with play := { p.play with time := time } } = q := ⟨_, rfl⟩
  have hreader : q.reader = p.reader := by rw [← hq]
  have htime : q.play.time = time := by rw [← hq]
  have hat : p.atTime time = q.retireNotes.dropBeats.readerResume := by rw [← hq]; rfl
  have hdrop : q.retireNotes.dropBeats.reader = { p.reader with
      notes := p.reader.notes.filter fun n => time < n.stop * 1200
      beats := p.reader.beats.filter fun b => time < b * 1200 } := by
    rw [Part.retireNotes_eq]
    simp only [Part.dropBeats, Part.not_reached, hreader, htime]
  rw [hat, Part.readerResume_of_not_stalled (by rw [hdrop]; exact h), hdrop]

/-- R128, R167: the seats at a song time that ends the one queued NOTE. -/
theorem Part.atTime_seats {p : Part} {n : QueuedNote} (h : p.reader.notes = [n]) {time : Nat} (ht : n.stop * 1200 ≤ time) :
    (p.atTime time).scorer.seats = p.scorer.seats.mapIdx (scoreSeat n) := by
  obtain ⟨q, hq⟩ : ∃ q : Part, { p with play := { p.play with time := time } } = q := ⟨_, rfl⟩
  have hat : p.atTime time = q.retireNotes.dropBeats.readerResume := by rw [← hq]; rfl
  have hdone : q.reader.notes.filter (fun n => q.reached n.stop) = [n] := by
    rw [← hq]
    simp [h, Part.reached, Config.stepsPerMs, ht]
  rw [hat, (Part.samePace_of_paced q.retireNotes.dropBeats.readerResume_paced).scorer]
  have hretire : q.retireNotes.dropBeats.scorer = q.retireNotes.scorer := rfl
  rw [hretire, Part.retireNotes_eq, hdone, ← hq]
  rfl

theorem Part.holds.atTime {p : Part} {e : Entry} {rest : List Entry} {song : HeldSong} (h : p.holds e rest song) (time : Nat) :
    (p.atTime time).holds e rest song := by
  obtain ⟨hbook, -, hstate, hentry, hsong, -, hgap, -⟩ := p.atTime_fields time
  exact ⟨by rw [hbook]; exact h.entries, h.waiting, hentry.trans h.entry, hsong.trans h.song, hgap.trans h.gap, by rw [hstate]; exact h.state,
    by rw [hstate]; exact h.mark⟩

theorem Part.endIfReached_of_lt {p : Part} (h : p.play.time < p.durationSteps) : p.endIfReached = p := if_neg (Nat.ne_of_lt h)

theorem Part.endIfReached_window (p : Part) : p.endIfReached.scorer.window = p.scorer.window := by
  unfold Part.endIfReached
  split
  · exact p.endSong_window .ended
  · rfl

theorem Part.timePasses_of_quiet {p : Part} (h : p.quiet = true) : p.timePasses = p.tick := p.timePasses_quiet h

/-- R127, R128: an audio frame of a RUNNING, quiet part that ends no window. -/
theorem Part.audioFrame_running {p : Part} (f : AudioFrame) (h : p.play.state = .running) (hw : p.scorer.window.length + 1 < 480)
    (hq : p.quiet = true) : p.audioFrame f = (p.tick.withSample f).advance.promoteIfDue := by
  have hrunning : (p.play.state == PlayState.running) = true := by simpa using h
  have hframe : p.audioFrame f = (if Config.windowFrames ≤ (if p.play.state == .running then (p.timePasses.withSample f).advance
      else p.timePasses.withSample f).scorer.window.length then (if p.play.state == .running then (p.timePasses.withSample f).advance
      else p.timePasses.withSample f).windowEnds else (if p.play.state == .running then (p.timePasses.withSample f).advance
      else p.timePasses.withSample f)).promoteIfDue := rfl
  have hwindow : (p.tick.withSample f).advance.scorer.window = f :: p.scorer.window := by
    obtain ⟨-, -, -, -, -, -, -, hat⟩ := (p.tick.withSample f).atTime_fields
      (min ((p.tick.withSample f).play.time + (25 + (p.tick.withSample f).play.tempo).toNat) (p.tick.withSample f).durationSteps)
    rw [Part.advance_running (p := p.tick.withSample f) h, Part.endIfReached_window, hat]
    rfl
  rw [hframe, hrunning, if_pos rfl, Part.timePasses_of_quiet hq, if_neg]
  rw [hwindow, List.length_cons]
  exact Nat.not_le.mpr hw

end Sys2Proof.Machine
end

