-- ==== Sys2Proof/Proofs/SongEnd.lean ====
section
/-! PROOFS. Proofs/SongEnd.lean: NUDGE, the score of a note and the end of a song (O53). -/

namespace Sys2Proof.Machine

/-! ### NUDGE (R130) -/

/-- R130: a part that a forward NUDGE has brought to a song time, before the song may end. -/
def Part.nudgedTo (p : Part) (time : Nat) : Part := (p.setTime time).excludeNotes.dropBeats.readerResume.nudgeRows

theorem Part.nudge_forward {p : Part} {ms : Int} (h : 0 < ms) : p.nudge ms = (p.nudgedTo (p.nudgedTime ms)).endIfReached := by
  unfold Part.nudge
  rw [if_neg (by omega), if_pos h]
  rfl

theorem Part.nudge_back {p : Part} {ms : Int} (h : ms ≤ 0) (ht : p.play.time ≤ p.durationSteps) : p.nudge ms = p.setTime (p.nudgedTime ms) := by
  unfold Part.nudge
  by_cases h0 : ms = 0
  · have hsame : p.nudgedTime ms = p.play.time := by
      simp only [Part.nudgedTime, h0]
      omega
    rw [if_pos h0, hsame]
    rfl
  · rw [if_neg h0, if_neg (by omega)]

theorem Part.nudgedTime_back {p : Part} {ms : Int} (h : ms ≤ 0) (ht : p.play.time ≤ p.durationSteps) :
    p.nudgedTime ms = p.play.time - ms.natAbs * 1200 := by
  simp only [Part.nudgedTime, Config.stepsPerMs]
  omega

theorem Part.nudgedTime_forward {p : Part} {ms : Int} (h : 0 < ms) :
    p.nudgedTime ms = min p.durationSteps (p.play.time + ms.natAbs * 1200) := by
  simp only [Part.nudgedTime, Config.stepsPerMs]
  omega

theorem Part.nudgedTo_samePace (p : Part) (time : Nat) : (p.setTime time).samePace (p.nudgedTo time) :=
  Part.samePace_of_paced ((Part.nudgeRows_paced _).trans ((Part.readerResume_paced _).trans rfl))

/-- R130, R168: the queues of a reader that is not STALLED, at a NUDGE. -/
theorem Part.nudgedTo_queues {p : Part} (h : p.reader.state ≠ .stalled) (time : Nat) :
    (p.nudgedTo time).reader.notes = p.reader.notes.filter (fun n => time < n.stop * 1200) ∧
      (p.nudgedTo time).reader.beats = p.reader.beats.filter (fun b => time < b * 1200) := by
  obtain ⟨q, hq⟩ : ∃ q, (p.setTime time).excludeNotes.dropBeats = q := ⟨_, rfl⟩
  have hstate : q.reader.state ≠ .stalled := by rw [← hq]; exact h
  have hnudged : p.nudgedTo time = q.nudgeRows := by
    rw [← hq]
    exact congrArg Part.nudgeRows (Part.readerResume_of_not_stalled (by rw [hq]; exact hstate))
  have hunlined := Part.nudgeRows_unlined hstate
  rw [← hnudged] at hunlined
  have hnotes : (p.nudgedTo time).reader.unlined.notes = q.reader.unlined.notes := by rw [hunlined]
  have hbeats : (p.nudgedTo time).reader.unlined.beats = q.reader.unlined.beats := by rw [hunlined]
  refine ⟨hnotes.trans ?_, hbeats.trans ?_⟩
  · rw [← hq]
    simp only [Part.excludeNotes, Part.not_reached]
    rfl
  · rw [← hq]
    simp only [Part.dropBeats, Part.not_reached]
    rfl

theorem Part.playing_state {p : Part} (h : p.playing = true) : p.play.state ≠ .idle := by
  rw [Part.playing, Bool.or_eq_true, beq_iff_eq, beq_iff_eq] at h
  rcases h with h | h <;> rw [h] <;> decide

/-! ### The score of a note (R167) -/

/-- R167: s = 0.70 p + 0.20 r + 0.10 c, times the duration. -/
theorem noteScore_value (t : Tally) (d : Nat) (h : 0 < t.windows) :
    ((noteScore t d).num : Rat) / ((noteScore t d).den : Rat) =
      (d : Rat) * (7 / 10 * (((t.hit : Rat) + (t.near : Rat) / 2) / (t.windows : Rat)) +
        2 / 10 * (if t.onset = .early then 1 else 0) +
        1 / 10 * (((t.hit + t.near + t.miss : Nat) : Rat) / (t.windows : Rat))) := by
  have hw : (t.windows : Rat) ≠ 0 := by exact_mod_cast h.ne'
  unfold noteScore
  by_cases he : t.onset = .early
  · rw [if_pos he, if_pos he]
    push_cast
    field_simp
    ring
  · rw [if_neg he, if_neg he]
    push_cast
    field_simp
    ring

/-! ### The end of a song (R131, R152, R169, R52) -/

/-- R161: the seats read their handsets from the entry the play context holds. -/
theorem Part.readHandsets_seat {p : Part} {e : Entry} (he : p.heldBookEntry = some e) {i : Nat} (hi : i < p.scorer.seats.length) :
    p.readHandsets.seat i = { p.seat i with handset := if i < e.singers then e.seats.getD i none else (p.seat i).handset } := by
  have hseats : p.readHandsets.scorer.seats =
      p.scorer.seats.mapIdx fun i s => if i < e.singers then { s with handset := e.seats.getD i none } else s := by
    simp only [Part.readHandsets, he]
    rfl
  rw [Part.seat_mapIdx hseats hi]
  split <;> rfl

theorem Part.readHandsets_seats_length (p : Part) : p.readHandsets.scorer.seats.length = p.scorer.seats.length := by
  unfold Part.readHandsets
  split
  · rfl
  · exact List.length_mapIdx

/-- R152: the score card at the end of a song. -/
theorem Part.endSong_card {p : Part} {e : Entry} {song : HeldSong} (he : p.heldBookEntry = some e) (hs : p.play.song = some song)
    (kind : EndKind) :
    (p.display.cardTime ≠ 0 →
      (p.endSong kind).lyric.card = { shown := true, groups := groupsOf (p.readHandsets.scorer.seats.map seatResult) } ∧
      (p.endSong kind).lyric.cardTimer = some (1000 * p.display.cardTime * 48)) ∧
    (p.display.cardTime = 0 → (p.endSong kind).lyric.card = { shown := false, groups := [] } ∧ (p.endSong kind).lyric.cardTimer = none) := by
  obtain ⟨w, hw⟩ : ∃ w, p.writeResult e.ticket song.song song.blk.edition kind = w := ⟨_, rfl⟩
  obtain ⟨q, hq⟩ : ∃ q, (((w.scoreNotices e).retire e).doneSeats.release song.song).readerEmpty = q := ⟨_, rfl⟩
  have hend : p.endSong kind = ((q.endDisplay.letGo e.ticket song.song (.ended kind)).loadGap).raise .play := by
    simp only [Part.endSong, he, hs]
    rw [hw, hq]
  have hlyric : (p.endSong kind).lyric = q.endDisplay.lyric := by
    rw [hend, Part.loadGap_eq]
    rfl
  have hretire : ∀ x : Part, (x.retire e).scorer = x.scorer ∧ (x.retire e).display = x.display := fun x => by
    unfold Part.retire Part.removeEntry Part.mapLive
    split <;> exact ⟨rfl, rfl⟩
  have hnotices : (w.scoreNotices e).scorer = w.scorer ∧ (w.scoreNotices e).display = w.display := by
    rw [Part.scoreNotices_eq]
    exact ⟨rfl, rfl⟩
  obtain ⟨-, hdisplay, -, -, -, -, -, -, -, hscorer, -⟩ :=
    Part.roomView_fields (Part.release_roomView ((w.scoreNotices e).retire e).doneSeats song.song)
  obtain ⟨-, hdisplay', -, -, -, -, -, -, -, hscorer', -⟩ := Part.roomView_fields (((w.scoreNotices e).retire e).doneSeats.release song.song).readerEmpty_roomView
  obtain ⟨hlivescorer, hlivedisplay⟩ := hretire (w.scoreNotices e)
  have hresult : q.scorer.result = some (p.endResult e.ticket song.song song.blk.edition kind) := by
    have hdone : q.scorer = ((w.scoreNotices e).retire e).doneSeats.scorer := by rw [← hq]; exact hscorer'.trans hscorer
    have hkept : ((w.scoreNotices e).retire e).doneSeats.scorer.result = w.scorer.result := by
      rw [Part.doneSeats, Part.mapSeats_result, hlivescorer, hnotices.1]
    rw [hdone, hkept, ← hw, Part.writeResult_scorer]
  have hboard : q.display = p.display := by
    have hdone : q.display = ((w.scoreNotices e).retire e).doneSeats.display := by rw [← hq]; exact hdisplay'.trans hdisplay
    have hwrite : w.display = p.display := by
      rw [← hw]
      unfold Part.writeResult Part.readHandsets
      cases p.heldBookEntry <;> rfl
    rw [hdone]
    exact hlivedisplay.trans (hnotices.2.trans hwrite)
  have hcard : q.endDisplay = q.clearRows.titleDown.showCard (p.readHandsets.scorer.seats.map seatResult) := by
    have hcleared : q.clearRows.titleDown.scorer.result = some (p.endResult e.ticket song.song song.blk.edition kind) := hresult
    simp only [Part.endDisplay, hcleared]
    rfl
  have hshow : q.clearRows.titleDown.display = p.display := hboard
  rw [hlyric, hcard]
  refine ⟨fun hc => ?_, fun hc => ?_⟩
  · have hshown := q.clearRows.titleDown.showCard_shown (p.readHandsets.scorer.seats.map seatResult) (by rw [hshow]; exact hc)
    rw [hshow] at hshown
    exact hshown
  · exact q.clearRows.titleDown.showCard_none (p.readHandsets.scorer.seats.map seatResult) (by rw [hshow]; exact hc)

/-- R52: the score of a seat in a result record. -/
def Scorer.scoreAt (x : Scorer) (seat : Nat) : Nat :=
  match x.result with
  | some r => (r.seats[seat]?.map SeatResult.score).getD 0
  | none => 0

/-- R52: a seat's claim takes its score notice, if the seat has one. -/
def Part.noticeClaim (ticket : Nat) (p : Part) (c : Option Nat × Nat) : Part :=
  match c.1 with
  | none => p
  | some n => p.setScore n { ticket, seat := c.2, score := p.scorer.scoreAt c.2 }

/-- R52: score notices of a ticket, set one after the other. -/
theorem foldl_setScore_store (claims : List (Option Nat × Nat)) {p : Part} (hl : p.stores.length = 16) (ticket : Nat) {slot seat : Nat}
    (h1 : 1 ≤ slot) (h16 : slot ≤ 16) (hpos : ∀ n k, (some n, k) ∈ claims → 1 ≤ n) (honly : ∀ k, (some slot, k) ∈ claims → k = seat)
    (h : (some slot, seat) ∈ claims ∨ (p.store slot).score = some { ticket, seat, score := p.scorer.scoreAt seat }) :
    ((claims.foldl (Part.noticeClaim ticket) p).store slot).score =
      some { ticket, seat, score := p.scorer.scoreAt seat } := by
  induction claims generalizing p with
  | nil => exact h.resolve_left (by simp)
  | cons c claims ih =>
    obtain ⟨claim, k⟩ := c
    have hpos' : ∀ n k, (some n, k) ∈ claims → 1 ≤ n := fun n k hm => hpos n k (List.mem_cons_of_mem _ hm)
    have honly' : ∀ k, (some slot, k) ∈ claims → k = seat := fun k hm => honly k (List.mem_cons_of_mem _ hm)
    rw [List.foldl_cons]
    cases claim with
    | none => exact ih hl hpos' honly' (h.imp_left fun hm => (List.mem_cons.mp hm).resolve_left (by simp))
    | some n =>
      have hn : 1 ≤ n := hpos n k List.mem_cons_self
      refine ih (p := p.setScore n { ticket, seat := k, score := p.scorer.scoreAt k }) (by simpa [Part.setScore, Part.mapStore] using hl)
        hpos' honly' ?_
      by_cases hs : n = slot
      · subst hs
        obtain rfl := honly k List.mem_cons_self
        exact .inr (by rw [Part.setScore, Part.store_mapStore_self _ hl h1 h16]; rfl)
      · refine h.imp (fun hm => (List.mem_cons.mp hm).resolve_left fun hc => hs (by injection hc with hc; injection hc with hc; exact hc.symm)) fun hc => ?_
        rw [Part.setScore, Part.store_mapStore_of_ne p _ (Ne.symm hs) hn h1]
        exact hc

theorem Part.scoreNotices_foldl (p : Part) (e : Entry) : p.scoreNotices e = e.seats.zipIdx.foldl (Part.noticeClaim e.ticket) p := rfl

/-- R52: at the end of a song the slot with one seat claim takes the seat's score. -/
theorem Part.endSong_notice {p : Part} {e : Entry} {song : HeldSong} (he : p.heldBookEntry = some e) (hs : p.play.song = some song)
    (kind : EndKind) (hshaped : p.shaped) {slot seat : Nat} (h16 : slot ≤ 16) (hpos : ∀ n, some n ∈ e.seats → 1 ≤ n)
    (hclaim : e.seats[seat]? = some (some slot)) (honly : ∀ n, e.seats[n]? = some (some slot) → n = seat) (h4 : seat < 4) :
    ((p.endSong kind).store slot).score =
      some { ticket := e.ticket, seat := seat, score := (seatResult (p.readHandsets.seat seat)).score } := by
  obtain ⟨-, hstores, hseats, -⟩ := hshaped
  obtain ⟨w, hw⟩ : ∃ w, p.writeResult e.ticket song.song song.blk.edition kind = w := ⟨_, rfl⟩
  obtain ⟨-, -, hend⟩ := Part.endSong_writes he hs kind
  have hlength : w.stores.length = 16 := by
    have hkept : w.stores = p.stores := by
      rw [← hw]
      unfold Part.writeResult Part.readHandsets
      cases p.heldBookEntry <;> rfl
    rw [hkept, hstores]
  have hscore : w.scorer.scoreAt seat = (seatResult (p.readHandsets.seat seat)).score := by
    have hin : seat < p.readHandsets.scorer.seats.length := by rw [Part.readHandsets_seats_length, hseats]; exact h4
    rw [← hw, Part.writeResult_scorer]
    simp [Scorer.scoreAt, Part.endResult, Part.seat, hin]
  have hstore : (p.endSong kind).store slot = (w.scoreNotices e).store slot := Part.store_congr (by rw [hend, hw]) slot
  rw [hstore, Part.scoreNotices_foldl, ← hscore]
  refine foldl_setScore_store _ hlength e.ticket (hpos slot (List.mem_of_getElem? hclaim)) h16 (fun n k hm => ?_) (fun k hm => ?_) (.inl ?_)
  · exact hpos n (List.mem_of_getElem? (List.mem_zipIdx_iff_getElem?.mp hm))
  · exact honly k (List.mem_zipIdx_iff_getElem?.mp hm)
  · exact List.mem_zipIdx_iff_getElem?.mpr hclaim

theorem Part.endSong_done {p : Part} {e : Entry} {song : HeldSong} (he : p.heldBookEntry = some e) (hs : p.play.song = some song)
    (kind : EndKind) : ∀ x ∈ (p.endSong kind).scorer.seats, x.state = .done := by
  obtain ⟨-, hscorer, -⟩ := Part.endSong_writes he hs kind
  rw [hscorer]
  intro x hx
  obtain ⟨i, hi, rfl⟩ := List.mem_mapIdx.mp hx
  rfl

theorem Part.endSong_result {p : Part} {e : Entry} {song : HeldSong} (he : p.heldBookEntry = some e) (hs : p.play.song = some song)
    (kind : EndKind) : (p.endSong kind).scorer.result = some (p.endResult e.ticket song.song song.blk.edition kind) := by
  obtain ⟨-, hscorer, -⟩ := Part.endSong_writes he hs kind
  rw [hscorer, Part.doneSeats, Part.mapSeats_result, Part.scoreNotices_eq]
  exact congrArg Scorer.result (Part.writeResult_scorer _ _ _ _ _)

/-! ### An end of a song that song time brings (R128, R130) -/

/-- R128, R131: a part whose song time has come to its song's duration ends the song. -/
theorem Part.holds.endIfReached {p : Part} {e : Entry} {rest : List Entry} {song : HeldSong} (h : p.holds e rest song)
    (ht : p.play.time = song.blk.duration * 1200) :
    p.endIfReached.play.entry = none ∧ p.endIfReached.play.time = song.blk.duration * 1200 ∧
      p.endIfReached.play.lastOutcome = some { ticket := e.ticket, song := song.song, ending := .ended .ended } ∧
      (p.endIfReached.scorer.result.map fun r => (r.ticket, r.kind)) = some (e.ticket, .ended) ∧
      p.endIfReached.book.entries = withoutTicket p.book.entries e.ticket ∧ p.endIfReached.attn.pending.score = true := by
  have hheld : p.heldBookEntry = some e := by simp [Part.heldBookEntry, h.entry, Part.entry_of_first h.entries]
  have hend : p.endIfReached = p.endSong .ended := if_pos (ht.trans (Part.durationSteps_of_song h.song).symm)
  obtain ⟨hbook, -, hnone, hpending, -⟩ := Part.endSong_gap h .ended
  obtain ⟨htime, -, -⟩ := Part.endSong_writes hheld h.song .ended
  rw [hend]
  exact ⟨hnone, htime.trans ht, Part.endSong_lastOutcome h.entry h.song (Part.entry_of_first h.entries) .ended,
    by rw [Part.endSong_result hheld h.song]; rfl, by rw [hbook], by rw [hpending]⟩

/-- R130: NUDGE with a value, as its command says it. -/
theorem cmdNudge_eq {b0 b1 : Byte} {ms : Int} (hms : ofS16 b0 b1 = ms) (p : Part) : cmdNudge [b0, b1] p =
    if ms < -500 || 2000 < ms then (p, .refused .badForm)
    else if p.playing then thenPromote (p.nudge ms, .ok (u24 (p.nudgedTime ms / 1200))) else (p, .refused .notPlaying) := by
  rw [← hms]
  rfl

theorem nudge_offers (tag b0 b1 : Byte) : Instr.offers (.nudge tag [b0, b1]) tag (cmdNudge [b0, b1]) := fun _ => rfl

/-- R130: a forward NUDGE to a time before the end of the song. -/
theorem exec_nudge_forward {tag b0 b1 : Byte} {ms : Int} {s : State} {time : Nat} (h : s.part.ready) (hp : s.part.playing = true)
    (hms : ofS16 b0 b1 = ms) (h1 : 0 < ms) (h2 : ms ≤ 2000) (ht : time = s.part.play.time + ms.natAbs * 1200)
    (hlt : time < s.part.durationSteps) : exec (.nudge tag [b0, b1]) s =
      .next (State.answered { s with part := s.part.nudgedTo time } tag .ok (u24 (time / 1200))) := by
  have hto : s.part.nudgedTime ms = time := by
    rw [Part.nudgedTime_forward h1, ← ht]
    omega
  have hpace := s.part.nudgedTo_samePace time
  have hkept : (s.part.nudgedTo time).endIfReached = s.part.nudgedTo time := by
    refine Part.endIfReached_of_lt ?_
    rw [hpace.time, hpace.durationSteps]
    exact hlt
  have hnudged : (s.part.nudge ms).promoteIfDue = s.part.nudgedTo time := by
    rw [Part.nudge_forward h1, hto, hkept]
    refine Part.promoteIfDue_of_state ?_
    rw [hpace.state]
    exact Part.playing_state hp
  refine exec_ok (nudge_offers tag b0 b1) h ?_
  rw [cmdNudge_eq hms, if_neg (by simp; omega), hp, if_pos rfl, thenPromote, hnudged, hto]

/-- Settles O53. -/
theorem songClockAdvances : Obligations.SongClockAdvances := by
  refine ⟨fun f s time hr hw hq ht => ⟨fun hlt => ?advances, fun hc ticket song hticket hsong hdur => ?ends⟩, fun f s hr hw hq hdue => ?still,
    fun tag b0 b1 ms s h hms => ?nudge, fun t d => noteScore_value t d, fun p e song kind he hs => ?finish, fun x => ?result⟩
  case advances =>
    obtain ⟨q, hq'⟩ : ∃ q, s.part.tick.withSample f = q := ⟨_, rfl⟩
    have hmin : min (q.play.time + (25 + q.play.tempo).toNat) q.durationSteps = time := by
      have hsteps : q.durationSteps = s.part.durationSteps := by rw [← hq']; rfl
      have hnext : q.play.time + (25 + q.play.tempo).toNat = time := by rw [← hq']; exact ht.symm
      rw [hsteps, hnext]
      omega
    obtain ⟨hbook, -, hstate, -, hsong, htime, -, hwindow⟩ := q.atTime_fields time
    have hrunning : (q.atTime time).play.state = .running := by rw [hstate, ← hq']; exact hr
    have hsteps : (q.atTime time).durationSteps = s.part.durationSteps := by
      unfold Part.durationSteps
      rw [hsong, ← hq']
      rfl
    have hframe : s.part.audioFrame f = q.atTime time := by
      rw [Part.audioFrame_running f hr hw hq, hq', Part.advance_running (by rw [← hq']; exact hr), hmin,
        Part.endIfReached_of_lt (by rw [htime, hsteps]; exact hlt), Part.promoteIfDue_of_state (by rw [hrunning]; decide)]
    refine ⟨_, by rw [exec_audioFrame, hframe], htime, hrunning, by rw [hwindow, ← hq']; rfl, by rw [hbook, ← hq']; rfl, fun hstall => ?_,
      fun n i hn hstop hi hshaped => ?_⟩
    · rw [Part.atTime_reader (by rw [← hq']; exact hstall), ← hq']
      rfl
    · obtain ⟨-, -, hseats, -⟩ := hshaped
      have hseat : (q.atTime time).seat i = scoreSeat n i (s.part.seat i) := by
        refine (Part.seat_mapIdx (p := q) (Part.atTime_seats (by rw [← hq']; exact hn) hstop) ?_).trans ?_
        · rw [← hq']
          exact (Nat.lt_of_lt_of_eq hi hseats.symm)
        · rw [← hq']
          rfl
      rw [hseat]
      exact ⟨rfl, rfl, rfl⟩
  case ends =>
    obtain ⟨q, hq'⟩ : ∃ q, s.part.tick.withSample f = q := ⟨_, rfl⟩
    obtain ⟨e, rest, held, hh, rfl⟩ := hc.holds_of_entry hticket
    obtain rfl : song = held := Option.some.inj (hsong.symm.trans hh.song)
    have hheld : q.holds e rest song := by
      have htick := hh.tick
      rw [← hq']
      exact ⟨htick.entries, htick.waiting, htick.entry, htick.song, htick.gap, htick.state, htick.mark⟩
    have hmin : min (q.play.time + (25 + q.play.tempo).toNat) q.durationSteps = song.blk.duration * 1200 := by
      have hnext : q.play.time + (25 + q.play.tempo).toNat = time := by rw [← hq']; exact ht.symm
      rw [Part.durationSteps_of_song hheld.song, hnext]
      omega
    obtain ⟨hbook, -, -, -, -, htime, -, -⟩ := q.atTime_fields (song.blk.duration * 1200)
    have hframe : s.part.audioFrame f = (q.atTime (song.blk.duration * 1200)).endIfReached.promoteIfDue := by
      rw [Part.audioFrame_running f hr hw hq, hq', Part.advance_running (by rw [← hq']; exact hr), hmin]
    obtain ⟨hnone, hend, hout, hresult, hentries, hscore⟩ := (hheld.atTime (song.blk.duration * 1200)).endIfReached htime
    exact ⟨_, by rw [exec_audioFrame, hframe], hnone, hend, hout, hresult, by rw [hentries, hbook, ← hq']; rfl, hscore⟩
  case still =>
    have htime := Part.timePasses_of_quiet hq
    have hnone : (s.part.tick.withSample f).promotionDue = false := hdue
    rw [exec_audioFrame, Part.audioFrame_still f hr (by rw [htime]; exact hw), htime, Part.promoteIfDue_of_not hnone]
    rfl
  case nudge =>
    have hoffers := nudge_offers tag b0 b1
    have hcmd := cmdNudge_eq hms s.part
    refine ⟨fun hout => exec_refused hoffers h ?_, fun h1 h2 hp => exec_refused hoffers h ?_, fun hp ht => ⟨fun h1 h2 time htime => ?_,
      fun h1 h2 time htime => ⟨fun hlt => ?forward, fun hc ticket song hticket hsong hdur => ?reaches⟩⟩⟩
    · rw [hcmd, if_pos (by simpa using hout)]
    · rw [hcmd, if_neg (by simp; omega), hp, if_neg Bool.false_ne_true]
    · have hnudged : (s.part.nudge ms).promoteIfDue = s.part.setTime time := by
        rw [Part.nudge_back h2 ht, Part.nudgedTime_back h2 ht, ← htime]
        exact Part.promoteIfDue_of_state (p := s.part.setTime time) (Part.playing_state hp)
      refine exec_ok hoffers h ?_
      rw [hcmd, if_neg (by simp; omega), hp, if_pos rfl, thenPromote, hnudged, Part.nudgedTime_back h2 ht, ← htime]
      rfl
    case forward =>
      have hpace := s.part.nudgedTo_samePace time
      exact ⟨s.part.nudgedTo time, exec_nudge_forward h hp hms h1 h2 htime hlt, hpace.time, hpace.state, hpace.scorer, hpace.book,
        fun hstall => Part.nudgedTo_queues hstall time⟩
    case reaches =>
      obtain ⟨e, rest, held, hh, rfl⟩ := hc.holds_of_entry hticket
      obtain rfl : song = held := Option.some.inj (hsong.symm.trans hh.song)
      have hto : s.part.nudgedTime ms = song.blk.duration * 1200 := by
        rw [Part.nudgedTime_forward h1, ← htime, Part.durationSteps_of_song hsong]
        omega
      have hpace := s.part.nudgedTo_samePace (song.blk.duration * 1200)
      have hset : (s.part.setTime (song.blk.duration * 1200)).holds e rest song :=
        ⟨hh.entries, hh.waiting, hh.entry, hh.song, hh.gap, hh.state, hh.mark⟩
      obtain ⟨hnone, -, hout, hresult, -, -⟩ := (hpace.holds hset).endIfReached hpace.time
      have hcmd' : cmdNudge [b0, b1] s.part =
          thenPromote ((s.part.nudgedTo (song.blk.duration * 1200)).endIfReached, .ok (u24 song.blk.duration)) := by
        rw [hcmd, if_neg (by simp; omega), hp, if_pos rfl, Part.nudge_forward h1, hto, Nat.mul_div_cancel _ (by decide)]
      exact ⟨_, exec_okThenPromote hoffers h hcmd', hnone, hout, hresult⟩
  case finish =>
    obtain ⟨hcard, hnocard⟩ := Part.endSong_card he hs kind
    exact ⟨Part.endSong_result he hs kind, fun i hi => Part.readHandsets_seat he hi, Part.endSong_done he hs kind, hcard, hnocard,
      fun slot seat hshaped h16 hpos hclaim honly h4 => Part.endSong_notice he hs kind hshaped h16 hpos hclaim honly h4⟩
  case result =>
    have hstatus : statusOf x = (if x.state ≠ .singing then .notUsed else if x.micSeen = false then .noMic
        else if x.durations = 0 then .noNotes else .scored) := by
      unfold statusOf
      cases x.micSeen <;> rfl
    refine ⟨hstatus, ?_⟩
    have hscored : statusOf x = .scored ↔ x.state = .singing ∧ x.micSeen = true ∧ x.durations ≠ 0 := by
      rw [hstatus]
      split_ifs with hs hm hd <;> simp_all
    simp only [seatResult, hscored]
    rfl

end Sys2Proof.Machine
end

