-- ==== Sys2Proof/Proofs/Records.lean ====
section
/-! PROOFS. Proofs/Records.lean: the bytes of stream records, and a record that is taken before a song plays (O54). -/

namespace Sys2Proof.Machine

/-! ### Bytes that stand at an offset of a page (R192) -/

/-- The bytes that stand at an offset of a page. -/
def standsAt (bytes page : List Byte) (offset : Nat) : Prop := ∃ before after, page = before ++ bytes ++ after ∧ before.length = offset

section
variable {a b page : List Byte} {offset : Nat}

theorem standsAt.left (h : standsAt (a ++ b) page offset) : standsAt a page offset := by
  obtain ⟨before, after, rfl, hl⟩ := h
  exact ⟨before, b ++ after, by simp, hl⟩

theorem standsAt.right (h : standsAt (a ++ b) page offset) : standsAt b page (offset + a.length) := by
  obtain ⟨before, after, rfl, rfl⟩ := h
  exact ⟨before ++ a, after, by simp, by simp⟩

theorem standsAt.length_le (h : standsAt a page offset) : offset + a.length ≤ page.length := by
  obtain ⟨before, after, rfl, rfl⟩ := h
  simp

theorem standsAt.head {x : Byte} (h : standsAt (x :: a) page offset) : byteAt page offset = x := by
  obtain ⟨before, after, rfl, rfl⟩ := h
  simp [byteAt]

theorem standsAt.tail {x : Byte} (h : standsAt (x :: a) page offset) : standsAt a page (offset + 1) := h.right (a := [x])

theorem standsAt.readU8 {n : Nat} (h : standsAt (u8 n) page offset) (hn : n < 256) : (byteAt page offset).toNat = n := by
  rw [h.head, BitVec.toNat_ofNat]
  omega

theorem standsAt.readU16 {n : Nat} (h : standsAt (u16 n) page offset) (hn : n < 65536) : u16At page offset = n := by
  rw [u16At, h.head, h.tail.head, ofU16, BitVec.toNat_ofNat, BitVec.toNat_ofNat]
  omega

theorem standsAt.readU24 {n : Nat} (h : standsAt (u24 n) page offset) (hn : n < 2 ^ 24) : u24At page offset = n := by
  rw [u24At, h.head, h.tail.head, h.tail.tail.head, ofU24, BitVec.toNat_ofNat, BitVec.toNat_ofNat, BitVec.toNat_ofNat]
  omega

end

/-- One after the other, the bytes of the items of a list, each of the same length. -/
theorem standsAt.flatMap {α : Type} {f : α → List Byte} {l : List α} {page : List Byte} {offset k : Nat} (h : standsAt (l.flatMap f) page offset)
    (hk : ∀ x ∈ l, (f x).length = k) {i : Nat} (hi : i < l.length) : standsAt (f l[i]) page (offset + k * i) := by
  induction l generalizing offset i with
  | nil => simp at hi
  | cons x l ih =>
    rw [List.flatMap_cons] at h
    cases i with
    | zero => exact h.left
    | succ i =>
      have hrest := ih h.right (fun y hy => hk y (List.mem_cons_of_mem _ hy)) (i := i) (by simpa using hi)
      rw [hk x List.mem_cons_self] at hrest
      have hoffset : offset + k + k * i = offset + k * (i + 1) := by rw [Nat.mul_add]; omega
      rw [hoffset] at hrest
      exact hrest

theorem length_flatMap_of_length {α : Type} {f : α → List Byte} {l : List α} {k : Nat} (hk : ∀ x ∈ l, (f x).length = k) :
    (l.flatMap f).length = k * l.length := by
  rw [List.length_flatMap, List.map_congr_left hk, List.map_const', List.sum_replicate_nat, Nat.mul_comm]

/-! ### Records as bytes (R117, R192) -/

theorem Syllable.bytes_length (y : Syllable) : y.bytes.length = 7 := rfl

theorem standsAt.syllable {y : Syllable} {page : List Byte} {offset : Nat} (h : standsAt y.bytes page offset) (hg : y.glyphs < 256)
    (hs : y.start < 2 ^ 24) (ht : y.stop < 2 ^ 24) : syllableAt page offset = y := by
  have hglyphs : (byteAt page offset).toNat = y.glyphs := h.left.left.readU8 hg
  have hstart : u24At page (offset + 1) = y.start := h.left.right.readU24 hs
  have hstop : u24At page (offset + 4) = y.stop := h.right.readU24 ht
  rw [syllableAt, hglyphs, hstart, hstop]

/-- Table 6-3: the syllables of a line in order lie before its last end. -/
theorem syllablesOrdered_bound {l : List Syllable} {from_ : Nat} (h : syllablesOrdered from_ l = true) {y : Syllable} (hy : y ∈ l) :
    y.start < y.stop ∧ y.stop ≤ (l.getLast?.map Syllable.stop).getD 0 := by
  induction l generalizing from_ y with
  | nil => cases hy
  | cons x rest ih =>
    simp only [syllablesOrdered, Bool.and_eq_true, decide_eq_true_eq] at h
    obtain ⟨⟨-, hx⟩, hrest⟩ := h
    cases hr : rest with
    | nil =>
      rw [hr, List.mem_singleton] at hy
      subst hy
      exact ⟨hx, le_refl _⟩
    | cons z tail =>
      have hlast : ((x :: z :: tail).getLast?.map Syllable.stop).getD 0 = (rest.getLast?.map Syllable.stop).getD 0 := by
        rw [hr, List.getLast?_cons_cons]
      rw [hlast]
      rcases List.mem_cons.mp hy with hyx | hy
      · rw [hyx]
        have hz : z ∈ rest := by rw [hr]; exact List.mem_cons_self
        obtain ⟨hlt, hle⟩ := ih hrest hz
        have hfrom : x.stop ≤ z.start := by
          rw [hr] at hrest
          simp only [syllablesOrdered, Bool.and_eq_true, decide_eq_true_eq] at hrest
          exact hrest.1.1
        exact ⟨hx, by omega⟩
      · exact ih hrest hy

/-- R192: the bytes of a LINE in range are read as that LINE. -/
theorem standsAt.line {blk : SongBlock} {l : LineRecord} {page : List Byte} {offset : Nat} (h : standsAt (Record.line l).bytes page offset)
    (hp : blk.parts ≤ 4) (hd : blk.duration < 2 ^ 24) (hl : lineInRange blk l = true) :
    (byteAt page offset).toNat = 1 ∧ (byteAt page (offset + 2)).toNat = l.codes.length ∧ (byteAt page (offset + 3)).toNat = l.syllables.length ∧
      lineAt page offset = l ∧ (Record.line l).bytes.length = 4 + 2 * l.codes.length + 7 * l.syllables.length := by
  simp only [lineInRange, Bool.and_eq_true, decide_eq_true_eq, List.all_eq_true, beq_iff_eq] at hl
  obtain ⟨⟨⟨⟨⟨⟨⟨⟨⟨⟨-, hcodes⟩, hsmall⟩, -⟩, hsyllables⟩, -⟩, hsum⟩, hordered⟩, hlast⟩, -⟩, hmask⟩ := hl
  have hmask' : l.mask < 256 := lt_of_lt_of_le hmask (le_trans (Nat.pow_le_pow_right (by decide) hp) (by decide))
  have hkind : (byteAt page offset).toNat = 1 := h.left.left.left.left.left.readU8 (by decide)
  have hm : (byteAt page (offset + 1)).toNat = l.mask := h.left.left.left.left.right.readU8 hmask'
  have hg : (byteAt page (offset + 2)).toNat = l.codes.length := h.left.left.left.right.readU8 (by omega)
  have hy : (byteAt page (offset + 3)).toNat = l.syllables.length := h.left.left.right.readU8 (by omega)
  have hcodesAt : standsAt (l.codes.flatMap u16) page (offset + 4) := h.left.right
  have hcodesLength : (l.codes.flatMap u16).length = 2 * l.codes.length := length_flatMap_of_length fun _ _ => rfl
  have hbytesLength : (l.syllables.flatMap Syllable.bytes).length = 7 * l.syllables.length :=
    length_flatMap_of_length fun y _ => y.bytes_length
  have hsyllablesAt : standsAt (l.syllables.flatMap Syllable.bytes) page (offset + 4 + 2 * l.codes.length) := by
    have hright := h.right
    have hlength : (u8 1 ++ u8 l.mask ++ u8 l.codes.length ++ u8 l.syllables.length ++ l.codes.flatMap u16).length = 4 + 2 * l.codes.length := by
      rw [List.length_append, hcodesLength]
      rfl
    rw [hlength, ← Nat.add_assoc] at hright
    exact hright
  refine ⟨hkind, hg, hy, ?_, ?_⟩
  · have hcodesRead : (List.range l.codes.length).map (fun i => u16At page (offset + 4 + 2 * i)) = l.codes := by
      refine List.ext_getElem (by simp) fun i h1 h2 => ?_
      rw [List.getElem_map, List.getElem_range]
      exact (hcodesAt.flatMap (fun _ _ => rfl) h2).readU16 (lt_of_le_of_lt (hsmall _ (List.getElem_mem h2)) (by decide))
    have hsyllablesRead : (List.range l.syllables.length).map
        (fun j => syllableAt page (offset + 4 + 2 * l.codes.length + 7 * j)) = l.syllables := by
      refine List.ext_getElem (by simp) fun i h1 h2 => ?_
      rw [List.getElem_map, List.getElem_range]
      have hmem := List.getElem_mem h2
      obtain ⟨hlt, hle⟩ := syllablesOrdered_bound hordered hmem
      have hglyphs : l.syllables[i].glyphs ≤ l.codes.length := by
        rw [← hsum]
        exact List.single_le_sum (by simp) _ (List.mem_map.mpr ⟨_, hmem, rfl⟩)
      have hend : l.syllables[i].stop ≤ blk.duration := le_trans hle hlast
      exact (hsyllablesAt.flatMap (fun y _ => y.bytes_length) h2).syllable (by omega) (by omega) (by omega)
    simp only [lineAt, hm, hg, hy, hcodesRead, hsyllablesRead]
  · have hbytes : (Record.line l).bytes = u8 1 ++ u8 l.mask ++ u8 l.codes.length ++ u8 l.syllables.length ++ l.codes.flatMap u16 ++
        l.syllables.flatMap Syllable.bytes := rfl
    rw [hbytes, List.length_append, List.length_append, hcodesLength, hbytesLength]
    rfl

theorem examineRecord_some {blk : SongBlock} {page : List Byte} {offset length : Nat} {r : Record} (h : offset + length ≤ page.length) :
    examineRecord blk page offset length (some r) =
      if recordInRange blk r then .record r (offset + length) else .skipRecord (offset + length) := if_neg (Nat.not_lt.mpr h)

section
variable {page : List Byte} {offset : Nat}

theorem examine_line (blk : SongBlock) (h : offset + 4 ≤ page.length) (hk : (byteAt page offset).toNat = 1) : examine blk page offset =
    examineRecord blk page offset (4 + 2 * (byteAt page (offset + 2)).toNat + 7 * (byteAt page (offset + 3)).toNat)
      (some (.line (lineAt page offset))) := by
  rw [examine, if_neg (by omega)]
  simp only [hk]
  rw [if_neg (by omega)]

theorem examine_note (blk : SongBlock) (h : offset < page.length) (hk : (byteAt page offset).toNat = 2) :
    examine blk page offset = examineRecord blk page offset 9 (noteAt page offset) := by
  rw [examine, if_neg (by omega)]
  simp only [hk]

theorem examine_beat (blk : SongBlock) (h : offset < page.length) (hk : (byteAt page offset).toNat = 3) :
    examine blk page offset = examineRecord blk page offset 4 (some (.beat (u24At page (offset + 1)))) := by
  rw [examine, if_neg (by omega)]
  simp only [hk]

end

/-- R192: the bytes of a NOTE are read as that NOTE. -/
theorem standsAt.note {part number start stop : Nat} {page : List Byte} {offset : Nat}
    (h : standsAt (Record.note part number start stop).bytes page offset) (hp : part < 255) (hn : number < 256) (hs : start < 2 ^ 24)
    (ht : stop < 2 ^ 24) : (byteAt page offset).toNat = 2 ∧ noteAt page offset = some (.note part number start stop) := by
  have hkind : (byteAt page offset).toNat = 2 := h.left.left.left.left.readU8 (by decide)
  have hpart : (byteAt page (offset + 1)).toNat = part + 1 := h.left.left.left.right.readU8 (by omega)
  have hnumber : (byteAt page (offset + 2)).toNat = number := h.left.left.right.readU8 hn
  have hstart : u24At page (offset + 3) = start := h.left.right.readU24 hs
  have hstop : u24At page (offset + 6) = stop := h.right.readU24 ht
  refine ⟨hkind, ?_⟩
  simp only [noteAt, hpart, hnumber, hstart, hstop]
  rfl

/-- R117, R192: the bytes of a record in range are read as that record. -/
theorem examine_of_bytes {blk : SongBlock} {r : Record} {page : List Byte} {offset : Nat} (h : standsAt r.bytes page offset)
    (hp : blk.parts ≤ 4) (hd : blk.duration < 2 ^ 24) (hr : recordInRange blk r = true) :
    examine blk page offset = .record r (offset + r.bytes.length) := by
  have hlength := h.length_le
  cases r with
  | line l =>
    obtain ⟨hkind, hg, hy, hl, hbytes⟩ := h.line hp hd hr
    rw [hbytes] at hlength ⊢
    rw [examine_line blk (by omega) hkind, hg, hy, hl, examineRecord_some (by omega), if_pos hr]
  | note part number start stop =>
    have hrange := hr
    simp only [recordInRange, Bool.and_eq_true, decide_eq_true_eq] at hrange
    obtain ⟨⟨⟨⟨hpart, -⟩, hnumber⟩, hlt⟩, hstop⟩ := hrange
    obtain ⟨hkind, hnote⟩ := h.note (by omega) (by omega) (by omega) (by omega)
    have hbytes : (Record.note part number start stop).bytes.length = 9 := rfl
    rw [hbytes] at hlength ⊢
    rw [examine_note blk (by omega) hkind, hnote, examineRecord_some hlength, if_pos hr]
  | beat time =>
    have htime : time < blk.duration := by simpa [recordInRange] using hr
    have hkind : (byteAt page offset).toNat = 3 := h.left.readU8 (by decide)
    have hbeat : u24At page (offset + 1) = time := h.right.readU24 (by omega)
    have hbytes : (Record.beat time).bytes.length = 4 := rfl
    rw [hbytes] at hlength ⊢
    rw [examine_beat blk (by omega) hkind, hbeat, examineRecord_some hlength, if_pos hr]

/-- R117 rule 3: a NOTE that is not in range is skipped. -/
theorem examine_of_note_out_of_range {blk : SongBlock} {part number start stop : Nat} {page : List Byte} {offset : Nat}
    (h : standsAt (Record.note part number start stop).bytes page offset) (hp : part < 255) (hn : number < 256) (hs : start < 2 ^ 24)
    (ht : stop < 2 ^ 24) (hr : recordInRange blk (.note part number start stop) = false) :
    examine blk page offset = .skipRecord (offset + 9) := by
  have hlength : offset + 9 ≤ page.length := h.length_le
  obtain ⟨hkind, hnote⟩ := h.note hp hn hs ht
  rw [examine_note blk (by omega) hkind, hnote, examineRecord_some hlength, hr, if_neg Bool.false_ne_true]

/-! ### A record that is taken before the song plays (R117, R118) -/

theorem outOfOrder_key {rd : Reader} {r : Record} {k : Nat} (hk : rd.lastKey = some k) (h : r.key < k) : outOfOrder rd r = true := by
  simp [outOfOrder, hk, h]

theorem outOfOrder_start {rd : Reader} {part number start stop : Nat} (h : rd.lastStart part = some start) :
    outOfOrder rd (.note part number start stop) = true := by
  simp [outOfOrder, h]

/-- Whether a record is a NOTE that starts where the last of its part does. -/
def sameStart (rd : Reader) : Record → Bool
  | .note part _ start _ => rd.lastStart part == some start
  | .line _ => false
  | .beat _ => false

theorem outOfOrder_of_key {rd : Reader} {r : Record} (h : ∀ k, rd.lastKey = some k → k ≤ r.key) : outOfOrder rd r = sameStart rd r := by
  unfold outOfOrder
  cases hk : rd.lastKey with
  | none => cases r <;> rfl
  | some k =>
    have hle := h k hk
    cases r <;> simp [sameStart, Nat.not_lt.mpr hle]

/-- R117: the reader with a key accepted. -/
def Reader.keyedBy (rd : Reader) (t : Nat) : Reader := { rd with lastKey := some t, keyReached := rd.keyReached || decide (8000 ≤ t) }

section
variable {p : Part}

theorem Part.takeRecord_outOfOrder {r : Record} (h : outOfOrder p.reader r = true) :
    p.takeRecord r = { p with play := { p.play with skippedRecords := satInc 65535 p.play.skippedRecords } } := by
  rw [Part.takeRecord, if_pos h]
  rfl

/-- R117 rule 6: a record that is not out of order is accepted, and placed or held. -/
theorem Part.takeRecord_accepted {r : Record} {rd : Reader} (hkey : ∀ k, p.reader.lastKey = some k → k ≤ r.key)
    (hstart : sameStart p.reader r = false) (hrd : p.reader.accept r = rd) :
    p.takeRecord r = Part.placeOrHold { p with reader := rd } r := by
  rw [Part.takeRecord, outOfOrder_of_key hkey, hstart, if_neg Bool.false_ne_true, hrd]

theorem Part.placeOrHold_some {q : Part} {r : Record} (h : p.place r = some q) : p.placeOrHold r = q := by
  rw [Part.placeOrHold, h]

theorem Part.placeOrHold_none {r : Record} (h : p.place r = none) :
    p.placeOrHold r = { p with reader := { p.reader with held := some r, state := .stalled } } := by
  rw [Part.placeOrHold, h]

theorem Part.not_playing_of_staged (h : p.play.state = .staging ∨ p.play.state = .holding) : p.playing = false := by
  rcases h with h | h <;> simp [Part.playing, h]

theorem Part.place_line_of_not_playing (hp : p.playing = false) (l : LineRecord) : p.place (.line l) =
    if p.reader.lines.length < 16 then some { p with reader := { p.reader with
      lines := p.reader.lines ++ [{ line := l, ordinal := p.reader.ordinals, given := false }]
      ordinals := p.reader.ordinals + 1 } } else none := by
  have hlate : p.lateLine l = false := by simp [Part.lateLine, hp]
  simp [Part.place, Part.placeLine, hlate, Config.lineCapacity]

theorem Part.place_beat_of_not_playing (hp : p.playing = false) (t : Nat) : p.place (.beat t) =
    if p.reader.beats.length < 8 then some { p with reader := { p.reader with beats := p.reader.beats ++ [t] } } else none := by
  simp [Part.place, hp, Config.beatCapacity]

theorem Part.place_note_of_not_playing (hp : p.playing = false) (part number start stop : Nat) : p.place (.note part number start stop) =
    if p.reader.notes.length < 96 then some { p with reader := { p.reader with
      notes := p.reader.notes ++ [{ part := part, number := number, start := start, stop := stop, key := none,
                                    tallies := List.replicate 4 newTally }] } } else none := by
  simp [Part.place, hp, Config.noteCapacity]

/-- R117, R118: a BEAT taken before the song plays. -/
theorem Part.takeRecord_beat (hp : p.playing = false) {t : Nat} (hkey : ∀ k, p.reader.lastKey = some k → k ≤ t) :
    (p.reader.beats.length < 8 →
      p.takeRecord (.beat t) = { p with reader := { p.reader.keyedBy t with beats := p.reader.beats ++ [t] } }) ∧
    (8 ≤ p.reader.beats.length →
      p.takeRecord (.beat t) = { p with reader := { p.reader.keyedBy t with held := some (.beat t), state := .stalled } }) := by
  have htaken : p.takeRecord (.beat t) = Part.placeOrHold { p with reader := p.reader.keyedBy t } (.beat t) :=
    Part.takeRecord_accepted hkey rfl rfl
  have hplace := Part.place_beat_of_not_playing (p := { p with reader := p.reader.keyedBy t }) hp t
  refine ⟨fun h => ?_, fun h => ?_⟩
  · rw [if_pos (by exact h)] at hplace
    rw [htaken, Part.placeOrHold_some hplace]
    rfl
  · rw [if_neg (by exact Nat.not_lt.mpr h)] at hplace
    rw [htaken, Part.placeOrHold_none hplace]

/-- R117, R118, R140: a LINE taken before the song plays. -/
theorem Part.takeRecord_line (hp : p.playing = false) {l : LineRecord} (hkey : ∀ k, p.reader.lastKey = some k → k ≤ l.firstStart) :
    (p.reader.lines.length < 16 → p.takeRecord (.line l) = { p with reader := { p.reader.keyedBy l.firstStart with
      lines := p.reader.lines ++ [{ line := l, ordinal := p.reader.ordinals, given := false }]
      ordinals := p.reader.ordinals + 1 } }) ∧
    (16 ≤ p.reader.lines.length → p.takeRecord (.line l) = { p with reader := { p.reader.keyedBy l.firstStart with
      held := some (.line l), state := .stalled } }) := by
  have htaken : p.takeRecord (.line l) = Part.placeOrHold { p with reader := p.reader.keyedBy l.firstStart } (.line l) :=
    Part.takeRecord_accepted hkey rfl rfl
  have hplace := Part.place_line_of_not_playing (p := { p with reader := p.reader.keyedBy l.firstStart }) hp l
  refine ⟨fun h => ?_, fun h => ?_⟩
  · rw [if_pos (by exact h)] at hplace
    rw [htaken, Part.placeOrHold_some hplace]
    rfl
  · rw [if_neg (by exact Nat.not_lt.mpr h)] at hplace
    rw [htaken, Part.placeOrHold_none hplace]

/-- R117, R118, R163: a NOTE taken before the song plays ends the last of its part that overlaps it. -/
theorem Part.takeRecord_note (hp : p.playing = false) {part number start stop : Nat} (hkey : ∀ k, p.reader.lastKey = some k → k ≤ start)
    (hstart : p.reader.lastStart part ≠ some start) {notes : List QueuedNote}
    (hnotes : notes = p.reader.notes.map (truncateNote p.reader part start)) :
    (notes.length < 96 → p.takeRecord (.note part number start stop) = { p with reader := { p.reader.keyedBy start with
      lastStarts := p.reader.lastStarts.set part (some start)
      notes := notes ++ [{ part := part, number := number, start := start, stop := stop, key := none,
                           tallies := List.replicate 4 newTally }] } }) ∧
    (96 ≤ notes.length → p.takeRecord (.note part number start stop) = { p with reader := { p.reader.keyedBy start with
      lastStarts := p.reader.lastStarts.set part (some start), notes := notes
      held := some (.note part number start stop), state := .stalled } }) := by
  have hsame : sameStart p.reader (.note part number start stop) = false := beq_eq_false_iff_ne.mpr hstart
  have htaken : p.takeRecord (.note part number start stop) = Part.placeOrHold { p with reader := { p.reader.keyedBy start with
      lastStarts := p.reader.lastStarts.set part (some start), notes := notes } } (.note part number start stop) :=
    Part.takeRecord_accepted hkey hsame (by rw [hnotes]; rfl)
  have hplace := Part.place_note_of_not_playing (p := { p with reader := { p.reader.keyedBy start with
      lastStarts := p.reader.lastStarts.set part (some start), notes := notes } }) hp part number start stop
  refine ⟨fun h => ?_, fun h => ?_⟩
  · rw [if_pos (by exact h)] at hplace
    rw [htaken, Part.placeOrHold_some hplace]
  · rw [if_neg (by exact Nat.not_lt.mpr h)] at hplace
    rw [htaken, Part.placeOrHold_none hplace]

end

end Sys2Proof.Machine
end

