-- ==== Sys2Proof/Proofs/StreamFetch.lean ====
section
/-! PROOFS. Proofs/StreamFetch.lean: the completion of a stream fetch (O54). -/

namespace Sys2Proof.Machine

/-! ### What the end of a read leaves (R95, R96, R101) -/

/-- R101: a grant writes the library alone. -/
theorem Part.grant_only (p : Part) (d : Nat) : ∃ lib, p.grant d = { p with lib := lib } := by
  obtain ⟨f, hf⟩ := p.grant_eq_mapDie d
  exact ⟨_, hf.trans (p.mapDie_only d f)⟩

/-- R101: at the end of an operation with no promotion due the library alone changes. -/
theorem Part.opDone_only {p : Part} (h : p.promotionDue = false) (d : Nat) : ∃ lib, p.opDone d = { p with lib := lib } := by
  obtain ⟨lib, hlib⟩ := p.grant_only d
  have hstate : lib.state = p.lib.state := by
    have hgrant := p.grant_libState d
    rw [hlib] at hgrant
    exact hgrant
  have hnone : ({ p with lib := lib } : Part).promotionDue = false := (Part.promotionDue_of_same (p := p) (q := { p with lib := lib }) rfl rfl hstate).trans h
  exact ⟨lib, by rw [Part.opDone, hlib, Part.promoteIfDue_of_not hnone]⟩

theorem Part.promotionDue_of_state {p : Part} (h : p.play.state ≠ .idle) : p.promotionDue = false := by
  rw [Bool.eq_false_iff, ne_eq, Part.promotionDue_iff]
  exact fun hdue => h hdue.1

/-- R96: a page read writes the library, the catalog and the flags alone. -/
theorem Part.pageRead_only (p : Part) (d b : Nat) (outcome : ReadOutcome) :
    ∃ lib catalog attn, (p.opEnds d).pageReadEffects d b outcome = { p with lib := lib, catalog := catalog, attn := attn } := by
  rw [Part.opEnds, p.mapDie_only]
  cases outcome <;> exact ⟨_, _, _, rfl⟩

/-! ### A part that keeps its cue -/

/-- The fields of a part that the cue turns on. -/
structure Part.sameCue (p q : Part) : Prop where
  pace : p.samePace q
  startPending : q.play.startPending = p.play.startPending
  cueHold : q.play.cueHold = p.play.cueHold

section
variable {p q v : Part}

theorem Part.sameCue_of_paced (h : q.paced = p.paced) : p.sameCue q := by
  have hplay : q.play.uncounted = p.play.uncounted := congrArg Prod.snd h
  have hpending : q.play.uncounted.startPending = p.play.uncounted.startPending := by rw [hplay]
  have hcue : q.play.uncounted.cueHold = p.play.uncounted.cueHold := by rw [hplay]
  exact ⟨Part.samePace_of_paced h, hpending, hcue⟩

theorem Part.sameCue.trans (h : p.sameCue q) (h' : q.sameCue v) : p.sameCue v :=
  ⟨⟨h'.pace.settings.trans h.pace.settings, h'.pace.display.trans h.pace.display, h'.pace.book.trans h.pace.book,
      h'.pace.stores.trans h.pace.stores, h'.pace.scorer.trans h.pace.scorer, h'.pace.state.trans h.pace.state,
      h'.pace.entry.trans h.pace.entry, h'.pace.song.trans h.pace.song, h'.pace.time.trans h.pace.time, h'.pace.gap.trans h.pace.gap⟩,
    h'.startPending.trans h.startPending, h'.cueHold.trans h.cueHold⟩

theorem Part.pageRead_sameCue (p : Part) (d b : Nat) (outcome : ReadOutcome) : p.sameCue ((p.opEnds d).pageReadEffects d b outcome) := by
  obtain ⟨lib, catalog, attn, h⟩ := p.pageRead_only d b outcome
  rw [h]
  exact ⟨⟨rfl, rfl, rfl, rfl, rfl, rfl, rfl, rfl, rfl, rfl⟩, rfl, rfl⟩

/-- R122, R118: a usable header and what the reader then examines. -/
theorem Part.headerTaken_ahead (p : Part) (song : HeldSong) (page : List Byte) :
    (p.headerTaken song page).readerRun.ahead = (p.titleArrives page).ahead :=
  (Part.readerRun_ahead _).trans (Part.refill_ahead _ _ _)

theorem Part.headerTaken_sameCue (p : Part) (song : HeldSong) (page : List Byte) : p.sameCue (p.headerTaken song page).readerRun :=
  Part.sameCue_of_paced (congrArg Prod.fst (p.headerTaken_ahead song page))

/-- R119: an UNCORRECTABLE page is counted. -/
def Part.countDamagedPage (p : Part) : Part := p.withPlay { p.play with damagedPages := satInc 62 p.play.damagedPages }

theorem Part.pageLost_ahead (p : Part) (song : HeldSong) (page : Nat) :
    (p.pageTaken song page none).readerRun.ahead = p.countDamagedPage.ahead :=
  (Part.readerRun_ahead _).trans (Part.refill_ahead _ _ _)

theorem Part.pageTaken_sameCue (p : Part) (song : HeldSong) (page : Nat) (data : Option (List Byte)) :
    p.sameCue (p.pageTaken song page data).readerRun := by
  cases data with
  | none =>
    have hcount : p.sameCue p.countDamagedPage := ⟨⟨rfl, rfl, rfl, rfl, rfl, rfl, rfl, rfl, rfl, rfl⟩, rfl, rfl⟩
    exact hcount.trans (Part.sameCue_of_paced (congrArg Prod.fst (p.pageLost_ahead song page)))
  | some bytes => exact Part.sameCue_of_paced (congrArg Prod.fst (Part.readerRun_ahead _))

/-! ### Staging ready acted on (R120, R123) -/

theorem Part.stagingCheck_of_state (h : p.play.state ≠ .staging) : p.stagingCheck = p := if_neg fun hc => h hc.1

/-- R123: with a cue hold time other than 0 staging ready strikes nothing. -/
theorem Part.stagingCheck_keeps (hs : p.play.state = .staging) (hc : p.play.cueHold ≠ 0) :
    p.stagingCheck.lyric = p.lyric ∧ p.stagingCheck.play.entry = p.play.entry ∧ p.stagingCheck.play.song = p.play.song ∧
      p.stagingCheck.book.lastStrike = p.book.lastStrike ∧ p.stagingCheck.play.state ≠ .idle := by
  by_cases hready : p.reader.stagingReady = true
  · cases hp : p.play.startPending with
    | false =>
      rw [Part.stagingCheck_holds hs hready hp hc]
      exact ⟨rfl, rfl, rfl, rfl, PlayState.noConfusion⟩
    | true =>
      rw [Part.stagingCheck_starts hs hready hp]
      cases he : p.play.entry with
      | none =>
        have hself : p.enterRunning = p := by simp only [Part.enterRunning, he]
        rw [hself]
        exact ⟨rfl, he, rfl, rfl, by rw [hs]; exact PlayState.noConfusion⟩
      | some ticket =>
        rw [Part.enterRunning_eq he]
        exact ⟨rfl, he, rfl, rfl, PlayState.noConfusion⟩
  · rw [Part.stagingCheck_of_not_ready (Bool.not_eq_true _ ▸ hready)]
    exact ⟨rfl, rfl, rfl, rfl, by rw [hs]; exact PlayState.noConfusion⟩

/-- R123, R125: the part in HOLDING with HOLD at 0. -/
def Part.heldAtZero (p : Part) : Part := p.withPlay { p.play with state := .holding, hold := some 0 }

theorem Part.stagingCheck_zero (hs : p.play.state = .staging) (h : p.reader.stagingReady = true) (hp : p.play.startPending = false)
    (hc : p.play.cueHold = 0) : p.stagingCheck = p.heldAtZero.holdExpire := Part.stagingCheck_expires hs h hp hc

/-- R123, R127: staging ready with start-pending set, or with a HOLD of 0 that starts, enters RUNNING. -/
theorem Part.stagingCheck_begins (hs : p.play.state = .staging) (h : p.reader.stagingReady = true) {ticket : Nat} (he : p.play.entry = some ticket)
    (hstart : p.play.startPending = true ∨ p.play.cueHold = 0 ∧ p.settings.holdAction = .start) : p.stagingCheck = p.started ticket := by
  have hpending : p.play.startPending = true → p.stagingCheck = p.started ticket := fun hp => by
    rw [Part.stagingCheck_starts hs h hp, Part.enterRunning_eq he]
  rcases hstart with hp | ⟨hc, ha⟩
  · exact hpending hp
  · cases hp : p.play.startPending with
    | true => exact hpending hp
    | false =>
      rw [Part.stagingCheck_zero hs h hp hc, Part.holdExpire_start (p := p.heldAtZero) rfl ha,
        Part.enterRunning_eq (p := p.heldAtZero) (ticket := ticket) he]
      rfl

theorem Part.holds.heldAtZero {e : Entry} {rest : List Entry} {song : HeldSong} (h : p.holds e rest song) (hs : p.play.state = .staging) :
    p.heldAtZero.holds e rest song := by
  have hmark := h.mark
  rw [if_pos (.inl hs)] at hmark
  exact ⟨h.entries, h.waiting, h.entry, h.song, h.gap, ⟨PlayState.noConfusion, PlayState.noConfusion⟩, hmark⟩

/-- R123, R125: staging ready with a HOLD of 0 that skips strikes the CUED entry. -/
theorem Part.stagingCheck_skips (hs : p.play.state = .staging) (h : p.reader.stagingReady = true) (hp : p.play.startPending = false)
    (hc : p.play.cueHold = 0) (ha : p.settings.holdAction = .skip) : p.stagingCheck = p.heldAtZero.cueStrike .skipped false := by
  rw [Part.stagingCheck_zero hs h hp hc, Part.holdExpire_skip (p := p.heldAtZero) rfl ha]

/-! ### A strike of a DAMAGED song (R121, R122) -/

/-- R121: the CUED entry is struck DAMAGED. -/
theorem Part.cueStrike_damaged {e : Entry} {rest : List Entry} {song : HeldSong} (h : p.holds e rest song) :
    (p.cueStrike .damaged false).book = { p.book with
      entries := withoutTicket p.book.entries e.ticket
      lastStrike := some { ticket := e.ticket, song := e.song, origin := e.origin, reason := .damaged }
      strikeCount := satInc 255 p.book.strikeCount } ∧
    (p.cueStrike .damaged false).play = { p.play with
      state := .idle, entry := none, song := none, hold := none, startPending := false
      lastOutcome := some { ticket := e.ticket, song := song.song, ending := .struck .damaged } } ∧
    (p.cueStrike .damaged false).reader = Reader.reset ∧
    (p.cueStrike .damaged false).attn.pending = { p.attn.pending with play := true, book := true } := by
  have hview := Part.cueStrike_roomView p e song .damaged false h.entry h.song (Part.entry_of_first h.entries)
  obtain ⟨-, -, -, hattn, -, hplay, hreader, -, -, -, hbook, -⟩ := Part.roomView_fields hview
  have hkept : (p.strikeEntry e .damaged false).play = p.play := congrArg Song.play (p.strikeEntry_songView e .damaged false)
  have hpending := p.strikeEntry_pending e .damaged false
  refine ⟨hbook.trans (p.strikeEntry_book e .damaged false), ?_, hreader, ?_⟩
  · rw [hplay, ← hkept]
    rfl
  · rw [hattn]
    have hraised : ((p.uncued e song.song .damaged false).afterCueStrike .damaged).attn.pending =
        (p.strikeEntry e .damaged false).attn.pending.put .play true := rfl
    rw [hraised, hpending]
    rfl

/-- R122: a catalog entry marked DAMAGED. -/
def CatEntry.spoilt (e : CatEntry) : CatEntry := { e with damaged := true }

theorem markHealth_successor (outcome : ReadOutcome) (e : CatEntry) : (markHealth outcome e).successor = e.successor := by
  unfold markHealth
  (repeat' split) <;> rfl

/-- R96: a page read keeps the successor of an entry. -/
theorem Part.pageRead_successor {d b song : Nat} {c : CatEntry} (outcome : ReadOutcome) (h : p.catEntry song = some c) :
    ∃ x, ((p.opEnds d).pageReadEffects d b outcome).catEntry song = some x ∧ x.successor = c.successor := by
  have hends : (p.opEnds d).catalog = p.catalog := (Part.sameShelf_of_shelf (p.opEnds_shelf d)).catalog
  have hcatalog := (p.opEnds d).pageReadEffects_catalog d b outcome
  rw [hends] at hcatalog
  rw [catEntry_of_catalog_map hcatalog, h]
  · refine ⟨_, rfl, ?_⟩
    dsimp only
    split
    · exact markHealth_successor outcome c
    · rfl
  · intro x
    split
    · exact markHealth_song outcome x
    · rfl

/-- R122, R88: the entry of a song marked DAMAGED stands so when its cue has been struck, with no successor to switch to. -/
theorem Part.cueStrike_damagedEntry {e : Entry} {rest : List Entry} {song : HeldSong} (h : p.holds e rest song) {c : CatEntry}
    (hc : p.catEntry song.song = some c) (hsuccessor : c.successor = none) :
    (((p.mapCatEntry song.song CatEntry.spoilt).cueStrike .damaged false).catEntry song.song).map CatEntry.damaged =
      some true := by
  obtain ⟨m, hm⟩ : ∃ m, p.mapCatEntry song.song CatEntry.spoilt = m := ⟨_, rfl⟩
  have hmarked : m.catEntry song.song = some c.spoilt := by
    rw [← hm, Part.catEntry_mapCatEntry (f := CatEntry.spoilt) (fun _ => rfl), if_pos rfl, hc]
    rfl
  have hmholds : m.holds e rest song := by
    rw [← hm]
    exact ⟨h.entries, h.waiting, h.entry, h.song, h.gap, h.state, h.mark⟩
  obtain ⟨q, hq, hshelf⟩ := Part.cueStrike_release hmholds .damaged false
  obtain ⟨x, hx, hxc⟩ := Part.catEntry_of_unpinned hq hmarked
  have hnone : x.successor = none := (congrArg CatEntry.successor hxc).trans hsuccessor
  have hdamaged : x.damaged = true := congrArg CatEntry.damaged hxc
  have hcatalog : (m.cueStrike .damaged false).catalog = q.catalog := by
    rw [Part.release_of_none (by rw [hx]; exact hnone)] at hshelf
    exact (Part.sameShelf_of_shelf hshelf).catalog
  have hentry : (m.cueStrike .damaged false).catEntry song.song = some x := by
    rw [← hx, Part.catEntry, hcatalog]
    rfl
  rw [hm, hentry, Option.map_some, hdamaged]

end

/-! ### The outcome a reader takes (R119, R122) -/

section
variable {p : Part} {song : HeldSong} {r : Request} {read : PageRead}

theorem Part.streamArrives_usable (hs : p.play.song = some song) (hr : r.page = 0) {page : List Byte} (hd : readData read = some page)
    (hu : headerUsable song page = true) : Part.streamArrives read r p = (p.headerTaken song page).readerRun.stagingCheck := by
  have hfilter : (readData read).filter (headerUsable song) = some page := by simp [hd, hu]
  simp only [Part.streamArrives, hs, if_pos hr, Part.headerArrives, hfilter, Part.readerGoesOn]

theorem Part.streamArrives_unusable (hs : p.play.song = some song) (hr : r.page = 0)
    (hu : ∀ page, readData read = some page → headerUsable song page = false) :
    Part.streamArrives read r p = (p.mapCatEntry song.song CatEntry.spoilt).cueStrike .damaged false := by
  have hfilter : (readData read).filter (headerUsable song) = none := by
    rw [Option.filter_eq_none_iff]
    exact fun page hp => by rw [hu page hp]; exact Bool.false_ne_true
  simp only [Part.streamArrives, hs, if_pos hr, Part.headerArrives, hfilter]
  rfl

theorem Part.streamArrives_page (hs : p.play.song = some song) (hr : 1 ≤ r.page) :
    Part.streamArrives read r p = (p.pageTaken song r.page (readData read)).readerRun.stagingCheck := by
  have hne : r.page ≠ 0 := by omega
  simp only [Part.streamArrives, hs, if_neg hne, Part.pageArrives, Part.readerGoesOn]

end

theorem readData_uncorrectable {read : PageRead} (h : readOutcome read = .uncorrectable) : readData read = none := by
  rw [readData, if_pos h]

/-- R116: a STALLED reader examines nothing. -/
theorem Part.readerRun_of_stalled {p : Part} (h : p.reader.state = .stalled) : p.readerRun = p := by
  unfold Part.readerRun
  cases p.play.song with
  | none => rfl
  | some song =>
    show Part.readerLoop song.blk (2099 + 1) p = p
    rw [Part.readerLoop, h]
    rfl

theorem Reader.setBuffer_state (rd : Reader) (first : Bool) (b : Buffer) : (rd.setBuffer first b).state = rd.state := by
  cases first <;> rfl

/-! ### The parts of the statement -/

section
variable {s : State} {d : Fin 2} {read : PageRead} {r : Request} {song : HeldSong}

/-- R119: what the reader makes of the fetch, before the die grants. -/
theorem exec_streamFetch_arrives (hop : (s.part.die d).op = some r) (hreq : r.requester = .stream) (hg : r.givenUp = false) {v : Part}
    (hv : Part.streamArrives read r ((s.part.opEnds d).pageReadEffects d r.block (readOutcome read)) = v) :
    exec (.streamFetchComplete d read) s = .next { s with part := v.opDone d } := by
  rw [exec_streamFetchComplete, Part.readCompletes_of_op hop (by rw [hreq]; rfl) hg, hv]

/-- R101: the part after the fetch, with a play context that is not IDLE. -/
theorem exec_streamFetch_keeps (hop : (s.part.die d).op = some r) (hreq : r.requester = .stream) (hg : r.givenUp = false) {v : Part}
    (hv : Part.streamArrives read r ((s.part.opEnds d).pageReadEffects d r.block (readOutcome read)) = v) (hs : v.play.state ≠ .idle) :
    ∃ lib, exec (.streamFetchComplete d read) s = .next { s with part := { v with lib := lib } } := by
  obtain ⟨lib, hlib⟩ := Part.opDone_only (Part.promotionDue_of_state hs) d
  exact ⟨lib, by rw [exec_streamFetch_arrives hop hreq hg hv, hlib]⟩

/-- R102: a fetch given up reaches the reader no more. -/
theorem streamFetch_givenUp (hop : (s.part.die d).op = some r) (hreq : r.requester = .stream) (hg : r.givenUp = true)
    (hdue : s.part.promotionDue = false) :
    ∃ u : Machine.Part, exec (.streamFetchComplete d read) s = .next { s with part := u } ∧ u.reader = s.part.reader ∧
      u.play = s.part.play ∧ u.book = s.part.book ∧ u.lyric = s.part.lyric := by
  have hlib := (s.part.opEnds d).pageReadEffects_lib d r.block (readOutcome read)
  have hsame := Part.sameShelf_of_shelf (s.part.opEnds_shelf d)
  have hstate : ((s.part.opEnds d).pageReadEffects d r.block (readOutcome read)).lib.state = s.part.lib.state := by rw [hlib]; exact hsame.state
  obtain ⟨lib, catalog, attn, hq⟩ := s.part.pageRead_only d r.block (readOutcome read)
  obtain ⟨w, hw⟩ : ∃ w : Part, { s.part with lib := lib, catalog := catalog, attn := attn } = w := ⟨_, rfl⟩
  rw [hq, hw] at hstate
  have hnone : w.promotionDue = false := (Part.promotionDue_of_same (p := s.part) (by rw [← hw]) (by rw [← hw]) hstate).trans hdue
  obtain ⟨lib', hdone⟩ := Part.opDone_only hnone d
  refine ⟨_, by rw [exec_streamFetchComplete, Part.readCompletes_of_givenUp hop (by rw [hreq]; rfl) hg, hq, hw, hdone], ?_, ?_, ?_, ?_⟩
  all_goals rw [← hw]

/-- R120: staging ready of the reader, as the statement says it. -/
def Reader.ready (x : Reader) : Prop := x.state ≠ .idle ∧ (x.keyReached = true ∨ x.lines.length = 16 ∨ x.notes.length = 96 ∨
  x.beats.length = 8 ∨ x.state = .finished)

/-- R120, R123: what the reader makes of a usable header or a stream page in STAGING. -/
theorem streamFetch_staged {q v : Machine.Part} (hsong : s.part.play.song = some song) (hsame : s.part.sameCue q)
    (hv : (r.page = 0 ∧ ∃ page, readData read = some page ∧ headerUsable song page = true ∧ v = (q.headerTaken song page).readerRun) ∨
      (1 ≤ r.page ∧ v = (q.pageTaken song r.page (readData read)).readerRun)) :
    s.part.sameCue v ∧ Part.streamArrives read r q = v.stagingCheck := by
  have hq : q.play.song = some song := hsame.pace.song.trans hsong
  rcases hv with ⟨hr, page, hd, hu, rfl⟩ | ⟨hr, rfl⟩
  · exact ⟨hsame.trans (q.headerTaken_sameCue song page), Part.streamArrives_usable hq hr hd hu⟩
  · exact ⟨hsame.trans (q.pageTaken_sameCue song r.page _), Part.streamArrives_page hq hr⟩

section
variable (hop : (s.part.die d).op = some r) (hreq : r.requester = .stream) (hg : r.givenUp = false) (hsong : s.part.play.song = some song)
include hop hreq hg hsong

/-- R122: a usable header gives the title card its content. -/
theorem streamFetch_usable {page : List Byte} (hr : r.page = 0) (hs : s.part.play.state = .staging) (hc : s.part.play.cueHold ≠ 0)
    (hd : readData read = some page) (hu : headerUsable song page = true) :
    ∃ u : Machine.Part, exec (.streamFetchComplete d read) s = .next { s with part := u } ∧
      u.lyric.title = { s.part.lyric.title with content := some (titleContentOf page) } ∧
      u.play.entry = s.part.play.entry ∧ u.play.song = some song ∧ u.book.lastStrike = s.part.book.lastStrike := by
  have hsame := s.part.pageRead_sameCue d r.block (readOutcome read)
  have hlyric : ((s.part.opEnds d).pageReadEffects d r.block (readOutcome read)).lyric = s.part.lyric := by
    obtain ⟨lib, catalog, attn, h⟩ := s.part.pageRead_only d r.block (readOutcome read)
    rw [h]
  obtain ⟨q, hq⟩ : ∃ q, (s.part.opEnds d).pageReadEffects d r.block (readOutcome read) = q := ⟨_, rfl⟩
  rw [hq] at hsame hlyric
  obtain ⟨v, hv⟩ : ∃ v, (q.headerTaken song page).readerRun = v := ⟨_, rfl⟩
  have hcue : s.part.sameCue v := hsame.trans (by rw [← hv]; exact q.headerTaken_sameCue song page)
  have htitle : v.lyric.title = { s.part.lyric.title with content := some (titleContentOf page) } := by
    have hahead : v.lyric = (q.titleArrives page).lyric := by
      rw [← hv]
      exact congrArg (fun x => x.2.1) (q.headerTaken_ahead song page)
    rw [hahead, ← hlyric]
    rfl
  obtain ⟨klyric, kentry, ksong, kstrike, kstate⟩ := Part.stagingCheck_keeps (hcue.pace.state.trans hs) (by rw [hcue.cueHold]; exact hc)
  have harrives := Part.streamArrives_usable (r := r) (hsame.pace.song.trans hsong) hr hd hu
  rw [hv, ← hq] at harrives
  obtain ⟨lib, hexec⟩ := exec_streamFetch_keeps hop hreq hg harrives kstate
  exact ⟨_, hexec, (congrArg Lyric.title klyric).trans htitle, kentry.trans hcue.pace.entry, ksong.trans (hcue.pace.song.trans hsong),
    kstrike.trans (by rw [hcue.pace.book])⟩

/-- R122, R121: an unusable header strikes the CUED entry DAMAGED. -/
theorem streamFetch_unusable {ticket : Nat} (hr : r.page = 0) (hcue : s.part.cueWf) (hentry : s.part.play.entry = some ticket)
    (hu : ∀ page, readData read = some page → headerUsable song page = false) :
    ∃ u : Machine.Part, exec (.streamFetchComplete d read) s = .next { s with part := (u.grant d).promoteIfDue } ∧
      u.book.entries = withoutTicket s.part.book.entries ticket ∧
      (u.book.lastStrike.map fun x => (x.ticket, x.reason)) = some (ticket, .damaged) ∧
      u.play.state = .idle ∧ u.play.entry = none ∧ u.reader = Reader.reset ∧
      u.play.lastOutcome = some { ticket := ticket, song := song.song, ending := .struck .damaged } ∧
      u.attn.pending.play = true ∧ u.attn.pending.book = true ∧
      (∀ c, s.part.catEntry song.song = some c → c.successor = none → (u.catEntry song.song).map CatEntry.damaged = some true) := by
  obtain ⟨e, rest, held, hholds, rfl⟩ := hcue.holds_of_entry hentry
  obtain rfl : held = song := Option.some.inj (hholds.song.symm.trans hsong)
  have hsame := s.part.pageRead_sameCue d r.block (readOutcome read)
  have hsuccessor := fun c => Part.pageRead_successor (p := s.part) (d := d) (b := r.block) (song := held.song) (c := c) (readOutcome read)
  obtain ⟨q, hq⟩ : ∃ q, (s.part.opEnds d).pageReadEffects d r.block (readOutcome read) = q := ⟨_, rfl⟩
  rw [hq] at hsame hsuccessor
  have hq' : q.holds e rest held := hsame.pace.holds hholds
  obtain ⟨hbook, hplay, hreader, hattn⟩ := Part.cueStrike_damaged (p := q.mapCatEntry held.song CatEntry.spoilt) (e := e) (rest := rest) (song := held)
    ⟨hq'.entries, hq'.waiting, hq'.entry, hq'.song, hq'.gap, hq'.state, hq'.mark⟩
  have hbook' : (q.mapCatEntry held.song CatEntry.spoilt).book = s.part.book := hsame.pace.book
  rw [hbook'] at hbook
  have harrives := Part.streamArrives_unusable (read := read) (r := r) (hsame.pace.song.trans hsong) hr hu
  rw [← hq] at harrives
  refine ⟨_, exec_streamFetch_arrives hop hreq hg harrives, ?_⟩
  rw [hq, hbook, hplay, hattn]
  refine ⟨rfl, rfl, rfl, rfl, hreader, rfl, rfl, rfl, fun c hc hnone => ?_⟩
  obtain ⟨x, hx, hxc⟩ := hsuccessor c hc
  exact Part.cueStrike_damagedEntry hq' hx (hxc.trans hnone)

/-- R119, R96: an UNCORRECTABLE page of a song that plays is counted, and recorded as a READ fault. -/
theorem streamFetch_uncorrectable (hr : 1 ≤ r.page) (hs : s.part.play.state = .running) (hu : readOutcome read = .uncorrectable) :
    ∃ u : Machine.Part, exec (.streamFetchComplete d read) s = .next { s with part := u } ∧
      u.play.damagedPages = satInc 62 s.part.play.damagedPages ∧ u.attn.pending.library = true ∧
      u.lib.faultCount = satInc 255 s.part.lib.faultCount ∧
      u.lib.lastFault = some { kind := .read, die := d, block := r.block } ∧ u.book = s.part.book ∧ u.play.state = .running := by
  have hsame := s.part.pageRead_sameCue d r.block (readOutcome read)
  have hshelf := Part.sameShelf_of_shelf (s.part.opEnds_shelf d)
  have hplay : (s.part.opEnds d).play = s.part.play := (s.part.mapDie_besideLib d _).play
  have hread : (s.part.opEnds d).pageReadEffects d r.block .uncorrectable =
      ({ s.part.opEnds d with catalog := (s.part.opEnds d).catalog.map fun e =>
        if e.current.die == (d : Nat) && e.current.block == r.block then markHealth .uncorrectable e else e } : Part).recordFault .read d r.block := rfl
  rw [← hu] at hread
  obtain ⟨q, hq⟩ : ∃ q, (s.part.opEnds d).pageReadEffects d r.block (readOutcome read) = q := ⟨_, rfl⟩
  have hcount : q.lib.faultCount = satInc 255 s.part.lib.faultCount := by
    rw [← hq, hread, ← hshelf.faultCount]
    rfl
  have hlast : q.lib.lastFault = some { kind := .read, die := d, block := r.block } := by
    rw [← hq, hread]
    rfl
  have hraised : q.attn.pending.library = true := by
    rw [← hq, hread]
    rfl
  have hdamaged : q.play.damagedPages = s.part.play.damagedPages := by
    rw [← hq, hread, ← hplay]
    rfl
  rw [hq] at hsame
  obtain ⟨v, hv⟩ : ∃ v, (q.pageTaken song r.page none).readerRun = v := ⟨_, rfl⟩
  have hcue : s.part.sameCue v := hsame.trans (by rw [← hv]; exact q.pageTaken_sameCue song r.page none)
  have hahead : v.ahead = q.countDamagedPage.ahead := by rw [← hv]; exact q.pageLost_ahead song r.page
  have hstate : v.play.state = .running := hcue.pace.state.trans hs
  have harrives := Part.streamArrives_page (read := read) (hsame.pace.song.trans hsong) hr
  rw [readData_uncorrectable hu, hv, Part.stagingCheck_of_state (by rw [hstate]; exact PlayState.noConfusion), ← hq] at harrives
  have hvshelf := Part.sameShelf_of_shelf (p := q.countDamagedPage) (q := v) (congrArg (fun x => x.2.2.1) hahead)
  have hdone := Part.sameShelf_of_shelf (v.opDone_shelf d)
  obtain ⟨lib, hlib⟩ := Part.opDone_only (Part.promotionDue_of_state (p := v) (by rw [hstate]; exact PlayState.noConfusion)) d
  refine ⟨v.opDone d, exec_streamFetch_arrives hop hreq hg harrives, ?_, ?_, ?_, ?_, ?_, ?_⟩
  · have hpages : v.play.uncounted.damagedPages = q.countDamagedPage.play.uncounted.damagedPages :=
      congrArg (fun x => x.1.2.damagedPages) hahead
    have hv' : (v.opDone d).play = v.play := by rw [hlib]
    rw [hv']
    refine hpages.trans ?_
    rw [← hdamaged]
    rfl
  · have hpending : (v.attn.pending.put .play true).library = (q.attn.pending.put .play true).library :=
      congrArg (fun x => x.2.2.2.library) hahead
    rw [Part.opDone_library]
    exact hpending.trans hraised
  · rw [hdone.faultCount, hvshelf.faultCount]
    exact hcount
  · rw [hdone.lastFault, hvshelf.lastFault]
    exact hlast
  · rw [hlib]
    exact hcue.pace.book
  · rw [hlib]
    exact hstate

/-- R119, R118: a readable page of a STALLED reader stands FULL. -/
theorem streamFetch_stalled {page : List Byte} (hr : 1 ≤ r.page) (hs : s.part.play.state = .running) (hstall : s.part.reader.state = .stalled)
    (hd : readData read = some page) :
    ∃ u : Machine.Part, exec (.streamFetchComplete d read) s = .next { s with part := u } ∧
      u.reader = s.part.reader.setBuffer (s.part.reader.awaits r.page) (.full r.page page) ∧ u.play = s.part.play := by
  obtain ⟨lib, catalog, attn, hq⟩ := s.part.pageRead_only d r.block (readOutcome read)
  obtain ⟨q, hqq⟩ : ∃ q : Part, { s.part with lib := lib, catalog := catalog, attn := attn } = q := ⟨_, rfl⟩
  have hreader : q.reader = s.part.reader := by rw [← hqq]
  have hplay : q.play = s.part.play := by rw [← hqq]
  have htaken : (q.pageTaken song r.page (some page)).readerRun = q.setBuffer (q.reader.awaits r.page) (.full r.page page) :=
    Part.readerRun_of_stalled (by
      show (q.reader.setBuffer _ _).state = .stalled
      rw [Reader.setBuffer_state, hreader, hstall])
  have hstate : q.play.state = .running := by rw [hplay, hs]
  have harrives := Part.streamArrives_page (p := q) (read := read) (song := song) (by rw [hplay, hsong]) hr
  rw [hd, htaken, Part.stagingCheck_of_state (by
    show q.play.state ≠ .staging
    rw [hstate]
    exact PlayState.noConfusion), ← hqq, ← hq] at harrives
  obtain ⟨lib', hexec⟩ := exec_streamFetch_keeps hop hreq hg harrives (by
    rw [hq, hqq]
    show q.play.state ≠ .idle
    rw [hstate]
    exact PlayState.noConfusion)
  refine ⟨_, hexec, ?_, ?_⟩
  · rw [hq, hqq, ← hreader]
    rfl
  · rw [hq, hqq, ← hplay]
    rfl

/-- R120, R123, R125: staging ready acted on after a fetch. -/
theorem streamFetch_staging {ticket : Nat} {q v : Machine.Part} (hs : s.part.play.state = .staging) (hcue : s.part.cueWf)
    (hentry : s.part.play.entry = some ticket) (hq : q = (s.part.opEnds d).pageReadEffects d r.block (readOutcome read))
    (hv : (r.page = 0 ∧ ∃ page, readData read = some page ∧ headerUsable song page = true ∧ v = (q.headerTaken song page).readerRun) ∨
      (1 ≤ r.page ∧ v = (q.pageTaken song r.page (readData read)).readerRun)) :
    (¬v.reader.ready →
      ∃ u : Machine.Part, exec (.streamFetchComplete d read) s = .next { s with part := u } ∧ u.play = v.play ∧
        u.play.state = .staging ∧ u.reader = v.reader ∧ u.book = s.part.book ∧ u.scorer = s.part.scorer) ∧
    (v.reader.ready → s.part.play.startPending = false → s.part.play.cueHold ≠ 0 →
      ∃ u : Machine.Part, exec (.streamFetchComplete d read) s = .next { s with part := u } ∧
        u.play = { v.play with state := .holding, hold := some (1000 * s.part.play.cueHold * 48) } ∧
        u.reader = v.reader ∧ u.book = s.part.book ∧ u.scorer = s.part.scorer) ∧
    (v.reader.ready → s.part.play.startPending = true ∨ s.part.play.cueHold = 0 ∧ s.part.settings.holdAction = .start →
      ∃ u : Machine.Part, exec (.streamFetchComplete d read) s = .next { s with part := u } ∧
        u.play = { v.play with state := .running, hold := none, startPending := false } ∧ u.reader = v.reader ∧
        u.book = { s.part.book with entries := s.part.book.entries.map fun x =>
          if x.ticket = ticket then { x with state := .playing } else x } ∧
        u.scorer = { s.part.scorer with seats := s.part.scorer.seats.map fun (x : Seat) =>
          if x.state = .armed then { x with state := .singing } else x } ∧
        u.attn.pending.play = true) ∧
    (v.reader.ready → s.part.play.startPending = false → s.part.play.cueHold = 0 → s.part.settings.holdAction = .skip →
      ∃ u : Machine.Part, exec (.streamFetchComplete d read) s = .next { s with part := (u.grant d).promoteIfDue } ∧
        u.book.entries = withoutTicket s.part.book.entries ticket ∧
        (u.book.lastStrike.map fun x => (x.ticket, x.reason)) = some (ticket, .skipped) ∧
        u.play.state = (if s.part.settings.gapTime = 0 then .idle else .gap) ∧ u.play.entry = none ∧
        u.play.song = none ∧ u.play.hold = none ∧
        u.play.gap = (if s.part.settings.gapTime = 0 then none else some (1000 * s.part.settings.gapTime * 48)) ∧
        u.play.lastOutcome = some { ticket := ticket, song := song.song, ending := .struck .skipped } ∧
        u.reader = Reader.reset ∧ (∀ x ∈ u.scorer.seats, x.state = .idle) ∧
        u.attn.pending.play = true ∧ u.attn.pending.book = true) := by
  obtain ⟨hsame, harrives⟩ := streamFetch_staged hsong (by rw [hq]; exact s.part.pageRead_sameCue d r.block (readOutcome read)) hv
  rw [hq] at harrives
  have hstate : v.play.state = .staging := hsame.pace.state.trans hs
  have hready : v.reader.ready → v.reader.stagingReady = true := v.reader.stagingReady_iff.mpr
  refine ⟨fun hnot => ?waits, fun h hp hc => ?holds, fun h hstart => ?starts, fun h hp hc ha => ?skips⟩
  case waits =>
    have hcheck : v.stagingCheck = v := Part.stagingCheck_of_not_ready (by
      rw [Bool.eq_false_iff]
      exact fun hr => hnot (v.reader.stagingReady_iff.mp hr))
    rw [hcheck] at harrives
    obtain ⟨lib, hexec⟩ := exec_streamFetch_keeps hop hreq hg harrives (by rw [hstate]; exact PlayState.noConfusion)
    exact ⟨_, hexec, rfl, hstate, rfl, hsame.pace.book, hsame.pace.scorer⟩
  case holds =>
    have hcheck := Part.stagingCheck_holds hstate (hready h) (hsame.startPending.trans hp) (by rw [hsame.cueHold]; exact hc)
    rw [hcheck] at harrives
    obtain ⟨lib, hexec⟩ := exec_streamFetch_keeps hop hreq hg harrives PlayState.noConfusion
    exact ⟨_, hexec, by rw [hsame.cueHold]; rfl, rfl, hsame.pace.book, hsame.pace.scorer⟩
  case starts =>
    have hstart' : v.play.startPending = true ∨ v.play.cueHold = 0 ∧ v.settings.holdAction = .start := by
      rw [hsame.startPending, hsame.cueHold, hsame.pace.settings]
      exact hstart
    rw [Part.stagingCheck_begins hstate (hready h) (hsame.pace.entry.trans hentry) hstart'] at harrives
    obtain ⟨lib, hexec⟩ := exec_streamFetch_keeps hop hreq hg harrives PlayState.noConfusion
    refine ⟨_, hexec, rfl, rfl, ?_, ?_, rfl⟩
    · rw [← hsame.pace.book]
      rfl
    · rw [← hsame.pace.scorer]
      rfl
  case skips =>
    obtain ⟨e, rest, held, hholds, rfl⟩ := hcue.holds_of_entry hentry
    obtain rfl : held = song := Option.some.inj (hholds.song.symm.trans hsong)
    have hzero := (hsame.pace.holds hholds).heldAtZero hstate
    rw [Part.stagingCheck_skips hstate (hready h) (hsame.startPending.trans hp) (hsame.cueHold.trans hc)
      (by rw [hsame.pace.settings]; exact ha)] at harrives
    obtain ⟨hbook, -, -, hattn⟩ := Part.cueStrike_gap hzero (.inr rfl) false
    obtain ⟨hplay, hreader, hscorer, -⟩ := Part.cueStrike_loadsGap hzero (.inr rfl) false
    have hset : v.heldAtZero.settings = s.part.settings := hsame.pace.settings
    have hentries : v.heldAtZero.book.entries = s.part.book.entries := congrArg Book.entries hsame.pace.book
    refine ⟨_, exec_streamFetch_arrives hop hreq hg harrives, ?_⟩
    rw [hbook, hplay, hattn, hscorer, hentries, Part.gapTimer, hset]
    refine ⟨rfl, rfl, rfl, rfl, rfl, rfl, rfl, rfl, hreader, fun x hx => ?_, rfl, by simp⟩
    obtain ⟨i, hi, rfl⟩ := List.mem_mapIdx.mp hx
    rfl

end

end

/-- Settles O54. -/
theorem streamFetchIsJudged : Obligations.StreamFetchIsJudged := by
  refine ⟨fun d read r song s hop hreq hsong => ⟨streamFetch_givenUp hop hreq, fun hg => ⟨?usable, ?unusable, ?uncorrectable, ?stalled, ?staging⟩⟩,
    fun blk before after r hp hd hr => ?record, fun blk before after part number start stop hp hn hs ht hr => ?skipped, fun p keyed hs hkeyed => ?taken⟩
  case usable => exact fun page hr hs hc hd hu => streamFetch_usable hop hreq hg hsong hr hs hc hd hu
  case unusable => exact fun ticket hr _ hcue hentry hu => streamFetch_unusable hop hreq hg hsong hr hcue hentry hu
  case uncorrectable => exact fun hr hs hu => streamFetch_uncorrectable hop hreq hg hsong hr hs hu
  case stalled => exact fun page hr hs hstall hd => streamFetch_stalled hop hreq hg hsong hr hs hstall hd
  case staging =>
    intro ticket q v ready hs hcue hentry hq hv hready
    rw [hready]
    exact streamFetch_staging hop hreq hg hsong hs hcue hentry hq hv
  case record => exact examine_of_bytes ⟨before, after, rfl, rfl⟩ hp hd hr
  case skipped =>
    refine examine_of_note_out_of_range ⟨before, after, rfl, rfl⟩ hp hn hs ht ?_
    rw [Bool.eq_false_iff]
    intro hrange
    simp only [recordInRange, Bool.and_eq_true, decide_eq_true_eq] at hrange
    obtain ⟨⟨⟨⟨hpart, hlow⟩, hhigh⟩, hlt⟩, hstop⟩ := hrange
    exact hr ⟨hpart, hlow, hhigh, hlt, hstop⟩
  case taken =>
    have hp := Part.not_playing_of_staged hs
    obtain rfl : keyed = p.reader.keyedBy := funext hkeyed
    refine ⟨fun r k hk hlt => Part.takeRecord_outOfOrder (outOfOrder_key hk hlt), fun t hkey => Part.takeRecord_beat hp hkey,
      fun l hkey => Part.takeRecord_line hp hkey, fun part number start stop hkey => ⟨fun hsame => ?_, fun hstart notes hnotes => ?_⟩⟩
    · exact Part.takeRecord_outOfOrder (outOfOrder_start hsame)
    · exact Part.takeRecord_note hp hkey hstart hnotes

end Sys2Proof.Machine
end

