-- ==== Sys2Proof/Proofs/DisplayCommands.lean ====
section
/-! PROOFS. Proofs/DisplayCommands.lean: LOAD GLYPHS, DISPLAY SETTINGS, BIND MIC and SCORE REPORT (O55). -/

namespace Sys2Proof.Machine

/-! ### LOAD GLYPHS (R147, R148) -/

theorem loadGlyphs_offers (tag : Byte) (params : List Byte) : Instr.offers (.loadGlyphs tag params) tag (cmdLoadGlyphs params) := fun _ => rfl

theorem displaySettings_offers (tag : Byte) (params : List Byte) :
    Instr.offers (.displaySettings tag params) tag (cmdDisplaySettings params) := fun _ => rfl

theorem bindMic_offers (tag : Byte) (params : List Byte) : Instr.offers (.bindMic tag params) tag (cmdBindMic params) := fun _ => rfl

theorem scoreReport_offers (tag : Byte) (params : List Byte) : Instr.offers (.scoreReport tag params) tag (cmdScoreReport params) := fun _ => rfl

/-- R148: the glyphs that a body carries stand at their codes, and the others as before. -/
theorem glyphAt_writeGlyphs (glyphs : List Glyph) (first code : Nat) (m : List (Nat × Glyph)) : glyphAt (writeGlyphs first glyphs m) code =
    if first ≤ code ∧ code < first + glyphs.length then glyphs[code - first]? else glyphAt m code := by
  induction glyphs generalizing first m with
  | nil =>
    rw [if_neg (by simp)]
    rfl
  | cons g rest ih =>
    rw [writeGlyphs, ih, List.length_cons]
    by_cases hself : code = first
    · subst hself
      rw [if_neg (by omega), glyphAt_writeGlyph_self, if_pos (by omega), Nat.sub_self]
      rfl
    · rw [glyphAt_writeGlyph_of_ne m first code g hself]
      by_cases hin : first + 1 ≤ code ∧ code < first + 1 + rest.length
      · have hsucc : code - first = (code - (first + 1)) + 1 := by omega
        rw [if_pos hin, if_pos (by omega), hsucc, List.getElem?_cons_succ]
      · rw [if_neg hin, if_neg (by omega)]

/-! ### DISPLAY SETTINGS (R153) -/

theorem displayParams_baselines {d d' : Display} {params : List Byte} {clear : Bool} (h : displayParams d params = some (d', clear)) :
    d'.upperBaseline + 32 ≤ d'.lowerBaseline := by
  unfold displayParams at h
  (repeat' split at h) <;> cases h
  assumption

/-! ### BIND MIC (R162) -/

theorem bindParams_seat {params : List Byte} {seat : Nat} {channel : Option Nat} (h : bindParams params = some (seat, channel)) : seat < 4 := by
  unfold bindParams at h
  (repeat' split at h) <;> cases h
  all_goals exact Nat.lt_succ_of_le ‹_›

/-- R162: BIND MIC binds the channel to the seat, and takes it from another. -/
theorem Part.bindSeat_seat {p : Part} (seat : Nat) (channel : Option Nat) {i : Nat} (hi : i < p.scorer.seats.length) :
    (p.bindSeat seat channel).seat i = if i = seat then { p.seat i with channel := channel } else { p.seat i with
      channel := if channel.isSome = true ∧ (p.seat i).channel = channel then none else (p.seat i).channel } := by
  rw [Part.seat_mapIdx (q := p.bindSeat seat channel) rfl hi]
  by_cases hs : i = seat
  · rw [if_pos hs, if_pos hs]
  · rw [if_neg hs, if_neg hs]
    by_cases hheld : channel.isSome = true ∧ (p.seat i).channel = channel
    · rw [if_pos hheld, if_pos (by simpa using hheld)]
    · rw [if_neg hheld, if_neg (by simpa using hheld)]

/-- Settles O55. -/
theorem displayAndScoringCommands : Obligations.DisplayAndScoringCommands := by
  refine ⟨fun tag params s h => ⟨⟨fun hnone => ?_, fun first glyphs hform => ?_⟩, ⟨fun hnone => ?_, fun d clear hform => ⟨?_, ?_⟩⟩,
    ⟨fun hnone => ?_, fun seat channel hform hshaped => ?bind⟩, ?_⟩, fun m first code glyphs hwf hfirst hlast => ⟨?_, ?_⟩⟩
  · exact exec_refused (loadGlyphs_offers tag params) h (withForm_none hnone _ _)
  · exact exec_ok (loadGlyphs_offers tag params) h (by rw [cmdLoadGlyphs, hform, withForm_some])
  · exact exec_refused (displaySettings_offers tag params) h (withForm_none hnone _ _)
  · exact displayParams_baselines hform
  · refine exec_ok (displaySettings_offers tag params) h ?_
    rw [cmdDisplaySettings, hform, withForm_some]
    cases clear <;> rfl
  · exact exec_refused (bindMic_offers tag params) h (withForm_none hnone _ _)
  case bind =>
    obtain ⟨-, -, hseats, -⟩ := hshaped
    have hseat := bindParams_seat hform
    refine ⟨s.part.bindSeat seat channel, ?_, rfl, ?_, fun i hi hne => ?_⟩
    · exact exec_ok (bindMic_offers tag params) h (by rw [cmdBindMic, hform, withForm_some])
    · rw [Part.bindSeat_seat seat channel (by omega), if_pos rfl]
    · rw [Part.bindSeat_seat seat channel (by omega), if_neg hne]
  · exact exec_ok (scoreReport_offers tag []) h rfl
  · exact writeGlyphs_wf glyphs first m hfirst hlast hwf
  · exact glyphAt_writeGlyphs glyphs first code m

end Sys2Proof.Machine
end

