-- ==== Sys2Proof/Proofs/WindowEnd.lean ====
section
/-! PROOFS. Proofs/WindowEnd.lean: the end of a window: levels, presence, and the evaluation of the window (O56). -/

namespace Sys2Proof.Machine

/-! ### The audio frame with the 480th sample (R155, R156) -/

theorem exec_windowEnd (f : AudioFrame) (s : State) : exec (.windowEnd f) s = .next { s with part := s.part.audioFrame f } := rfl

/-- R155, R128: the part with its new sample, and song time gone on where it was RUNNING. -/
def Part.sampled (p : Part) (f : AudioFrame) : Part :=
  if p.play.state = .running then (p.tick.withSample f).advance else p.tick.withSample f

section
variable {p : Part}

theorem Part.advance_mics (p : Part) : p.advance.scorer.mics = p.scorer.mics := by
  by_cases hr : p.play.state = .running
  · obtain ⟨q, hq⟩ : ∃ q : Part, { p with play := { p.play with time := min (p.play.time + (25 + p.play.tempo).toNat) p.durationSteps } } = q :=
      ⟨_, rfl⟩
    have hadvance : p.advance = q.retireNotes.dropBeats.readerResume.endIfReached := by
      rw [← hq]
      exact if_pos hr
    have hend : ∀ x : Part, x.endIfReached.scorer.mics = x.scorer.mics := fun x => by
      unfold Part.endIfReached
      split
      · exact Part.endSong_mics .ended
      · rfl
    have hresume := (Part.samePace_of_paced q.retireNotes.dropBeats.readerResume_paced).scorer
    rw [hadvance, hend, hresume]
    refine (q.retireNotes_mics).trans ?_
    rw [← hq]
  · rw [Part.advance, if_neg hr]

theorem Part.sampled_mics (p : Part) (f : AudioFrame) : (p.sampled f).scorer.mics = (f :: p.scorer.window, p.scorer.channels) := by
  unfold Part.sampled
  split
  · rw [Part.advance_mics]
    rfl
  · rfl

theorem Part.sampled_settings (p : Part) (f : AudioFrame) : (p.sampled f).settings = p.settings := by
  unfold Part.sampled
  split
  · exact congrArg (fun x => x.settings) (p.tick.withSample f).advance_fixed
  · rfl

/-- R156: the audio frame with the window's 480th sample. -/
theorem Part.audioFrame_ends (f : AudioFrame) (hw : p.scorer.window.length = 479) (hq : p.quiet = true) :
    p.audioFrame f = (p.sampled f).windowEnds.promoteIfDue := by
  have hframe : p.audioFrame f = (if Config.windowFrames ≤ (if p.play.state == .running then (p.timePasses.withSample f).advance
      else p.timePasses.withSample f).scorer.window.length then (if p.play.state == .running then (p.timePasses.withSample f).advance
      else p.timePasses.withSample f).windowEnds else (if p.play.state == .running then (p.timePasses.withSample f).advance
      else p.timePasses.withSample f)).promoteIfDue := rfl
  have hsampled : (if p.play.state == .running then (p.timePasses.withSample f).advance else p.timePasses.withSample f) = p.sampled f := by
    simp only [Part.timePasses_of_quiet hq, Part.sampled, beq_iff_eq]
  have hwindow : (p.sampled f).scorer.window = f :: p.scorer.window := congrArg Prod.fst (p.sampled_mics f)
  rw [hframe, hsampled, if_pos]
  rw [hwindow, List.length_cons, hw]

/-! ### What the evaluation of a window leaves (R164, R133) -/

/-- What the evaluation of a window leaves of a part. -/
def Part.unevaluated (p : Part) : Play × (List AudioFrame × List Channel) × Settings × Book × Attention :=
  ({ p.play with unknownWindows := 0, firstUnderrun := false }, p.scorer.mics, p.settings, p.book, p.attn)

theorem Part.mapSeats_unevaluated (p : Part) (f : Nat → Seat → Seat) : (p.mapSeats f).unevaluated = p.unevaluated := rfl

/-- R133: the first unknown window of a song raises PLAY. -/
theorem Part.countUnknownWindow_unevaluated (p : Part) :
    p.countUnknownWindow.unevaluated = p.unevaluated ∨ p.countUnknownWindow.unevaluated = (p.raise .play).unevaluated := by
  unfold Part.countUnknownWindow Part.underrun
  split
  · exact .inl rfl
  · exact .inr rfl

theorem Part.readHandsets_unevaluated (p : Part) : p.readHandsets.unevaluated = p.unevaluated := by
  unfold Part.readHandsets
  split <;> rfl

theorem Part.activate_unevaluated (p : Part) : p.activate.unevaluated = p.unevaluated := by
  unfold Part.activate
  split
  · rfl
  · dsimp only
    split
    · exact Part.readHandsets_unevaluated _
    · rfl

theorem Part.evaluateSeat_unevaluated (estimates : List (Option Config.Pitch)) (p : Part) (seat : Nat) :
    (p.evaluateSeat estimates seat).unevaluated = p.unevaluated := by
  unfold Part.evaluateSeat
  (repeat' split)
  all_goals try dsimp only
  all_goals (repeat' split)
  all_goals rfl

theorem Part.evaluateWindow_unevaluated (p : Part) (estimates : List (Option Config.Pitch)) :
    (p.evaluateWindow estimates).unevaluated = p.unevaluated ∨ (p.evaluateWindow estimates).unevaluated = (p.raise .play).unevaluated := by
  unfold Part.evaluateWindow
  split
  · split
    · exact p.countUnknownWindow_unevaluated
    · exact .inl <| (foldl_keeps Part.unevaluated (Part.evaluateSeat estimates) (fun q j => Part.evaluateSeat_unevaluated estimates q j) _ _).trans
        p.activate_unevaluated
  · exact .inl rfl

/-- What the evaluation of a window leaves, whether it raises PLAY or not. -/
theorem Part.evaluateWindow_keeps (p : Part) (estimates : List (Option Config.Pitch)) :
    (p.evaluateWindow estimates).scorer.mics = p.scorer.mics ∧ (p.evaluateWindow estimates).play.state = p.play.state ∧
      (p.evaluateWindow estimates).play.hold = p.play.hold ∧
      (p.attn.pending.play = true → (p.evaluateWindow estimates).attn.pending.play = true) := by
  rcases p.evaluateWindow_unevaluated estimates with h | h
  · exact ⟨congrArg (fun x => x.2.1) h, congrArg (fun x => x.1.state) h, congrArg (fun x => x.1.hold) h,
      fun hp => (congrArg (fun x => x.2.2.2.2.pending.play) h).trans hp⟩
  · exact ⟨congrArg (fun x => x.2.1) h, congrArg (fun x => x.1.state) h, congrArg (fun x => x.1.hold) h,
      fun _ => congrArg (fun x => x.2.2.2.2.pending.play) h⟩

theorem Part.evaluateWindow_of_not_running (h : p.play.state ≠ .running) (estimates : List (Option Config.Pitch)) :
    p.evaluateWindow estimates = p := if_neg h

theorem Part.presenceRise_mics (p : Part) : p.presenceRise.scorer.mics = p.scorer.mics := by
  unfold Part.presenceRise
  split
  · split
    · rfl
    · cases he : p.play.entry with
      | none => simp only [Part.enterRunning, he]
      | some ticket =>
        rw [Part.enterRunning_eq he]
        rfl
    all_goals rfl
  · rfl

theorem Part.presenceRise_of_running (h : p.play.state = .running) : p.presenceRise = p := by
  unfold Part.presenceRise
  simp [h]

/-- R124: a presence rise in STAGING sets start-pending. -/
theorem Part.presenceRise_of_staging (ha : p.settings.autoStart = true) (h : p.play.state = .staging) :
    p.presenceRise = p.withPlay { p.play with startPending := true } := by
  unfold Part.presenceRise
  rw [if_pos ha, h]
  rfl

/-- R124: a presence rise in HOLDING starts the cue. -/
theorem Part.presenceRise_of_holding (ha : p.settings.autoStart = true) (h : p.play.state = .holding) : p.presenceRise = p.enterRunning := by
  unfold Part.presenceRise
  rw [if_pos ha, h]

theorem Part.promoteIfDue_mics (p : Part) : p.promoteIfDue.scorer.mics = p.scorer.mics := by
  obtain h | ⟨e, blk, h⟩ := p.promoteIfDue_cases <;> rw [h]
  rw [p.promote_only]
  rfl

/-! ### The measure of the channels (R156, R157) -/

/-- R156, R157: the measured channels, each with whether its presence rose. -/
def Part.presenceSteps (p : Part) : List (Channel × Bool) := p.scorer.channels.mapIdx fun i c =>
  presenceStep p.settings.voiceThreshold (([0, 1, 2, 3].map fun j => levelOf (channelSamples p.scorer.window j)).getD i (-96)) c

/-- R156: the pitch estimates of the four channels. -/
def Part.estimates (p : Part) : List (Option Config.Pitch) := [0, 1, 2, 3].map fun j =>
  pitchEstimate p.settings.voiceThreshold (levelOf (channelSamples p.scorer.window j)) (channelSamples p.scorer.window j)

/-- R157: whether the presence of the channel that seat 0 is bound to rose. -/
def Part.seat0Rises (p : Part) : Bool := ((p.seat 0).channel.bind fun c => p.presenceSteps[c]?.map Prod.snd).getD false

/-- R156, R157: the part with its channels measured and its window empty. -/
def Part.measured (p : Part) : Part :=
  { p with scorer := { p.scorer with channels := p.presenceSteps.map Prod.fst, window := [] } }

theorem Part.measure_eq (p : Part) : p.measure = (p.measured, p.seat0Rises, p.estimates) := by
  have hrise : p.measure.2.1 = p.seat0Rises := by
    unfold Part.measure Part.seat0Rises Part.presenceSteps
    cases (p.seat 0).channel <;> rfl
  have hpart : p.measure.1 = p.measured := rfl
  have hestimates : p.measure.2.2 = p.estimates := rfl
  rw [← hrise, ← hpart, ← hestimates]

/-- R156, R157, R164: the window end. -/
theorem Part.windowEnds_eq (p : Part) :
    p.windowEnds = (if p.seat0Rises then p.measured.presenceRise else p.measured).evaluateWindow p.estimates := by
  unfold Part.windowEnds
  rw [p.measure_eq]

theorem Part.estimates_getD (p : Part) {c : Nat} (hc : c < 4) : p.estimates.getD c none =
    pitchEstimate p.settings.voiceThreshold (levelOf (channelSamples p.scorer.window c)) (channelSamples p.scorer.window c) := by
  interval_cases c <;> rfl

theorem Part.presenceSteps_getElem? (p : Part) {i : Nat} {c : Channel} (hi : i < 4) (hc : p.scorer.channels[i]? = some c) :
    p.presenceSteps[i]? = some (presenceStep p.settings.voiceThreshold (levelOf (channelSamples p.scorer.window i)) c) := by
  have hlevel : ([0, 1, 2, 3].map fun j => levelOf (channelSamples p.scorer.window j)).getD i (-96) =
      levelOf (channelSamples p.scorer.window i) := by interval_cases i <;> rfl
  rw [Part.presenceSteps, List.getElem?_mapIdx, hc, Option.map_some, hlevel]

theorem Part.windowEnds_mics (p : Part) : p.windowEnds.scorer.mics = ([], p.presenceSteps.map Prod.fst) := by
  obtain ⟨hmics, -⟩ := (if p.seat0Rises then p.measured.presenceRise else p.measured).evaluateWindow_keeps p.estimates
  rw [p.windowEnds_eq, hmics]
  split
  · exact p.measured.presenceRise_mics
  · rfl

/-- R156, R157: every channel takes its level and presence, and the next window is empty. -/
theorem Part.windowEnd_channels (f : AudioFrame) (hw : p.scorer.window.length = 479) (hq : p.quiet = true) :
    (p.audioFrame f).scorer.window = [] ∧ ∀ i c, i < 4 → p.scorer.channels[i]? = some c → (p.audioFrame f).scorer.channels[i]? =
      some (presenceStep p.settings.voiceThreshold (levelOf (channelSamples (f :: p.scorer.window) i)) c).1 := by
  have hmics : (p.audioFrame f).scorer.mics = ([], (p.sampled f).presenceSteps.map Prod.fst) := by
    rw [Part.audioFrame_ends f hw hq, Part.promoteIfDue_mics, Part.windowEnds_mics]
  have hsampled := p.sampled_mics f
  have hwindow : (p.sampled f).scorer.window = f :: p.scorer.window := congrArg Prod.fst hsampled
  have hchannels : (p.sampled f).scorer.channels = p.scorer.channels := congrArg Prod.snd hsampled
  have hempty : (p.audioFrame f).scorer.window = [] := congrArg Prod.fst hmics
  have hsteps : (p.audioFrame f).scorer.channels = (p.sampled f).presenceSteps.map Prod.fst := congrArg Prod.snd hmics
  refine ⟨hempty, fun i c hi hc => ?_⟩
  rw [hsteps, List.getElem?_map, (p.sampled f).presenceSteps_getElem? hi (by rw [hchannels]; exact hc), hwindow, p.sampled_settings]
  rfl

/-- R157, R124: the presence of the channel of seat 0 rises, before a song plays. -/
theorem Part.windowEnd_rises (f : AudioFrame) (hw : p.scorer.window.length = 479) (hq : p.quiet = true) {i : Nat} {c : Channel} (hi : i < 4)
    (hseat : (p.seat 0).channel = some i) (hc : p.scorer.channels[i]? = some c)
    (hrise : (presenceStep p.settings.voiceThreshold (levelOf (channelSamples (f :: p.scorer.window) i)) c).2 = true)
    (ha : p.settings.autoStart = true) (hcue : p.cueWf) :
    (p.play.state = .staging → (p.audioFrame f).play.state = .staging ∧ (p.audioFrame f).play.startPending = true) ∧
    (p.play.state = .holding → (p.audioFrame f).play.state = .running ∧ (p.audioFrame f).play.hold = none ∧
      (p.audioFrame f).attn.pending.play = true) := by
  obtain ⟨q, hq'⟩ : ∃ q, p.tick.withSample f = q := ⟨_, rfl⟩
  have hrises : q.seat0Rises = true := by
    have hbound : (q.seat 0).channel = some i := by rw [← hq']; exact hseat
    have hstep : q.presenceSteps[i]? = some (presenceStep p.settings.voiceThreshold (levelOf (channelSamples (f :: p.scorer.window) i)) c) := by
      rw [← hq']
      exact (p.tick.withSample f).presenceSteps_getElem? hi hc
    rw [Part.seat0Rises, hbound, Option.bind_some, hstep]
    exact hrise
  have hframe : p.play.state ≠ .running → p.audioFrame f = (q.measured.presenceRise.evaluateWindow q.estimates).promoteIfDue := fun hn => by
    rw [Part.audioFrame_ends f hw hq, Part.sampled, if_neg hn, hq', q.windowEnds_eq, if_pos hrises]
  have hset : q.measured.settings.autoStart = true := by rw [← hq']; exact ha
  have hstate : q.measured.play.state = p.play.state := by rw [← hq']; rfl
  have hentry : q.measured.play.entry = p.play.entry := by rw [← hq']; rfl
  refine ⟨fun hs => ?_, fun hs => ?_⟩
  · have hrose := Part.presenceRise_of_staging hset (hstate.trans hs)
    have hstaging : q.measured.presenceRise.play.state = .staging := by rw [hrose]; exact hstate.trans hs
    rw [hframe (by rw [hs]; exact PlayState.noConfusion), Part.evaluateWindow_of_not_running (by rw [hstaging]; exact PlayState.noConfusion),
      Part.promoteIfDue_of_state (by rw [hstaging]; exact PlayState.noConfusion)]
    exact ⟨hstaging, by rw [hrose]; rfl⟩
  · obtain ⟨⟨hpresent, -⟩, -⟩ := hcue
    obtain ⟨ticket, hticket⟩ := Option.isSome_iff_exists.mp (hpresent.mpr ⟨by rw [hs]; exact PlayState.noConfusion, by rw [hs]; exact PlayState.noConfusion⟩)
    have hrose : q.measured.presenceRise = q.measured.started ticket := by
      rw [Part.presenceRise_of_holding hset (hstate.trans hs), Part.enterRunning_eq (hentry.trans hticket)]
    obtain ⟨-, hrunning, hhold, hraised⟩ := (q.measured.started ticket).evaluateWindow_keeps q.estimates
    rw [hframe (by rw [hs]; exact PlayState.noConfusion), hrose, Part.promoteIfDue_of_state (by rw [hrunning]; exact PlayState.noConfusion)]
    exact ⟨hrunning, hhold, hraised rfl⟩

end

end Sys2Proof.Machine
end

