-- ==== Sys2Proof/Proofs/Evaluation.lean ====
section
/-! PROOFS. Proofs/Evaluation.lean: a window of a song that plays, the activation of a NOTE, and the classes of a window (O56). -/

namespace Sys2Proof.Machine

/-! ### A frame of a song that plays (R128, R156) -/

section
variable {p : Part}

/-- R128: a song time at which no NOTE of a reader that is not STALLED ends. -/
theorem Part.atTime_unended (h : p.reader.state ≠ .stalled) {time : Nat} (hn : ∀ n ∈ p.reader.notes, time < n.stop * 1200) :
    p.atTime time = { p with
      play := { p.play with time := time }
      reader := { p.reader with beats := p.reader.beats.filter fun b => time < b * 1200 } } := by
  obtain ⟨q, hq⟩ : ∃ q : Part, { p with play := { p.play with time := time } } = q := ⟨_, rfl⟩
  have hnone : q.reader.notes.filter (fun n => q.reached n.stop) = [] := by
    rw [List.filter_eq_nil_iff, ← hq]
    intro n hmem hreached
    have hlt := hn n hmem
    simp only [Part.reached, Config.stepsPerMs, decide_eq_true_eq] at hreached
    omega
  have hall : q.reader.notes.filter (fun n => !q.reached n.stop) = p.reader.notes := by
    rw [← hq, List.filter_eq_self]
    intro n hmem
    rw [Part.not_reached]
    exact decide_eq_true (hn n hmem)
  have hretire : q.retireNotes = q := by
    rw [Part.retireNotes_eq, hnone, hall, ← hq]
    rfl
  have hdrop : q.dropBeats = { p with
      play := { p.play with time := time }
      reader := { p.reader with beats := p.reader.beats.filter fun b => time < b * 1200 } } := by
    rw [← hq]
    simp only [Part.dropBeats, Part.not_reached]
  have hat : p.atTime time = q.retireNotes.dropBeats.readerResume := by rw [← hq]; rfl
  rw [hat, hretire, hdrop, Part.readerResume_of_not_stalled (by exact h)]

/-- R128, R155: a part that plays with its new sample, its song time and the BEATs still to come. -/
def Part.heardAt (p : Part) (f : AudioFrame) (time : Nat) : Part := { p.tick.withSample f with
  play := { p.tick.play with time := time }
  reader := { p.reader with beats := p.reader.beats.filter fun b => time < b * 1200 } }

theorem Part.sampled_running (f : AudioFrame) (hs : p.play.state = .running) (h : p.reader.state ≠ .stalled) {time : Nat}
    (ht : time = p.play.time + (25 + p.play.tempo).toNat) (hd : time < p.durationSteps) (hn : ∀ n ∈ p.reader.notes, time < n.stop * 1200) :
    p.sampled f = p.heardAt f time := by
  have hadvance := Part.advance_running (p := p.tick.withSample f) hs
  have hmin : min ((p.tick.withSample f).play.time + (25 + (p.tick.withSample f).play.tempo).toNat) (p.tick.withSample f).durationSteps = time := by
    have hle : p.play.time + (25 + p.play.tempo).toNat ≤ p.durationSteps := by rw [← ht]; exact Nat.le_of_lt hd
    rw [ht]
    exact min_eq_left hle
  have hat : (p.tick.withSample f).atTime time = p.heardAt f time := Part.atTime_unended (p := p.tick.withSample f) h hn
  rw [hmin, hat] at hadvance
  rw [Part.sampled, if_pos hs, hadvance]
  exact Part.endIfReached_of_lt hd

/-- R156, R164: the window end of a part that plays is the evaluation of the window. -/
theorem Part.audioFrame_evaluates (f : AudioFrame) (hw : p.scorer.window.length = 479) (hq : p.quiet = true) (hs : p.play.state = .running)
    (h : p.reader.state ≠ .stalled) {time : Nat} (ht : time = p.play.time + (25 + p.play.tempo).toNat) (hd : time < p.durationSteps)
    (hn : ∀ n ∈ p.reader.notes, time < n.stop * 1200) :
    p.audioFrame f = (p.heardAt f time).measured.evaluateWindow (p.heardAt f time).estimates := by
  have hrunning : (p.heardAt f time).measured.play.state = .running := hs
  have hrise : (if (p.heardAt f time).seat0Rises then (p.heardAt f time).measured.presenceRise else (p.heardAt f time).measured) =
      (p.heardAt f time).measured := by
    rw [Part.presenceRise_of_running hrunning, ite_self]
  obtain ⟨-, hstate, -⟩ := (p.heardAt f time).measured.evaluateWindow_keeps (p.heardAt f time).estimates
  rw [Part.audioFrame_ends f hw hq, Part.sampled_running f hs h ht hd hn, Part.windowEnds_eq, hrise]
  exact Part.promoteIfDue_of_state (by rw [hstate, hrunning]; exact PlayState.noConfusion)

/-! ### A window with no NOTE (R133, R164) -/

theorem Part.countUnknownWindow_fields (p : Part) :
    p.countUnknownWindow.play.unknownWindows = satInc 65535 p.play.unknownWindows ∧ p.countUnknownWindow.play.firstUnderrun = true ∧
      p.countUnknownWindow.attn.pending.play = (p.attn.pending.play || !p.play.firstUnderrun) ∧
      p.countUnknownWindow.scorer.seats = p.scorer.seats := by
  unfold Part.countUnknownWindow Part.underrun
  cases hf : p.play.firstUnderrun with
  | false => exact ⟨rfl, rfl, by simp [Part.raise, SourceSet.put], rfl⟩
  | true => exact ⟨rfl, hf, by simp, rfl⟩

theorem Part.evaluateWindow_unknown (hs : p.play.state = .running) (hn : p.reader.notes = []) (hf : p.reader.state ≠ .finished)
    (estimates : List (Option Config.Pitch)) : p.evaluateWindow estimates = p.countUnknownWindow := by
  unfold Part.evaluateWindow
  rw [if_pos hs, if_pos (by simp [hn, hf])]

/-! ### A window of one NOTE (R164, R165) -/

/-- R164: a part whose one queued NOTE is a NOTE with some tallies, and what stands of a seat and its tally. -/
structure Part.tallied (p q : Part) (n : QueuedNote) (i : Nat) (x : Seat) (t : Option Tally) : Prop where
  notes : ∃ tallies, q.reader.notes = [{ n with tallies := tallies }] ∧ tallies[i]? = t
  seat : q.seat i = x
  length : q.scorer.seats.length = 4
  play : q.play = p.play
  settings : q.settings = p.settings

/-- R164: mic seen of a seat. -/
def Part.micHeard (p : Part) (seat : Nat) : Part := p.mapSeats fun i s => if i = seat then { s with micSeen := true } else s

variable {q : Part} {n : QueuedNote} {i j : Nat} {x : Seat} {t : Option Tally}

theorem Part.evaluateSeat_cases (estimates : List (Option Config.Pitch)) (p : Part) (seat : Nat) :
    p.evaluateSeat estimates seat = p ∨ p.evaluateSeat estimates seat = p.micHeard seat ∨
      ∃ n w, p.evaluateSeat estimates seat = (p.micHeard seat).addWindow seat n w := by
  unfold Part.evaluateSeat
  split
  · split
    · exact .inl rfl
    · dsimp only
      split
      · exact .inr (.inl rfl)
      · exact .inr (.inr ⟨_, _, rfl⟩)
  · exact .inl rfl

theorem Part.tallied.mapSeats_of_ne (h : p.tallied q n i x t) {f : Nat → Seat → Seat} (hi : i < 4) (hf : ∀ s, f i s = s) :
    p.tallied (q.mapSeats f) n i x t := by
  have hlength := h.length
  refine ⟨h.notes, ?_, ?_, h.play, h.settings⟩
  · rw [Part.seat_mapIdx (q := q.mapSeats f) rfl (by omega), hf, h.seat]
  · simp [Part.mapSeats, hlength]

theorem Part.tallied.micHeard_of_ne (h : p.tallied q n i x t) (hi : i < 4) (hj : i ≠ j) : p.tallied (q.micHeard j) n i x t :=
  h.mapSeats_of_ne hi fun _ => if_neg hj

/-- R164: the window of another seat. -/
theorem Part.tallied.addWindow_of_ne (h : p.tallied q n i x t) (hi : i < 4) (hj : i ≠ j) (m : QueuedNote) (w : WindowClass) :
    p.tallied (q.addWindow j m w) n i x t := by
  obtain ⟨⟨tallies, hnotes, htally⟩, hseat, hlength, hplay, hset⟩ := h
  have hother : p.tallied { q with reader := { q.reader with notes := q.reader.notes.map fun (y : QueuedNote) =>
      if y.part = m.part ∧ y.start = m.start then { y with tallies := y.tallies.modify j (tallyAdd q.play.time m.start m.stop w) } else y } } n i x t := by
    refine ⟨?_, hseat, hlength, hplay, hset⟩
    simp only [hnotes, List.map_cons, List.map_nil]
    split
    · exact ⟨_, rfl, (List.getElem?_modify_ne _ _ (Ne.symm hj)).trans htally⟩
    · exact ⟨_, rfl, htally⟩
  exact hother.mapSeats_of_ne hi fun _ => if_neg hj

theorem Part.tallied.evaluateSeat_of_ne (h : p.tallied q n i x t) (hi : i < 4) (hj : i ≠ j) (estimates : List (Option Config.Pitch)) :
    p.tallied (q.evaluateSeat estimates j) n i x t := by
  obtain he | he | ⟨m, w, he⟩ := Part.evaluateSeat_cases estimates q j <;> rw [he]
  · exact h
  · exact h.micHeard_of_ne hi hj
  · exact (h.micHeard_of_ne hi hj).addWindow_of_ne hi hj m w

theorem Part.tallied.evaluateSeats_of_ne (h : p.tallied q n i x t) (hi : i < 4) (estimates : List (Option Config.Pitch)) {seats : List Nat}
    (hseats : ∀ j ∈ seats, i ≠ j) : p.tallied (seats.foldl (Part.evaluateSeat estimates) q) n i x t :=
  List.foldlRecOn (motive := fun q => p.tallied q n i x t) seats _ h fun _ hq j hj => hq.evaluateSeat_of_ne hi (hseats j hj) estimates

/-- R164: the window of the seat itself, SINGING and bound to a channel, with the NOTE of its part active. -/
theorem Part.tallied.evaluateSeat_self (h : p.tallied q n i x t) (hi : i < 4) {estimates : List (Option Config.Pitch)} {c : Nat} {key : Int}
    {w : WindowClass} (hs : x.state = .singing) (hpart : x.part = n.part) (hc : x.channel = some c) (hkey : n.key = some key)
    (hactive : p.noteActive n = true) (hw : w = classify p.settings.octaveTolerance n.number key (estimates.getD c none)) :
    p.tallied (q.evaluateSeat estimates i) n i (seatCount w { x with micSeen := true }) (t.map (tallyAdd p.play.time n.start n.stop w)) := by
  obtain ⟨⟨tallies, hnotes, htally⟩, hseat, hlength, hplay, hset⟩ := h
  have hheard : (q.micHeard i).seat i = { x with micSeen := true } := by
    rw [Part.seat_mapIdx (q := q.micHeard i) rfl (by omega), hseat]
    exact if_pos rfl
  have hheardLength : (q.micHeard i).scorer.seats.length = 4 := by simp [Part.micHeard, Part.mapSeats, hlength]
  have hfind : (q.micHeard i).reader.notes.find? (fun y => y.part == ((q.micHeard i).seat i).part && (q.micHeard i).noteActive y) =
      some { n with tallies := tallies } := by
    have hnow : (q.micHeard i).noteActive { n with tallies := tallies } = true := by
      have hsame : (q.micHeard i).noteActive { n with tallies := tallies } = p.noteActive n := by
        unfold Part.noteActive Part.reached
        rw [← hplay]
        rfl
      rw [hsame, hactive]
    have hheardNotes : (q.micHeard i).reader.notes = [{ n with tallies := tallies }] := hnotes
    rw [hheardNotes, hheard]
    simp [hpart, hnow]
  have hevaluate : q.evaluateSeat estimates i = (q.micHeard i).addWindow i { n with tallies := tallies } w := by
    have hfind' := hfind
    unfold Part.micHeard at hfind'
    have hset' : q.settings.octaveTolerance = p.settings.octaveTolerance := by rw [hset]
    unfold Part.evaluateSeat
    rw [if_pos (by rw [hseat]; exact hs)]
    simp only [hseat, hc]
    rw [hfind']
    dsimp only
    rw [hw, ← hset', hkey]
    rfl
  rw [hevaluate]
  refine ⟨?_, ?_, ?_, hplay, hset⟩
  · refine ⟨tallies.modify i (tallyAdd p.play.time n.start n.stop w), ?_, ?_⟩
    · have hadded : ((q.micHeard i).addWindow i { n with tallies := tallies } w).reader.notes =
          q.reader.notes.map fun (y : QueuedNote) => if y.part = n.part ∧ y.start = n.start then
            { y with tallies := y.tallies.modify i (tallyAdd q.play.time n.start n.stop w) } else y := rfl
      rw [hadded, hnotes, hplay]
      simp
    · rw [List.getElem?_modify_eq, htally]
      rfl
  · have hlt : i < (q.micHeard i).scorer.seats.length := by omega
    rw [Part.seat_mapIdx (p := q.micHeard i) (q := (q.micHeard i).addWindow i { n with tallies := tallies } w) rfl hlt, hheard]
    exact if_pos rfl
  · simp [Part.addWindow, Part.mapSeats, hheardLength]

theorem seats_split (hi : i < 4) : ∃ before after, [0, 1, 2, 3] = before ++ i :: after ∧ (∀ j ∈ before, i ≠ j) ∧ ∀ j ∈ after, i ≠ j := by
  interval_cases i
  · exact ⟨[], [1, 2, 3], rfl, by decide, by decide⟩
  · exact ⟨[0], [2, 3], rfl, by decide, by decide⟩
  · exact ⟨[0, 1], [3], rfl, by decide, by decide⟩
  · exact ⟨[0, 1, 2], [], rfl, by decide, by decide⟩

theorem Part.activate_of_captured {key : Int} (hn : p.reader.notes = [n]) (hkey : n.key = some key) : p.activate = p := by
  unfold Part.activate
  split
  · rfl
  · simp [hn, hkey]

/-- R164, R165: the window of a seat that sings, and its NOTE active. -/
theorem Part.evaluateWindow_tallied (hs : p.play.state = .running) (hn : p.reader.notes = [n]) {key : Int} (hkey : n.key = some key)
    (hlength : p.scorer.seats.length = 4) (hi : i < 4) {estimates : List (Option Config.Pitch)} {c : Nat} {w : WindowClass}
    (hsing : (p.seat i).state = .singing) (hpart : (p.seat i).part = n.part) (hc : (p.seat i).channel = some c)
    (hactive : p.noteActive n = true) (hw : w = classify p.settings.octaveTolerance n.number key (estimates.getD c none)) :
    p.tallied (p.evaluateWindow estimates) n i (seatCount w { p.seat i with micSeen := true })
      (n.tallies[i]?.map (tallyAdd p.play.time n.start n.stop w)) := by
  have hevaluate : p.evaluateWindow estimates = [0, 1, 2, 3].foldl (Part.evaluateSeat estimates) p := by
    unfold Part.evaluateWindow
    rw [if_pos hs, if_neg (by simp [hn]), Part.activate_of_captured hn hkey]
  obtain ⟨before, after, hsplit, hbefore, hafter⟩ := seats_split hi
  have hstart : p.tallied p n i (p.seat i) n.tallies[i]? := ⟨⟨n.tallies, hn, rfl⟩, rfl, hlength, rfl, rfl⟩
  have hself := (hstart.evaluateSeats_of_ne hi estimates hbefore).evaluateSeat_self hi hsing hpart hc hkey hactive hw
  rw [hevaluate, hsplit, List.foldl_append, List.foldl_cons]
  exact hself.evaluateSeats_of_ne hi estimates hafter

end

end Sys2Proof.Machine
end

