-- ==== Sys2Proof/Proofs/WindowClasses.lean ====
section
/-! PROOFS. Proofs/WindowClasses.lean: the activation of a NOTE, onset, counts, presence and the classes of a window (O56). -/

namespace Sys2Proof.Machine

/-! ### Activation (R164) -/

section
variable {p : Part} {n : QueuedNote} {e : Entry}

/-- R164: a NOTE that becomes active captures the entry's key, and the seats read their handsets. -/
theorem Part.activate_captures (he : p.heldBookEntry = some e) (hn : p.reader.notes = [n]) (hactive : p.noteActive n = true)
    (hkey : n.key = none) :
    p.activate = Part.readHandsets { p with reader := { p.reader with notes := [{ n with key := some e.key }] } } := by
  unfold Part.activate
  simp [he, hn, hactive, hkey]

theorem Part.activate_notes (he : p.heldBookEntry = some e) (hn : p.reader.notes = [n]) (hactive : p.noteActive n = true) (hkey : n.key = none) :
    p.activate.reader.notes = [{ n with key := some e.key }] := by
  rw [Part.activate_captures he hn hactive hkey]
  unfold Part.readHandsets
  split <;> rfl

theorem Part.activate_seat (he : p.heldBookEntry = some e) (hn : p.reader.notes = [n]) (hactive : p.noteActive n = true) (hkey : n.key = none)
    {i : Nat} (hi : i < p.scorer.seats.length) : p.activate.seat i =
      { p.seat i with handset := if i < e.singers then e.seats.getD i none else (p.seat i).handset } := by
  rw [Part.activate_captures he hn hactive hkey]
  exact Part.readHandsets_seat (p := { p with reader := { p.reader with notes := [{ n with key := some e.key }] } }) he hi

end

/-! ### Onset and counts (R165, R166) -/

theorem onsetAt_early_iff (time start stop : Nat) :
    onsetAt time start stop = .early ↔ time ≤ start * 1200 + 120000 ∧ time ≤ start * 1200 + (stop - start) * 600 := by
  have hbound : time ≤ start * Config.stepsPerMs + min (100 * Config.stepsPerMs) ((stop - start) * Config.stepsPerMs / 2) ↔
      time ≤ start * 1200 + 120000 ∧ time ≤ start * 1200 + (stop - start) * 600 := by
    simp only [Config.stepsPerMs]
    omega
  rw [← hbound, onsetAt]
  split <;> simp_all

theorem onsetAt_late_iff (time start stop : Nat) : onsetAt time start stop = .late ↔ onsetAt time start stop ≠ .early := by
  unfold onsetAt
  split <;> simp

/-! ### Presence (R157) -/

/-- R157: a channel that is present, at a window below the threshold and at another. -/
theorem presenceStep_present {c : Channel} (hc : c.present = true) (threshold level : Int) : presenceStep threshold level c =
    (if level < threshold then
      if c.fallRun = 49 then { c with level := level, present := false, fallRun := 0, riseRun := 0, changed := true }
      else { c with level := level, fallRun := c.fallRun + 1 }
    else { c with level := level, fallRun := 0 }, false) := by
  unfold presenceStep
  rw [if_pos hc]
  by_cases hl : level < threshold
  · rw [if_pos hl, if_pos hl]
    by_cases hf : c.fallRun = 49
    · rw [if_pos (by omega), if_pos hf]
    · rw [if_neg (by omega), if_neg hf]
  · rw [if_neg hl, if_neg hl]

/-- R157: a channel that is absent, at a window at or above the threshold and at another. -/
theorem presenceStep_absent {c : Channel} (hc : c.present = false) (threshold level : Int) : presenceStep threshold level c =
    (if threshold ≤ level then
      if c.riseRun = 2 then { c with level := level, present := true, riseRun := 0, fallRun := 0, changed := true }
      else { c with level := level, riseRun := c.riseRun + 1 }
    else { c with level := level, riseRun := 0 }, decide (threshold ≤ level ∧ c.riseRun = 2)) := by
  unfold presenceStep
  rw [if_neg (by rw [hc]; exact Bool.false_ne_true)]
  by_cases hl : threshold ≤ level
  · rw [if_pos hl, if_pos hl]
    by_cases hr : c.riseRun = 2
    · rw [if_pos (by omega), if_pos hr, decide_eq_true ⟨hl, hr⟩]
    · rw [if_neg (by omega), if_neg hr, decide_eq_false fun h => hr h.2]
  · rw [if_neg hl, if_neg hl, decide_eq_false fun h => hl h.1]

/-- R157: what a window does to a channel that is present. -/
theorem presenceStep_of_present {c : Channel} (hc : c.present = true) {threshold level : Int} {d : Channel} {rise : Bool}
    (h : presenceStep threshold level c = (d, rise)) : rise = false ∧ d.level = level ∧ d.present = !(decide (level < threshold) && c.fallRun == 49) ∧
      d.riseRun = (if level < threshold ∧ c.fallRun = 49 then 0 else c.riseRun) ∧
      d.fallRun = (if level < threshold ∧ c.fallRun ≠ 49 then c.fallRun + 1 else 0) ∧
      d.changed = (c.changed || c.present != d.present) := by
  rw [presenceStep_present hc, Prod.mk.injEq] at h
  obtain ⟨rfl, rfl⟩ := h
  by_cases hl : level < threshold <;> by_cases hf : c.fallRun = 49 <;> simp [hl, hf, hc]

/-- R157: what a window does to a channel that is absent. -/
theorem presenceStep_of_absent {c : Channel} (hc : c.present = false) {threshold level : Int} {d : Channel} {rise : Bool}
    (h : presenceStep threshold level c = (d, rise)) : (rise = true ↔ threshold ≤ level ∧ c.riseRun = 2) ∧ d.level = level ∧
      d.present = (decide (threshold ≤ level) && c.riseRun == 2) ∧
      d.riseRun = (if threshold ≤ level ∧ c.riseRun ≠ 2 then c.riseRun + 1 else 0) ∧
      d.fallRun = (if threshold ≤ level ∧ c.riseRun = 2 then 0 else c.fallRun) ∧
      d.changed = (c.changed || c.present != d.present) := by
  rw [presenceStep_absent hc, Prod.mk.injEq] at h
  obtain ⟨rfl, rfl⟩ := h
  by_cases hl : threshold ≤ level <;> by_cases hr : c.riseRun = 2 <;> simp [hl, hr, hc]

/-! ### Classes (R165) -/

theorem foldCents_range (cents : Int) : -599 ≤ foldCents cents ∧ foldCents cents ≤ 600 ∧ ∃ k : Int, foldCents cents = cents + 1200 * k := by
  unfold foldCents
  exact ⟨by omega, by omega, -((cents + 599) / 1200), by omega⟩

/-- R165: the class of a window with an estimate, from its distance. -/
theorem classify_some (tolerance : Bool) (number : Nat) (key : Int) (x : Config.Pitch) {cents : Int}
    (h : (if tolerance then foldCents (centsFrom x number key) else centsFrom x number key) = cents) :
    classify tolerance number key (some x) = if cents.natAbs ≤ 50 then .hit else if cents.natAbs ≤ 100 then .near else .miss := by
  rw [← h]
  rfl

/-- Settles O56. -/
theorem windowEndMeasures : Obligations.WindowEndMeasures := by
  refine ⟨fun f s hw hq => ?measures, fun f s time hw hq hs hstall hshaped ht hd => ⟨fun hn hf => ?unknown, ?counted⟩,
    fun p e n he hn hactive hkey => ⟨Part.activate_notes he hn hactive hkey, fun i hi => Part.activate_seat he hn hactive hkey hi⟩,
    fun time start stop t x => ⟨onsetAt_early_iff time start stop, onsetAt_late_iff time start stop, ?onsets, rfl, rfl, ?counts⟩,
    fun threshold level c d rise h => ?presence, foldCents_range, fun tolerance number key => ⟨rfl, fun x => ?classes⟩⟩
  case measures =>
    obtain ⟨hempty, hchannels⟩ := Part.windowEnd_channels f hw hq
    exact ⟨_, exec_windowEnd f s, hempty, hchannels,
      fun i c hi _ hseat hc hrise ha hcue => Part.windowEnd_rises f hw hq hi hseat hc hrise ha hcue⟩
  case unknown =>
    have hframe := Part.audioFrame_evaluates f hw hq hs hstall ht hd (by rw [hn]; exact nofun)
    rw [Part.evaluateWindow_unknown (p := (s.part.heardAt f time).measured) hs hn hf] at hframe
    obtain ⟨hcount, hfirst, hpending, hseats⟩ := (s.part.heardAt f time).measured.countUnknownWindow_fields
    rw [← hframe] at hcount hfirst hpending hseats
    exact ⟨_, exec_windowEnd f s, hcount, hfirst, hpending, hseats⟩
  case counted =>
    intro n key i c w hn hkey hstart hstop hi hsing hpart hc hlt hw'
    have hframe := Part.audioFrame_evaluates f hw hq hs hstall ht hd (by
      rw [hn]
      exact fun m hm => by rw [List.mem_singleton.mp hm]; exact hstop)
    obtain ⟨-, -, hlength, -⟩ := hshaped
    have hactive : (s.part.heardAt f time).measured.noteActive n = true := by
      unfold Part.noteActive
      rw [Part.not_reached]
      exact Bool.and_eq_true_iff.mpr ⟨decide_eq_true hstart, decide_eq_true hstop⟩
    have hclass : w = classify (s.part.heardAt f time).measured.settings.octaveTolerance n.number key
        ((s.part.heardAt f time).estimates.getD c none) := by
      rw [(s.part.heardAt f time).estimates_getD hlt, hw']
      rfl
    have htallied := Part.evaluateWindow_tallied (p := (s.part.heardAt f time).measured) (n := n) (i := i) hs hn hkey hlength hi hsing hpart hc
      hactive hclass
    rw [← hframe] at htallied
    obtain ⟨⟨tallies, hnotes, htally⟩, hseat, -, hplay, -⟩ := htallied
    exact ⟨_, _, exec_windowEnd f s, hseat, hnotes, htally, (congrArg Play.unknownWindows hplay).trans rfl⟩
  case onsets =>
    rintro onset rfl
    exact ⟨rfl, rfl⟩
  case counts =>
    rintro total voiced rfl rfl
    exact ⟨rfl, rfl, rfl, rfl⟩
  case presence =>
    cases hc : c.present with
    | true =>
      obtain ⟨hrise, hlevel, hpresent, hriseRun, hfallRun, hchanged⟩ := presenceStep_of_present hc h
      rw [hc] at hchanged
      exact ⟨by simp [hrise], hpresent, hriseRun, hfallRun, hchanged, hlevel⟩
    | false =>
      obtain ⟨hrise, hlevel, hpresent, hriseRun, hfallRun, hchanged⟩ := presenceStep_of_absent hc h
      rw [hc] at hchanged
      exact ⟨by rw [hrise]; simp, hpresent, hriseRun, hfallRun, hchanged, hlevel⟩
  case classes =>
    obtain ⟨cents, hcents⟩ : ∃ cents, (if tolerance then foldCents (centsFrom x number key) else centsFrom x number key) = cents := ⟨_, rfl⟩
    rw [classify_some tolerance number key x hcents, hcents]
    by_cases hhit : cents.natAbs ≤ 50
    · rw [if_pos hhit]
      exact ⟨nofun, by simp [hhit], iff_of_false nofun (by omega)⟩
    · rw [if_neg hhit]
      by_cases hnear : cents.natAbs ≤ 100
      · rw [if_pos hnear]
        exact ⟨nofun, iff_of_false nofun hhit, iff_of_false nofun (by omega)⟩
      · rw [if_neg hnear]
        exact ⟨nofun, iff_of_false nofun hhit, iff_of_true rfl (by omega)⟩

end Sys2Proof.Machine
end

