-- ==== Sys2Proof/Proofs/FrameStarts.lean ====
section
/-! PROOFS. Proofs/FrameStarts.lean: frame starts in PASS and in LOST, the video watch and CARD (O57). -/

namespace Sys2Proof.Machine

/-! ### The plane drawn from a part leaves what it is drawn from (R139) -/

theorem Part.draw_wipeSpan (p : Part) (count : Nat) (codes : List Nat) : p.draw.wipeSpan count codes = p.wipeSpan count codes := by
  induction codes generalizing count with
  | nil => rfl
  | cons c rest ih =>
    rw [Part.wipeSpan, Part.wipeSpan, ih]
    rfl

theorem Part.draw_wipeLine (p : Part) (syllables : List Syllable) (codes : List Nat) :
    p.draw.wipeLine syllables codes = p.wipeLine syllables codes := by
  induction syllables generalizing codes with
  | nil => rfl
  | cons y rest ih =>
    rw [Part.wipeLine, Part.wipeLine, ih, p.draw_wipeSpan]
    rfl

theorem Part.draw_placeGlyphs (p : Part) (x : Nat) (codes : List DrawnCode) : p.draw.placeGlyphs x codes = p.placeGlyphs x codes := by
  induction codes generalizing x with
  | nil => rfl
  | cons c rest ih =>
    rw [Part.placeGlyphs, Part.placeGlyphs, ih]
    rfl

theorem Part.draw_textItem (p : Part) (upper : Bool) (codes : List DrawnCode) : p.draw.textItem upper codes = p.textItem upper codes := by
  rw [Part.textItem, p.draw_placeGlyphs]
  rfl

theorem Part.draw_titleItems (p : Part) : p.draw.titleItems = p.titleItems := by
  unfold Part.titleItems
  simp only [p.draw_textItem]
  rfl

theorem Part.draw_rowItems (p : Part) (upper : Bool) : p.draw.rowItems upper = p.rowItems upper := by
  unfold Part.rowItems
  simp only [p.draw_textItem, p.draw_wipeLine]
  rfl

theorem Part.draw_cardItems (p : Part) : p.draw.cardItems = p.cardItems := by
  unfold Part.cardItems
  simp only [p.draw_textItem]
  rfl

/-! ### A frame start (R139) -/

section
variable {p q : Part}

theorem Part.draw_onAir (p : Part) : p.draw.onAir = p.onAir := rfl

theorem Part.titleDown_onAir (p : Part) : p.titleDown.onAir = p.onAir := rfl

/-- R139: a part as a frame start of a song that plays finds its rows, before the plane is drawn. -/
def Part.risen (p : Part) : Part := if p.rowsUp.reached 5000 then p.rowsUp.titleDown else p.rowsUp

theorem Part.frameStart_playing (h : p.playing = true) : p.frameStart = p.risen.draw := by
  rw [Part.frameStart, if_pos h]
  rfl

theorem Part.frameStart_still (h : p.playing = false) : p.frameStart = p.draw := by
  rw [Part.frameStart, if_neg (by rw [h]; exact Bool.false_ne_true)]

theorem Part.risen_onAir (p : Part) : p.risen.onAir = p.onAir := by
  unfold Part.risen
  split
  · exact p.rowsUp_onAir
  · exact p.rowsUp_onAir

theorem Part.frameStart_onAir (p : Part) : p.frameStart.onAir = p.onAir := by
  cases h : p.playing with
  | true =>
    rw [Part.frameStart_playing h]
    exact p.risen_onAir
  | false =>
    rw [Part.frameStart_still h]
    rfl

/-- R139 stage 5: what stands in the plane of a part. -/
def Part.planeOf (p : Part) : List PlaneItem :=
  p.pictureItems ++ p.titleItems ++ p.rowItems true ++ p.rowItems false ++ p.dotItems ++ p.cardItems

theorem Part.draw_plane (p : Part) : p.draw.lyric.plane = p.draw.planeOf := by
  have hpicture : p.draw.pictureItems = p.pictureItems := rfl
  have hdots : p.draw.dotItems = p.dotItems := rfl
  rw [Part.planeOf, hpicture, hdots, p.draw_titleItems, p.draw_rowItems, p.draw_rowItems, p.draw_cardItems]
  rfl

/-- R139 stage 5: the plane is drawn from the state so reached. -/
theorem Part.frameStart_plane (p : Part) : p.frameStart.lyric.plane = p.frameStart.planeOf := by
  cases h : p.playing with
  | true =>
    rw [Part.frameStart_playing h]
    exact p.risen.draw_plane
  | false =>
    rw [Part.frameStart_still h]
    exact p.draw_plane

/-- The fields of a part that the view `onAir` holds. -/
structure Part.sameAir (p q : Part) : Prop where
  pace : p.samePace q
  path : q.lyric.path = p.lyric.path
  watch : q.lyric.watch = p.lyric.watch
  frameOpen : q.lyric.frameOpen = p.lyric.frameOpen
  video : q.attn.pending.video = p.attn.pending.video

theorem Part.sameAir_of_onAir (h : q.onAir = p.onAir) : p.sameAir q := by
  have hpath : q.lyric.still.path = p.lyric.still.path := congrArg (fun x => x.2.1.path) h
  have hwatch : q.lyric.still.watch = p.lyric.still.watch := congrArg (fun x => x.2.1.watch) h
  have hopen : q.lyric.still.frameOpen = p.lyric.still.frameOpen := congrArg (fun x => x.2.1.frameOpen) h
  have hvideo : (q.attn.pending.put .play true).video = (p.attn.pending.put .play true).video := congrArg (fun x => x.2.2.video) h
  exact ⟨Part.samePace_of_paced (congrArg Prod.fst h), hpath, hwatch, hopen, hvideo⟩

end

/-! ### The events -/

theorem exec_inputFrameStart (f : InputFrame) (s : State) : exec (.inputFrameStart f) s = .next { s with part := s.part.inputFrame f } := rfl

theorem exec_internalFrameStart (s : State) : exec .internalFrameStart s = .next { s with part := s.part.internalFrame } := rfl

theorem exec_videoWatchExpiry (s : State) : exec .videoWatchExpiry s = .next { s with part := s.part.videoWatchExpiry } := rfl

theorem exec_cardExpiry (s : State) : exec .cardExpiry s = .next { s with part := s.part.cardExpiry } := rfl

section
variable {p : Part} {f : InputFrame}

/-! ### LOST (R136, R138) -/

theorem Part.inputFrame_lost (h : p.lyric.path = .lost) : p.inputFrame f = p.inputLost f := by
  simp only [Part.inputFrame, h]

theorem Part.internalFrame_lost (h : p.lyric.path = .lost) : p.internalFrame = p.frameStart := by
  simp only [Part.internalFrame, h]

theorem Part.videoLost_of_lost (h : p.lyric.path = .lost) : p.videoLost = p := by
  simp only [Part.videoLost, h]

/-- R137: the video watch acts in PASS alone. -/
theorem Part.videoWatchExpiry_of_lost (h : p.lyric.path = .lost) : p.videoWatchExpiry = p := by
  unfold Part.videoWatchExpiry Part.expireAt
  split
  · exact Part.videoLost_of_lost h
  · rfl

/-- R138: the frame start that ends the second well-formed frame enters PASS. -/
def Part.regained (p : Part) : Part := { p with
  lyric := { p.lyric with path := .pass, runCount := 2, frameOpen := false, watch := some (watchMs p.settings.videoFormat * 48) }
  attn := { p.attn with pending := { p.attn.pending with video := true } } }

theorem Part.inputLost_regains (ho : p.lyric.frameOpen = true) (hw : frameWellFormed p.settings.videoFormat f = true) (hr : 1 ≤ p.lyric.runCount) :
    p.inputLost f = p.regained.frameStart := by
  rw [Part.inputLost, if_pos ho, if_pos hw, if_pos (by omega)]
  rfl

/-! ### PASS (R137, R139) -/

theorem Part.inputFrame_pass (h : p.lyric.path = .pass) : p.inputFrame f = p.inputPass f := by
  simp only [Part.inputFrame, h]

theorem Part.internalFrame_pass (h : p.lyric.path = .pass) : p.internalFrame = p := by
  simp only [Part.internalFrame, h]

/-- R137: the part whose next frame start ends a frame that is judged, its watch loaded when the frame just ended is well-formed. -/
def Part.watched (p : Part) (f : InputFrame) : Part := { p with lyric := { p.lyric with
  frameOpen := true
  watch := if p.lyric.frameOpen = true ∧ frameWellFormed p.settings.videoFormat f = true then some (watchMs p.settings.videoFormat * 48)
    else p.lyric.watch } }

theorem Part.inputPass_eq (p : Part) (f : InputFrame) : p.inputPass f = (p.watched f).frameStart := by
  have hwatched : (if (p.lyric.frameOpen && frameWellFormed p.settings.videoFormat f) = true then p.loadWatch else p).openFrame true = p.watched f := by
    unfold Part.watched
    by_cases h : p.lyric.frameOpen = true ∧ frameWellFormed p.settings.videoFormat f = true
    · rw [if_pos h, if_pos (Bool.and_eq_true_iff.mpr h)]
      rfl
    · rw [if_neg h, if_neg (mt Bool.and_eq_true_iff.mp h)]
      rfl
  exact congrArg Part.frameStart hwatched

theorem exec_inputFrameStart_pass {s : State} (h : s.part.lyric.path = .pass) (f : InputFrame) :
    exec (.inputFrameStart f) s = .next { s with part := (s.part.watched f).frameStart } := by
  rw [exec_inputFrameStart, Part.inputFrame_pass h, Part.inputPass_eq]

theorem Part.videoLost_of_pass (h : p.lyric.path = .pass) : p.videoLost = { p with
    lyric := { p.lyric with path := .lost, watch := none, runCount := 0 }
    attn := { p.attn with pending := { p.attn.pending with video := true } } } := by
  simp only [Part.videoLost, h]
  rfl

end

section
variable {s : State} (f : InputFrame)

/-- R136, R138: the frame starts in LOST. -/
theorem frameStarts_lost (h : s.part.lyric.path = .lost) :
    (s.part.lyric.frameOpen = false → exec (.inputFrameStart f) s =
      .next { s with part := { s.part with lyric := { s.part.lyric with frameOpen := true } } }) ∧
    (s.part.lyric.frameOpen = true → frameWellFormed s.part.settings.videoFormat f = false →
      exec (.inputFrameStart f) s = .next { s with part := { s.part with lyric := { s.part.lyric with runCount := 0 } } }) ∧
    (s.part.lyric.frameOpen = true → frameWellFormed s.part.settings.videoFormat f = true → s.part.lyric.runCount = 0 →
      exec (.inputFrameStart f) s = .next { s with part := { s.part with lyric := { s.part.lyric with runCount := 1 } } }) ∧
    (s.part.lyric.frameOpen = true → frameWellFormed s.part.settings.videoFormat f = true → 1 ≤ s.part.lyric.runCount →
      ∃ u : Machine.Part, exec (.inputFrameStart f) s = .next { s with part := u } ∧ u.lyric.path = .pass ∧
        u.lyric.watch = some (watchMs s.part.settings.videoFormat * 48) ∧ u.attn.pending.video = true ∧
        u.book = s.part.book ∧ u.play.state = s.part.play.state ∧ u.play.time = s.part.play.time) ∧
    (∃ u : Machine.Part, exec .internalFrameStart s = .next { s with part := u } ∧
      u.lyric.plane.head? = some (.fill s.part.display.lostBackground) ∧ u.play.state = s.part.play.state ∧
      u.play.time = s.part.play.time ∧ u.book = s.part.book) ∧
    exec .videoWatchExpiry s = .next s := by
  have hexec : exec (.inputFrameStart f) s = .next { s with part := s.part.inputLost f } := by
    rw [exec_inputFrameStart, Part.inputFrame_lost h]
  rw [hexec]
  refine ⟨fun ho => ?_, fun ho hw => ?_, fun ho hw hr => ?_, fun ho hw hr => ?_, ?_, ?_⟩
  · rw [Part.inputLost, if_neg (by rw [ho]; exact Bool.false_ne_true)]
    rfl
  · rw [Part.inputLost, if_pos ho, if_neg (by rw [hw]; exact Bool.false_ne_true)]
    rfl
  · rw [Part.inputLost, if_pos ho, if_pos hw, if_neg (by omega), hr]
    rfl
  · have hair := Part.sameAir_of_onAir s.part.regained.frameStart_onAir
    exact ⟨_, by rw [Part.inputLost_regains ho hw hr], hair.path, hair.watch, hair.video, hair.pace.book, hair.pace.state, hair.pace.time⟩
  · have hair := Part.sameAir_of_onAir s.part.frameStart_onAir
    have hpicture : s.part.frameStart.pictureItems = [.fill s.part.display.lostBackground] := by
      simp only [Part.pictureItems, hair.path, h, hair.pace.display]
    refine ⟨_, by rw [exec_internalFrameStart, Part.internalFrame_lost h], ?_, hair.pace.state, hair.pace.time, hair.pace.book⟩
    rw [Part.frameStart_plane, Part.planeOf, hpicture]
    rfl
  · rw [exec_videoWatchExpiry, Part.videoWatchExpiry_of_lost h]

/-- R137, R139: the frame starts in PASS. -/
theorem frameStarts_pass (h : s.part.lyric.path = .pass) :
    (∃ u : Machine.Part, exec (.inputFrameStart f) s = .next { s with part := u } ∧ u.lyric.path = .pass ∧
      u.lyric.frameOpen = true ∧
      u.lyric.watch = (if s.part.lyric.frameOpen = true ∧ frameWellFormed s.part.settings.videoFormat f = true then
        some (watchMs s.part.settings.videoFormat * 48) else s.part.lyric.watch) ∧
      u.attn.pending.video = s.part.attn.pending.video ∧ u.play.state = s.part.play.state ∧ u.book = s.part.book ∧
      u.lyric.plane = u.pictureItems ++ u.titleItems ++ u.rowItems true ++ u.rowItems false ++ u.dotItems ++ u.cardItems ∧
      (s.part.playing = false → u.lyric.row0 = s.part.lyric.row0 ∧ u.lyric.row1 = s.part.lyric.row1 ∧
        u.lyric.title = s.part.lyric.title ∧ u.reader = s.part.reader)) ∧
    exec .internalFrameStart s = .next s ∧
    (lastTick s.part.lyric.watch = false → exec .videoWatchExpiry s = .next s) ∧
    (lastTick s.part.lyric.watch = true → exec .videoWatchExpiry s = .next { s with part := { s.part with
      lyric := { s.part.lyric with path := .lost, watch := none, runCount := 0 }
      attn := { s.part.attn with pending := { s.part.attn.pending with video := true } } } }) := by
  refine ⟨?_, ?_, fun ht => ?_, fun ht => ?_⟩
  · have hair := Part.sameAir_of_onAir (s.part.watched f).frameStart_onAir
    refine ⟨_, exec_inputFrameStart_pass h f, hair.path.trans h, hair.frameOpen, hair.watch, hair.video, hair.pace.state, hair.pace.book,
      (s.part.watched f).frameStart_plane, fun hp => ?_⟩
    rw [Part.frameStart_still (p := s.part.watched f) hp]
    exact ⟨rfl, rfl, rfl, rfl⟩
  · rw [exec_internalFrameStart, Part.internalFrame_pass h]
  · have hsame : s.part.videoWatchExpiry = s.part := Part.expireAt_quiet 1 _ _ _ ht
    rw [exec_videoWatchExpiry, hsame]
  · have hdue : s.part.videoWatchExpiry = s.part.videoLost := Part.expireAt_due 1 _ _ _ ht
    rw [exec_videoWatchExpiry, hdue, Part.videoLost_of_pass h]

end

/-- R152: CARD. -/
theorem cardExpiry_takesDown {s : State} :
    (lastTick s.part.lyric.cardTimer = true → exec .cardExpiry s = .next { s with part := { s.part with
      lyric := { s.part.lyric with card := { shown := false, groups := [] }, cardTimer := none } } }) ∧
    (lastTick s.part.lyric.cardTimer = false → exec .cardExpiry s = .next s) := by
  refine ⟨fun ht => ?_, fun ht => ?_⟩
  · have hdue : s.part.cardExpiry = s.part.cardDown := Part.expireAt_due 1 _ _ _ ht
    rw [exec_cardExpiry, hdue]
    rfl
  · have hsame : s.part.cardExpiry = s.part := Part.expireAt_quiet 1 _ _ _ ht
    rw [exec_cardExpiry, hsame]

end Sys2Proof.Machine
end

