-- ==== Sys2Proof/Proofs/Rows.lean ====
section
/-! PROOFS. Proofs/Rows.lean: the rows of one queued line at a frame start and at a forward NUDGE (O57). -/

namespace Sys2Proof.Machine

section
variable {p x : Part} {q : QueuedLine} {o : Nat} {upper : Bool}

/-! ### One step on a row (R141 to R143) -/

@[simp] theorem Part.row_setRow_self (p : Part) (upper : Bool) (r : Row) : (p.setRow upper r).row upper = r := by cases upper <;> rfl

@[simp] theorem Part.row_setRow_other (p : Part) (upper : Bool) (r : Row) : (p.setRow upper r).row (!upper) = p.row (!upper) := by
  cases upper <;> rfl

@[simp] theorem Part.setRow_title (p : Part) (upper : Bool) (r : Row) : (p.setRow upper r).lyric.title = p.lyric.title := by cases upper <;> rfl

/-- R143: a row of a reader that is not STALLED clears its line. -/
theorem Part.clearRow_of_not_stalled (h : p.reader.state ≠ .stalled) (upper : Bool) (q : QueuedLine) :
    p.clearRow upper q = { p.setRow upper (emptyRow (p.clearTime q)) with
      reader := { p.reader with lines := p.reader.lines.filter fun y => y.ordinal != q.ordinal } } := by
  rw [Part.clearRow, Part.retireLine_of_not_stalled (by rw [Part.setRow_reader]; exact h)]
  simp only [Part.setRow_reader]

/-- R141: what a row that takes its next line writes. -/
theorem Part.takeLine_fields (p : Part) (upper : Bool) (q : QueuedLine) :
    (p.takeLine upper q).reader = { p.reader with
      lines := p.reader.lines.map fun (y : QueuedLine) => if y.ordinal = q.ordinal then { y with given := true } else y } ∧
    (p.takeLine upper q).row upper = { p.row upper with state := p.rowStateOf q.line, line := some q.ordinal } ∧
    (p.takeLine upper q).row (!upper) = p.row (!upper) ∧ (p.takeLine upper q).play = p.play ∧ (p.takeLine upper q).display = p.display ∧
    (p.takeLine upper q).lyric.title = if q.ordinal = 0 then { shown := false, content := none } else p.lyric.title := by
  unfold Part.takeLine
  by_cases h0 : q.ordinal = 0
  · simp only [h0, if_true]
    cases upper <;> exact ⟨rfl, rfl, rfl, rfl, rfl, rfl⟩
  · simp only [h0, if_false]
    cases upper <;> exact ⟨rfl, rfl, rfl, rfl, rfl, rfl⟩

/-! ### The row that is not the line's (R140) -/

theorem rowOwns_self (hu : upper = (o % 2 == 0)) : rowOwns upper o = true := by
  subst hu
  by_cases h : o % 2 = 0
  · simp [rowOwns, h]
  · simp [rowOwns, Nat.mod_two_ne_zero.mp h]

theorem rowOwns_other (hu : upper = (o % 2 == 0)) : rowOwns (!upper) o = false := by
  subst hu
  by_cases h : o % 2 = 0
  · simp [rowOwns, h]
  · simp [rowOwns, Nat.mod_two_ne_zero.mp h]

/-- A part that the rows have left with lines of one ordinal, the other row as it was, and the title card when the line is not the first. -/
structure Part.oneLine (p : Part) (o : Nat) (upper : Bool) (x : Part) : Prop where
  row : x.row (!upper) = p.row (!upper)
  lines : ∀ y ∈ x.reader.lines, y.ordinal = o
  reader : x.reader.state = p.reader.state
  title : o ≠ 0 → x.lyric.title = p.lyric.title

theorem Part.oneLine_refl (upper : Bool) (h : p.reader.lines = [q]) : p.oneLine q.ordinal upper p :=
  ⟨rfl, fun y hy => by rw [h] at hy; rw [List.mem_singleton.mp hy], rfl, fun _ => rfl⟩

theorem Part.oneLine.clearRow (h : p.oneLine o upper x) (hs : p.reader.state ≠ .stalled) (q : QueuedLine) :
    p.oneLine o upper (x.clearRow upper q) := by
  rw [Part.clearRow_of_not_stalled (by rw [h.reader]; exact hs)]
  exact ⟨(x.row_setRow_other upper _).trans h.row, fun y hy => h.lines y (List.mem_of_mem_filter hy), h.reader,
    fun h0 => (x.setRow_title upper _).trans (h.title h0)⟩

theorem Part.oneLine.setRow (h : p.oneLine o upper x) (r : Row) : p.oneLine o upper (x.setRow upper r) :=
  ⟨(x.row_setRow_other upper r).trans h.row, h.lines, h.reader, fun h0 => (x.setRow_title upper r).trans (h.title h0)⟩

theorem Part.oneLine.takeLine (h : p.oneLine o upper x) (hq : q.ordinal = o) : p.oneLine o upper (x.takeLine upper q) := by
  obtain ⟨hreader, -, hother, -, -, htitle⟩ := x.takeLine_fields upper q
  refine ⟨hother.trans h.row, fun y hy => ?_, by rw [hreader]; exact h.reader, fun h0 => ?_⟩
  · rw [hreader] at hy
    obtain ⟨z, hz, rfl⟩ := List.mem_map.mp hy
    split
    · exact h.lines z hz
    · exact h.lines z hz
  · rw [htitle, if_neg (by rw [hq]; exact h0)]
    exact h.title h0

theorem Part.oneLine.rowStep (h : p.oneLine o upper x) (hs : p.reader.state ≠ .stalled) : p.oneLine o upper (x.rowStep upper).1 := by
  unfold Part.rowStep
  split
  · split
    · exact h.clearRow hs _
    · exact h.setRow _
  · split
    · next q hq =>
      split
      · exact h.takeLine (h.lines q (List.mem_of_find?_eq_some hq))
      · exact h
    · exact h

theorem Part.oneLine.nudgeRowStep (h : p.oneLine o upper x) (hs : p.reader.state ≠ .stalled) : p.oneLine o upper (x.nudgeRowStep upper).1 := by
  unfold Part.nudgeRowStep
  split
  · split
    · exact h.clearRow hs _
    · exact h
  · split
    · split
      · exact h.clearRow hs _
      · exact h
    · exact h

theorem Part.rowLoop_done {b : Bool} {y : Part} (h : x.rowStep b = (y, false)) (n : Nat) : Part.rowLoop b (n + 1) x = y := by
  rw [Part.rowLoop, h]

theorem Part.rowLoop_step {b : Bool} {y : Part} (h : x.rowStep b = (y, true)) (n : Nat) :
    Part.rowLoop b (n + 1) x = Part.rowLoop b n y := by
  rw [Part.rowLoop, h]

theorem Part.nudgeRowLoop_done {b : Bool} {y : Part} (h : x.nudgeRowStep b = (y, false)) (n : Nat) : Part.nudgeRowLoop b (n + 1) x = y := by
  rw [Part.nudgeRowLoop, h]

theorem Part.nudgeRowLoop_step {b : Bool} {y : Part} (h : x.nudgeRowStep b = (y, true)) (n : Nat) :
    Part.nudgeRowLoop b (n + 1) x = Part.nudgeRowLoop b n y := by
  rw [Part.nudgeRowLoop, h]

theorem Part.oneLine.rowLoop (h : p.oneLine o upper x) (hs : p.reader.state ≠ .stalled) (n : Nat) :
    p.oneLine o upper (Part.rowLoop upper n x) := by
  induction n generalizing x with
  | zero => exact h
  | succ n ih =>
    have hstep := h.rowStep hs
    rcases hy : x.rowStep upper with ⟨y, again⟩
    rw [hy] at hstep
    cases again with
    | true => rw [Part.rowLoop_step hy]; exact ih hstep
    | false => rw [Part.rowLoop_done hy]; exact hstep

theorem Part.oneLine.nudgeRowLoop (h : p.oneLine o upper x) (hs : p.reader.state ≠ .stalled) (n : Nat) :
    p.oneLine o upper (Part.nudgeRowLoop upper n x) := by
  induction n generalizing x with
  | zero => exact h
  | succ n ih =>
    have hstep := h.nudgeRowStep hs
    rcases hy : x.nudgeRowStep upper with ⟨y, again⟩
    rw [hy] at hstep
    cases again with
    | true => rw [Part.nudgeRowLoop_step hy]; exact ih hstep
    | false => rw [Part.nudgeRowLoop_done hy]; exact hstep

theorem Part.oneLine.nextLine_other (h : p.oneLine o upper x) (hu : upper = (o % 2 == 0)) : x.reader.nextLine (!upper) = none := by
  rw [Reader.nextLine, List.find?_eq_none]
  intro y hy
  rw [h.lines y hy, rowOwns_other hu]
  exact Bool.false_ne_true

theorem Part.rowLine_of_none {b : Bool} (h : (x.row b).line = none) : x.rowLine b = none := by rw [Part.rowLine, h]; rfl

/-- R140: the other row, EMPTY, has nothing to do. -/
theorem Part.oneLine.rowLoop_other (h : p.oneLine o upper x) (hu : upper = (o % 2 == 0)) (hrow : (p.row (!upper)).line = none) :
    Part.rowLoop (!upper) 1024 x = x := by
  refine Part.rowLoop_done ?_ 1023
  simp only [Part.rowStep, Part.rowLine_of_none (x := x) (b := !upper) (by rw [h.row]; exact hrow), h.nextLine_other hu]

theorem Part.oneLine.nudgeRowLoop_other (h : p.oneLine o upper x) (hu : upper = (o % 2 == 0)) (hrow : (p.row (!upper)).line = none) :
    Part.nudgeRowLoop (!upper) 1024 x = x := by
  refine Part.nudgeRowLoop_done ?_ 1023
  simp only [Part.nudgeRowStep, Part.rowLine_of_none (x := x) (b := !upper) (by rw [h.row]; exact hrow), h.nextLine_other hu]

/-- R139 stage 2: with one queued line the rows come to song time by that line's row alone. -/
theorem Part.rowsUp_oneLine (hl : p.reader.lines = [q]) (hu : upper = (q.ordinal % 2 == 0)) (hs : p.reader.state ≠ .stalled)
    (hrow : (p.row (!upper)).line = none) : p.rowsUp = Part.rowLoop upper 1024 p := by
  have hself := Part.oneLine_refl upper hl
  unfold Part.rowsUp
  cases upper with
  | true => exact (hself.rowLoop hs 1024).rowLoop_other hu hrow
  | false => exact congrArg (Part.rowLoop false 1024) (hself.rowLoop_other hu hrow)

theorem Part.nudgeRows_oneLine (hl : p.reader.lines = [q]) (hu : upper = (q.ordinal % 2 == 0)) (hs : p.reader.state ≠ .stalled)
    (hrow : (p.row (!upper)).line = none) : p.nudgeRows = Part.nudgeRowLoop upper 1024 p := by
  have hself := Part.oneLine_refl upper hl
  unfold Part.nudgeRows
  cases upper with
  | true => exact (hself.nudgeRowLoop hs 1024).nudgeRowLoop_other hu hrow
  | false => exact congrArg (Part.nudgeRowLoop false 1024) (hself.nudgeRowLoop_other hu hrow)

/-! ### The row of the one line (R141 to R143) -/

theorem Reader.lineOf_self {rd : Reader} (hl : rd.lines = [q]) : rd.lineOf q.ordinal = some q := by
  rw [Reader.lineOf, hl]
  simp

theorem Part.rowLine_self (hl : x.reader.lines = [q]) (hrow : (x.row upper).line = some q.ordinal) : x.rowLine upper = some q := by
  rw [Part.rowLine, hrow, Option.bind_some, Reader.lineOf_self hl]

/-- R143: the clear time of the one line. -/
theorem Part.clearTime_self (hl : x.reader.lines = [q]) : x.clearTime q = q.line.lastEnd + x.display.clearDelay := by
  have hnone : x.reader.lineOf (q.ordinal + 2) = none := by
    rw [Reader.lineOf, hl]
    simp
  simp only [Part.clearTime, hnone]

theorem Part.nextLine_self (hl : x.reader.lines = [q]) (hu : upper = (q.ordinal % 2 == 0)) (hg : q.given = false) :
    x.reader.nextLine upper = some q := by
  rw [Reader.nextLine, hl]
  simp [rowOwns_self hu, hg]

/-- R143: the part when the row of the one line has cleared it. -/
def Part.clearedOf (x : Part) (upper : Bool) (clear : Nat) : Part :=
  { x.setRow upper (emptyRow clear) with reader := { x.reader with lines := [] } }

theorem Part.clearRow_self (hl : x.reader.lines = [q]) (hs : x.reader.state ≠ .stalled) :
    x.clearRow upper q = x.clearedOf upper (q.line.lastEnd + x.display.clearDelay) := by
  rw [Part.clearRow_of_not_stalled hs, Part.clearTime_self hl, hl]
  simp [Part.clearedOf]

theorem Part.rowStep_cleared (x : Part) (upper : Bool) (clear : Nat) :
    (x.clearedOf upper clear).rowStep upper = (x.clearedOf upper clear, false) := by
  have hnone : (x.clearedOf upper clear).rowLine upper = none :=
    Part.rowLine_of_none (congrArg Row.line (x.row_setRow_self upper (emptyRow clear)))
  have hnext : (x.clearedOf upper clear).reader.nextLine upper = none := rfl
  simp only [Part.rowStep, hnone, hnext]

theorem Part.nudgeRowStep_cleared (x : Part) (upper : Bool) (clear : Nat) :
    (x.clearedOf upper clear).nudgeRowStep upper = (x.clearedOf upper clear, false) := by
  have hnone : (x.clearedOf upper clear).rowLine upper = none :=
    Part.rowLine_of_none (congrArg Row.line (x.row_setRow_self upper (emptyRow clear)))
  have hnext : (x.clearedOf upper clear).reader.nextLine upper = none := rfl
  simp only [Part.nudgeRowStep, hnone, hnext]

theorem Part.reached_iff (p : Part) (ms : Nat) : p.reached ms = true ↔ ms * 1200 ≤ p.play.time := decide_eq_true_iff

/-- R142, R143: the row that holds the one line clears it, or takes the state of its times. -/
theorem Part.rowLoop_held (hl : x.reader.lines = [q]) (hrow : (x.row upper).line = some q.ordinal) (hs : x.reader.state ≠ .stalled)
    {clear : Nat} (hc : clear = q.line.lastEnd + x.display.clearDelay) (n : Nat) :
    Part.rowLoop upper (n + 2) x = if clear * 1200 ≤ x.play.time then x.clearedOf upper clear
      else x.setRow upper { x.row upper with state := x.rowStateOf q.line } := by
  have hline := Part.rowLine_self hl hrow
  have htime : x.clearTime q = clear := (Part.clearTime_self hl).trans hc.symm
  by_cases hr : clear * 1200 ≤ x.play.time
  · have hstep : x.rowStep upper = (x.clearedOf upper clear, true) := by
      simp only [Part.rowStep, hline, htime, if_pos ((x.reached_iff clear).mpr hr), Part.clearRow_self hl hs, ← hc]
    rw [if_pos hr, Part.rowLoop_step hstep, Part.rowLoop_done (x.rowStep_cleared upper clear)]
  · have hstep : x.rowStep upper = (x.setRow upper { x.row upper with state := x.rowStateOf q.line }, false) := by
      simp only [Part.rowStep, hline, htime, if_neg (mt (x.reached_iff clear).mp hr)]
    rw [if_neg hr, Part.rowLoop_done hstep]

/-- R141: the row whose next line is the one line takes it when its show time has come. -/
theorem Part.rowLoop_next (hl : x.reader.lines = [q]) (hu : upper = (q.ordinal % 2 == 0)) (hg : q.given = false)
    (hrow : (x.row upper).line = none) (n : Nat) :
    Part.rowLoop upper (n + 1) x = if x.showReached (x.row upper).free q then Part.rowLoop upper n (x.takeLine upper q) else x := by
  have hstep : x.rowStep upper = if x.showReached (x.row upper).free q then (x.takeLine upper q, true) else (x, false) := by
    simp only [Part.rowStep, Part.rowLine_of_none hrow, Part.nextLine_self hl hu hg]
  by_cases hr : x.showReached (x.row upper).free q = true
  · rw [if_pos hr] at hstep ⊢
    exact Part.rowLoop_step hstep n
  · rw [if_neg hr] at hstep ⊢
    exact Part.rowLoop_done hstep n

/-- R144: at a forward NUDGE the row of the one line, shown or not, clears it when its clear time has come. -/
theorem Part.nudgeRowLoop_self (hl : x.reader.lines = [q]) (hu : upper = (q.ordinal % 2 == 0)) (hs : x.reader.state ≠ .stalled)
    (hrow : q.given = true ∧ (x.row upper).line = some q.ordinal ∨ q.given = false ∧ (x.row upper).line = none)
    {clear : Nat} (hc : clear = q.line.lastEnd + x.display.clearDelay) (n : Nat) :
    Part.nudgeRowLoop upper (n + 2) x = if clear * 1200 ≤ x.play.time then x.clearedOf upper clear else x := by
  have htime : x.clearTime q = clear := (Part.clearTime_self hl).trans hc.symm
  have hstep : x.nudgeRowStep upper = if clear * 1200 ≤ x.play.time then (x.clearedOf upper clear, true) else (x, false) := by
    have hcleared : (if x.reached (x.clearTime q) then (x.clearRow upper q, true) else (x, false)) =
        if clear * 1200 ≤ x.play.time then (x.clearedOf upper clear, true) else (x, false) := by
      simp only [htime, Part.reached_iff, Part.clearRow_self hl hs, ← hc]
    rw [← hcleared]
    rcases hrow with ⟨-, hline⟩ | ⟨hg, hline⟩
    · simp only [Part.nudgeRowStep, Part.rowLine_self hl hline]
    · simp only [Part.nudgeRowStep, Part.rowLine_of_none hline, Part.nextLine_self hl hu hg]
  by_cases hr : clear * 1200 ≤ x.play.time
  · rw [if_pos hr] at hstep ⊢
    rw [Part.nudgeRowLoop_step hstep, Part.nudgeRowLoop_done (x.nudgeRowStep_cleared upper clear)]
  · rw [if_neg hr] at hstep ⊢
    exact Part.nudgeRowLoop_done hstep (n + 1)

end

end Sys2Proof.Machine
end

