-- ==== Sys2Proof/Proofs/RowTimes.lean ====
section
/-! PROOFS. Proofs/RowTimes.lean: a row's line at a frame start and at a NUDGE, its times, its wipe and the dots (O57). -/

namespace Sys2Proof.Machine

/-! ### A frame start of a song that plays (R139, R150) -/

section
variable {p x : Part} {q : QueuedLine} {upper : Bool} {clear : Nat}

/-- R139, R150: what a frame start of a song that plays leaves of the rows, the reader and the title card. -/
theorem Part.risen_fields (p : Part) : (∀ b, p.risen.draw.row b = p.rowsUp.row b) ∧ p.risen.draw.reader = p.rowsUp.reader ∧
    (5000 * 1200 ≤ p.play.time → p.risen.draw.lyric.title = { shown := false, content := none }) ∧
    (p.play.time < 5000 * 1200 → p.risen.draw.lyric.title = p.rowsUp.lyric.title) := by
  have htime : p.rowsUp.play.time = p.play.time := (Part.sameAir_of_onAir p.rowsUp_onAir).pace.time
  have hreached : p.rowsUp.reached 5000 = true ↔ 5000 * 1200 ≤ p.play.time := by rw [Part.reached_iff, htime]
  unfold Part.risen
  by_cases h : 5000 * 1200 ≤ p.play.time
  · rw [if_pos (hreached.mpr h)]
    exact ⟨fun b => by cases b <;> rfl, rfl, fun _ => rfl, fun hlt => absurd h (Nat.not_le.mpr hlt)⟩
  · rw [if_neg (mt hreached.mp h)]
    exact ⟨fun b => by cases b <;> rfl, rfl, fun hle => absurd hle h, fun _ => rfl⟩

theorem Part.clearedOf_row (x : Part) (upper : Bool) (clear : Nat) :
    (x.clearedOf upper clear).row upper = { state := .empty, line := none, free := clear } := x.row_setRow_self upper (emptyRow clear)

/-- R141, R142, R143: the row of a line that is shown. -/
theorem Part.rowLoop_shown (hl : x.reader.lines = [q]) (hrow : (x.row upper).line = some q.ordinal) (hs : x.reader.state ≠ .stalled)
    (hc : clear = q.line.lastEnd + x.display.clearDelay) (n : Nat) :
    (x.play.time < clear * 1200 → (Part.rowLoop upper (n + 2) x).reader.lines = [q] ∧
      (Part.rowLoop upper (n + 2) x).row upper = { x.row upper with state := x.rowStateOf q.line }) ∧
    (clear * 1200 ≤ x.play.time → (Part.rowLoop upper (n + 2) x).reader.lines = [] ∧
      (Part.rowLoop upper (n + 2) x).row upper = { state := .empty, line := none, free := clear }) := by
  rw [Part.rowLoop_held hl hrow hs hc]
  refine ⟨fun h => ?_, fun h => ?_⟩
  · rw [if_neg (Nat.not_le.mpr h)]
    exact ⟨hl, x.row_setRow_self upper _⟩
  · rw [if_pos h]
    exact ⟨rfl, x.clearedOf_row upper clear⟩

/-- R141: the row of a line that is taken now. -/
theorem Part.rowLoop_taken (hl : x.reader.lines = [q]) (hu : upper = (q.ordinal % 2 == 0)) (hg : q.given = false)
    (hrow : (x.row upper).line = none) (hs : x.reader.state ≠ .stalled) (hc : clear = q.line.lastEnd + x.display.clearDelay)
    (hr : x.showReached (x.row upper).free q = true) (n : Nat) :
    (q.ordinal = 0 → (Part.rowLoop upper (n + 3) x).lyric.title = { shown := false, content := none }) ∧
    (x.play.time < clear * 1200 → (Part.rowLoop upper (n + 3) x).reader.lines = [{ q with given := true }] ∧
      (Part.rowLoop upper (n + 3) x).row upper = { x.row upper with state := x.rowStateOf q.line, line := some q.ordinal }) ∧
    (clear * 1200 ≤ x.play.time → (Part.rowLoop upper (n + 3) x).reader.lines = [] ∧
      (Part.rowLoop upper (n + 3) x).row upper = { state := .empty, line := none, free := clear }) := by
  rw [Part.rowLoop_next hl hu hg hrow, if_pos hr]
  obtain ⟨hreader, htaken, -, hplay, hdisplay, htitle⟩ := x.takeLine_fields upper q
  obtain ⟨y, hy⟩ : ∃ y, x.takeLine upper q = y := ⟨_, rfl⟩
  rw [hy] at hreader htaken hplay hdisplay htitle ⊢
  have hlines : y.reader.lines = [{ q with given := true }] := by
    rw [hreader, hl]
    simp
  have hstate : y.reader.state ≠ .stalled := by rw [hreader]; exact hs
  have hc' : clear = q.line.lastEnd + y.display.clearDelay := by rw [hdisplay]; exact hc
  have hline : (y.row upper).line = some q.ordinal := by rw [htaken]
  obtain ⟨hkept, hcleared⟩ := Part.rowLoop_shown (x := y) (q := { q with given := true }) hlines hline hstate hc' n
  rw [hplay] at hkept hcleared
  refine ⟨fun h0 => ?_, fun h => ?_, hcleared⟩
  · rw [Part.rowLoop_held (x := y) (q := { q with given := true }) hlines hline hstate hc', apply_ite (fun z : Part => z.lyric.title)]
    have hdown : y.lyric.title = { shown := false, content := none } := by rw [htitle, if_pos h0]
    have hclearedTitle : (y.clearedOf upper clear).lyric.title = y.lyric.title := y.setRow_title upper _
    rw [hclearedTitle, y.setRow_title, ite_self, hdown]
  · obtain ⟨hlines', hrow'⟩ := hkept h
    refine ⟨hlines', hrow'.trans ?_⟩
    have hrowState : y.rowStateOf q.line = x.rowStateOf q.line := by
      unfold Part.rowStateOf Part.reached
      rw [hplay]
    rw [htaken, hrowState]

/-- R141: a row whose line's show time has not come stays as it is. -/
theorem Part.rowLoop_waits (hl : x.reader.lines = [q]) (hu : upper = (q.ordinal % 2 == 0)) (hg : q.given = false)
    (hrow : (x.row upper).line = none) (hr : x.showReached (x.row upper).free q = false) (n : Nat) : Part.rowLoop upper (n + 1) x = x := by
  rw [Part.rowLoop_next hl hu hg hrow, if_neg (by rw [hr]; exact Bool.false_ne_true)]

end

/-- R141 to R143, R150: the input frame start of a song that plays, with one queued line. -/
theorem inputFrameStart_oneLine (f : InputFrame) (q : QueuedLine) (upper : Bool) (clear : Nat) (s : State) (hpath : s.part.lyric.path = .pass)
    (hp : s.part.playing = true) (hs : s.part.reader.state ≠ .stalled) (hl : s.part.reader.lines = [q]) (hu : upper = (q.ordinal % 2 == 0))
    (hc : clear = q.line.lastEnd + s.part.display.clearDelay) (hother : (s.part.row (!upper)).line = none) :
    ∃ u : Machine.Part, exec (.inputFrameStart f) s = .next { s with part := u } ∧ u.row (!upper) = s.part.row (!upper) ∧
      (5000 * 1200 ≤ s.part.play.time → u.lyric.title = { shown := false, content := none }) ∧
      (s.part.play.time < 5000 * 1200 → q.ordinal ≠ 0 → u.lyric.title = s.part.lyric.title) ∧
      (q.given = false → (s.part.row upper).line = none →
        (s.part.showReached (s.part.row upper).free q = false →
          u.row upper = s.part.row upper ∧ u.reader.lines = [q] ∧
            (s.part.play.time < 5000 * 1200 → u.lyric.title = s.part.lyric.title)) ∧
        (s.part.showReached (s.part.row upper).free q = true →
          (q.ordinal = 0 → u.lyric.title = { shown := false, content := none }) ∧
          (s.part.play.time < clear * 1200 → u.reader.lines = [{ q with given := true }] ∧
            u.row upper = { s.part.row upper with state := s.part.rowStateOf q.line, line := some q.ordinal }) ∧
          (clear * 1200 ≤ s.part.play.time →
            u.reader.lines = [] ∧ u.row upper = { state := .empty, line := none, free := clear }))) ∧
      (q.given = true → (s.part.row upper).line = some q.ordinal →
        (s.part.play.time < clear * 1200 → u.reader.lines = [q] ∧
          u.row upper = { s.part.row upper with state := s.part.rowStateOf q.line }) ∧
        (clear * 1200 ≤ s.part.play.time →
          u.reader.lines = [] ∧ u.row upper = { state := .empty, line := none, free := clear })) := by
  obtain ⟨x, hx⟩ : ∃ x, s.part.watched f = x := ⟨_, rfl⟩
  have hplaying : x.playing = true := by rw [← hx]; exact hp
  have hrow : ∀ b, x.row b = s.part.row b := fun b => by rw [← hx]; cases b <;> rfl
  have hreader : x.reader = s.part.reader := by rw [← hx]; rfl
  have hplay : x.play = s.part.play := by rw [← hx]; rfl
  have hdisplay : x.display = s.part.display := by rw [← hx]; rfl
  have htitle : x.lyric.title = s.part.lyric.title := by rw [← hx]; rfl
  have hrowState : x.rowStateOf q.line = s.part.rowStateOf q.line := by rw [← hx]; rfl
  have hshow : x.showReached (x.row upper).free q = s.part.showReached (s.part.row upper).free q := by rw [hrow, ← hx]; rfl
  have hlines : x.reader.lines = [q] := by rw [hreader, hl]
  have hstate : x.reader.state ≠ .stalled := by rw [hreader]; exact hs
  have hc' : clear = q.line.lastEnd + x.display.clearDelay := by rw [hdisplay]; exact hc
  have hrows : x.rowsUp = Part.rowLoop upper 1024 x := Part.rowsUp_oneLine hlines hu hstate (by rw [hrow]; exact hother)
  have hone := (Part.oneLine_refl upper hlines).rowLoop hstate 1024
  obtain ⟨hurow, hureader, hdown, hkept⟩ := x.risen_fields
  rw [hrows] at hurow hureader hkept
  rw [hplay] at hdown hkept
  refine ⟨x.risen.draw, ?_, ?_, hdown, fun hlt h0 => ?_, fun hg hline => ⟨fun hr => ?_, fun hr => ?_⟩, fun hg hline => ?_⟩
  · rw [exec_inputFrameStart_pass hpath, hx, Part.frameStart_playing hplaying]
  · rw [hurow, hone.row, hrow]
  · rw [hkept hlt, hone.title h0, htitle]
  · have hwaits := Part.rowLoop_waits hlines hu hg (by rw [hrow]; exact hline) (by rw [hshow]; exact hr) 1023
    rw [hurow, hureader]
    rw [hwaits] at hkept ⊢
    exact ⟨hrow upper, hlines, fun hlt => (hkept hlt).trans htitle⟩
  · obtain ⟨htaken, hshown, hcleared⟩ := Part.rowLoop_taken hlines hu hg (by rw [hrow]; exact hline) hstate hc' (by rw [hshow]; exact hr) 1021
    rw [hplay, hrowState, hrow] at hshown
    rw [hplay] at hcleared
    rw [hurow, hureader]
    refine ⟨fun h0 => ?_, hshown, hcleared⟩
    by_cases hlt : s.part.play.time < 5000 * 1200
    · exact (hkept hlt).trans (htaken h0)
    · exact hdown (Nat.not_lt.mp hlt)
  · obtain ⟨hshown, hcleared⟩ := Part.rowLoop_shown hlines (by rw [hrow]; exact hline) hstate hc' 1022
    rw [hplay, hrowState, hrow] at hshown
    rw [hplay] at hcleared
    rw [hurow, hureader]
    exact ⟨hshown, hcleared⟩

/-- R144: a forward NUDGE of a song that plays, with one queued line. -/
theorem nudge_oneLine (tag b0 b1 : Byte) (ms : Int) (q : QueuedLine) (upper : Bool) (clear time : Nat) (s : State) (h : s.part.ready)
    (hp : s.part.playing = true) (hms : ofS16 b0 b1 = ms) (h1 : 0 < ms) (h2 : ms ≤ 2000) (ht : time = s.part.play.time + ms.natAbs * 1200)
    (hd : time < s.part.durationSteps) (hs : s.part.reader.state ≠ .stalled) (hl : s.part.reader.lines = [q])
    (hu : upper = (q.ordinal % 2 == 0)) (hc : clear = q.line.lastEnd + s.part.display.clearDelay)
    (hother : (s.part.row (!upper)).line = none)
    (hrow : q.given = true ∧ (s.part.row upper).line = some q.ordinal ∨ q.given = false ∧ (s.part.row upper).line = none) :
    ∃ u : Machine.Part, exec (.nudge tag [b0, b1]) s = .next (State.answered { s with part := u } tag .ok (u24 (time / 1200))) ∧
      u.row (!upper) = s.part.row (!upper) ∧
      (time < clear * 1200 → u.reader.lines = [q] ∧ u.row upper = s.part.row upper) ∧
      (clear * 1200 ≤ time → u.reader.lines = [] ∧ u.row upper = { state := .empty, line := none, free := clear }) := by
  obtain ⟨x, hx⟩ : ∃ x, (s.part.setTime time).excludeNotes.dropBeats = x := ⟨_, rfl⟩
  have hxrow : ∀ b, x.row b = s.part.row b := fun b => by rw [← hx]; cases b <;> rfl
  have hlines : x.reader.lines = [q] := by rw [← hx]; exact hl
  have hstate : x.reader.state ≠ .stalled := by rw [← hx]; exact hs
  have hc' : clear = q.line.lastEnd + x.display.clearDelay := by rw [← hx]; exact hc
  have htime : x.play.time = time := by rw [← hx]; rfl
  have hto : s.part.nudgedTo time = Part.nudgeRowLoop upper 1024 x := by
    have hresume : s.part.nudgedTo time = x.readerResume.nudgeRows := by rw [← hx]; rfl
    rw [hresume, Part.readerResume_of_not_stalled hstate]
    exact Part.nudgeRows_oneLine hlines hu hstate (by rw [hxrow]; exact hother)
  have hone := (Part.oneLine_refl upper hlines).nudgeRowLoop hstate 1024
  have hself := Part.nudgeRowLoop_self hlines hu hstate (by rw [hxrow]; exact hrow) hc' 1022
  rw [htime] at hself
  refine ⟨s.part.nudgedTo time, exec_nudge_forward h hp hms h1 h2 ht hd, ?_, fun hlt => ?_, fun hle => ?_⟩
  · rw [hto, hone.row, hxrow]
  · rw [hto, hself, if_neg (Nat.not_le.mpr hlt)]
    exact ⟨hlines, hxrow upper⟩
  · rw [hto, hself, if_pos hle]
    exact ⟨rfl, x.clearedOf_row upper clear⟩

end Sys2Proof.Machine
end

