-- ==== Sys2Proof/Proofs/Plane.lean ====
section
/-! PROOFS. Proofs/Plane.lean: the times of a row, the wipe of a syllable, the intro dots and their discs (O57). -/

namespace Sys2Proof.Machine

/-! ### The times of a row (R141 to R143) -/

section
variable (p : Part) {l : LineRecord} {q next : QueuedLine}

theorem Part.showReached_iff (free : Nat) (q : QueuedLine) : p.showReached free q = true ↔
    q.line.firstStart * 1200 ≤ p.play.time + p.display.lead * 1200 ∧ free * 1200 ≤ p.play.time := by
  rw [Part.showReached, Bool.and_eq_true, Part.reached_iff, decide_eq_true_iff]

theorem Part.reached_eq_true {ms : Nat} (h : ms * 1200 ≤ p.play.time) : p.reached ms = true := (p.reached_iff ms).mpr h

theorem Part.reached_eq_false {ms : Nat} (h : p.play.time < ms * 1200) : p.reached ms = false :=
  Bool.eq_false_iff.mpr (mt (p.reached_iff ms).mp (Nat.not_le.mpr h))

theorem Part.rowStateOf_shown (h : p.play.time < l.firstStart * 1200) : p.rowStateOf l = .shown := by
  simp [Part.rowStateOf, p.reached_eq_false h]

theorem Part.rowStateOf_wiping (h : l.firstStart * 1200 ≤ p.play.time) (h' : p.play.time < l.lastEnd * 1200) : p.rowStateOf l = .wiping := by
  simp [Part.rowStateOf, p.reached_eq_true h, p.reached_eq_false h']

theorem Part.rowStateOf_held (h : l.firstStart * 1200 ≤ p.play.time) (h' : l.lastEnd * 1200 ≤ p.play.time) : p.rowStateOf l = .held := by
  simp [Part.rowStateOf, p.reached_eq_true h, p.reached_eq_true h']

theorem Part.clearTime_of_none (h : p.reader.lineOf (q.ordinal + 2) = none) : p.clearTime q = q.line.lastEnd + p.display.clearDelay := by
  simp only [Part.clearTime, h]

theorem Part.clearTime_of_some (h : p.reader.lineOf (q.ordinal + 2) = some next) : p.clearTime q =
    max q.line.lastEnd (min (q.line.lastEnd + p.display.clearDelay) (next.line.firstStart - 200)) := by
  simp only [Part.clearTime, h]

end

/-! ### The wipe of a syllable (R146) -/

section
variable {time w : Nat} {y : Syllable}

theorem wipedColumns_before (h : time < y.start * 1200) : wipedColumns time w y = 0 := if_pos h

theorem wipedColumns_after (hy : y.start < y.stop) (h : y.stop * 1200 ≤ time) : wipedColumns time w y = w := by
  have hstart : ¬time < y.start * Config.stepsPerMs := Nat.not_lt.mpr (le_trans (Nat.mul_le_mul_right 1200 hy.le) h)
  rw [wipedColumns, if_neg hstart]
  exact if_pos h

/-- R146: within its times a syllable is wiped in proportion to its time, rounded down. -/
theorem wipedColumns_within (hy : y.start < y.stop) (h : y.start * 1200 ≤ time) (h' : time < y.stop * 1200) :
    wipedColumns time w y * ((y.stop - y.start) * 1200) ≤ (time - y.start * 1200) * w ∧
      (time - y.start * 1200) * w < (wipedColumns time w y + 1) * ((y.stop - y.start) * 1200) := by
  have hstart : ¬time < y.start * Config.stepsPerMs := Nat.not_lt.mpr h
  have hstop : ¬y.stop * Config.stepsPerMs ≤ time := Nat.not_le.mpr h'
  have hvalue : wipedColumns time w y = (time - y.start * 1200) * w / ((y.stop - y.start) * 1200) := by
    rw [wipedColumns, if_neg hstart, if_neg hstop]
  have hpos : 0 < (y.stop - y.start) * 1200 := Nat.mul_pos (Nat.sub_pos_of_lt hy) (by decide)
  rw [hvalue]
  exact ⟨Nat.div_mul_le_self _ _, by rw [Nat.mul_comm (_ + 1)]; exact Nat.lt_mul_div_succ _ hpos⟩

end

/-! ### The intro dots (R151) -/

section
variable {p : Part} {q : QueuedLine} {k : Nat}

/-- R151: the dots of a song that plays, before its first line. -/
theorem Part.introDots_playing (hp : p.playing = true) (hq : p.reader.lineOf 0 = some q) (ht : p.play.time < q.line.firstStart * 1200)
    (hk : k = p.reader.beats.countP fun b => decide (p.play.time < b * 1200) && decide (b < q.line.firstStart)) :
    p.introDots = if k ≤ 4 then k else 0 := by
  unfold Part.introDots
  simp only [hp, hq, p.reached_eq_false ht, Part.not_reached, ← hk]
  rfl

theorem Part.dotItems_of_zero (h : p.introDots = 0) : p.dotItems = [] := if_pos h

/-- R151: no dots stand when no song plays, from the first line on, and with no BEAT or more than four to come. -/
theorem Part.dotItems_none (hq : p.reader.lineOf 0 = some q)
    (hk : k = p.reader.beats.countP fun b => decide (p.play.time < b * 1200) && decide (b < q.line.firstStart))
    (h : p.playing = false ∨ q.line.firstStart * 1200 ≤ p.play.time ∨ k = 0 ∨ 4 < k) : p.dotItems = [] := by
  refine Part.dotItems_of_zero ?_
  cases hp : p.playing with
  | false => simp [Part.introDots, hp]
  | true =>
    by_cases ht : q.line.firstStart * 1200 ≤ p.play.time
    · simp [Part.introDots, hq, p.reached_eq_true ht]
    · rw [Part.introDots_playing hp hq (Nat.not_le.mp ht) hk]
      rcases h with h | h | rfl | h
      · rw [hp] at h
        cases h
      · exact absurd h ht
      · rfl
      · exact if_neg (by omega)

/-- R151: one to four BEATs before the first line give as many dots. -/
theorem Part.dotItems_some (hp : p.playing = true) (hq : p.reader.lineOf 0 = some q) (ht : p.play.time < q.line.firstStart * 1200)
    (hk : k = p.reader.beats.countP fun b => decide (p.play.time < b * 1200) && decide (b < q.line.firstStart)) (h1 : 1 ≤ k) (h4 : k ≤ 4) :
    p.dotItems = [.dots k p.safeLeft (p.display.upperBaseline - 40) p.display.togetherUnwiped] := by
  have hdots : p.introDots = k := by rw [Part.introDots_playing hp hq ht hk, if_pos h4]
  rw [Part.dotItems, hdots, if_neg (by omega)]

end

/-! ### The discs of the dots (R151) -/

/-- The corner of a pixel of a disc's square that lies farther from the centre, along one axis. -/
def farCorner (c : Nat) : Nat := if c < 8 then c else c + 1

/-- The nearer corner. -/
def nearCorner (c : Nat) : Nat := if c < 8 then c + 1 else c

theorem dotFar_cast (c : Nat) : ((dotFar c : Nat) : Int) ^ 2 = ((farCorner c : Nat) - 8) ^ 2 := by
  unfold dotFar dotNear farCorner
  split
  · next h =>
    have hcast : ((7 - c + 1 : Nat) : Int) = -((c : Int) - 8) := by omega
    rw [hcast, neg_sq]
  · next h =>
    have hcast : ((c - 8 + 1 : Nat) : Int) = ((c + 1 : Nat) : Int) - 8 := by omega
    rw [hcast]

theorem dotNear_cast (c : Nat) : ((dotNear c : Nat) : Int) ^ 2 = ((nearCorner c : Nat) - 8) ^ 2 := by
  unfold dotNear nearCorner
  split
  · next h =>
    have hcast : ((7 - c : Nat) : Int) = -(((c + 1 : Nat) : Int) - 8) := by omega
    rw [hcast, neg_sq]
  · next h =>
    have hcast : ((c - 8 : Nat) : Int) = (c : Int) - 8 := by omega
    rw [hcast]

/-- A pixel of a disc's square whose farther corner lies within the disc is covered. -/
theorem discCovers_of_corner {c r : Nat} (h : ((farCorner c : Nat) - 8 : Int) ^ 2 + ((farCorner r : Nat) - 8) ^ 2 ≤ 8 ^ 2) :
    discCovers c r = true := by
  rw [← dotFar_cast, ← dotFar_cast] at h
  exact discCovers_inside (by exact_mod_cast h)

/-- A pixel of a disc's square whose nearer corner lies outside the disc is not. -/
theorem not_discCovers_of_corner {c r : Nat} (h : (8 : Int) ^ 2 ≤ ((nearCorner c : Nat) - 8) ^ 2 + ((nearCorner r : Nat) - 8) ^ 2) :
    discCovers c r = false := by
  rw [← dotNear_cast, ← dotNear_cast] at h
  exact discCovers_outside (by exact_mod_cast h)

/-- Two coordinates whose squares sum to at most that of 8 are each at most 8. -/
theorem within_eight {a b : Int} (h : a ^ 2 + b ^ 2 ≤ 8 ^ 2) : -8 ≤ a ∧ a ≤ 8 ∧ -8 ≤ b ∧ b ≤ 8 :=
  ⟨by nlinarith [sq_nonneg b], by nlinarith [sq_nonneg b], by nlinarith [sq_nonneg a], by nlinarith [sq_nonneg a]⟩

section
variable {count left bottom x y : Nat} {colour under : Colour}

/-- R151: a pixel that lies wholly within a disc is drawn in the dots' colour. -/
theorem itemPixel_within {i : Nat} (hi : i < count)
    (h : ∀ u v : Int, (u = x ∨ u = x + 1) → (v = y ∨ v = y + 1) → (u - (left + 24 * i + 8)) ^ 2 + (v - (bottom - 7)) ^ 2 ≤ 8 ^ 2) :
    itemPixel x y under (.dots count left bottom colour) = colour := by
  obtain ⟨hx1, -, hy1, -⟩ := within_eight (h x y (.inl rfl) (.inl rfl))
  obtain ⟨-, hx2, -, hy2⟩ := within_eight (h (x + 1) (y + 1) (.inr rfl) (.inr rfl))
  obtain ⟨c, hc⟩ : ∃ c, x = left + 24 * i + c := ⟨x - (left + 24 * i), by omega⟩
  obtain ⟨r, hr⟩ : ∃ r, y + 15 = bottom + r := ⟨y + 15 - bottom, by omega⟩
  have hcorner : ((farCorner c : Nat) - 8 : Int) ^ 2 + ((farCorner r : Nat) - 8) ^ 2 ≤ 8 ^ 2 := by
    have hfar := h (x + (farCorner c - c)) (y + (farCorner r - r)) (by unfold farCorner; split <;> omega) (by unfold farCorner; split <;> omega)
    have hu : (x : Int) + (farCorner c - c) - (left + 24 * i + 8) = farCorner c - 8 := by omega
    have hv : (y : Int) + (farCorner r - r) - (bottom - 7) = farCorner r - 8 := by omega
    rw [hu, hv] at hfar
    exact hfar
  have hdot : dotAt count left bottom x y = true := by
    rw [dotAt_in_square hi (c := c) (r := r) (by omega) (by omega) hc hr]
    exact discCovers_of_corner hcorner
  show (if dotAt count left bottom x y then colour else under) = colour
  rw [hdot, if_pos rfl]

/-- R151: a pixel that lies wholly outside every disc keeps what is beneath. -/
theorem itemPixel_outside (h : ∀ i, i < count →
    ∀ u v : Int, (u = x ∨ u = x + 1) → (v = y ∨ v = y + 1) → 8 ^ 2 ≤ (u - (left + 24 * i + 8)) ^ 2 + (v - (bottom - 7)) ^ 2) :
    itemPixel x y under (.dots count left bottom colour) = under := by
  have hdot : dotAt count left bottom x y = false := by
    rw [Bool.eq_false_iff]
    intro hcovers
    obtain ⟨i, c, r, hi, -, -, hx, hy, hdisc⟩ := dotAt_cases hcovers
    refine absurd hdisc (Bool.eq_false_iff.mp (not_discCovers_of_corner ?_))
    have hnear := h i hi (x + (nearCorner c - c)) (y + (nearCorner r - r)) (by unfold nearCorner; split <;> omega)
      (by unfold nearCorner; split <;> omega)
    have hu : (x : Int) + (nearCorner c - c) - (left + 24 * i + 8) = nearCorner c - 8 := by omega
    have hv : (y : Int) + (nearCorner r - r) - (bottom - 7) = nearCorner r - 8 := by omega
    rw [hu, hv] at hnear
    exact hnear
  show (if dotAt count left bottom x y then colour else under) = under
  rw [hdot, if_neg Bool.false_ne_true]

end

/-- Settles O57. -/
theorem frameStartsAndVideoWatch : Obligations.FrameStartsAndVideoWatch := by
  refine ⟨fun f s => ⟨frameStarts_lost f, frameStarts_pass f, cardExpiry_takesDown⟩, inputFrameStart_oneLine, nudge_oneLine,
    fun p l q next free => ⟨p.showReached_iff free q, p.rowStateOf_shown, p.rowStateOf_wiping, p.rowStateOf_held, p.clearTime_of_none,
      p.clearTime_of_some⟩,
    fun time w y hy => ⟨wipedColumns_before, wipedColumns_after hy, fun h h' columns hcolumns => ?_⟩,
    fun p q k hq hk => ⟨Part.dotItems_none hq hk, fun hp ht h1 h4 => Part.dotItems_some hp hq ht hk h1 h4⟩,
    fun count left bottom x y colour under => ⟨fun i hi => itemPixel_within hi, itemPixel_outside⟩⟩
  rw [hcolumns]
  exact wipedColumns_within hy h h'

end Sys2Proof.Machine
end
